-- ==== Sys2Proof/Word.lean ====
section
/-! DEFINITION. The machine words of the Imbrant 6204: loop frames are made of bytes (R163), the
timebase, the interval number and timestamps are 32-bit counts that wrap (R2, R33). -/

namespace Sys2Proof

/-- One character's eight data bits on the loop (R162). -/
abbrev Byte := BitVec 8

/-- A 32-bit count that wraps: the interval number (R2) and the timebase (R33). -/
abbrev Word32 := BitVec 32

end Sys2Proof
end

