-- ==== Sys2Proof/Syntax.lean ====
section
/-! DEFINITION. The commands and events of the 6204, one constructor for each row of
spec/opcode_table.json, with the operand types they carry.

A row that is a loop command carries what its COMMAND frame carries (R170, R171): the source node of
the frame, the tag byte, and the argument bytes as they stand on the loop. The length and the range
of every argument are checked by the command's meaning, so that a malformed argument list is an
operand like any other and is answered by the refusal the spec gives. -/

namespace Sys2Proof

/-- The two pulse channels of a run (R32). An enumerated value is coded by its position (R175). -/
inductive Channel
  | a
  | b
  deriving DecidableEq, Repr

/-- The other channel of the pair. -/
def Channel.other : Channel → Channel
  | .a => .b
  | .b => .a

/-- The two prover detectors, DET1 and DET2 (R115). -/
inductive Detector
  | det1
  | det2
  deriving DecidableEq, Repr

/-- The two edges of a detector signal, which are also the two polarities of R113. -/
inductive Edge
  | rising
  | falling
  deriving DecidableEq, Repr

/-- A frame of the loop without its start character and check word (R163). The payload length byte
is the length of `payload`. -/
structure Frame where
  dest : Byte
  source : Byte
  kind : Byte
  payload : List Byte
  deriving DecidableEq, Repr

/-- A character as it arrives on LIN (R162): its 8 data bits, its parity bit, and whether a stop bit stands at
its end. -/
structure LineChar where
  data : Byte
  parity : Bool
  stop : Bool
  deriving DecidableEq, Repr

/-- The receive errors of R164, in the order of the loop counters of R173. -/
inductive ReceiveFault
  | parity
  | framing
  | gap
  | length
  | check
  deriving DecidableEq, Repr

/-- The inputs that a hard start samples: NODE0 to NODE5 and RATE0 to RATE1 (R162). -/
structure Straps where
  node : BitVec 6
  rate : BitVec 2
  deriving DecidableEq, Repr

/-- What a hard start comes from (R183): VDD comes up, or RSTn rises. -/
inductive StartCause
  | powerUp
  | resetRises
  deriving DecidableEq, Repr

/-- Why the part becomes inactive (R183): RSTn is driven low, or VDD is lost. -/
inductive DownCause
  | resetLow
  | vddLost
  deriving DecidableEq, Repr

/-- The commands and events of spec/opcode_table.json, one constructor for each row, in the table's
order. -/
inductive Instr
  /-- READ_LOOP_COUNTS, command code 0x01 (R174). -/
  | readLoopCounts (src tag : Byte) (args : List Byte)
  /-- CLEAR_LOOP_COUNTS, command code 0x02 (R174). -/
  | clearLoopCounts (src tag : Byte) (args : List Byte)
  /-- LOAD_STATION, command code 0x08 (R179). -/
  | loadStation (src tag : Byte) (args : List Byte)
  /-- READ_STATION, command code 0x09 (R179). -/
  | readStation (src tag : Byte) (args : List Byte)
  /-- START_METERING, command code 0x0A (R180). -/
  | startMetering (src tag : Byte) (args : List Byte)
  /-- STOP_METERING, command code 0x0B (R180). -/
  | stopMetering (src tag : Byte) (args : List Byte)
  /-- RESTART, command code 0x0C (R181). -/
  | restart (src tag : Byte) (args : List Byte)
  /-- LOAD_BINDING, command code 0x10 (R56). -/
  | loadBinding (src tag : Byte) (args : List Byte)
  /-- READ_INPUT, command code 0x11 (R65). -/
  | readInput (src tag : Byte) (args : List Byte)
  /-- LOAD_RUN, command code 0x18 (R10). -/
  | loadRun (src tag : Byte) (args : List Byte)
  /-- OPEN_RUN, command code 0x19 (R7). -/
  | openRun (src tag : Byte) (args : List Byte)
  /-- CLOSE_RUN, command code 0x1A (R8). -/
  | closeRun (src tag : Byte) (args : List Byte)
  /-- SELECT_CHANNEL, command code 0x1B (R45). -/
  | selectChannel (src tag : Byte) (args : List Byte)
  /-- READ_RUN, command code 0x1C (R11). -/
  | readRun (src tag : Byte) (args : List Byte)
  /-- READ_PULSES, command code 0x1D (R51). -/
  | readPulses (src tag : Byte) (args : List Byte)
  /-- LOAD_POINTS, command code 0x20 (R74). -/
  | loadPoints (src tag : Byte) (args : List Byte)
  /-- COMMIT_CURVE, command code 0x21 (R75). -/
  | commitCurve (src tag : Byte) (args : List Byte)
  /-- COMMIT_PRODUCT, command code 0x22 (R76). -/
  | commitProduct (src tag : Byte) (args : List Byte)
  /-- READ_CURVE, command code 0x23 (R86). -/
  | readCurve (src tag : Byte) (args : List Byte)
  /-- READ_PRODUCT, command code 0x24 (R87). -/
  | readProduct (src tag : Byte) (args : List Byte)
  /-- QUEUE_BATCH, command code 0x28 (R89). -/
  | queueBatch (src tag : Byte) (args : List Byte)
  /-- CANCEL_BATCH, command code 0x29 (R90). -/
  | cancelBatch (src tag : Byte) (args : List Byte)
  /-- END_BATCH, command code 0x2A (R103). -/
  | endBatch (src tag : Byte) (args : List Byte)
  /-- READ_BATCHES, command code 0x2B (R111). -/
  | readBatches (src tag : Byte) (args : List Byte)
  /-- READ_TICKET, command code 0x2C (R110). -/
  | readTicket (src tag : Byte) (args : List Byte)
  /-- TAKE_TICKET, command code 0x2D (R109). -/
  | takeTicket (src tag : Byte) (args : List Byte)
  /-- LOAD_PROVER, command code 0x30 (R114). -/
  | loadProver (src tag : Byte) (args : List Byte)
  /-- PROVE_START, command code 0x31 (R134). -/
  | proveStart (src tag : Byte) (args : List Byte)
  /-- PROVE_HOLD, command code 0x32 (R129). -/
  | proveHold (src tag : Byte) (args : List Byte)
  /-- PROVE_RELEASE, command code 0x33 (R130). -/
  | proveRelease (src tag : Byte) (args : List Byte)
  /-- PROVE_ABORT, command code 0x34 (R145). -/
  | proveAbort (src tag : Byte) (args : List Byte)
  /-- ACCEPT_PROVE, command code 0x35 (R146). -/
  | acceptProve (src tag : Byte) (args : List Byte)
  /-- READ_PROVE, command code 0x36 (R149). -/
  | readProve (src tag : Byte) (args : List Byte)
  /-- LOAD_LEVELS, command code 0x38 (R157). -/
  | loadLevels (src tag : Byte) (args : List Byte)
  /-- SET_LEVEL_GATE, command code 0x39 (R158). -/
  | setLevelGate (src tag : Byte) (args : List Byte)
  /-- CLEAR_CONDITION, command code 0x3A (R159). -/
  | clearCondition (src tag : Byte) (args : List Byte)
  /-- READ_CONDITIONS, command code 0x3B (R160). -/
  | readConditions (src tag : Byte) (args : List Byte)
  /-- UNKNOWN_COMMAND (R171): a payload too short to hold a tag and a code, or one whose code is not
  in the command table. -/
  | unknownCommand (src : Byte) (payload : List Byte)
  /-- INTERVAL_EXPIRY (R3): the interval timer reaches zero. -/
  | intervalExpiry
  /-- INPUT_10MS_COUNT (R60): the Input Unit's 10 ms count. -/
  | input10msCount
  /-- PULSE (R32): a rising edge of a run's channel passes the input filter; `stamp` is the timebase
  value at its acceptance (R33). -/
  | pulse (run : Fin 4) (ch : Channel) (stamp : Word32)
  /-- DETECTOR_EVENT (R115): an edge on a detector input passes the input filter; `stamp` is the
  timebase value at its acceptance (R33). -/
  | detectorEvent (det : Detector) (edge : Edge) (stamp : Word32)
  /-- DEAD_TIME_END (R115): a detector's dead time runs out. -/
  | deadTimeEnd (det : Detector)
  /-- PASS_TIMEOUT (R126): the pass timeout expires. -/
  | passTimeout
  /-- GOOD_FRAME_ARRIVAL (R165): the line has been idle for more than 1.5 character times after `chars`, the
  characters of the frame under reception, the first first (assumption 20). -/
  | goodFrameArrival (chars : List LineChar)
  /-- RECEIVE_ERROR (R164): the frame under reception, of the characters `chars`, ends at one of them, or when
  the line has been idle for more than 1.5 character times after them (assumption 20). -/
  | receiveError (chars : List LineChar)
  /-- HUNTING_END (R164): the line has been idle for more than 1.5 character times. -/
  | huntingEnd
  /-- TRANSMITTER_FREE (R167): the gap after a sent frame has passed. -/
  | transmitterFree
  /-- FRAME_SENT (R167): the last character of the frame in transmission has been sent. -/
  | frameSent
  /-- HARD_START (R183): power-up or a rising edge of RSTn, with the levels of the strap pins. -/
  | hardStart (cause : StartCause) (straps : Straps)
  /-- RESET_OR_POWER_LOSS (R183): RSTn goes low or VDD is lost. -/
  | resetOrPowerLoss (cause : DownCause)
  /-- FRAME_RECEPTION_BEGIN (R164): a character arrives on LIN while the receiver is IDLE. -/
  | frameReceptionBegin
  /-- BACKUP_SUPPLY_LOSS (R182): VBAK is lost. -/
  | backupSupplyLoss
  deriving DecidableEq, Repr

end Sys2Proof
end

