-- ==== Sys2Proof/Machine/Types.lean ====
section
/-! DEFINITION. The records, lists and enumerations that the blocks of the 6204 hold, under the
spec's own names. Quantities are integers in the units of Table 1-4; a wrapping 32-bit count is a
`Word32`; an optional field is an `Option`. -/

namespace Sys2Proof.Machine

/-! ### Tables, and pairs indexed by a channel or a detector -/

/-- A value for each of the two pulse channels of a run. -/
structure ByChannel (α : Type) where
  a : α
  b : α
  deriving DecidableEq, Repr

/-- The two copies of a table (R67, R70): `none` in service is EMPTY, `none` pending is absent. A
pending copy is always VALID, since it comes from an accepted commit or prove (R79, R83). -/
structure Copies (α : Type) where
  inService : Option α := none
  pending : Option α := none
  deriving DecidableEq, Repr

/-! ### Flow Engine (chapter 1) -/

/-- The four run states of R6, in the order that codes them (R175). -/
inductive RunState
  | closed
  | opening
  | opened
  | closing
  deriving DecidableEq, Repr

/-- R9: whether the two channels of the run are compared. -/
inductive PulseMode
  | single
  | dual
  deriving DecidableEq, Repr

/-- The run settings record of R9. -/
structure RunSettings where
  kFactor : Nat
  mode : PulseMode
  primary : Channel
  fallback : Nat
  tSlot : Fin 16
  pSlot : Fin 16
  rateHigh : Nat
  rateLow : Nat
  deriving DecidableEq, Repr

/-- The five cumulative quantities of R26, also kept by the accumulators of R96 and R100. -/
structure Totals where
  iv : Nat := 0
  gsv : Nat := 0
  nsv : Nat := 0
  mass : Nat := 0
  pulses : Nat := 0
  deriving DecidableEq, Repr

/-- The four residues of R25. -/
structure Residues where
  rIV : Nat := 0
  rGSV : Nat := 0
  rNSV : Nat := 0
  rM : Nat := 0
  deriving DecidableEq, Repr

/-- The retained items of a run context (R5). -/
structure RunRetained where
  settings : Option RunSettings := none
  totals : Totals := {}
  residues : Residues := {}
  deriving DecidableEq, Repr

/-- The result flags of R28. The four input codes are 0 to 3 (R13). -/
structure ResultFlags where
  codeT : Nat := 0
  codeP : Nat := 0
  codeRho : Nat := 0
  codeSW : Nat := 0
  fallback : Bool := false
  curveClamp : Bool := false
  tableClamp : Bool := false
  rateClamped : Bool := false
  coarse : Bool := false
  fine : Bool := false
  substituted : Bool := false
  firstOfBatch : Bool := false
  deriving DecidableEq, Repr

/-- The interval record of R27. NSV and mass are integers because a binding of the wrong kind can
give a water cut above 100 % or a negative density (the CAUTION of R56). -/
structure IntervalRecord where
  run : Fin 4
  interval : Word32
  product : Fin 8
  p : Nat
  channel : Channel
  iv : Nat
  q : Nat
  mf : Int
  ctl : Int
  cpl : Int
  ccf : Int
  gsv : Nat
  nsv : Int
  mass : Int
  t : Int
  pres : Int
  rhoLine : Int
  rhoStd : Int
  sw : Int
  flags : ResultFlags
  deriving DecidableEq, Repr

/-- The volatile items of a run context (R5). -/
structure RunVolatile where
  state : RunState := .closed
  preOpen : Nat := 0
  last : Option IntervalRecord := none
  deriving DecidableEq, Repr

/-! ### Pulse Unit (chapter 2) -/

/-- Whether the integrity check has declared a channel lost (R34). -/
inductive ChannelState
  | normal
  | lost
  deriving DecidableEq, Repr

/-- The pulse state of a run (R34). `change` is NONE, or PENDING with its target. -/
structure PulseState where
  counts : ByChannel Nat := ⟨0, 0⟩
  windows : ByChannel Nat := ⟨0, 0⟩
  status : ByChannel ChannelState := ⟨.normal, .normal⟩
  coarse : Bool := false
  fine : Bool := false
  totalizing : Channel := .a
  change : Option Channel := none
  cumDisagree : Nat := 0
  batchDisagree : Nat := 0
  idle : Nat := 0
  deriving DecidableEq, Repr

/-! ### Input Unit (chapter 3) -/

/-- The kinds of process value of R52. -/
inductive BindingKind
  | temperature
  | pressure
  | density
  | waterCut
  deriving DecidableEq, Repr

/-- A loaded binding's definition (R52). -/
structure Binding where
  kind : BindingKind
  node : Nat
  tag : Nat
  low : Int
  high : Int
  stale : Nat
  substitute : Int
  deriving DecidableEq, Repr

/-- The states of a loaded binding (R53). -/
inductive InputState
  | live
  | held
  | substituted
  | noData
  deriving DecidableEq, Repr

/-- The live state of a binding slot (R53). The live state of an EMPTY slot is never read. -/
structure LiveInput where
  state : InputState := .noData
  held : Option Int := none
  received : Option Int := none
  age : Option Nat := none
  uncertain : Bool := false
  clamped : Bool := false
  accepted : Nat := 0
  deriving DecidableEq, Repr

/-! ### Table Store (chapter 4) -/

/-- The curve layouts of R69. -/
inductive Layout
  | l4R4P
  | l2R8P
  | l4R8P
  deriving DecidableEq, Repr

/-- One point of an expansion table (R67), or a point in the assembly buffer as it arrived (R72):
`x` is a temperature or a rate. -/
structure TablePoint where
  x : Int
  factor : Nat
  deriving DecidableEq, Repr

/-- Where a curve point came from (R70). -/
inductive Origin
  | loaded
  | proved
  deriving DecidableEq, Repr

/-- One point of a meter-factor curve (R70). -/
structure CurvePoint where
  rate : Nat
  factor : Nat
  origin : Origin
  deriving DecidableEq, Repr

/-- A VALID copy of a curve (R70). -/
structure CurveCopy where
  points : List CurvePoint
  installedAt : Word32
  deriving DecidableEq, Repr

/-- A VALID copy of a product slot (R67). -/
structure ProductCopy where
  code : Nat
  points : List TablePoint
  compressibility : Nat
  densityLow : Nat
  densityHigh : Nat
  defaultDensity : Option Nat
  installedAt : Word32
  deriving DecidableEq, Repr

/-- What the assembly buffer is aimed at (R72); NONE is `none` of an `Option`. -/
inductive Target
  | curve (run : Fin 4) (slot : Fin 8)
  | expansion (slot : Fin 8)
  deriving DecidableEq, Repr

/-- The assembly buffer (R72). The filled count is the length of `points`. -/
structure AssemblyBuffer where
  target : Option Target := none
  points : List TablePoint := []
  deriving DecidableEq, Repr

/-- The causes of a BAD_TABLE refusal (R68, R71), in the order that codes them (R171). -/
inductive TableCause
  | count
  | range
  | order
  | step
  deriving DecidableEq, Repr

/-! ### Batch Unit (chapter 5) -/

/-- The end modes of R88. -/
inductive EndMode
  | onTarget
  | onCommand
  deriving DecidableEq, Repr

/-- The states of a queue entry (R88). -/
inductive BatchState
  | queued
  | active
  | closing
  deriving DecidableEq, Repr

/-- The close causes of R88. -/
inductive CloseCause
  | target
  | command
  deriving DecidableEq, Repr

/-- An entry of the batch queue (R88). -/
structure BatchEntry where
  id : Nat
  product : Fin 8
  target : Option Nat
  endMode : EndMode
  state : BatchState
  deriving DecidableEq, Repr

/-- The head's progress items (R88). `opening = none` is the awaiting mark. -/
structure Progress where
  opening : Option Word32 := none
  productCode : Option Nat := none
  targetReached : Bool := false
  closeCause : Option CloseCause := none
  deriving DecidableEq, Repr

/-- The four summary flags of R98. -/
structure SummaryFlags where
  channelSubstituted : Bool := false
  inputHeld : Bool := false
  curveClampOrFallback : Bool := false
  proveAccepted : Bool := false
  deriving DecidableEq, Repr

/-- The four weighted sums of R96. -/
structure WeightedSums where
  t : Int := 0
  pres : Int := 0
  rho : Int := 0
  mf : Int := 0
  deriving DecidableEq, Repr

/-- A run entry or the station entry of the active accumulator (R96). -/
structure AccEntry where
  intervals : Nat := 0
  totals : Totals := {}
  sums : WeightedSums := {}
  disagree : Nat := 0
  flags : SummaryFlags := {}
  deriving DecidableEq, Repr

/-- The active accumulator (R96). -/
structure ActiveAcc where
  runs : Vector AccEntry 4 := .replicate 4 {}
  station : AccEntry := {}
  last : Option Word32 := none
  deriving DecidableEq, Repr

/-- The unbatched accumulator (R100). -/
structure UnbatchedAcc where
  intervals : Nat := 0
  totals : Totals := {}
  disagree : Nat := 0
  last : Option Word32 := none
  deriving DecidableEq, Repr

/-- The four flow-weighted averages of R101. -/
structure Averages where
  t : Int
  pres : Int
  rho : Int
  mf : Int
  deriving DecidableEq, Repr

/-- A run entry or the station entry of a ticket (R107). -/
structure TicketEntry where
  intervals : Nat
  totals : Totals
  disagree : Nat
  flags : SummaryFlags
  averages : Option Averages
  deriving DecidableEq, Repr

/-- A ticket (R107). -/
structure Ticket where
  id : Nat
  product : Fin 8
  productCode : Nat
  opening : Option Word32
  closing : Word32
  cause : CloseCause
  target : Option Nat
  endMode : EndMode
  targetReached : Bool
  runs : List (Fin 4 × TicketEntry)
  station : TicketEntry
  deriving DecidableEq, Repr

/-- The retained state of the Batch Unit (R88, R91, R96, R100, R108). -/
structure BatchUnit where
  queue : List BatchEntry := []
  progress : Progress := {}
  acc : ActiveAcc := {}
  unbatched : UnbatchedAcc := {}
  tickets : List Ticket := []
  product : Fin 8 := 0
  deriving DecidableEq, Repr

/-! ### Prove Controller (chapters 6 and 7) -/

/-- The part of the prover record that concerns one detector (R113). -/
structure DetectorSetup where
  enabled : Bool
  polarity : Edge
  deadTime : Nat
  deriving DecidableEq, Repr

/-- The prover record (R113). -/
structure ProverRecord where
  bpv : Nat
  gc : Nat
  gp : Nat
  tSlot : Fin 16
  pSlot : Fin 16
  det1 : DetectorSetup
  det2 : DetectorSetup
  timeout : Nat
  minPulses : Nat
  passesPerRun : Nat
  runsRequired : Nat
  maxRuns : Nat
  repeatLimit : Nat
  acceptLimit : Nat
  autoRelease : Bool
  deriving DecidableEq, Repr

/-- The items kept for one detector (R116). -/
structure DetectorState where
  lastEvent : Option Word32 := none
  events : Nat := 0
  rejects : Nat := 0
  deadRunning : Bool := false
  deriving DecidableEq, Repr

/-- The session states of R132, in the order that codes them (R131, R175). -/
inductive SessionState
  | idle
  | held
  | armed
  | timing
  | finishing
  | complete
  | failed
  deriving DecidableEq, Repr

/-- The end causes of R132, in the order that codes them. -/
inductive EndCause
  | none
  | completed
  | spoiledPasses
  | notRepeatable
  | productChanged
  | aborted
  | accepted
  deriving DecidableEq, Repr

/-- The spoil causes of R128, in the order that codes them. -/
inductive SpoilCause
  | fewPulses
  | timeout
  | agreement
  | channel
  deriving DecidableEq, Repr

/-- The last pass outcome of R117. -/
inductive PassOutcome
  | none
  | completed (pass : Nat)
  | spoiled (cause : SpoilCause)
  deriving DecidableEq, Repr

/-- The pass items of R117; all absent between passes. -/
structure PassItems where
  tD1 : Option Word32 := none
  tP1 : Option Word32 := none
  running : Nat := 0
  lastPulse : Option Word32 := none
  tD2 : Option Word32 := none
  timeoutRunning : Bool := false
  deriving DecidableEq, Repr

/-- A process value with the input code of R62. -/
structure Reading where
  value : Int
  code : Nat
  deriving DecidableEq, Repr

/-- A pass record of R124. -/
structure PassRecord where
  number : Nat
  tD1 : Word32
  tP1 : Word32
  tD2 : Word32
  tP2 : Word32
  nWhole : Nat
  td : Nat
  tp : Nat
  ni : Int
  rate : Int
  rateClamped : Bool
  proverT : Reading
  proverP : Reading
  meterT : Reading
  meterP : Reading
  channel : Channel
  spoiledBefore : Nat
  deriving DecidableEq, Repr

/-- A prove-run record of R136. -/
structure ProveRun where
  number : Nat
  firstPass : Nat
  lastPass : Nat
  ni : Int
  rate : Int
  proverT : Reading
  proverP : Reading
  meterT : Reading
  meterP : Reading
  rateClamped : Bool
  spoiled : Nat
  deriving DecidableEq, Repr

/-- The last window tested (R137). -/
structure TestWindow where
  first : Nat
  last : Nat
  spread : Nat
  deriving DecidableEq, Repr

/-- The results of a COMPLETE session (R138 to R140). -/
structure Results where
  ni : Int
  qProve : Int
  tPv : Int
  pPv : Int
  tMt : Int
  pMt : Int
  ctsp : Int
  cpsp : Int
  ctlp : Int
  cplp : Int
  ccfp : Int
  ctlm : Int
  cplm : Int
  ccfm : Int
  mfNew : Int
  tableClamp : Bool
  factorRange : Bool
  deriving DecidableEq, Repr

/-- The prove session with its pass items and counters (R117, R132). -/
structure Session where
  state : SessionState := .idle
  attached : Option (Fin 4) := none
  product : Option (Fin 8) := none
  kFactor : Option Nat := none
  startInterval : Option Word32 := none
  endCause : EndCause := .none
  spoiledForRun : Nat := 0
  passes : List PassRecord := []
  proveRuns : List ProveRun := []
  lastWindow : Option TestWindow := none
  results : Option Results := none
  items : PassItems := {}
  lastOutcome : PassOutcome := .none
  stray : Nat := 0
  consecutive : Nat := 0
  spoiledTotal : Nat := 0
  abandoned : Nat := 0
  completed : Nat := 0
  deriving DecidableEq, Repr

/-! ### Condition Unit (chapter 8) -/

/-- The 115 condition instances of R150: a kind, with the unit of its domain. -/
inductive CondId
  | retentionLost
  | powerRestored
  | noActiveBatch
  | ticketStoreFull
  | targetReached
  | inputStale (slot : Fin 16)
  | inputFailed (slot : Fin 16)
  | inputClamped (slot : Fin 16)
  | sampleRejectedBad (slot : Fin 16)
  | channelDisagree (run : Fin 4)
  | channelLost (run : Fin 4)
  | channelSubstituted (run : Fin 4)
  | pulsesWhileClosed (run : Fin 4)
  | rateHigh (run : Fin 4)
  | rateLow (run : Fin 4)
  | rateOutsideCurve (run : Fin 4)
  | noCurve (run : Fin 4)
  | tempOutsideTable (run : Fin 4)
  | densityOutsideProduct (run : Fin 4)
  | provePassSpoiled
  | proveFailed
  | proveComplete
  | forwardOverrun
  | outboundDiscard
  | loopReceiveError
  deriving DecidableEq, Repr

/-- The items of a condition record (R151). -/
structure Condition where
  active : Bool := false
  latched : Bool := false
  withheld : Bool := false
  occurrences : Nat := 0
  first : Option Word32 := none
  last : Option Word32 := none
  deriving DecidableEq, Repr

/-! ### Loop Interface and Command Decoder (chapter 9) -/

/-- The receiver states of R164. -/
inductive ReceiverState
  | idle
  | receiving
  | hunting
  deriving DecidableEq, Repr

/-- How the receiver judges a frame whose reception has ended (R164). -/
inductive Verdict
  | good (frame : Frame)
  | error (fault : ReceiveFault)
  deriving DecidableEq, Repr

/-- The kinds of frame the part inserts (R168). -/
inductive OutKind
  | reply
  | result
  | ticket
  | proveReport
  | notice
  deriving DecidableEq, Repr

/-- A frame in the outbound queue (R168). `marked` is the mark of the RESTART's reply (R172). Its age
is its place in the queue, the oldest first. -/
structure OutFrame where
  kind : OutKind
  dest : Byte
  level : Nat
  source : Nat
  payload : List Byte
  marked : Bool := false
  deriving DecidableEq, Repr

/-- Which store the frame in transmission came from (R167). -/
inductive SentFrom
  | forwardBuffer
  | outboundQueue (marked : Bool)
  deriving DecidableEq, Repr

/-- The transmitter of R167: free, sending a frame (its characters on LOUT, and where it came from),
or keeping the gap of 2 character times. -/
inductive Transmitter
  | free
  | sending (bytes : List Byte) (origin : SentFrom)
  | gap
  deriving DecidableEq, Repr

/-- A frame in the command buffer (R170): its source node and its payload. -/
structure CommandFrame where
  source : Byte
  payload : List Byte
  deriving DecidableEq, Repr

/-- The 16 loop counters, in the order of R173. -/
structure LoopCounters where
  goodReceived : Nat := 0
  parity : Nat := 0
  framing : Nat := 0
  gap : Nat := 0
  length : Nat := 0
  check : Nat := 0
  returned : Nat := 0
  cmdOverflow : Nat := 0
  forwardOverrun : Nat := 0
  forwarded : Nat := 0
  inserted : Nat := 0
  replyDiscard : Nat := 0
  resultDiscard : Nat := 0
  ticketDiscard : Nat := 0
  proveReportDiscard : Nat := 0
  noticeDiscard : Nat := 0
  deriving DecidableEq, Repr

/-! ### Station Control (chapter 10) -/

/-- The station states of R178. -/
inductive StationState
  | configuring
  | ready
  | metering
  deriving DecidableEq, Repr

/-- The kinds of the last start (R179). -/
inductive StartKind
  | hardGood
  | hardBad
  | soft
  deriving DecidableEq, Repr

/-- The station record (R179). -/
structure StationRecord where
  intervalLength : Nat
  layout : Layout
  spacing : Nat
  resultLevel : Nat
  ticketLevel : Nat
  reportLevel : Nat
  densitySlot : Option (Fin 16)
  waterSlot : Option (Fin 16)
  deriving DecidableEq, Repr

/-- VDD and RSTn (R183): the part runs while VDD is present and RSTn is high, and is inactive while RSTn
is low and while VDD is absent. -/
inductive Power
  /-- VDD present, RSTn high. -/
  | running
  /-- VDD present, RSTn low. -/
  | heldInReset
  /-- VDD absent, RSTn high. -/
  | noVdd
  /-- VDD absent, RSTn low. -/
  | noVddInReset
  deriving DecidableEq, Repr

/-- The retained area of R182. The default of each field is its value after a bad check word (R183). -/
structure Retained where
  station : Option StationRecord := none
  levels : Option (Vector Nat 25) := none
  gate : BitVec 8 := 0xFE
  bindings : Vector (Option Binding) 16 := .replicate 16 none
  runs : Vector RunRetained 4 := .replicate 4 {}
  intervalNumber : Word32 := 0
  products : Vector (Copies ProductCopy) 8 := .replicate 8 {}
  curves : Vector (Copies CurveCopy) 32 := .replicate 32 {}
  prover : Option ProverRecord := none
  batch : BatchUnit := {}
  deriving DecidableEq, Repr, Inhabited

end Sys2Proof.Machine
end

