-- ==== Sys2Proof/Decode.lean ====
section
/-! DEFINITION. How a COMMAND frame of the command buffer spells a command of the table (R170, R171), and
the table's own numbering of words. The block fetches no instruction from a memory. -/

namespace Sys2Proof

/-- R171: the command that a source node, a tag, a command code and arguments spell; none for a code
that is not in the command table. -/
def commandOfCode (src tag : Byte) (code : Nat) (args : List Byte) : Option Instr :=
  match code with
  | 0x01 => some (.readLoopCounts src tag args)
  | 0x02 => some (.clearLoopCounts src tag args)
  | 0x08 => some (.loadStation src tag args)
  | 0x09 => some (.readStation src tag args)
  | 0x0A => some (.startMetering src tag args)
  | 0x0B => some (.stopMetering src tag args)
  | 0x0C => some (.restart src tag args)
  | 0x10 => some (.loadBinding src tag args)
  | 0x11 => some (.readInput src tag args)
  | 0x18 => some (.loadRun src tag args)
  | 0x19 => some (.openRun src tag args)
  | 0x1A => some (.closeRun src tag args)
  | 0x1B => some (.selectChannel src tag args)
  | 0x1C => some (.readRun src tag args)
  | 0x1D => some (.readPulses src tag args)
  | 0x20 => some (.loadPoints src tag args)
  | 0x21 => some (.commitCurve src tag args)
  | 0x22 => some (.commitProduct src tag args)
  | 0x23 => some (.readCurve src tag args)
  | 0x24 => some (.readProduct src tag args)
  | 0x28 => some (.queueBatch src tag args)
  | 0x29 => some (.cancelBatch src tag args)
  | 0x2A => some (.endBatch src tag args)
  | 0x2B => some (.readBatches src tag args)
  | 0x2C => some (.readTicket src tag args)
  | 0x2D => some (.takeTicket src tag args)
  | 0x30 => some (.loadProver src tag args)
  | 0x31 => some (.proveStart src tag args)
  | 0x32 => some (.proveHold src tag args)
  | 0x33 => some (.proveRelease src tag args)
  | 0x34 => some (.proveAbort src tag args)
  | 0x35 => some (.acceptProve src tag args)
  | 0x36 => some (.readProve src tag args)
  | 0x38 => some (.loadLevels src tag args)
  | 0x39 => some (.setLevelGate src tag args)
  | 0x3A => some (.clearCondition src tag args)
  | 0x3B => some (.readConditions src tag args)
  | _ => none

/-- R171: the command that a COMMAND frame's source node and payload spell. -/
def decodeCommand (src : Byte) (payload : List Byte) : Instr :=
  match payload with
  | tag :: code :: args => (commandOfCode src tag code.toNat args).getD (.unknownCommand src payload)
  | _ => .unknownCommand src payload

/-- R171: the command code, tag and arguments of a loop command; none for the other rows. -/
def Instr.parts : Instr → Option (Byte × Byte × Nat × List Byte)
  | .readLoopCounts src tag args => some (src, tag, 0x01, args)
  | .clearLoopCounts src tag args => some (src, tag, 0x02, args)
  | .loadStation src tag args => some (src, tag, 0x08, args)
  | .readStation src tag args => some (src, tag, 0x09, args)
  | .startMetering src tag args => some (src, tag, 0x0A, args)
  | .stopMetering src tag args => some (src, tag, 0x0B, args)
  | .restart src tag args => some (src, tag, 0x0C, args)
  | .loadBinding src tag args => some (src, tag, 0x10, args)
  | .readInput src tag args => some (src, tag, 0x11, args)
  | .loadRun src tag args => some (src, tag, 0x18, args)
  | .openRun src tag args => some (src, tag, 0x19, args)
  | .closeRun src tag args => some (src, tag, 0x1A, args)
  | .selectChannel src tag args => some (src, tag, 0x1B, args)
  | .readRun src tag args => some (src, tag, 0x1C, args)
  | .readPulses src tag args => some (src, tag, 0x1D, args)
  | .loadPoints src tag args => some (src, tag, 0x20, args)
  | .commitCurve src tag args => some (src, tag, 0x21, args)
  | .commitProduct src tag args => some (src, tag, 0x22, args)
  | .readCurve src tag args => some (src, tag, 0x23, args)
  | .readProduct src tag args => some (src, tag, 0x24, args)
  | .queueBatch src tag args => some (src, tag, 0x28, args)
  | .cancelBatch src tag args => some (src, tag, 0x29, args)
  | .endBatch src tag args => some (src, tag, 0x2A, args)
  | .readBatches src tag args => some (src, tag, 0x2B, args)
  | .readTicket src tag args => some (src, tag, 0x2C, args)
  | .takeTicket src tag args => some (src, tag, 0x2D, args)
  | .loadProver src tag args => some (src, tag, 0x30, args)
  | .proveStart src tag args => some (src, tag, 0x31, args)
  | .proveHold src tag args => some (src, tag, 0x32, args)
  | .proveRelease src tag args => some (src, tag, 0x33, args)
  | .proveAbort src tag args => some (src, tag, 0x34, args)
  | .acceptProve src tag args => some (src, tag, 0x35, args)
  | .readProve src tag args => some (src, tag, 0x36, args)
  | .loadLevels src tag args => some (src, tag, 0x38, args)
  | .setLevelGate src tag args => some (src, tag, 0x39, args)
  | .clearCondition src tag args => some (src, tag, 0x3A, args)
  | .readConditions src tag args => some (src, tag, 0x3B, args)
  | .unknownCommand _ _ => none
  | .intervalExpiry => none
  | .input10msCount => none
  | .pulse _ _ _ => none
  | .detectorEvent _ _ _ => none
  | .deadTimeEnd _ => none
  | .passTimeout => none
  | .goodFrameArrival _ => none
  | .receiveError _ => none
  | .huntingEnd => none
  | .transmitterFree => none
  | .frameSent => none
  | .hardStart _ _ => none
  | .resetOrPowerLoss _ => none
  | .frameReceptionBegin => none
  | .backupSupplyLoss => none

/-- R170, R171: the source node and the payload of the COMMAND frame that carries a row; none for a row
that no frame carries. -/
def Instr.frame : Instr → Option Machine.CommandFrame
  | .unknownCommand src payload => some { source := src, payload }
  | i =>
    i.parts.map fun p => { source := p.1, payload := p.2.1 :: BitVec.ofNat 8 p.2.2.1 :: p.2.2.2 }

/-- The command that a word of spec/opcode_table.json spells. The table gives bits for no row, so no word
spells one (assumption 30). -/
def decodeTableWord (_nbits _w : Nat) : Option Instr := none

end Sys2Proof
end

