-- ==== Sys2Proof/Config.lean ====
section
/-! DEFINITION. What an implementation fixes and the spec leaves open. Each is an opaque constant: no
proof can see its value, so a claim that is proved holds whatever the value is. -/

namespace Sys2Proof.Config

open Sys2Proof.Machine

/-- The retained content as the bytes that the check word is computed over. R182 takes them in "a fixed
internal order" that R179 says is "not defined further in this manual", so they are open. Assumption 6. -/
opaque retainedBytes : Retained → List Byte

/-- What a retained area that was lost with VBAK spells at the next hard start, and the check word that
stands beside it (R182). Assumption 7. -/
opaque lostArea : Nat → Retained × BitVec 16

/-- Whether a VBAK that was lost while VDD was present is back when VDD is lost; no row of the table says
that VBAK returns. Assumption 31. -/
opaque backupReturned : Nat → Bool

/-- The result of a rounded division whose divisor is 0. R24, R121 and R140 say of their divisors that
they cannot be 0; where they are, no result is stated. Assumption 12. -/
opaque openQuotient : Int → Int

/-- What a 64-bit total of R26, R96 or R100 becomes when a negative quantity is added to it. No result
is stated; the bounds the spec sets on a total still hold (see `addTotal`). Assumption 13. -/
opaque openTotal : Nat → Int → Nat

/-- A fresh open word, by the number of open words drawn before it. Assumption 18. -/
opaque openWord : Nat → Word32

/-- Which of the errors that one character shows ends its frame, by the bytes of the frame before it and the
character. R164 ends a frame with the first fault found and gives no order to the faults of one character; the
error is still one of those that the character shows (see `pickFault`). Assumption 38. -/
opaque faultFound : List Byte → LineChar → Nat

end Sys2Proof.Config
end

