-- ==== Sys2Proof/Machine/Arith.lean ====
section
/-! DEFINITION. The exact integer arithmetic of the spec: its named roundings (section 1.7), its
saturating counts, and the interpolation of R17 and R18. -/

namespace Sys2Proof.Machine

/-- The largest value of a saturating 16-bit count. -/
abbrev cap16 : Nat := 65535

/-- The largest value of a saturating 32-bit count. -/
abbrev cap32 : Nat := 4294967295

/-- The largest value of a 64-bit total (R26). -/
abbrev cap64 : Nat := 18446744073709551615

/-- REFCLK periods in one count of 10 ms (R1, R60). -/
abbrev periodsPer10ms : Nat := 100000

/-- REFCLK periods in one millisecond (R33). -/
abbrev periodsPerMs : Nat := 10000

/-- A saturating count that increases by one. -/
def count1 (cap n : Nat) : Nat := min (n + 1) cap

/-- A saturating sum. -/
def addSat (cap n k : Nat) : Nat := min (n + k) cap

/-- Round half up (section 1.7): the nearest integer, an exact half to the larger one. A divisor of 0
gives the open quotient (assumption 12). -/
def roundHalfUp (n d : Int) : Int :=
  if d = 0 then Config.openQuotient n else (2 * n + d) / (2 * d)

/-- Round half away from zero (section 1.7). A divisor of 0 gives the open quotient (assumption 12). -/
def roundHalfAway (n d : Int) : Int :=
  if d = 0 then Config.openQuotient n
  else if n < 0 then -((2 * (-n) + d) / (2 * d))
  else (2 * n + d) / (2 * d)

/-- A quantity added to a 64-bit total (R26, R96, R100). The result of adding a negative quantity is
open, within the bounds that a total never decreases and stays below 2⁶⁴ (assumption 13). -/
def addTotal (total : Nat) (x : Int) : Nat :=
  if 0 ≤ x then addSat cap64 total x.toNat
  else max total (min (Config.openTotal total x) cap64)

/-- R17, R18: the factor at `x` on points with ascending first coordinate. Below the first point it is
the first factor, above the last the last; between two points the increment is rounded half away from
zero. A VALID table has at least two points, so the empty list stands for no table. -/
def interpolate : List (Int × Int) → Int → Int
  | [], _ => 0
  | [p], _ => p.2
  | p :: q :: rest, x =>
    if x ≤ p.1 then p.2
    else if x < q.1 then p.2 + roundHalfAway ((q.2 - p.2) * (x - p.1)) (q.1 - p.1)
    else interpolate (q :: rest) x

/-- Whether `x` lies below the first or above the last point (R17, R18). -/
def outsideTable (points : List (Int × Int)) (x : Int) : Bool :=
  match points.head?, points.getLast? with
  | some p, some q => x < p.1 || q.1 < x
  | _, _ => false

/-- The points of a curve as pairs of rate and factor. -/
def curvePairs (points : List CurvePoint) : List (Int × Int) :=
  points.map fun p => ((p.rate : Int), (p.factor : Int))

/-- The points of an expansion table as pairs of temperature and factor. -/
def expansionPairs (points : List TablePoint) : List (Int × Int) :=
  points.map fun p => (p.x, (p.factor : Int))

end Sys2Proof.Machine
end

