-- ==== Sys2Proof/Machine/Bytes.lean ====
section
/-! DEFINITION. How numbers and optional fields stand in a payload (R175), and the frame layout and
check word of the loop (R163). -/

namespace Sys2Proof.Machine

/-! ### Fields (R175) -/

/-- The low `width` bytes of a number, most significant byte first. -/
def natBytes : Nat → Nat → List Byte
  | 0, _ => []
  | w + 1, n => natBytes w (n / 256) ++ [BitVec.ofNat 8 n]

/-- An unsigned field: a value that does not fit is sent as the nearest value that does. -/
def encU (width : Nat) (x : Int) : List Byte :=
  natBytes width (if x < 0 then 0 else min x.toNat (256 ^ width - 1))

/-- A signed field in two's complement, with the same rule for a value that does not fit. -/
def encS (width : Nat) (x : Int) : List Byte :=
  let half : Int := 2 ^ (8 * width - 1)
  natBytes width ((max (-half) (min x (half - 1)) % 256 ^ width).toNat)

/-- A flag or mark: 0 for clear and 1 for set. -/
def encFlag (b : Bool) : List Byte := [if b then 1 else 0]

/-- A 32-bit count that wraps. -/
def encWord (w : Word32) : List Byte := encU 4 w.toNat

/-- A field that may be absent: its presence byte, then its bytes, zeros when it is absent. -/
def encOpt {α : Type} (width : Nat) (enc : α → List Byte) : Option α → List Byte
  | none => 0 :: List.replicate width 0
  | some x => 1 :: enc x

/-- A list of varying length: a count byte, then its entries. -/
def encList {α : Type} (enc : α → List Byte) (l : List α) : List Byte :=
  encU 1 l.length ++ l.flatMap enc

/-- The number that bytes spell, most significant byte first. -/
def bytesNat (l : List Byte) : Nat := l.foldl (fun n b => n * 256 + b.toNat) 0

/-- The unsigned argument field of `width` bytes at offset `at0`. -/
def argU (args : List Byte) (at0 width : Nat) : Nat := bytesNat ((args.drop at0).take width)

/-- The signed argument field of `width` bytes at offset `at0`. -/
def argS (args : List Byte) (at0 width : Nat) : Int :=
  let n := argU args at0 width
  if n < 2 ^ (8 * width - 1) then n else (n : Int) - 256 ^ width

/-! ### Frames and the check word (R163) -/

/-- One bit taken into the check word register. -/
def crcBit (reg : BitVec 16) (bit : Bool) : BitVec 16 :=
  let shifted := reg <<< 1
  if bit != reg.msb then shifted ^^^ 0x1021#16 else shifted

/-- One byte taken into the register, from its most significant bit down. -/
def crcByte (reg : BitVec 16) (b : Byte) : BitVec 16 :=
  [7, 6, 5, 4, 3, 2, 1, 0].foldl (fun r i => crcBit r (b.getLsbD i)) reg

/-- The check word of a string of bytes: the register starts at all ones. -/
def crc (bytes : List Byte) : BitVec 16 := bytes.foldl crcByte 0xFFFF#16

/-- The check word's two bytes, high byte first. -/
def crcBytes (bytes : List Byte) : List Byte := natBytes 2 (crc bytes).toNat

/-- R182: the check word of the retained area, the CRC-16 of R163 over the whole content. -/
def checkWord (r : Retained) : BitVec 16 := crc (Config.retainedBytes r)

/-- Bytes 1 to 4 + L of a frame. -/
def frameBody (f : Frame) : List Byte :=
  f.dest :: f.source :: f.kind :: BitVec.ofNat 8 f.payload.length :: f.payload

/-- All the characters of a frame on the line. -/
def frameBytes (f : Frame) : List Byte :=
  0xA5#8 :: (frameBody f ++ crcBytes (frameBody f))

/-- Whether the number of ones among the bits of a byte is odd. -/
def oddOnes (b : Byte) : Bool := [0, 1, 2, 3, 4, 5, 6, 7].foldl (fun odd i => odd != b.getLsbD i) false

/-- R162: the parity bit makes the number of ones among the data bits and itself odd. -/
def parityOdd (c : LineChar) : Bool := oddOnes c.data != c.parity

/-- R162: the character that carries a byte on the line, with odd parity and a stop bit. -/
def lineChar (b : Byte) : LineChar := { data := b, parity := !oddOnes b, stop := true }

/-- The kind bytes of R163 that the part inserts. -/
def OutKind.code : OutKind → Byte
  | .reply => 0x21
  | .result => 0x30
  | .ticket => 0x31
  | .proveReport => 0x32
  | .notice => 0x33

/-- The kind byte of a SAMPLE frame. -/
abbrev kindSample : Byte := 0x10

/-- The kind byte of a COMMAND frame. -/
abbrev kindCommand : Byte := 0x20

/-- The all-nodes destination (R163). -/
abbrev allNodes : Byte := 63

/-! ### Codes of enumerated values: the position in the owning rule's list (R175) -/

def channelCode : Channel → Nat
  | .a => 0
  | .b => 1

def PulseMode.code : PulseMode → Nat
  | .single => 0
  | .dual => 1

def RunState.code : RunState → Nat
  | .closed => 0
  | .opening => 1
  | .opened => 2
  | .closing => 3

def ChannelState.code : ChannelState → Nat
  | .normal => 0
  | .lost => 1

def BindingKind.code : BindingKind → Nat
  | .temperature => 0
  | .pressure => 1
  | .density => 2
  | .waterCut => 3

def InputState.code : InputState → Nat
  | .live => 0
  | .held => 1
  | .substituted => 2
  | .noData => 3

def Layout.code : Layout → Nat
  | .l4R4P => 0
  | .l2R8P => 1
  | .l4R8P => 2

def Origin.code : Origin → Nat
  | .loaded => 0
  | .proved => 1

def TableCause.code : TableCause → Nat
  | .count => 0
  | .range => 1
  | .order => 2
  | .step => 3

def EndMode.code : EndMode → Nat
  | .onTarget => 0
  | .onCommand => 1

def BatchState.code : BatchState → Nat
  | .queued => 0
  | .active => 1
  | .closing => 2

def CloseCause.code : CloseCause → Nat
  | .target => 0
  | .command => 1

def edgeCode : Edge → Nat
  | .rising => 0
  | .falling => 1

def SessionState.code : SessionState → Nat
  | .idle => 0
  | .held => 1
  | .armed => 2
  | .timing => 3
  | .finishing => 4
  | .complete => 5
  | .failed => 6

def EndCause.code : EndCause → Nat
  | .none => 0
  | .completed => 1
  | .spoiledPasses => 2
  | .notRepeatable => 3
  | .productChanged => 4
  | .aborted => 5
  | .accepted => 6

def SpoilCause.code : SpoilCause → Nat
  | .fewPulses => 0
  | .timeout => 1
  | .agreement => 2
  | .channel => 3

def StationState.code : StationState → Nat
  | .configuring => 0
  | .ready => 1
  | .metering => 2

def StartKind.code : StartKind → Nat
  | .hardGood => 0
  | .hardBad => 1
  | .soft => 2

/-- The byte of an enumerated value's code. -/
def encCode (n : Nat) : List Byte := encU 1 n

end Sys2Proof.Machine
end

