-- ==== Sys2Proof/Machine/State.lean ====
section
/-! DEFINITION. The state of the 6204, the reasons a step can stop, and the state after reset. -/

namespace Sys2Proof.Machine

/-- The reasons the block can stop. There is none: the spec describes no event or command after which
the 6204 stops, so this type has no constructor and no meaning answers with a fault. Safe. -/
inductive Fault
  deriving DecidableEq, Repr

/-- The reasons a command can have no meaning here. -/
inductive Refusal
  /-- Raised by an arm of exec that gives its command no meaning yet. Every arm of exec gives one, so
  nothing raises it. Safe: the model would stop where the hardware goes on. -/
  | notModelled (mnemonic : String)
  deriving DecidableEq, Repr

/-- Everything the spec gives the 6204, and the queue of the commands and events that are waiting. -/
structure State where
  /-- The commands and events that wait, the first first (the model's own; assumption 1). -/
  pending : List Instr := []
  /-- Whether the part runs, is held by RSTn or is without VDD (R183). -/
  power : Power := .running
  /-- The retained area on VBAK (R182). -/
  retained : Retained := {}
  /-- Set once the area is lost with VBAK: the next check-word test finds it bad (R182). -/
  retainedLost : Bool := false
  /-- Set once VBAK is lost; until its return, a loss of VDD loses the area (R182, assumption 31). -/
  backupLost : Bool := false
  /-- The node number sampled at the last hard start (R162). -/
  node : Nat := 0
  /-- The bit rate code sampled at the last hard start (R162, R174). -/
  rateCode : Nat := 0
  /-- The kind of the last start (R181, R183). -/
  lastStart : StartKind := .hardBad
  /-- The station state (R178). -/
  station : StationState := .configuring
  /-- The reference timebase (R33). -/
  timebase : Word32 := 0
  /-- The interval timer (R1) in REFCLK periods still to run, 100,000 to a count; absent while stopped. -/
  timer : Option Nat := none
  /-- The REFCLK periods still to run of the Input Unit's 10 ms count (R60). -/
  inputDivider : Nat := 100000
  /-- The volatile items of the four run contexts (R5). -/
  runs : Vector RunVolatile 4 := .replicate 4 {}
  /-- The pulse states of the four runs (R34). -/
  pulses : Vector PulseState 4 := .replicate 4 {}
  /-- The live states of the sixteen binding slots (R53). -/
  live : Vector LiveInput 16 := .replicate 16 {}
  /-- The assembly buffer (R72). -/
  buffer : AssemblyBuffer := {}
  /-- The detector items of DET1 and DET2 (R116). -/
  det1 : DetectorState := {}
  det2 : DetectorState := {}
  /-- The prove session with its pass items and counters (R117, R132). -/
  session : Session := {}
  /-- The 115 condition records in the order of kind code and unit (R150, R151). -/
  conds : Vector Condition 115 := .replicate 115 {}
  /-- The receiver state (R164). -/
  receiver : ReceiverState := .hunting
  /-- The forward buffer, the oldest frame first (R166). -/
  forward : List Frame := []
  /-- The outbound queue, the oldest frame first (R168). -/
  outbound : List OutFrame := []
  /-- The transmitter (R167). -/
  transmitter : Transmitter := .free
  /-- The command buffer, the oldest frame first (R170). -/
  commands : List CommandFrame := []
  /-- The restart-pending mark (R172). -/
  restartPending : Bool := false
  /-- The 16 loop counters (R173). -/
  counters : LoopCounters := {}
  /-- How many open words have been drawn (the model's own; assumption 18). -/
  openCount : Nat := 0
  deriving DecidableEq, Repr

/-- The condition record of an event-type condition that has occurred once at interval 0 with no
level table loaded: latched, its notice withheld (R152, R155). -/
def Condition.atReset (active : Bool) : Condition :=
  { active, latched := true, withheld := true, occurrences := 1, first := some 0, last := some 0 }

/-- The machine right after reset: a hard start that found the check word bad (R183), with the strap
pins low (assumption 5). RETENTION_LOST (index 0) has occurred and NO_ACTIVE_BATCH (index 2) is
active (R112, R151); everything else is at its value after such a start. -/
def State.reset : State :=
  { conds := ((Vector.replicate 115 ({} : Condition)).set 0 (Condition.atReset false)).set 2
      (Condition.atReset true) }

end Sys2Proof.Machine
end

