-- ==== Sys2Proof/Machine/Ops.lean ====
section
/-! DEFINITION. The operations the blocks share: reading and writing the tables of the state, the
reference clock, the outbound queue and the transmitter (chapter 9), and the Condition Unit's
handling of a report (chapter 8). -/

namespace Sys2Proof.Machine

/-! ### The tables of the state -/

/-- The value of one channel of a pair. -/
def ByChannel.get {α : Type} (p : ByChannel α) : Channel → α
  | .a => p.a
  | .b => p.b

/-- The pair with one channel's value replaced. -/
def ByChannel.set {α : Type} (p : ByChannel α) (ch : Channel) (x : α) : ByChannel α :=
  match ch with
  | .a => { p with a := x }
  | .b => { p with b := x }

/-- The volatile items of a run context replaced. -/
def State.setRun (s : State) (r : Fin 4) (v : RunVolatile) : State := { s with runs := s.runs.set r v }

/-- The pulse state of a run replaced. -/
def State.setPulse (s : State) (r : Fin 4) (p : PulseState) : State :=
  { s with pulses := s.pulses.set r p }

/-- The live state of a binding slot replaced. -/
def State.setLive (s : State) (slot : Fin 16) (l : LiveInput) : State :=
  { s with live := s.live.set slot l }

/-- The prove session replaced. -/
def State.setSession (s : State) (x : Session) : State := { s with session := x }

/-- The retained area replaced. Its check word is a function of its content (`checkWord`), so the change
and the recomputation are one step (R182). -/
def State.setRetained (s : State) (r : Retained) : State := { s with retained := r }

/-- The retained state of the Batch Unit replaced. -/
def State.setBatch (s : State) (b : BatchUnit) : State :=
  s.setRetained { s.retained with batch := b }

/-- The retained items of a run context replaced. -/
def State.setRunRetained (s : State) (r : Fin 4) (v : RunRetained) : State :=
  s.setRetained { s.retained with runs := s.retained.runs.set r v }

/-- The items of a detector. -/
def State.det (s : State) : Detector → DetectorState
  | .det1 => s.det1
  | .det2 => s.det2

/-- The items of a detector replaced. -/
def State.setDet (s : State) (d : Detector) (x : DetectorState) : State :=
  match d with
  | .det1 => { s with det1 := x }
  | .det2 => { s with det2 := x }

/-- The settings of a run (R9), absent if never loaded. -/
def State.settings (s : State) (r : Fin 4) : Option RunSettings := s.retained.runs[r].settings

/-- The primary channel of a run; channel A for a run that has no settings (R34). -/
def State.primary (s : State) (r : Fin 4) : Channel := ((s.settings r).map (·.primary)).getD .a

/-- Whether a run is DUAL (R37). -/
def State.dual (s : State) (r : Fin 4) : Bool := ((s.settings r).map (·.mode == .dual)).getD false

/-- The current interval number (R2, R152). -/
def State.now (s : State) : Word32 := s.retained.intervalNumber

/-- The active states of a prove session (R132). -/
def SessionState.active : SessionState → Bool
  | .held | .armed | .timing | .finishing => true
  | _ => false

/-- R48: the Pulse Unit's attached run of an active session. -/
def State.proving (s : State) (r : Fin 4) : Bool :=
  s.session.state.active && s.session.attached == some r

/-! ### The reference clock (R1, R33, R60) -/

/-- `n` periods of REFCLK pass in which nothing falls due: the timebase counts them modulo 2³², and the
interval timer and the Input Unit's 10 ms count run down, at most to the moment they fall due. -/
def advanceClock (n : Nat) (s : State) : State :=
  { s with
    timebase := s.timebase + BitVec.ofNat 32 n
    timer := s.timer.map (· - n)
    inputDivider := s.inputDivider - n }

/-- The clock brought to the timebase value of a timestamp (R33; assumption 3). -/
def advanceTo (stamp : Word32) (s : State) : State := advanceClock (stamp - s.timebase).toNat s

/-! ### Values in use (R62) -/

/-- The value in use of a binding slot, with its input code. A slot that holds no loaded binding gives
0 with code 3 (R124). -/
def State.reading (s : State) (slot : Fin 16) : Reading :=
  match s.retained.bindings[slot] with
  | none => ⟨0, 3⟩
  | some b =>
    let l := s.live[slot]
    match l.state with
    | .live => ⟨l.held.getD b.substitute, if l.uncertain then 1 else 0⟩
    | .held => ⟨l.held.getD b.substitute, 2⟩
    | .substituted | .noData => ⟨b.substitute, 3⟩

/-! ### The curve store's layout (R69) -/

/-- The room for points in each curve of a layout. -/
def Layout.pointsPerCurve : Layout → Nat
  | .l4R4P | .l2R8P => 12
  | .l4R8P => 6

/-- Whether a layout allows a run. -/
def Layout.allowsRun (l : Layout) (r : Fin 4) : Bool :=
  match l with
  | .l2R8P => r.val < 2
  | _ => true

/-- Whether a layout allows a pair of run and product slot. -/
def Layout.allows (l : Layout) (r : Fin 4) (p : Fin 8) : Bool :=
  match l with
  | .l4R4P => p.val < 4
  | .l2R8P => r.val < 2
  | .l4R8P => true

/-- The place of a pair's curve in the curve store. -/
def curveIndex (r : Fin 4) (p : Fin 8) : Fin 32 := ⟨r.val * 8 + p.val, by omega⟩

/-- Both copies of a pair's curve. -/
def State.curve (s : State) (r : Fin 4) (p : Fin 8) : Copies CurveCopy :=
  s.retained.curves[curveIndex r p]

/-- Both copies of a pair's curve replaced. -/
def State.setCurve (s : State) (r : Fin 4) (p : Fin 8) (c : Copies CurveCopy) : State :=
  s.setRetained { s.retained with curves := s.retained.curves.set (curveIndex r p) c }

/-- The in-service copy of a product slot. -/
def State.product (s : State) (p : Fin 8) : Option ProductCopy := s.retained.products[p].inService

/-! ### The outbound queue and the transmitter (R167 to R169) -/

/-- R168: whether one frame ranks above another by level and source number. Between frames that are
equal in both, the older ranks higher; age is the place in the queue. -/
def outranks (f g : OutFrame) : Bool :=
  g.level < f.level || (f.level == g.level && g.source < f.source)

/-- The highest-ranked frame of a queue, and the queue without it. -/
def highest : List OutFrame → Option (OutFrame × List OutFrame)
  | [] => none
  | f :: rest =>
    match highest rest with
    | none => some (f, [])
    | some (g, others) => if outranks g f then some (g, f :: others) else some (f, rest)

/-- The lowest-ranked frame of a queue, and the queue without it. -/
def lowest : List OutFrame → Option (OutFrame × List OutFrame)
  | [] => none
  | f :: rest =>
    match lowest rest with
    | none => some (f, [])
    | some (g, others) => if outranks g f then some (f, rest) else some (g, f :: others)

/-- A queued frame as it goes on the line, with the part's node number as its source (R165). -/
def OutFrame.toFrame (f : OutFrame) (node : Nat) : Frame :=
  { dest := f.dest, source := BitVec.ofNat 8 node, kind := f.kind.code, payload := f.payload }

/-- R167: a transmitter that is free begins the oldest forwarded frame, otherwise the highest-ranked
frame of the outbound queue; otherwise the line stays idle. -/
def beginNext (s : State) : State :=
  match s.transmitter with
  | .free =>
    match s.forward with
    | f :: rest => { s with forward := rest, transmitter := .sending (frameBytes f) .forwardBuffer }
    | [] =>
      match highest s.outbound with
      | some (f, others) =>
        { s with
          outbound := others
          transmitter := .sending (frameBytes (f.toFrame s.node)) (.outboundQueue f.marked) }
      | none => s
  | _ => s

/-- R169: a frame offered to the outbound queue enters it, displaces the lowest-ranked frame, or is
dropped; the second component is the frame that is lost. A free transmitter then begins (R167). -/
def enqueue (f : OutFrame) (s : State) : State × Option OutFrame :=
  if s.outbound.length < 16 then (beginNext { s with outbound := s.outbound ++ [f] }, none)
  else
    match lowest s.outbound with
    | some (g, others) =>
      if outranks f g then (beginNext { s with outbound := others ++ [f] }, some g)
      else (s, some f)
    | none => (s, some f)

/-- R169: the discard counter of a frame kind increases by one. -/
def countDiscard (k : OutKind) (s : State) : State :=
  let c := s.counters
  { s with counters :=
      match k with
      | .reply => { c with replyDiscard := count1 cap16 c.replyDiscard }
      | .result => { c with resultDiscard := count1 cap16 c.resultDiscard }
      | .ticket => { c with ticketDiscard := count1 cap16 c.ticketDiscard }
      | .proveReport => { c with proveReportDiscard := count1 cap16 c.proveReportDiscard }
      | .notice => { c with noticeDiscard := count1 cap16 c.noticeDiscard } }

/-! ### Condition kinds and units (R150) -/

/-- The kind code of R150, less one. -/
def CondId.kindIndex : CondId → Fin 25
  | .retentionLost => 0
  | .powerRestored => 1
  | .noActiveBatch => 2
  | .ticketStoreFull => 3
  | .targetReached => 4
  | .inputStale _ => 5
  | .inputFailed _ => 6
  | .inputClamped _ => 7
  | .sampleRejectedBad _ => 8
  | .channelDisagree _ => 9
  | .channelLost _ => 10
  | .channelSubstituted _ => 11
  | .pulsesWhileClosed _ => 12
  | .rateHigh _ => 13
  | .rateLow _ => 14
  | .rateOutsideCurve _ => 15
  | .noCurve _ => 16
  | .tempOutsideTable _ => 17
  | .densityOutsideProduct _ => 18
  | .provePassSpoiled => 19
  | .proveFailed => 20
  | .proveComplete => 21
  | .forwardOverrun => 22
  | .outboundDiscard => 23
  | .loopReceiveError => 24

/-- The kind code of R150. -/
def CondId.kindCode (c : CondId) : Nat := c.kindIndex.val + 1

/-- The unit number within the kind's domain. -/
def CondId.unit : CondId → Nat
  | .inputStale b | .inputFailed b | .inputClamped b | .sampleRejectedBad b => b.val
  | .channelDisagree r | .channelLost r | .channelSubstituted r | .pulsesWhileClosed r
  | .rateHigh r | .rateLow r | .rateOutsideCurve r | .noCurve r | .tempOutsideTable r
  | .densityOutsideProduct r => r.val
  | _ => 0

/-- The place of a condition record: ascending kind code and, within a kind, ascending unit. -/
def CondId.index : CondId → Fin 115
  | .retentionLost => 0
  | .powerRestored => 1
  | .noActiveBatch => 2
  | .ticketStoreFull => 3
  | .targetReached => 4
  | .inputStale b => ⟨5 + b.val, by omega⟩
  | .inputFailed b => ⟨21 + b.val, by omega⟩
  | .inputClamped b => ⟨37 + b.val, by omega⟩
  | .sampleRejectedBad b => ⟨53 + b.val, by omega⟩
  | .channelDisagree r => ⟨69 + r.val, by omega⟩
  | .channelLost r => ⟨73 + r.val, by omega⟩
  | .channelSubstituted r => ⟨77 + r.val, by omega⟩
  | .pulsesWhileClosed r => ⟨81 + r.val, by omega⟩
  | .rateHigh r => ⟨85 + r.val, by omega⟩
  | .rateLow r => ⟨89 + r.val, by omega⟩
  | .rateOutsideCurve r => ⟨93 + r.val, by omega⟩
  | .noCurve r => ⟨97 + r.val, by omega⟩
  | .tempOutsideTable r => ⟨101 + r.val, by omega⟩
  | .densityOutsideProduct r => ⟨105 + r.val, by omega⟩
  | .provePassSpoiled => 109
  | .proveFailed => 110
  | .proveComplete => 111
  | .forwardOverrun => 112
  | .outboundDiscard => 113
  | .loopReceiveError => 114

/-- Whether a kind is state-type (R150). -/
def CondId.stateType : CondId → Bool
  | .noActiveBatch | .ticketStoreFull | .inputStale _ | .inputFailed _ | .inputClamped _
  | .channelDisagree _ | .channelLost _ | .channelSubstituted _ | .rateHigh _ | .rateLow _
  | .rateOutsideCurve _ | .noCurve _ | .tempOutsideTable _ | .densityOutsideProduct _ => true
  | _ => false

/-- The records of one kind, by its code, in ascending order of unit; none for a code outside 1 to
25. -/
def condsOfKind : Nat → List CondId
  | 1 => [.retentionLost]
  | 2 => [.powerRestored]
  | 3 => [.noActiveBatch]
  | 4 => [.ticketStoreFull]
  | 5 => [.targetReached]
  | 6 => (List.finRange 16).map .inputStale
  | 7 => (List.finRange 16).map .inputFailed
  | 8 => (List.finRange 16).map .inputClamped
  | 9 => (List.finRange 16).map .sampleRejectedBad
  | 10 => (List.finRange 4).map .channelDisagree
  | 11 => (List.finRange 4).map .channelLost
  | 12 => (List.finRange 4).map .channelSubstituted
  | 13 => (List.finRange 4).map .pulsesWhileClosed
  | 14 => (List.finRange 4).map .rateHigh
  | 15 => (List.finRange 4).map .rateLow
  | 16 => (List.finRange 4).map .rateOutsideCurve
  | 17 => (List.finRange 4).map .noCurve
  | 18 => (List.finRange 4).map .tempOutsideTable
  | 19 => (List.finRange 4).map .densityOutsideProduct
  | 20 => [.provePassSpoiled]
  | 21 => [.proveFailed]
  | 22 => [.proveComplete]
  | 23 => [.forwardOverrun]
  | 24 => [.outboundDiscard]
  | 25 => [.loopReceiveError]
  | _ => []

/-- All 115 condition records in ascending order of kind code and unit. -/
def allConds : List CondId := (List.range 25).flatMap fun k => condsOfKind (k + 1)

/-- The record that a kind code and a unit name, if the kind exists and the unit is in its domain. -/
def condOf (kind unit : Nat) : Option CondId := (condsOfKind kind)[unit]?

/-- A condition record. -/
def State.cond (s : State) (c : CondId) : Condition := s.conds[c.index]

/-- A condition record replaced. -/
def State.setCond (s : State) (c : CondId) (r : Condition) : State :=
  { s with conds := s.conds.set c.index r }

/-! ### Notices (R155, R161) -/

/-- What becomes of a notice that is offered (R155). -/
inductive NoticeFate
  | withheld
  | notSent
  | queued (level : Nat)
  deriving DecidableEq, Repr

/-- R155: the fate of a notice, by the level table and the gate as they stand. -/
def noticeFate (s : State) (c : CondId) : NoticeFate :=
  match s.retained.levels with
  | none => .withheld
  | some levels =>
    let level := levels[c.kindIndex]
    if level = 0 then .notSent
    else if s.retained.gate.getLsbD level then .queued level
    else .withheld

/-- R161, R176: the NOTICE frame formed from a condition record as it stands. -/
def noticeFrame (c : CondId) (r : Condition) (level : Nat) : OutFrame :=
  { kind := .notice
    dest := allNodes
    level
    source := c.kindCode * 16 + c.unit
    payload :=
      encU 1 c.kindCode ++ encU 1 c.unit ++ encFlag r.active ++ encU 2 r.occurrences
        ++ encWord (r.last.getD 0) }

/-- R155: a notice is withheld, not sent, or offered to the outbound queue; the second component is the
frame lost by the offer. -/
def offerNoticeOnce (c : CondId) (s : State) : State × Option OutFrame :=
  match noticeFate s c with
  | .withheld => (s.setCond c { s.cond c with withheld := true }, none)
  | .notSent => (s.setCond c { s.cond c with withheld := false }, none)
  | .queued level =>
    enqueue (noticeFrame c (s.cond c) level) (s.setCond c { s.cond c with withheld := false })

/-- R152: an occurrence, or a rise of a state-type condition, counted, dated and latched. -/
def recordOccurrence (c : CondId) (s : State) : State :=
  let r := s.cond c
  s.setCond c
    { r with
      latched := true
      occurrences := count1 cap16 r.occurrences
      first := if r.latched then r.first else some s.now
      last := some s.now }

/-- R169: a lost frame is counted and OUTBOUND_DISCARD occurs; if that latches it, its notice is
offered, and the discard which that offer may cause is counted and occurs again. -/
def loseFrame (g : OutFrame) (s : State) : State :=
  let s1 := countDiscard g.kind s
  let s2 := recordOccurrence .outboundDiscard s1
  if (s1.cond .outboundDiscard).latched then s2
  else
    let r := offerNoticeOnce .outboundDiscard s2
    match r.2 with
    | none => r.1
    | some h => recordOccurrence .outboundDiscard (countDiscard h.kind r.1)

/-- An offer's outcome with the loss it may have caused (R169). -/
def afterOffer (r : State × Option OutFrame) : State :=
  match r.2 with
  | none => r.1
  | some g => loseFrame g r.1

/-- R169: a frame is offered to the outbound queue. -/
def offer (f : OutFrame) (s : State) : State := afterOffer (enqueue f s)

/-- R155: the notice of a condition record is offered. -/
def offerNotice (c : CondId) (s : State) : State := afterOffer (offerNoticeOnce c s)

/-! ### Reports to the Condition Unit (R152) -/

/-- R152: a record that was unlatched offers its notice once it is latched. -/
def latchAndNotify (c : CondId) (s : State) : State :=
  if (s.cond c).latched then recordOccurrence c s else offerNotice c (recordOccurrence c s)

/-- R152: a state-type condition is reported active. -/
def reportActive (c : CondId) (s : State) : State :=
  if (s.cond c).active then s
  else latchAndNotify c (s.setCond c { s.cond c with active := true })

/-- R152: a state-type condition is reported inactive. -/
def reportInactive (c : CondId) (s : State) : State :=
  if (s.cond c).active then s.setCond c { s.cond c with active := false } else s

/-- R152: a state-type condition is evaluated. -/
def report (c : CondId) (active : Bool) (s : State) : State :=
  if active then reportActive c s else reportInactive c s

/-- R152: an event-type condition occurs. -/
def occur (c : CondId) (s : State) : State := latchAndNotify c s

/-- R156: every withheld notice is offered again, in ascending order of kind code and unit; the levels
and the gate release it, drop it or keep it back. -/
def releaseNotices (s : State) : State :=
  allConds.foldl (fun s c => if (s.cond c).withheld then offerNotice c s else s) s

end Sys2Proof.Machine
end

