-- ==== Sys2Proof/Machine/Correction.lean ====
section
/-! DEFINITION. The stages of the interval computation (R13 to R24) as a function of their inputs, and
the correction terms that proving shares with them (R139, R140). -/

namespace Sys2Proof.Machine

/-- R18, R139: the temperature correction of a product at a temperature, and whether it was clamped at
a table end or taken as 1,000,000 for an EMPTY product. -/
def ctlAt (product : Option ProductCopy) (t : Int) : Int × Bool :=
  match product with
  | none => (1000000, true)
  | some c => (interpolate (expansionPairs c.points) t, outsideTable (expansionPairs c.points) t)

/-- R19, R139: the pressure correction of a product at a pressure, and whether it was capped. -/
def cplAt (product : Option ProductCopy) (pres : Int) : Int × Bool :=
  let f : Nat := (product.map (·.compressibility)).getD 0
  let v := 1000000 + roundHalfUp (f * max pres 0) 10000
  if 1050000 < v then (1050000, true) else (v, false)

/-- The product of two factors in 1e-6 units, rounded half up (R20, R139, R140). -/
def mulFactor (x y : Int) : Int := roundHalfUp (x * y) 1000000

/-- What an interval is computed from (R4): `curve` is absent when R16 finds no curve to use. -/
structure IntervalInput where
  kFactor : Nat
  p : Nat
  length : Nat
  residues : Residues
  curve : Option (List CurvePoint)
  fallback : Nat
  product : Option ProductCopy
  t : Int
  pres : Int
  rho : Int
  sw : Int
  deriving DecidableEq, Repr

/-- What stages 1 to 10 give, with the clamp marks of R28 and the new residues. -/
structure IntervalOutput where
  iv : Nat
  q : Nat
  rateClamped : Bool
  mf : Int
  curveClamp : Bool
  ctl : Int
  tempOutside : Bool
  cpl : Int
  cplCapped : Bool
  ccf : Int
  gsv : Nat
  nsv : Int
  mass : Int
  rhoStd : Int
  residues : Residues
  deriving DecidableEq, Repr

/-- R15: the flow rate before its clamp. -/
def rateOf (iv length : Nat) : Nat := (roundHalfUp (iv * 360) (10 * length)).toNat

/-- R16, R17: the meter factor. -/
def meterFactor (curve : Option (List CurvePoint)) (fallback q : Nat) : Int :=
  match curve with
  | none => fallback
  | some points => interpolate (curvePairs points) q

/-- R17: whether Q > 0 lies outside the curve's point range. -/
def curveClampAt (curve : Option (List CurvePoint)) (q : Nat) : Bool :=
  match curve with
  | none => false
  | some points => q != 0 && outsideTable (curvePairs points) q

/-- Stages 1 to 10 (R14 to R24). -/
def computeStages (x : IntervalInput) : IntervalOutput :=
  let n1 := x.p * 1000000000 + x.residues.rIV
  let iv := n1 / x.kFactor
  let q0 := rateOf iv x.length
  let q := min q0 10000000
  let mf := meterFactor x.curve x.fallback q
  let ctl := ctlAt x.product x.t
  let cpl := cplAt x.product x.pres
  let ccf := mulFactor (mulFactor mf ctl.1) cpl.1
  let n7 := (iv : Int) * ccf + x.residues.rGSV
  let gsv := (n7 / 1000000).toNat
  let n8 := (gsv : Int) * (10000 - x.sw) + x.residues.rNSV
  let n9 := (iv : Int) * mf * x.rho + x.residues.rM
  { iv, q
    rateClamped := decide (10000000 < q0)
    mf
    curveClamp := curveClampAt x.curve q
    ctl := ctl.1
    tempOutside := ctl.2
    cpl := cpl.1
    cplCapped := cpl.2
    ccf, gsv
    nsv := n8 / 10000
    mass := n9 / 100000000000
    rhoStd := roundHalfUp (x.rho * 1000000000000) (ctl.1 * cpl.1)
    residues :=
      { rIV := n1 % x.kFactor
        rGSV := (n7 % 1000000).toNat
        rNSV := (n8 % 10000).toNat
        rM := (n9 % 100000000000).toNat } }

/-- R26, R98: the interval's quantities added to the totals, each saturating. The pulse count is added
as R98's list says also when IV is 0, where its last paragraph says that every total receives 0
(assumption 32). -/
def Totals.add (t : Totals) (r : IntervalRecord) : Totals :=
  { iv := addTotal t.iv r.iv
    gsv := addTotal t.gsv r.gsv
    nsv := addTotal t.nsv r.nsv
    mass := addTotal t.mass r.mass
    pulses := addTotal t.pulses r.p }

/-- R13: the line density and its input code. -/
def State.densityReading (s : State) : Reading :=
  let standard : Option Nat := (s.product s.retained.batch.product).bind (·.defaultDensity)
  match s.retained.station.bind (·.densitySlot) with
  | some slot =>
    if s.retained.bindings[slot].isSome then s.reading slot
    else ⟨((standard.getD 0 : Nat) : Int), 3⟩
  | none =>
    match standard with
    | some d => ⟨(d : Int), 0⟩
    | none => ⟨0, 3⟩

/-- R13: the water cut and its input code. -/
def State.waterReading (s : State) : Reading :=
  match s.retained.station.bind (·.waterSlot) with
  | some slot => s.reading slot
  | none => ⟨0, 0⟩

/-- R16: the points of the curve that stage 3 uses for a run, absent when there is none. -/
def State.curveInUse (s : State) (r : Fin 4) : Option (List CurvePoint) :=
  match s.retained.station with
  | none => none
  | some st =>
    if st.layout.allows r s.retained.batch.product then
      ((s.curve r s.retained.batch.product).inService).map (·.points)
    else none

end Sys2Proof.Machine
end

