-- ==== Sys2Proof/Machine/Flags.lean ====
section
/-! DEFINITION. The flags the spec has a computation or an accumulator set: the result flags of R28, the
summary flags of R98, and the bytes they are packed into (R176, R177). -/

namespace Sys2Proof.Machine

/-- The number whose bit n is the n-th flag of the list. -/
def packBits : List Bool → Nat
  | [] => 0
  | b :: rest => b.toNat + 2 * packBits rest

/-- R28: the result flags of an interval. -/
def resultFlags (t pres rho sw : Reading) (curveFound : Bool) (out : IntervalOutput) (ps : PulseState)
    (primary : Channel) (first : Bool) : ResultFlags :=
  { codeT := t.code
    codeP := pres.code
    codeRho := rho.code
    codeSW := sw.code
    fallback := !curveFound
    curveClamp := out.curveClamp
    tableClamp := out.tempOutside || out.cplCapped
    rateClamped := out.rateClamped
    coarse := ps.coarse
    fine := ps.fine
    substituted := ps.totalizing != primary
    firstOfBatch := first }

/-- R176: byte 1 of a RESULT payload. -/
def ResultFlags.codeByte (f : ResultFlags) : Nat :=
  f.codeT + 4 * f.codeP + 16 * f.codeRho + 64 * f.codeSW

/-- R176: byte 2 of a RESULT payload. -/
def ResultFlags.flagByte (f : ResultFlags) : Nat :=
  packBits [f.fallback, f.curveClamp, f.tableClamp, f.rateClamped, f.coarse, f.fine, f.substituted,
    f.firstOfBatch]

/-- R98: the summary flags after a record; a flag once set stays set. -/
def SummaryFlags.add (s : SummaryFlags) (f : ResultFlags) : SummaryFlags :=
  { s with
    channelSubstituted := s.channelSubstituted || f.substituted
    inputHeld :=
      s.inputHeld || decide (2 ≤ f.codeT) || decide (2 ≤ f.codeP) || decide (2 ≤ f.codeRho)
        || decide (2 ≤ f.codeSW)
    curveClampOrFallback := s.curveClampOrFallback || f.curveClamp || f.fallback }

/-- The summary flags as four bits, in the order of R98. -/
def SummaryFlags.bits (s : SummaryFlags) : List Bool :=
  [s.channelSubstituted, s.inputHeld, s.curveClampOrFallback, s.proveAccepted]

end Sys2Proof.Machine
end

