-- ==== Sys2Proof/Machine/ProveOps.lean ====
section
/-! DEFINITION. What happens to a prove session and to the pass in progress (chapters 6 and 7):
spoiling and completing a pass, forming a prove run, the repeatability test, the new meter factor, and
the end of a session. -/

namespace Sys2Proof.Machine

/-- R125: the pass state between passes. -/
def State.nextPassState (s : State) : SessionState :=
  match s.retained.prover with
  | some p => if p.autoRelease then .armed else .held
  | none => .held

/-! ### Means over passes and prove runs (R136, R138) -/

/-- A mean rounded half up. -/
def meanUp (values : List Int) : Int := roundHalfUp values.sum values.length

/-- A mean rounded half away from zero. -/
def meanAway (values : List Int) : Int := roundHalfAway values.sum values.length

/-- The mean of process values, with the highest input code among them (R136). -/
def meanReading (values : List Reading) : Reading :=
  ⟨meanAway (values.map (·.value)), (values.map (·.code)).foldl max 0⟩

/-- R136: the prove-run record formed from the passes of the pass list. -/
def formRun (number spoiled : Nat) (passes : List PassRecord) : ProveRun :=
  { number
    firstPass := (passes.head?.map (·.number)).getD 0
    lastPass := (passes.getLast?.map (·.number)).getD 0
    ni := meanUp (passes.map (·.ni))
    rate := meanUp (passes.map (·.rate))
    proverT := meanReading (passes.map (·.proverT))
    proverP := meanReading (passes.map (·.proverP))
    meterT := meanReading (passes.map (·.meterT))
    meterP := meanReading (passes.map (·.meterP))
    rateClamped := passes.any (·.rateClamped)
    spoiled }

/-- The last `m` prove runs. -/
def lastRuns (m : Nat) (runs : List ProveRun) : List ProveRun := runs.drop (runs.length - m)

/-- The largest of a list of mean NI. -/
def maxNi (runs : List ProveRun) : Int :=
  (runs.map (·.ni)).foldl max ((runs.head?.map (·.ni)).getD 0)

/-- The smallest of a list of mean NI. -/
def minNi (runs : List ProveRun) : Int :=
  (runs.map (·.ni)).foldl min ((runs.head?.map (·.ni)).getD 0)

/-- R137: whether a window of prove runs repeats. -/
def repeats (limit : Nat) (window : List ProveRun) : Bool :=
  decide ((maxNi window - minNi window) * 100000 ≤ limit * minNi window)

/-- R137: the spread of a window, saturating at 65,535. -/
def spreadOf (window : List ProveRun) : Nat :=
  min (roundHalfUp ((maxNi window - minNi window) * 100000) (minNi window)).toNat cap16

/-- R138 to R140: the results formed from the prove runs of the final window. -/
def formResults (rec : ProverRecord) (product : Option ProductCopy) (kFactor : Nat)
    (window : List ProveRun) : Results :=
  let ni := meanUp (window.map (·.ni))
  let tPv := meanAway (window.map (·.proverT.value))
  let pPv := meanAway (window.map (·.proverP.value))
  let tMt := meanAway (window.map (·.meterT.value))
  let pMt := meanAway (window.map (·.meterP.value))
  let ctsp := 1000000 + roundHalfAway (rec.gc * (tPv - 1500)) 10000
  let cpsp := 1000000 + roundHalfUp (rec.gp * max pPv 0) 10000
  let ctlp := ctlAt product tPv
  let cplp := cplAt product pPv
  let ccfp := mulFactor (mulFactor (mulFactor ctsp cpsp) ctlp.1) cplp.1
  let ctlm := ctlAt product tMt
  let cplm := cplAt product pMt
  let ccfm := mulFactor ctlm.1 cplm.1
  let mfNew := min (roundHalfUp (rec.bpv * ccfp * kFactor) (ni * ccfm)) 16777215
  { ni
    qProve := meanUp (window.map (·.rate))
    tPv, pPv, tMt, pMt, ctsp, cpsp
    ctlp := ctlp.1
    cplp := cplp.1
    ccfp
    ctlm := ctlm.1
    cplm := cplm.1
    ccfm, mfNew
    tableClamp := ctlp.2 || cplp.2 || ctlm.2 || cplm.2
    factorRange := decide (mfNew < 900000) || decide (1100000 < mfNew) }

/-! ### The prove report (R144) -/

/-- The prove runs of the last window tested; none when no window was tested. -/
def Session.windowRuns (x : Session) : List ProveRun :=
  match x.lastWindow with
  | none => []
  | some w => x.proveRuns.filter fun r => decide (w.first ≤ r.number) && decide (r.number ≤ w.last)

/-- Whether a prove run recorded an input code of 2 or 3. -/
def ProveRun.inputMark (r : ProveRun) : Bool :=
  decide (2 ≤ r.proverT.code) || decide (2 ≤ r.proverP.code) || decide (2 ≤ r.meterT.code)
    || decide (2 ≤ r.meterP.code)

/-- R144: the rate-clamped mark of the report. -/
def Session.rateMark (x : Session) : Bool := x.windowRuns.any (·.rateClamped)

/-- R144: the input mark of the report, over the window, or for a FAILED session over every run. -/
def Session.inputMark (x : Session) : Bool :=
  if x.state = .failed then x.proveRuns.any (·.inputMark) else x.windowRuns.any (·.inputMark)

/-- R177: the 14-byte payload of a PROVE_REPORT. -/
def reportPayload (x : Session) : List Byte :=
  let run : Nat := (x.attached.map (·.val)).getD 0
  let failed : Nat := if x.state = .failed then 1 else 0
  let mf : Option Int := x.results.map (·.mfNew)
  let q : Option Int := x.results.map (·.qProve)
  let spread : Option Nat := x.lastWindow.map (·.spread)
  let marks : List Bool :=
    [(x.results.map (·.tableClamp)).getD false, (x.results.map (·.factorRange)).getD false,
      x.rateMark, x.inputMark, mf.isSome, q.isSome, spread.isSome]
  encU 1 (run + 4 * failed + 8 * (x.endCause.code - 1)) ++ encU 1 x.proveRuns.length
    ++ encU 3 (mf.getD 0) ++ encU 4 (q.getD 0) ++ encU 2 (spread.getD 0) ++ encU 2 x.spoiledTotal
    ++ encU 1 (packBits marks)

/-- R144: a PROVE_REPORT frame is queued at the prove-report level of the station record. -/
def offerReport (s : State) : State :=
  match s.retained.station with
  | none => s
  | some st =>
    offer
      { kind := .proveReport, dest := allNodes, level := st.reportLevel, source := 0
        payload := reportPayload s.session } s

/-! ### The end of a session (R135, R141 to R143) -/

/-- R135: the session leaves the active states: a pass in progress is abandoned, uncounted, and its
items become absent. -/
def Session.leave (x : Session) (state : SessionState) (cause : EndCause) : Session :=
  { x with state, endCause := cause, items := {} }

/-- R142: the session fails. -/
def failSession (cause : EndCause) (s : State) : State :=
  occur .proveFailed (offerReport (s.setSession (s.session.leave .failed cause)))

/-- R141: the repeatability test has passed and the session is COMPLETE. -/
def completeSession (rec : ProverRecord) (window : List ProveRun) (s : State) : State :=
  let product := s.session.product.bind s.product
  let results := formResults rec product (s.session.kFactor.getD 0) window
  let x := { s.session.leave .complete .completed with results := some results }
  occur .proveComplete (offerReport (s.setSession x))

/-- R143: a report of a batch close or opening at an expiry fails an active session. -/
def batchReport (s : State) : State :=
  if s.session.state.active then failSession .productChanged s else s

/-! ### Spoiled passes (R125, R128) -/

/-- R128: the pass in progress is spoiled; the third in a row fails the session. -/
def spoilPass (cause : SpoilCause) (s : State) : State :=
  let x := s.session
  let x1 : Session :=
    { x with
      items := {}
      lastOutcome := .spoiled cause
      spoiledTotal := count1 cap16 x.spoiledTotal
      spoiledForRun := count1 cap16 x.spoiledForRun
      consecutive := count1 3 x.consecutive }
  let s1 := occur .provePassSpoiled (s.setSession x1)
  if x1.consecutive = 3 then failSession .spoiledPasses s1
  else s1.setSession { s1.session with state := s1.nextPassState }

/-- R127: a report of the Pulse Unit spoils the attached run's pass while it is timed. -/
def pulseUnitReport (cause : SpoilCause) (r : Fin 4) (s : State) : State :=
  if s.proving r && (s.session.state == .timing || s.session.state == .finishing) then
    spoilPass cause s
  else s

/-! ### Completed passes (R121 to R125, R136, R137) -/

/-- R122: the interpolated pulse count. -/
def interpolatedPulses (nWhole td tp : Nat) : Int := roundHalfUp (nWhole * td * 1000) tp

/-- R123: the pass flow rate before its clamp. -/
def passRate (ni : Int) (kFactor td : Nat) : Int :=
  roundHalfUp (ni * 3600000000000) (kFactor * td)

/-- R137: the repeatability test after a prove run has been formed. -/
def testRepeatability (rec : ProverRecord) (s : State) : State :=
  let runs := s.session.proveRuns
  if runs.length < rec.runsRequired then
    s.setSession { s.session with state := s.nextPassState }
  else
    let window := lastRuns rec.runsRequired runs
    let tested : TestWindow :=
      { first := runs.length - rec.runsRequired + 1, last := runs.length, spread := spreadOf window }
    let s1 := s.setSession { s.session with lastWindow := some tested }
    if repeats rec.repeatLimit window then completeSession rec window s1
    else if rec.maxRuns ≤ runs.length then failSession .notRepeatable s1
    else s1.setSession { s1.session with state := s1.nextPassState }

/-- R124, R136: a pass record is appended to the pass list; N passes form a prove run. -/
def recordPass (rec : ProverRecord) (pass : PassRecord) (s : State) : State :=
  let x := s.session
  let passes := x.passes ++ [pass]
  let x1 : Session :=
    { x with
      passes
      items := {}
      completed := x.completed + 1
      consecutive := 0
      lastOutcome := .completed (x.completed + 1) }
  if passes.length < rec.passesPerRun then s.setSession { x1 with state := s.nextPassState }
  else
    let run := formRun (x.proveRuns.length + 1) x.spoiledForRun passes
    testRepeatability rec
      (s.setSession
        { x1 with passes := [], proveRuns := x.proveRuns ++ [run], spoiledForRun := 0 })

/-- R121 to R124: the pass whose whole pulses end at `tP2`, with `nWhole` pulses counted. -/
def formPass (s : State) (rec : ProverRecord) (r : Fin 4) (tD1 tP1 tD2 tP2 : Word32)
    (nWhole : Nat) : PassRecord :=
  let td := (tD2 - tD1).toNat
  let tp := (tP2 - tP1).toNat
  let ni := interpolatedPulses nWhole td tp
  let rate := passRate ni (((s.settings r).map (·.kFactor)).getD 0) td
  let meterSlot (slot : RunSettings → Fin 16) : Reading :=
    match s.settings r with
    | some x => s.reading (slot x)
    | none => ⟨0, 3⟩
  { number := s.session.completed + 1
    tD1, tP1, tD2, tP2, nWhole, td, tp, ni
    rate := min rate 10000000
    rateClamped := decide (10000000 < rate)
    proverT := s.reading rec.tSlot
    proverP := s.reading rec.pSlot
    meterT := meterSlot (·.tSlot)
    meterP := meterSlot (·.pSlot)
    channel := s.pulses[r].totalizing
    spoiledBefore := s.session.consecutive }

/-- R121: the pulse at t_P2 ends the pass. A pass in FINISHING has t_D1, t_P1 and t_D2, and a session
that is active has a prover record, so the last case does not arise. -/
def completePass (r : Fin 4) (tP2 : Word32) (s : State) : State :=
  let x := s.session
  match s.retained.prover, x.items.tD1, x.items.tP1, x.items.tD2 with
  | some rec, some tD1, some tP1, some tD2 =>
    if x.items.running + 1 < rec.minPulses then spoilPass .fewPulses s
    else recordPass rec (formPass s rec r tD1 tP1 tD2 tP2 (x.items.running + 1)) s
  | _, _, _, _ => s

/-- R120: a pulse of the attached run, with its timestamp, is handled by the pass state. -/
def deliverPulse (r : Fin 4) (stamp : Word32) (s : State) : State :=
  let x := s.session
  match x.state with
  | .timing =>
    match x.items.tP1 with
    | none =>
      s.setSession { x with items := { x.items with tP1 := some stamp, lastPulse := some stamp } }
    | some _ =>
      s.setSession
        { x with items := { x.items with running := x.items.running + 1, lastPulse := some stamp } }
  | .finishing => completePass r stamp s
  | _ => s

/-! ### Detector events in the pass states (R118, R119) -/

/-- A detector event in a pass state that does not expect it. -/
def strayEvent (s : State) : State :=
  s.setSession { s.session with stray := count1 cap16 s.session.stray }

/-- R118: a DET1 event reaches the pass state. -/
def passDet1 (stamp : Word32) (s : State) : State :=
  match s.session.state with
  | .armed =>
    s.setSession
      { s.session with
        state := .timing
        items := { tD1 := some stamp, timeoutRunning := true } }
  | .timing | .finishing => strayEvent s
  | _ => s

/-- R119: a DET2 event reaches the pass state. -/
def passDet2 (stamp : Word32) (s : State) : State :=
  match s.session.state with
  | .armed | .finishing => strayEvent s
  | .timing =>
    match s.session.items.tP1 with
    | some _ =>
      s.setSession
        { s.session with
          state := .finishing
          items := { s.session.items with tD2 := some stamp } }
    | none => spoilPass .fewPulses s
  | _ => s

end Sys2Proof.Machine
end

