-- ==== Sys2Proof/Machine/PulseOps.lean ====
section
/-! DEFINITION. The comparison of a run's two pulse channels (R37 to R44), the change of totalizing
channel (R36, R42), and the conditions the Pulse Unit raises (R46). -/

namespace Sys2Proof.Machine

/-- "Restarting the window" (R37). -/
def PulseState.restartWindow (p : PulseState) : PulseState := { p with windows := ⟨0, 0⟩ }

/-- Both agreement flags cleared. -/
def PulseState.clearFlags (p : PulseState) : PulseState := { p with coarse := false, fine := false }

/-- R41: disagreement pulses added to both counts of a run. -/
def PulseState.addDisagreement (p : PulseState) (d : Nat) : PulseState :=
  { p with
    cumDisagree := addSat cap32 p.cumDisagree d
    batchDisagree := addSat cap32 p.batchDisagree d }

/-- R43: the window restarts, both flags clear and both channels become NORMAL. -/
def PulseState.resetComparison (p : PulseState) : PulseState :=
  { p with windows := ⟨0, 0⟩, coarse := false, fine := false, status := ⟨.normal, .normal⟩ }

/-- R42: what the loss of a channel does to the change state. -/
def PulseState.substitute (p : PulseState) (lost : Channel) : PulseState :=
  if lost = p.totalizing then
    if p.status.get lost.other = .normal ∧ p.change = none then { p with change := some lost.other }
    else p
  else if p.change = some lost then { p with change := none }
  else p

/-- R38: a channel that has counted nothing in the window is found at a checkpoint. -/
def PulseState.lose (p : PulseState) (ch : Channel) : PulseState :=
  let q := ({ p with status := p.status.set ch .lost }).clearFlags.restartWindow
  if p.status.get ch = .lost then q else q.substitute ch

/-- R39: a checkpoint at which both channels are NORMAL. -/
def PulseState.checkNormal (p : PulseState) (lead d : Nat) : PulseState :=
  if 2 ≤ d then (p.addDisagreement d).clearFlags.restartWindow
  else if lead = 16 then p
  else if lead = 32 then { p with coarse := true }
  else if d = 0 then ({ p with coarse := true, fine := true }).restartWindow
  else ({ p.addDisagreement 1 with fine := false }).restartWindow

/-- R40: a checkpoint at which a channel is LOST and both have counted: no flag is set, no disagreement
is added, and with d of 0 or 1 every LOST channel recovers. -/
def PulseState.checkLost (p : PulseState) (lead d : Nat) : PulseState :=
  if 2 ≤ d then p.clearFlags.restartWindow
  else
    let q := { p with status := ⟨.normal, .normal⟩ }
    if lead = 64 then ({ q with fine := if d = 1 then false else q.fine }).restartWindow else q

/-- R38 to R40: the checkpoint that the pulse on channel `ch` has reached. -/
def PulseState.checkpoint (p : PulseState) (ch : Channel) : PulseState :=
  let lead := p.windows.get ch
  let lag := p.windows.get ch.other
  let d := lead - lag - 1
  if lag = 0 then p.lose ch.other
  else if p.status.a = .normal ∧ p.status.b = .normal then p.checkNormal lead d
  else p.checkLost lead d

/-- R37: whether the pulse just counted on `ch` made the leading count 16, 32 or 64. -/
def PulseState.atCheckpoint (p : PulseState) (ch : Channel) : Bool :=
  let n := p.windows.get ch
  (n == 16 || n == 32 || n == 64) && decide (p.windows.get ch.other < n)

/-- R46: the three conditions of a run are evaluated. -/
def evalPulseConds (r : Fin 4) (s : State) : State :=
  let p := s.pulses[r]
  let watched := s.dual r && s.runs[r].state != .closed
  let s1 := report (.channelDisagree r) (watched && !p.coarse) s
  let s2 := report (.channelLost r) (watched && (p.status.a == .lost || p.status.b == .lost)) s1
  report (.channelSubstituted r) (watched && p.totalizing != s.primary r) s2

/-- R50: what a change of the pulse state from `before` to `after` reports to the Prove Controller: Fine
cleared, then a change of totalizing channel made pending. -/
def reportPulseUnit (r : Fin 4) (before after : PulseState) (s : State) : State :=
  let s1 := if before.fine && !after.fine then pulseUnitReport .agreement r s else s
  if before.change.isNone && after.change.isSome then pulseUnitReport .channel r s1 else s1

/-- R37: the pulse state once a pulse on `ch` is in its window count. -/
def PulseState.countWindow (p : PulseState) (ch : Channel) : PulseState :=
  { p with windows := p.windows.set ch (p.windows.get ch + 1) }

/-- R32, R35: the pulse state once a pulse on `ch` is in its interval count. -/
def PulseState.countInterval (p : PulseState) (ch : Channel) : PulseState :=
  { p with counts := p.counts.set ch (count1 20000 (p.counts.get ch)) }

/-- R37: a pulse of a DUAL run in its comparison window, with the checkpoint it may reach. -/
def windowPulse (r : Fin 4) (ch : Channel) (s : State) : State :=
  let p := s.pulses[r].countWindow ch
  if p.atCheckpoint ch then
    let q := p.checkpoint ch
    reportPulseUnit r p q (evalPulseConds r (s.setPulse r q))
  else s.setPulse r p

/-- R47: a pulse on the primary channel of a CLOSED run. -/
def idlePulse (r : Fin 4) (s : State) : State :=
  let p := s.pulses[r]
  let s1 := s.setPulse r { p with idle := count1 cap32 p.idle }
  if p.idle = 99 then occur (.pulsesWhileClosed r) s1 else s1

/-- R32, R49: a pulse of a run that is not CLOSED. Pulses of one moment are taken in the order of their
rows, on which the windows of R37 and R38 depend (assumption 35). -/
def runPulse (r : Fin 4) (ch : Channel) (stamp : Word32) (s : State) : State :=
  let s1 := s.setPulse r (s.pulses[r].countInterval ch)
  let s2 := if s1.dual r then windowPulse r ch s1 else s1
  if s2.proving r && s2.pulses[r].totalizing == ch then deliverPulse r stamp s2 else s2

/-- R36: a pending change of totalizing channel is applied at an expiry. -/
def PulseState.applyChange (p : PulseState) : PulseState :=
  match p.change with
  | some t => { p with totalizing := t, change := none }
  | none => p

/-- R36, R50: the pending change of a run is applied at an expiry and reported. -/
def applyChannelChange (r : Fin 4) (s : State) : State :=
  let p := s.pulses[r]
  match p.change with
  | none => s
  | some _ => pulseUnitReport .channel r (s.setPulse r p.applyChange)

/-- R37: the pulse state of a run that goes to CLOSED: its interval counts have been taken and its
window is empty; channel states and flags stay. -/
def PulseState.closeRun (p : PulseState) : PulseState := { p with counts := ⟨0, 0⟩, windows := ⟨0, 0⟩ }

/-- R34: the pulse state of a run after either kind of start. -/
def PulseState.afterStart (primary : Channel) : PulseState := { totalizing := primary }

end Sys2Proof.Machine
end

