-- ==== Sys2Proof/Machine/BatchOps.lean ====
section
/-! DEFINITION. The operations of the Batch Unit (chapter 5): accumulation, the target, opening and
closing a batch, forming its ticket. -/

namespace Sys2Proof.Machine

/-- R112: the two state-type conditions of the Batch Unit are evaluated. -/
def evalBatchConds (s : State) : State :=
  let b := s.retained.batch
  let full :=
    match b.queue with
    | h :: _ => h.state == .closing && decide (4 ≤ b.tickets.length)
    | [] => false
  report .ticketStoreFull full (report .noActiveBatch b.queue.isEmpty s)

/-! ### Accumulation (R96 to R100) -/

/-- R98: a record and its disagreement count added to an entry; `counts` says whether the entry's
interval count increases. -/
def AccEntry.add (e : AccEntry) (r : IntervalRecord) (disagree : Nat) (counts : Bool) : AccEntry :=
  { intervals := if counts then count1 cap32 e.intervals else e.intervals
    totals := e.totals.add r
    sums :=
      { t := e.sums.t + r.iv * r.t
        pres := e.sums.pres + r.iv * r.pres
        rho := e.sums.rho + r.iv * r.rhoLine
        mf := e.sums.mf + r.iv * r.mf }
    disagree := addSat cap32 e.disagree disagree
    flags := e.flags.add r.flags }

/-- R98: a record added to the active accumulator. -/
def ActiveAcc.add (a : ActiveAcc) (r : IntervalRecord) (disagree : Nat) : ActiveAcc :=
  { runs := a.runs.set r.run (a.runs[r.run].add r disagree true)
    station := a.station.add r disagree (a.last != some r.interval)
    last := some r.interval }

/-- R100: a record added to the unbatched accumulator. -/
def UnbatchedAcc.add (u : UnbatchedAcc) (r : IntervalRecord) (disagree : Nat) : UnbatchedAcc :=
  { intervals := if u.last != some r.interval then count1 cap32 u.intervals else u.intervals
    totals := u.totals.add r
    disagree := addSat cap32 u.disagree disagree
    last := some r.interval }

/-- R97: whether records go to the active accumulator: the head has opened. -/
def BatchUnit.opened (b : BatchUnit) : Bool := !b.queue.isEmpty && b.progress.opening.isSome

/-- R28, R97: whether the next record of a run is the first of its batch. -/
def BatchUnit.firstOfBatch (b : BatchUnit) (r : Fin 4) : Bool :=
  b.opened && b.acc.runs[r].intervals == 0

/-- R102: whether the target is reached and has not been marked. -/
def BatchUnit.reachesTarget (b : BatchUnit) : Bool :=
  match b.queue with
  | [] => false
  | h :: _ =>
    match h.target with
    | none => false
    | some litres =>
      !b.progress.targetReached && decide (litres * 1000 ≤ b.acc.station.totals.nsv)

/-- The head goes to CLOSING with a cause. -/
def BatchUnit.startClosing (b : BatchUnit) (cause : CloseCause) : BatchUnit :=
  match b.queue with
  | [] => b
  | h :: rest =>
    { b with
      queue := { h with state := .closing } :: rest
      progress := { b.progress with closeCause := some cause } }

/-- Whether the head is ACTIVE with end mode ON_TARGET (R102). -/
def BatchUnit.endsOnTarget (b : BatchUnit) : Bool :=
  match b.queue with
  | h :: _ => h.state == .active && h.endMode == .onTarget
  | [] => false

/-- R102: the target check after a record has been added to the active accumulator. -/
def checkTarget (s : State) : State :=
  let b := s.retained.batch
  if b.reachesTarget then
    let b1 := { b with progress := { b.progress with targetReached := true } }
    let s1 := occur .targetReached (s.setBatch b1)
    if b1.endsOnTarget then evalBatchConds (s1.setBatch (b1.startClosing .target)) else s1
  else s

/-- R97, R98, R100: an interval record and its disagreement count go whole to one accumulator. -/
def accumulate (r : IntervalRecord) (disagree : Nat) (s : State) : State :=
  let b := s.retained.batch
  if b.opened then checkTarget (s.setBatch { b with acc := b.acc.add r disagree })
  else s.setBatch { b with unbatched := b.unbatched.add r disagree }

/-! ### Tickets (R101, R106, R107) -/

/-- R101: the flow-weighted averages of an entry; absent when its IV total is 0 or has saturated. -/
def AccEntry.averages (e : AccEntry) : Option Averages :=
  if e.totals.iv = 0 ∨ cap64 ≤ e.totals.iv then none
  else
    some
      { t := roundHalfAway e.sums.t e.totals.iv
        pres := roundHalfAway e.sums.pres e.totals.iv
        rho := roundHalfAway e.sums.rho e.totals.iv
        mf := roundHalfAway e.sums.mf e.totals.iv }

/-- R107: what a ticket keeps of an entry. -/
def AccEntry.toTicket (e : AccEntry) : TicketEntry :=
  { intervals := e.intervals
    totals := e.totals
    disagree := e.disagree
    flags := e.flags
    averages := e.averages }

/-- The product code of a slot's in-service copy, absent for an EMPTY slot. -/
def State.codeOf (s : State) (p : Fin 8) : Option Nat := (s.product p).map (·.code)

/-- R107: the ticket formed from the head and the active accumulator. The product code is the one
copied at the opening, or for a batch that never opened the one in service now (R105); R67 and R89
leave no queued batch with an EMPTY product, so the last default does not arise. -/
def formTicket (s : State) (h : BatchEntry) : Ticket :=
  let b := s.retained.batch
  { id := h.id
    product := h.product
    productCode := (b.progress.productCode.or (s.codeOf h.product)).getD 0
    opening := b.progress.opening
    closing := s.now
    cause := b.progress.closeCause.getD .command
    target := h.target
    endMode := h.endMode
    targetReached := b.progress.targetReached
    runs :=
      (List.finRange 4).filterMap fun r =>
        if 1 ≤ b.acc.runs[r].intervals then some (r, b.acc.runs[r].toTicket) else none
    station := b.acc.station.toTicket }

/-- R177: the 38-byte payload of a TICKET. -/
def ticketPayload (t : Ticket) : List Byte :=
  encU 4 t.id ++ encU 1 t.product.val ++ encU 2 t.productCode ++ encWord (t.opening.getD 0)
    ++ encWord t.closing ++ encU 1 t.cause.code ++ encU 1 t.runs.length
    ++ encU 1 (packBits (t.station.flags.bits ++ [t.opening.isSome, t.targetReached]))
    ++ encU 8 t.station.totals.nsv ++ encU 8 t.station.totals.mass ++ encU 4 t.station.disagree

/-- R106: a TICKET frame is queued at the ticket level of the station record, if there is one. -/
def offerTicket (t : Ticket) (s : State) : State :=
  match s.retained.station with
  | none => s
  | some st =>
    offer
      { kind := .ticket, dest := allNodes, level := st.ticketLevel, source := 0
        payload := ticketPayload t } s

/-! ### Opening and closing (R92 to R95, R104 to R106) -/

/-- R93: the head opens with an opening interval number; its product code is copied and its product
becomes the product in service. -/
def openHead (opening : Word32) (s : State) : State :=
  let b := s.retained.batch
  match b.queue with
  | [] => s
  | h :: _ =>
    s.setBatch
      { b with
        product := h.product
        progress := { b.progress with opening := some opening, productCode := s.codeOf h.product } }

/-- R106: the queue once its head has left: the next entry becomes ACTIVE, the active accumulator is
zero for it, and nothing of the old head's progress stays. -/
def BatchUnit.dropHead (b : BatchUnit) (t : Ticket) : BatchUnit :=
  { b with
    tickets := b.tickets ++ [t]
    queue :=
      match b.queue.tail with
      | [] => []
      | n :: rest => { n with state := .active } :: rest
    progress := {}
    acc := {} }

/-- R94: the product in service made equal to the product of the active batch. -/
def productFollows (s : State) : State :=
  let b := s.retained.batch
  match b.queue with
  | [] => s
  | h :: _ => s.setBatch { b with product := h.product }

/-- R106: the head closes. At an expiry the batch behind it opens at once and the close is reported to
the Prove Controller; while not METERING it becomes awaiting with its product in service (R92). -/
def closeHead (atExpiry : Bool) (s : State) : State :=
  match s.retained.batch.queue with
  | [] => s
  | h :: _ =>
    let t := formTicket s h
    let s1 := offerTicket t s
    let s2 := s1.setBatch (s1.retained.batch.dropHead t)
    let s3 := if atExpiry then openHead (s2.now + 1) s2 else productFollows s2
    let s4 := evalBatchConds s3
    if atExpiry then batchReport s4 else s4

/-- Whether the head is CLOSING and the ticket list has room. -/
def BatchUnit.canClose (b : BatchUnit) : Bool :=
  match b.queue with
  | h :: _ => h.state == .closing && decide (b.tickets.length < 4)
  | [] => false

/-- R105: while the station is not METERING, a CLOSING batch closes at once when the list has room. -/
def closeIfIdle (s : State) : State :=
  if s.station != .metering && s.retained.batch.canClose then closeHead false s else s

/-- Whether the head is ACTIVE and awaiting. -/
def BatchUnit.awaits (b : BatchUnit) : Bool :=
  match b.queue with
  | h :: _ => h.state == .active && b.progress.opening.isNone
  | [] => false

/-- R93, R104: what the Batch Unit does at an expiry once the records have been accumulated. -/
def batchExpiry (s : State) : State :=
  let b := s.retained.batch
  if b.canClose then closeHead true s
  else if b.awaits then batchReport (openHead (s.now + 1) s)
  else s

end Sys2Proof.Machine
end

