-- ==== Sys2Proof/Machine/Start.lean ====
section
/-! DEFINITION. The soft restart (R181), the hard start (R183), and the end of a step, at which a
pending restart whose reply has gone is taken (R172). -/

namespace Sys2Proof.Machine

/-- R178: the station state after a start that keeps the retained area as it stands. -/
def Retained.stationAfterStart (r : Retained) : StationState :=
  if r.station.isSome && r.levels.isSome then .ready else .configuring

/-- Every volatile item that a hard start and a soft restart give the same value (R5, R34, R53, R72,
R116, R117, R132, R151, R173), and the station state of R178. The clock, the transmitter, the straps
and the kind of the last start are the caller's. -/
def clearVolatile (s : State) : State :=
  { s with
    station := s.retained.stationAfterStart
    timer := none
    runs := .replicate 4 {}
    pulses := .ofFn fun r => PulseState.afterStart (s.primary r)
    live := .replicate 16 {}
    buffer := {}
    det1 := {}
    det2 := {}
    session := {}
    conds := .replicate 115 {}
    receiver := .hunting
    forward := []
    outbound := []
    commands := []
    restartPending := false
    counters := {} }

/-- R53, R151: every loaded binding makes INPUT_FAILED active after a start. -/
def failInputs (s : State) : State :=
  (List.finRange 16).foldl
    (fun s slot =>
      if s.retained.bindings[slot].isSome then reportActive (.inputFailed slot) s else s) s

/-- The end-of-start evaluations (R53, R94, R112). R169 lets the notices of one moment be offered in
either order: here they go in the order of their kinds and units (assumption 8). -/
def endOfStart (s : State) : State := failInputs (evalBatchConds (productFollows s))

/-- R181: the soft restart is taken. The timebase, the Input Unit's 10 ms count, the straps and a frame
in transmission are left as they are. -/
def softRestart (s : State) : State :=
  endOfStart { clearVolatile s with lastStart := .soft }

/-- R162: the node number strapped by NODE0 to NODE5; 63 gives 62. -/
def strappedNode (strap : BitVec 6) : Nat := min strap.toNat 62

/-- R182: the check-word test over what a lost area spells. It passes when the word that stands there is
the check word of the content, and the part has no further guard (assumption 7). -/
def lostAreaPasses (area : Retained × BitVec 16) : Option Retained :=
  if checkWord area.1 = area.2 then some area.1 else none

/-- R182, R183: the check-word test. An area kept whole passes with its content; none is a bad check
word. -/
def goodArea (s : State) : Option Retained :=
  if s.retainedLost then lostAreaPasses (Config.lostArea s.openCount) else some s.retained

/-- R183: the hard start, before the start condition is raised, over what the check-word test has found.
A test over a lost area has drawn an open value. -/
def hardStartCleared (area : Option Retained) (straps : Straps) (s : State) : State :=
  { clearVolatile { s with retained := area.getD {} } with
    power := .running
    retainedLost := false
    node := strappedNode straps.node
    rateCode := straps.rate.toNat
    lastStart := if area.isSome then .hardGood else .hardBad
    timebase := 0
    inputDivider := periodsPer10ms
    transmitter := .free
    openCount := if s.retainedLost then s.openCount + 1 else s.openCount }

/-- R183: a hard start is taken, with the straps as sampled. -/
def hardStart (straps : Straps) (s : State) : State :=
  let area := goodArea s
  endOfStart
    (occur (if area.isSome then .powerRestored else .retentionLost)
      (hardStartCleared area straps s))

/-- Whether a transmitter is sending the marked reply of a RESTART. -/
def Transmitter.sendsMarked : Transmitter → Bool
  | .sending _ (.outboundQueue marked) => marked
  | _ => false

/-- R172: whether the marked reply of a RESTART is still in the outbound queue or being sent. -/
def State.replyWaiting (s : State) : Bool :=
  s.outbound.any (·.marked) || s.transmitter.sendsMarked

/-- R172: at the end of a step, a pending restart is taken if its reply has left or has been lost
(assumption 11). -/
def settle (s : State) : State :=
  if s.restartPending && !s.replyWaiting then softRestart s else s

/-- What a step of this machine answers. -/
abbrev Result := Host.Outcome State Fault Refusal

/-- R183: the part handles nothing while it is inactive; a step that it does handle ends by taking a
restart that has become due. -/
def whenRunning (f : State → State) (s : State) : Result :=
  if s.power = .running then .next (settle (f s)) else .next s

end Sys2Proof.Machine
end

