-- ==== Sys2Proof/Machine/Decoder.lean ====
section
/-! DEFINITION. The Command Decoder (R170, R171): taking a command, the checks that every command
shares, and the reply. -/

namespace Sys2Proof.Machine

/-- The result codes of R171, in the order of their codes. -/
inductive ResultCode
  | ok
  | busy
  | wrongState
  | badArgument
  | badTable
  | storeFull
  | notFound
  | unknownCommand
  | badLength
  | deviation
  deriving DecidableEq, Repr

/-- The code of a result (R171). -/
def ResultCode.code : ResultCode → Nat
  | .ok => 0
  | .busy => 1
  | .wrongState => 2
  | .badArgument => 3
  | .badTable => 4
  | .storeFull => 5
  | .notFound => 6
  | .unknownCommand => 7
  | .badLength => 8
  | .deviation => 9

/-- A command's result code and reply data; `marked` for the reply of an accepted RESTART (R172). -/
structure Reply where
  result : ResultCode
  data : List Byte := []
  marked : Bool := false
  deriving DecidableEq, Repr

/-- A command refused: it changes nothing and its reply carries no data (R171). -/
def refuse (c : ResultCode) (s : State) : State × Reply := (s, { result := c })

/-- A command accepted, with its reply data. -/
def accept (data : List Byte) (s : State) : State × Reply := (s, { result := .ok, data })

/-- R171: a table refused, with its cause and failing index. -/
def refuseTable (e : TableCause × Nat) (s : State) : State × Reply :=
  (s, { result := .badTable, data := encU 1 e.1.code ++ encU 1 e.2 })

/-- The payload of a command: tag, command code, arguments (R171). -/
def commandPayload (tag : Byte) (code : Nat) (args : List Byte) : List Byte :=
  tag :: BitVec.ofNat 8 code :: args

/-- R170: the Decoder takes the oldest frame of the command buffer. With an empty buffer a command is
taken as it arrives; behind other frames it is not the one the Decoder takes (assumption 1). -/
def takeCommand (f : CommandFrame) (s : State) : Option State :=
  match s.commands with
  | [] => some s
  | g :: rest => if g = f then some { s with commands := rest } else none

/-- R170: a command frame is offered to the command buffer. -/
def bufferCommand (f : CommandFrame) (s : State) : State :=
  if s.commands.length < 4 then { s with commands := s.commands ++ [f] }
  else { s with counters := { s.counters with cmdOverflow := count1 cap16 s.counters.cmdOverflow } }

/-- R168, R171: the reply of a command is offered to the outbound queue. -/
def offerReply (src tag : Byte) (code : Nat) (r : Reply) (s : State) : State :=
  offer
    { kind := .reply, dest := src, level := 7, source := 0
      payload := tag :: BitVec.ofNat 8 code :: (encU 1 r.result.code ++ r.data)
      marked := r.marked } s

/-- R171, R172: a command that the Decoder has taken: refused with BUSY while a RESTART is pending,
otherwise handled by its owner; then its reply is offered. -/
def answer (src tag : Byte) (code : Nat) (body : State → State × Reply) (s : State) : State :=
  let r := if s.restartPending then refuse .busy s else body s
  offerReply src tag code r.2 r.1

/-- R170, R171: a loop command. `body` is its owning rule, from the length check on. -/
def runCommand (code : Nat) (src tag : Byte) (args : List Byte)
    (body : State → State × Reply) (s : State) : Result :=
  whenRunning
    (fun s =>
      match takeCommand ⟨src, commandPayload tag code args⟩ s with
      | some s1 => answer src tag code body s1
      | none => bufferCommand ⟨src, commandPayload tag code args⟩ s) s

/-- R171: the argument length check, then the rest of a command. -/
def withLength (n : Nat) (args : List Byte) (body : State → State × Reply) (s : State) :
    State × Reply :=
  if args.length = n then body s else refuse .badLength s

/-- The next open word, and the state in which it has been drawn (assumption 18). -/
def drawOpen (s : State) : State × Word32 :=
  ({ s with openCount := s.openCount + 1 }, Config.openWord s.openCount)

end Sys2Proof.Machine
end

