-- ==== Sys2Proof/Machine/Operands.lean ====
section
/-! DEFINITION. The arguments of the loop commands (R175): each reader takes the argument bytes, whose
length has been checked, and answers none where a field lies outside its range (BAD_ARGUMENT). Reply
data that several commands share stand at the end. -/

namespace Sys2Proof.Machine

/-- A value that must satisfy a range check. -/
def check (b : Bool) : Option Unit := if b then some () else none

/-- A run index, 0 to 3. -/
def asRun (n : Nat) : Option (Fin 4) := if h : n < 4 then some ⟨n, h⟩ else none

/-- A product slot, 0 to 7. -/
def asProduct (n : Nat) : Option (Fin 8) := if h : n < 8 then some ⟨n, h⟩ else none

/-- A binding slot, 0 to 15. -/
def asSlot (n : Nat) : Option (Fin 16) := if h : n < 16 then some ⟨n, h⟩ else none

/-- A flag or mark, 0 or 1 (assumption 17). -/
def asFlag : Nat → Option Bool
  | 0 => some false
  | 1 => some true
  | _ => none

def asChannel : Nat → Option Channel
  | 0 => some .a
  | 1 => some .b
  | _ => none

def asPulseMode : Nat → Option PulseMode
  | 0 => some .single
  | 1 => some .dual
  | _ => none

def asBindingKind : Nat → Option BindingKind
  | 0 => some .temperature
  | 1 => some .pressure
  | 2 => some .density
  | 3 => some .waterCut
  | _ => none

def asLayout : Nat → Option Layout
  | 0 => some .l4R4P
  | 1 => some .l2R8P
  | 2 => some .l4R8P
  | _ => none

def asEndMode : Nat → Option EndMode
  | 0 => some .onTarget
  | 1 => some .onCommand
  | _ => none

def asEdge : Nat → Option Edge
  | 0 => some .rising
  | 1 => some .falling
  | _ => none

/-- Which copy of a table a read names: true for PENDING. -/
def asPendingCopy : Nat → Option Bool
  | 0 => some false
  | 1 => some true
  | _ => none

/-- A binding slot that may be absent, at offset `at0`: presence byte, then slot. The byte of a slot
marked absent is not looked at, although R175 has it sent as zero (assumption 17). -/
def argSlotOpt (args : List Byte) (at0 : Nat) : Option (Option (Fin 16)) := do
  let present ← asFlag (argU args at0 1)
  if present then
    let slot ← asSlot (argU args (at0 + 1) 1)
    some (some slot)
  else some none

/-- R179: the station record of LOAD_STATION. -/
def readStationRecord (args : List Byte) : Option StationRecord := do
  let length := argU args 0 1
  let _ ← check (10 ≤ length && length ≤ 100)
  let layout ← asLayout (argU args 1 1)
  let spacing := argU args 2 1
  let _ ← check (spacing ≤ 60)
  let resultLevel := argU args 3 1
  let _ ← check (1 ≤ resultLevel && resultLevel ≤ 7)
  let ticketLevel := argU args 4 1
  let _ ← check (1 ≤ ticketLevel && ticketLevel ≤ 7)
  let reportLevel := argU args 5 1
  let _ ← check (1 ≤ reportLevel && reportLevel ≤ 7)
  let densitySlot ← argSlotOpt args 6
  let waterSlot ← argSlotOpt args 8
  some { intervalLength := length, layout, spacing, resultLevel, ticketLevel, reportLevel,
         densitySlot, waterSlot }

/-- R52: the device range of a binding kind. -/
def BindingKind.deviceRange : BindingKind → Int × Int
  | .temperature => (-4000, 10000)
  | .pressure => (0, 200000)
  | .density => (50000, 120000)
  | .waterCut => (0, 10000)

/-- R52, R54: the slot and the binding of LOAD_BINDING; `node` is the part's own node number. -/
def readBinding (node : Nat) (args : List Byte) : Option (Fin 16 × Binding) := do
  let slot ← asSlot (argU args 0 1)
  let kind ← asBindingKind (argU args 1 1)
  let source := argU args 2 1
  let _ ← check (source ≤ 62 && source != node)
  let low := argS args 4 4
  let high := argS args 8 4
  let _ ← check (kind.deviceRange.1 ≤ low && low ≤ kind.deviceRange.2)
  let _ ← check (kind.deviceRange.1 ≤ high && high ≤ kind.deviceRange.2)
  let _ ← check (low ≤ high)
  let stale := argU args 12 2
  let _ ← check (10 ≤ stale && stale ≤ 6000)
  let substitute := argS args 14 4
  let _ ← check (low ≤ substitute && substitute ≤ high)
  some (slot, { kind, node := source, tag := argU args 3 1, low, high, stale, substitute })

/-- R9: the run index and the settings of LOAD_RUN. -/
def readRunSettings (args : List Byte) : Option (Fin 4 × RunSettings) := do
  let run ← asRun (argU args 0 1)
  let kFactor := argU args 1 4
  let _ ← check (1000 ≤ kFactor && kFactor ≤ 4000000000)
  let mode ← asPulseMode (argU args 5 1)
  let primary ← asChannel (argU args 6 1)
  let fallback := argU args 7 3
  let _ ← check (900000 ≤ fallback && fallback ≤ 1100000)
  let tSlot ← asSlot (argU args 10 1)
  let pSlot ← asSlot (argU args 11 1)
  let rateHigh := argU args 12 4
  let _ ← check (rateHigh ≤ 10000000)
  let rateLow := argU args 16 4
  let _ ← check (rateLow ≤ 10000000)
  let _ ← check (rateHigh == 0 || rateLow == 0 || rateLow < rateHigh)
  some (run, { kFactor, mode, primary, fallback, tSlot, pSlot, rateHigh, rateLow })

/-- R73: the target of LOAD_POINTS, from its kind, run and slot bytes. -/
def readTarget (args : List Byte) : Option Target := do
  let run ← asRun (argU args 1 1)
  let slot ← asProduct (argU args 2 1)
  match argU args 0 1 with
  | 0 => some (.curve run slot)
  | 1 => some (.expansion slot)
  | _ => none

/-- R175: the point at a byte offset of LOAD_POINTS: 4 bytes of rate and 3 of factor for a curve, 2
bytes of temperature and 3 of factor for an expansion table. -/
def readPoint (curve : Bool) (args : List Byte) (at0 : Nat) : TablePoint :=
  if curve then { x := argU args at0 4, factor := argU args (at0 + 4) 3 }
  else { x := argS args at0 2, factor := argU args (at0 + 2) 3 }

/-- Bytes in one point of LOAD_POINTS. -/
def pointWidth (curve : Bool) : Nat := if curve then 7 else 5

/-- The points of LOAD_POINTS. -/
def readPoints (curve : Bool) (args : List Byte) : List TablePoint :=
  (List.range ((args.length - 4) / pointWidth curve)).map fun i =>
    readPoint curve args (4 + i * pointWidth curve)

/-- What COMMIT_PRODUCT carries (R76). -/
structure ProductArgs where
  slot : Fin 8
  code : Nat
  compressibility : Nat
  densityLow : Nat
  densityHigh : Nat
  defaultDensity : Option Nat
  count : Nat
  deriving DecidableEq, Repr

/-- R76: the arguments of COMMIT_PRODUCT. The count, in no row of R175, takes 1 byte (assumption 14). -/
def readProductArgs (args : List Byte) : Option ProductArgs := do
  let slot ← asProduct (argU args 0 1)
  let f := argU args 3 3
  let _ ← check (f ≤ 5000)
  let low := argU args 6 3
  let high := argU args 9 3
  let _ ← check (50000 ≤ low && low ≤ 120000 && 50000 ≤ high && high ≤ 120000 && low ≤ high)
  let present ← asFlag (argU args 12 1)
  let d := argU args 13 3
  let _ ← check (!present || (low ≤ d && d ≤ high))
  some { slot, code := argU args 1 2, compressibility := f, densityLow := low, densityHigh := high,
         defaultDensity := if present then some d else none, count := argU args 16 1 }

/-- What QUEUE_BATCH carries (R89). -/
structure BatchArgs where
  id : Nat
  product : Fin 8
  target : Option Nat
  endMode : EndMode
  deriving DecidableEq, Repr

/-- R89: the first two checks of QUEUE_BATCH. -/
def readBatchArgs (args : List Byte) : Option BatchArgs := do
  let id := argU args 0 4
  let _ ← check (id != 0)
  let product ← asProduct (argU args 4 1)
  let present ← asFlag (argU args 5 1)
  let litres := argU args 6 4
  let _ ← check (!present || litres != 0)
  let endMode ← asEndMode (argU args 10 1)
  let _ ← check (present || endMode != .onTarget)
  some { id, product, target := if present then some litres else none, endMode }

/-- R113: the prover record of LOAD_PROVER. The passes per prove run, the consecutive runs and the maximum
prove runs, in no row of R175, take 1 byte each (assumption 14). R113 gives the two enables and the
auto-release as "On or off", and R175 leaves open whether such a field is a list, with on at position 0, or a
flag: the model reads them as flags, 1 for on and 0 for off (assumption 37, DESIGN CHOICE). -/
def readProverRecord (args : List Byte) : Option ProverRecord := do
  let bpv := argU args 0 4
  let _ ← check (1000 ≤ bpv && bpv ≤ 10000000)
  let gc := argU args 4 3
  let _ ← check (gc ≤ 5000)
  let gp := argU args 7 3
  let _ ← check (gp ≤ 1000)
  let tSlot ← asSlot (argU args 10 1)
  let pSlot ← asSlot (argU args 11 1)
  let enable1 ← asFlag (argU args 12 1)
  let enable2 ← asFlag (argU args 13 1)
  let polarity1 ← asEdge (argU args 14 1)
  let polarity2 ← asEdge (argU args 15 1)
  let dead1 := argU args 16 2
  let _ ← check (1 ≤ dead1 && dead1 ≤ 250)
  let dead2 := argU args 18 2
  let _ ← check (1 ≤ dead2 && dead2 ≤ 250)
  let timeout := argU args 20 2
  let _ ← check (10 ≤ timeout && timeout ≤ 40000)
  let minPulses := argU args 22 2
  let _ ← check (100 ≤ minPulses)
  let passesPerRun := argU args 24 1
  let _ ← check (1 ≤ passesPerRun && passesPerRun ≤ 20)
  let runsRequired := argU args 25 1
  let _ ← check (2 ≤ runsRequired && runsRequired ≤ 5)
  let maxRuns := argU args 26 1
  let _ ← check (runsRequired ≤ maxRuns && maxRuns ≤ 20)
  let repeatLimit := argU args 27 2
  let _ ← check (1 ≤ repeatLimit && repeatLimit ≤ 1000)
  let acceptLimit := argU args 29 2
  let _ ← check (1 ≤ acceptLimit && acceptLimit ≤ 10000)
  let autoRelease ← asFlag (argU args 31 1)
  some
    { bpv, gc, gp, tSlot, pSlot
      det1 := { enabled := enable1, polarity := polarity1, deadTime := dead1 }
      det2 := { enabled := enable2, polarity := polarity2, deadTime := dead2 }
      timeout, minPulses, passesPerRun, runsRequired, maxRuns, repeatLimit, acceptLimit, autoRelease }

/-- R157: the 25 levels of LOAD_LEVELS. -/
def readLevels (args : List Byte) : Option (Vector Nat 25) :=
  if args.all (·.toNat ≤ 7) then some (.ofFn fun i => argU args i.val 1) else none

/-! ### Reply data that several commands share -/

/-- Five totals as reply data. -/
def Totals.bytes (t : Totals) : List Byte :=
  encU 8 t.iv ++ encU 8 t.gsv ++ encU 8 t.nsv ++ encU 8 t.mass ++ encU 8 t.pulses

end Sys2Proof.Machine
end

