-- ==== Sys2Proof/Machine/Batches.lean ====
section
/-! DEFINITION. The commands of the Batch Unit (chapter 5): QUEUE_BATCH, CANCEL_BATCH, END_BATCH,
READ_BATCHES, READ_TICKET and TAKE_TICKET. -/

namespace Sys2Proof.Machine

/-! ### QUEUE_BATCH -/

/-- R89: whether an entry of the queue or a ticket has a batch id. -/
def BatchUnit.knows (b : BatchUnit) (id : Nat) : Bool :=
  b.queue.any (fun e => e.id == id) || b.tickets.any (fun t => t.id == id)

/-- R89: the queue entry of a batch; it becomes ACTIVE at once in an empty queue (R92). -/
def BatchArgs.entry (x : BatchArgs) (queue : List BatchEntry) : BatchEntry :=
  { id := x.id
    product := x.product
    target := x.target
    endMode := x.endMode
    state := if queue.isEmpty then .active else .queued }

/-- R92: the Batch Unit once a batch is appended; a new head is awaiting, and its active accumulator is
zero (R96). -/
def BatchUnit.append (b : BatchUnit) (x : BatchArgs) : BatchUnit :=
  if b.queue.isEmpty then { b with queue := [x.entry []], progress := {}, acc := {} }
  else { b with queue := b.queue ++ [x.entry b.queue] }

/-- R89, R92: an accepted QUEUE_BATCH; while the station is not METERING a batch that becomes ACTIVE
puts its product in service at once. -/
def queueEntry (x : BatchArgs) (s : State) : State :=
  let s1 := s.setBatch (s.retained.batch.append x)
  let s2 :=
    if s.retained.batch.queue.isEmpty && s.station != .metering then productFollows s1 else s1
  evalBatchConds s2

/-- R89: QUEUE_BATCH, taken by the Decoder. The position in the reply, in no row of R175, takes 1 byte
(assumption 14). -/
def queueBatch (args : List Byte) (s : State) : State × Reply :=
  withLength 11 args
    (fun s =>
      match readBatchArgs args with
      | none => refuse .badArgument s
      | some x =>
        let b := s.retained.batch
        if b.knows x.id || (s.product x.product).isNone then refuse .badArgument s
        else if 8 ≤ b.queue.length then refuse .storeFull s
        else
          accept (encU 1 b.queue.length ++ encCode (x.entry b.queue).state.code) (queueEntry x s)) s

/-- QUEUE_BATCH (R89, R92). -/
def execQueueBatch (src tag : Byte) (args : List Byte) (s : State) : Result :=
  runCommand 0x28 src tag args (queueBatch args) s

/-! ### CANCEL_BATCH -/

/-- R90: the entry with an id removed from the part of the queue behind the head; none if it is not
there. -/
def dropEntry (id : Nat) : List BatchEntry → Option (List BatchEntry)
  | [] => none
  | e :: rest => if e.id = id then some rest else (dropEntry id rest).map (e :: ·)

/-- R90: CANCEL_BATCH for an id. -/
def cancelId (id : Nat) (s : State) : State × Reply :=
  let b := s.retained.batch
  match b.queue with
  | [] => refuse .notFound s
  | h :: rest =>
    if h.id = id then refuse .wrongState s
    else
      match dropEntry id rest with
      | some rest1 => accept [] (s.setBatch { b with queue := h :: rest1 })
      | none => refuse .notFound s

/-- R90: CANCEL_BATCH, taken by the Decoder. -/
def cancelBatch (args : List Byte) (s : State) : State × Reply :=
  withLength 4 args (fun s => cancelId (argU args 0 4) s) s

/-- CANCEL_BATCH (R90). -/
def execCancelBatch (src tag : Byte) (args : List Byte) (s : State) : Result :=
  runCommand 0x29 src tag args (cancelBatch args) s

/-! ### END_BATCH -/

/-- R103, R105: the head of the queue is ended: an ACTIVE head goes to CLOSING with cause COMMAND, and
while the station is not METERING the close is attempted at once. -/
def endHead (h : BatchEntry) (s : State) : State :=
  let s1 :=
    if h.state = .active then evalBatchConds (s.setBatch (s.retained.batch.startClosing .command))
    else s
  closeIfIdle s1

/-- R103: the head's state after END_BATCH; with an empty queue there is no head and the byte is open
(assumption 18). -/
def headStateData (s : State) : State × List Byte :=
  match s.retained.batch.queue with
  | h :: _ => (s, encCode h.state.code)
  | [] =>
    let d := drawOpen s
    (d.1, [d.2.setWidth 8])

/-- R103: END_BATCH, taken by the Decoder. -/
def endBatch (args : List Byte) (s : State) : State × Reply :=
  withLength 4 args
    (fun s =>
      match s.retained.batch.queue with
      | [] => refuse .notFound s
      | h :: _ =>
        if h.id = argU args 0 4 then
          let d := headStateData (endHead h s)
          accept d.2 d.1
        else refuse .notFound s) s

/-- END_BATCH (R103, R105). -/
def execEndBatch (src tag : Byte) (args : List Byte) (s : State) : Result :=
  runCommand 0x2A src tag args (endBatch args) s

/-! ### The parts that READ_BATCHES and READ_TICKET share (R110, R111) -/

/-- R110: the interval count, disagreement pulses, summary flags and averages of an entry. -/
def TicketEntry.bytes (e : TicketEntry) : List Byte :=
  encU 4 e.intervals ++ encU 4 e.disagree ++ e.flags.bits.flatMap encFlag
    ++ encOpt 11 (fun a : Averages => encS 2 a.t ++ encS 3 a.pres ++ encU 3 a.rho ++ encU 3 a.mf)
        e.averages

/-- R110: parts 1 and 2 for an entry: its totals, or the rest of it. -/
def TicketEntry.part (e : TicketEntry) (totals : Bool) : List Byte :=
  if totals then e.totals.bytes else e.bytes

/-- R110: the entry that a part from 1 to 10 names: none for the station, or a run; and whether it
gives the totals. -/
def partEntry (part : Nat) : Option (Fin 4) × Bool :=
  if part ≤ 2 then (none, part == 1)
  else if part ≤ 6 then (some (Fin.ofNat 4 (part - 3)), true)
  else (some (Fin.ofNat 4 (part - 7)), false)

/-! ### READ_BATCHES -/

/-- R111: a queue entry as reply data. -/
def BatchEntry.bytes (e : BatchEntry) : List Byte :=
  encU 4 e.id ++ encU 1 e.product.val ++ encCode e.state.code ++ encCode e.endMode.code
    ++ encOpt 4 (fun t : Nat => encU 4 t) e.target

/-- R111: part 2 of READ_BATCHES. -/
def progressData (b : BatchUnit) : List Byte :=
  encOpt 4 encWord b.progress.opening ++ encOpt 2 (fun c : Nat => encU 2 c) b.progress.productCode
    ++ encFlag b.progress.targetReached
    ++ encOpt 1 (fun c : CloseCause => encCode c.code) b.progress.closeCause
    ++ encOpt 4 encWord b.acc.last

/-- R111: part 13 of READ_BATCHES. -/
def unbatchedData (u : UnbatchedAcc) : List Byte :=
  encU 4 u.intervals ++ u.totals.bytes ++ encU 4 u.disagree
    ++ encOpt 4 encWord u.last

/-- R111: the entry of the active accumulator that a part of READ_TICKET's form names; its averages are
computed at the read. -/
def ActiveAcc.entry (a : ActiveAcc) (run : Option (Fin 4)) : TicketEntry :=
  match run with
  | none => a.station.toTicket
  | some r => a.runs[r].toTicket

/-- R111: the reply data of READ_BATCHES. One byte is both the number of tickets and the count that R175
puts before their list (assumption 15). -/
def batchesData (part : Nat) (b : BatchUnit) : List Byte :=
  match part with
  | 0 =>
    encU 1 b.queue.length ++ encU 1 b.product.val
      ++ encList (fun t : Ticket => encU 4 t.id) b.tickets
      ++ encList BatchEntry.bytes (b.queue.take 3)
  | 1 => encList BatchEntry.bytes (b.queue.drop 3)
  | 2 => progressData b
  | 13 => unbatchedData b.unbatched
  | n => (b.acc.entry (partEntry (n - 2)).1).part (partEntry (n - 2)).2

/-- R111: READ_BATCHES, taken by the Decoder. -/
def readBatches (args : List Byte) (s : State) : State × Reply :=
  withLength 1 args
    (fun s =>
      let part := argU args 0 1
      let b := s.retained.batch
      if 13 < part then refuse .badArgument s
      else if b.queue.isEmpty ∧ 2 ≤ part ∧ part ≤ 12 then refuse .notFound s
      else accept (batchesData part b) s) s

/-- READ_BATCHES (R111). -/
def execReadBatches (src tag : Byte) (args : List Byte) (s : State) : Result :=
  runCommand 0x2B src tag args (readBatches args) s

/-! ### READ_TICKET -/

/-- The ticket with a batch id. -/
def BatchUnit.ticket (b : BatchUnit) (id : Nat) : Option Ticket := b.tickets.find? (fun t => t.id == id)

/-- R110: part 0 of READ_TICKET. -/
def Ticket.header (t : Ticket) : List Byte :=
  encU 4 t.id ++ encU 1 t.product.val ++ encU 2 t.productCode ++ encOpt 4 encWord t.opening
    ++ encWord t.closing ++ encCode t.cause.code ++ encOpt 4 (fun x : Nat => encU 4 x) t.target
    ++ encCode t.endMode.code ++ encFlag t.targetReached
    ++ encList (fun e : Fin 4 × TicketEntry => encU 1 e.1.val) t.runs

/-- R110: the entry of a ticket that a part names, none for a run that has no run entry. -/
def Ticket.entry (t : Ticket) (run : Option (Fin 4)) : Option TicketEntry :=
  match run with
  | none => some t.station
  | some r => (t.runs.find? (fun e => e.1 == r)).map (·.2)

/-- R110: a part of a ticket as reply data. -/
def Ticket.partData (t : Ticket) (part : Nat) : Option (List Byte) :=
  if part = 0 then some t.header
  else (t.entry (partEntry part).1).map (·.part (partEntry part).2)

/-- R110: READ_TICKET, taken by the Decoder. -/
def readTicket (args : List Byte) (s : State) : State × Reply :=
  withLength 5 args
    (fun s =>
      if 10 < argU args 4 1 then refuse .badArgument s
      else
        match (s.retained.batch.ticket (argU args 0 4)).bind (·.partData (argU args 4 1)) with
        | some data => accept data s
        | none => refuse .notFound s) s

/-- READ_TICKET (R110). -/
def execReadTicket (src tag : Byte) (args : List Byte) (s : State) : Result :=
  runCommand 0x2C src tag args (readTicket args) s

/-! ### TAKE_TICKET -/

/-- R109: the ticket list without the ticket of an id. -/
def dropTicket (id : Nat) : List Ticket → List Ticket
  | [] => []
  | t :: rest => if t.id = id then rest else t :: dropTicket id rest

/-- R109, R105: a ticket is removed; while the station is not METERING a CLOSING batch then closes. -/
def removeTicket (id : Nat) (s : State) : State :=
  let b := s.retained.batch
  closeIfIdle (evalBatchConds (s.setBatch { b with tickets := dropTicket id b.tickets }))

/-- R109: TAKE_TICKET, taken by the Decoder. -/
def takeTicket (args : List Byte) (s : State) : State × Reply :=
  withLength 4 args
    (fun s =>
      match s.retained.batch.ticket (argU args 0 4) with
      | none => refuse .notFound s
      | some _ => accept [] (removeTicket (argU args 0 4) s)) s

/-- TAKE_TICKET (R109, R105). -/
def execTakeTicket (src tag : Byte) (args : List Byte) (s : State) : Result :=
  runCommand 0x2D src tag args (takeTicket args) s

end Sys2Proof.Machine
end

