-- ==== Sys2Proof/Machine/Station.lean ====
section
/-! DEFINITION. The commands of Station Control (chapter 10): LOAD_STATION, READ_STATION,
START_METERING, STOP_METERING and RESTART. -/

namespace Sys2Proof.Machine

/-- R178: CONFIGURING goes to READY when the station record and the level table are both valid. -/
def checkReady (s : State) : State :=
  if s.station = .configuring && s.retained.station.isSome && s.retained.levels.isSome then
    { s with station := .ready }
  else s

/-- R84: the assembly buffer after a layout change. -/
def AssemblyBuffer.afterLayoutChange (b : AssemblyBuffer) : AssemblyBuffer :=
  match b.target with
  | some (.curve _ _) => {}
  | _ => b

/-- R84: a layout different from the one before empties every curve, discards every pending copy of a
curve, and empties an assembly buffer aimed at a curve. -/
def applyLayout (old : Option StationRecord) (new : StationRecord) (s : State) : State :=
  if old.map (·.layout) = some new.layout then s
  else
    { s.setRetained { s.retained with curves := .replicate 32 {} } with
      buffer := s.buffer.afterLayoutChange }

/-- R179: LOAD_STATION, taken by the Decoder. -/
def loadStation (args : List Byte) (s : State) : State × Reply :=
  withLength 10 args
    (fun s =>
      match readStationRecord args with
      | none => refuse .badArgument s
      | some rec =>
        if s.station = .metering then refuse .wrongState s
        else
          let s1 := s.setRetained { s.retained with station := some rec }
          let s2 := checkReady (applyLayout s.retained.station rec s1)
          accept (encCode s2.station.code) s2) s

/-- LOAD_STATION (R179). -/
def execLoadStation (src tag : Byte) (args : List Byte) (s : State) : Result :=
  runCommand 0x08 src tag args (loadStation args) s

/-- The fields of the station record as reply data. -/
def StationRecord.bytes (r : StationRecord) : List Byte :=
  encU 1 r.intervalLength ++ encCode r.layout.code ++ encU 1 r.spacing ++ encU 1 r.resultLevel
    ++ encU 1 r.ticketLevel ++ encU 1 r.reportLevel
    ++ encOpt 1 (fun x : Fin 16 => encU 1 x.val) r.densitySlot
    ++ encOpt 1 (fun x : Fin 16 => encU 1 x.val) r.waterSlot

/-- R1: the interval timer's remaining count of 10 ms, absent while it is stopped. -/
def State.remainingCount (s : State) : Option Nat :=
  s.timer.map fun periods => (periods + (periodsPer10ms - 1)) / periodsPer10ms

/-- R179: the reply data of READ_STATION. The level table is coded as a mark, 1 for valid
(assumption 15). -/
def stationData (s : State) : List Byte :=
  encCode s.station.code ++ encOpt 10 StationRecord.bytes s.retained.station
    ++ encFlag s.retained.levels.isSome ++ encWord s.now
    ++ encOpt 1 (fun n : Nat => encU 1 n) s.remainingCount
    ++ encU 2 (checkWord s.retained).toNat ++ encCode s.lastStart.code

/-- R179: READ_STATION, taken by the Decoder. -/
def readStation (args : List Byte) (s : State) : State × Reply :=
  withLength 0 args (fun s => accept (stationData s) s) s

/-- READ_STATION (R179). -/
def execReadStation (src tag : Byte) (args : List Byte) (s : State) : Result :=
  runCommand 0x09 src tag args (readStation args) s

/-- R1: a full interval length in REFCLK periods. -/
def State.intervalPeriods (s : State) : Nat :=
  ((s.retained.station.map (·.intervalLength)).getD 0) * periodsPer10ms

/-- R180: the station goes to METERING, the interval timer is loaded, and an awaiting batch that is not
CLOSING opens (R93). -/
def beginMetering (s : State) : State :=
  let s1 := { s with station := .metering, timer := some s.intervalPeriods }
  if s1.retained.batch.awaits then openHead (s1.now + 1) s1 else s1

/-- R180: START_METERING, taken by the Decoder. -/
def startMetering (args : List Byte) (s : State) : State × Reply :=
  withLength 0 args
    (fun s =>
      if s.station = .ready then accept (encWord s.now) (beginMetering s)
      else refuse .wrongState s) s

/-- START_METERING (R180). -/
def execStartMetering (src tag : Byte) (args : List Byte) (s : State) : Result :=
  runCommand 0x0A src tag args (startMetering args) s

/-- Whether every run is CLOSED. -/
def State.allClosed (s : State) : Bool :=
  (List.finRange 4).all fun r => s.runs[r].state == .closed

/-- R180: the timer stops, the station goes to READY, an awaiting batch's product is put in service
(R94) and a CLOSING batch closes if the ticket list has room (R105). -/
def endMetering (s : State) : State :=
  closeIfIdle (productFollows { s with station := .ready, timer := none })

/-- R180: STOP_METERING, taken by the Decoder. -/
def stopMetering (args : List Byte) (s : State) : State × Reply :=
  withLength 0 args
    (fun s =>
      if s.station ≠ .metering then refuse .wrongState s
      else if s.allClosed then accept [] (endMetering s)
      else refuse .busy s) s

/-- STOP_METERING (R180). -/
def execStopMetering (src tag : Byte) (args : List Byte) (s : State) : Result :=
  runCommand 0x0B src tag args (stopMetering args) s

/-- R181, R172: RESTART, taken by the Decoder: the restart becomes pending and its reply is marked. -/
def restart (args : List Byte) (s : State) : State × Reply :=
  withLength 0 args
    (fun s =>
      if s.allClosed && s.session.state == .idle then
        ({ s with restartPending := true }, { result := .ok, marked := true })
      else refuse .busy s) s

/-- RESTART (R181). -/
def execRestart (src tag : Byte) (args : List Byte) (s : State) : Result :=
  runCommand 0x0C src tag args (restart args) s

end Sys2Proof.Machine
end

