-- ==== Sys2Proof/Machine/Conditions.lean ====
section
/-! DEFINITION. The commands of the Condition Unit (chapter 8): LOAD_LEVELS, SET_LEVEL_GATE,
CLEAR_CONDITION and READ_CONDITIONS. -/

namespace Sys2Proof.Machine

/-! ### LOAD_LEVELS and SET_LEVEL_GATE -/

/-- R157: the level table replaced, the withheld notices released, and Station Control told. -/
def installLevels (levels : Vector Nat 25) (s : State) : State :=
  checkReady (releaseNotices (s.setRetained { s.retained with levels := some levels }))

/-- R157: LOAD_LEVELS, taken by the Decoder. -/
def loadLevels (args : List Byte) (s : State) : State × Reply :=
  withLength 25 args
    (fun s =>
      match readLevels args with
      | none => refuse .badArgument s
      | some levels => accept [] (installLevels levels s)) s

/-- LOAD_LEVELS (R157). -/
def execLoadLevels (src tag : Byte) (args : List Byte) (s : State) : Result :=
  runCommand 0x38 src tag args (loadLevels args) s

/-- R158: the gate replaced; opening a level that was closed releases withheld notices. -/
def installGate (gate : BitVec 8) (s : State) : State :=
  let s1 := s.setRetained { s.retained with gate := gate }
  if gate &&& ~~~s.retained.gate = 0 then s1 else releaseNotices s1

/-- R158: SET_LEVEL_GATE, taken by the Decoder. Bit n of the set stands for level n (R175). -/
def setLevelGate (args : List Byte) (s : State) : State × Reply :=
  withLength 1 args
    (fun s =>
      let gate : BitVec 8 := BitVec.ofNat 8 (argU args 0 1)
      if gate.getLsbD 0 then refuse .badArgument s else accept [gate] (installGate gate s)) s

/-- SET_LEVEL_GATE (R158). -/
def execSetLevelGate (src tag : Byte) (args : List Byte) (s : State) : Result :=
  runCommand 0x39 src tag args (setLevelGate args) s

/-! ### CLEAR_CONDITION -/

/-- R159: a condition record unlatched, its withheld mark cleared. -/
def Condition.unlatch (r : Condition) : Condition := { r with latched := false, withheld := false }

/-- R159: a condition record that is still active, latched again at an interval number. -/
def Condition.relatch (r : Condition) (now : Word32) : Condition :=
  { r with latched := true, withheld := false, first := some now, last := some now }

/-- The counts of CLEAR_CONDITION: unlatched, and latched again. -/
structure ClearCounts where
  unlatched : Nat := 0
  again : Nat := 0
  deriving DecidableEq, Repr

/-- R159: one condition record cleared. -/
def clearOne (acc : State × ClearCounts) (c : CondId) : State × ClearCounts :=
  let s := acc.1
  let r := s.cond c
  if r.latched then
    if r.active then
      (offerNotice c (s.setCond c (r.relatch s.now)), { acc.2 with again := acc.2.again + 1 })
    else (s.setCond c r.unlatch, { acc.2 with unlatched := acc.2.unlatched + 1 })
  else acc

/-- R159: the condition records of a list cleared in its order. -/
def clearAll (l : List CondId) (s : State) : State × Reply :=
  let r := l.foldl clearOne (s, {})
  accept (encU 1 r.2.unlatched ++ encU 1 r.2.again) r.1

/-- R159, R175: the records that CLEAR_CONDITION names in each of its forms: 0 a kind and a unit, 1 a
kind with all its units, 2 all. The unit, in no row of R175, takes 1 byte (assumption 14). -/
def clearTargets (args : List Byte) : Option (List CondId) :=
  match argU args 0 1 with
  | 0 => (condOf (argU args 1 1) (argU args 2 1)).map fun c => [c]
  | 1 => if (condsOfKind (argU args 1 1)).isEmpty then none else some (condsOfKind (argU args 1 1))
  | _ => some allConds

/-- R171: the argument length of a form, given the length of each form defined; none for a form that
is not defined. -/
def formLength (lengths : List Nat) (args : List Byte) : Option Nat := lengths[argU args 0 1]?

/-- R159, R171: CLEAR_CONDITION, taken by the Decoder. -/
def clearCondition (args : List Byte) (s : State) : State × Reply :=
  if args.isEmpty then refuse .badLength s
  else
    match formLength [3, 2, 1] args with
    | none => refuse .badArgument s
    | some n =>
      withLength n args
        (fun s =>
          match clearTargets args with
          | none => refuse .badArgument s
          | some l => clearAll l s) s

/-- CLEAR_CONDITION (R159). -/
def execClearCondition (src tag : Byte) (args : List Byte) (s : State) : Result :=
  runCommand 0x3A src tag args (clearCondition args) s

/-! ### READ_CONDITIONS -/

/-- R160: the latched condition records in order. -/
def State.latchedConds (s : State) : List CondId := allConds.filter fun c => (s.cond c).latched

/-- R160: how many condition records have a withheld notice. -/
def State.withheldCount (s : State) : Nat := (allConds.filter fun c => (s.cond c).withheld).length

/-- R160: an entry of a READ_CONDITIONS reply. -/
def condEntry (s : State) (c : CondId) : List Byte :=
  let r := s.cond c
  encU 1 c.kindCode ++ encU 1 c.unit ++ encFlag r.active ++ encFlag r.latched ++ encFlag r.withheld
    ++ encU 2 r.occurrences ++ encOpt 4 encWord r.first ++ encOpt 4 encWord r.last

/-- R160: the LEVELS reply. The level table is coded as a mark, 1 for valid (assumption 15). -/
def levelsData (s : State) : List Byte :=
  encOpt 25 (fun l : Vector Nat 25 => l.toList.flatMap fun n => encU 1 n) s.retained.levels
    ++ [s.retained.gate] ++ encU 1 s.latchedConds.length ++ encU 1 s.withheldCount

/-- R160: the LIST reply. -/
def listData (start : Nat) (s : State) : List Byte :=
  encU 1 s.latchedConds.length ++ encList (condEntry s) ((s.latchedConds.drop start).take 3)

/-- R160: the reply of each form of READ_CONDITIONS: 0 LEVELS, 1 LIST, 2 ONE. The start position and the
unit, in no row of R175, take 1 byte each (assumption 14). -/
def conditionsData (args : List Byte) (s : State) : Option (List Byte) :=
  match argU args 0 1 with
  | 0 => some (levelsData s)
  | 1 => if argU args 1 1 ≤ 114 then some (listData (argU args 1 1) s) else none
  | _ => (condOf (argU args 1 1) (argU args 2 1)).map (condEntry s)

/-- R160, R171: READ_CONDITIONS, taken by the Decoder. -/
def readConditions (args : List Byte) (s : State) : State × Reply :=
  if args.isEmpty then refuse .badLength s
  else
    match formLength [1, 2, 3] args with
    | none => refuse .badArgument s
    | some n =>
      withLength n args
        (fun s =>
          match conditionsData args s with
          | none => refuse .badArgument s
          | some data => accept data s) s

/-- READ_CONDITIONS (R160). -/
def execReadConditions (src tag : Byte) (args : List Byte) (s : State) : Result :=
  runCommand 0x3B src tag args (readConditions args) s

end Sys2Proof.Machine
end

