-- ==== Sys2Proof/Machine/Tables.lean ====
section
/-! DEFINITION. The Table Store (chapter 4): the assembly buffer, the checks of a table, the choice
between the in-service and the pending copy, and the commands LOAD_POINTS, COMMIT_CURVE,
COMMIT_PRODUCT, READ_CURVE and READ_PRODUCT. -/

namespace Sys2Proof.Machine

/-! ### The assembly buffer (R72 to R74) -/

/-- R72: the capacity of a target under a layout. -/
def Target.capacity (layout : Layout) : Target → Nat
  | .curve _ _ => layout.pointsPerCurve
  | .expansion _ => 16

/-- R74: points written over a list from an index on; the list grows if they reach past its end. -/
def overwrite (points : List TablePoint) (start : Nat) (new : List TablePoint) : List TablePoint :=
  points.take start ++ new ++ points.drop (start + new.length)

/-- R73: how many points LOAD_POINTS may carry for a curve or for an expansion table. -/
def maxPoints (curve : Bool) : Nat := if curve then 6 else 8

/-- R73, R175: whether an argument length gives a whole number of points within the bounds. -/
def pointsLengthOk (curve : Bool) (length : Nat) : Bool :=
  let n := (length - 4) / pointWidth curve
  decide (1 ≤ n) && decide (n ≤ maxPoints curve) && length == 4 + n * pointWidth curve

/-- R73: the last two checks of LOAD_POINTS, for `n` points from `start` on. -/
def AssemblyBuffer.takes (b : AssemblyBuffer) (t : Target) (capacity start n : Nat) : Bool :=
  (if b.target = some t then decide (start ≤ b.points.length) else start == 0)
    && decide (start + n ≤ capacity)

/-- R74: the buffer after an accepted LOAD_POINTS. -/
def AssemblyBuffer.load (b : AssemblyBuffer) (t : Target) (start : Nat) (points : List TablePoint) :
    AssemblyBuffer :=
  { target := some t
    points := overwrite (if b.target = some t then b.points else []) start points }

/-- The target of the buffer as reply data; an expansion target has no run, sent as 0. -/
def Target.bytes : Target → List Byte
  | .curve r p => encU 1 0 ++ encU 1 r.val ++ encU 1 p.val
  | .expansion p => encU 1 1 ++ encU 1 0 ++ encU 1 p.val

/-- R73, R74: the points of LOAD_POINTS for a target whose capacity is known. -/
def loadInto (t : Target) (capacity start : Nat) (points : List TablePoint) (s : State) :
    State × Reply :=
  if s.buffer.takes t capacity start points.length then
    let b := s.buffer.load t start points
    accept (t.bytes ++ encU 1 b.points.length) { s with buffer := b }
  else refuse .badArgument s

/-- R73: LOAD_POINTS from the check of its target on. -/
def loadTarget (args : List Byte) (s : State) : State × Reply :=
  match readTarget args with
  | none => refuse .badArgument s
  | some (.curve r p) =>
    match s.retained.station with
    | none => refuse .wrongState s
    | some st =>
      if st.layout.allows r p then
        loadInto (.curve r p) st.layout.pointsPerCurve (argU args 3 1) (readPoints true args) s
      else refuse .badArgument s
  | some (.expansion p) => loadInto (.expansion p) 16 (argU args 3 1) (readPoints false args) s

/-- R73, R171: LOAD_POINTS, taken by the Decoder. A target kind that is not defined is refused at the
length check. -/
def loadPoints (args : List Byte) (s : State) : State × Reply :=
  match args with
  | [] => refuse .badLength s
  | kind :: _ =>
    if 1 < kind.toNat then refuse .badArgument s
    else if pointsLengthOk (kind == 0) args.length then loadTarget args s
    else refuse .badLength s

/-- LOAD_POINTS (R73, R74). -/
def execLoadPoints (src tag : Byte) (args : List Byte) (s : State) : Result :=
  runCommand 0x20 src tag args (loadPoints args) s

/-! ### The checks of a table (R68, R71) -/

/-- R68, R71: the check of a count against a capacity and the number of filled points. A count above both
is reported with the capacity (assumption 34). -/
def checkCount (count cap filled : Nat) : Option (TableCause × Nat) :=
  if count < 2 then some (.count, count)
  else if cap < count then some (.count, cap)
  else if filled < count then some (.count, filled)
  else none

/-- R68: the checks of one expansion point; `previous` is the temperature of the point before. -/
def checkExpansionPoint (i : Nat) (previous : Option Int) (p : TablePoint) :
    Option (TableCause × Nat) :=
  if p.x < -4000 ∨ 10000 < p.x then some (.range, i)
  else if p.factor < 950000 ∨ 1050000 < p.factor then some (.range, i)
  else
    match previous with
    | some x => if p.x ≤ x then some (.order, i) else none
    | none => none

/-- R68: the expansion points in order of index; the first failure ends the check. -/
def checkExpansion (i : Nat) (previous : Option Int) : List TablePoint → Option (TableCause × Nat)
  | [] => none
  | p :: rest =>
    match checkExpansionPoint i previous p with
    | some e => some e
    | none => checkExpansion (i + 1) (some p.x) rest

/-- R71: the checks of one curve point; `previous` is the point before it. -/
def checkCurvePoint (i : Nat) (previous : Option TablePoint) (p : TablePoint) :
    Option (TableCause × Nat) :=
  if p.x < 1 ∨ 10000000 < p.x then some (.range, i)
  else if p.factor < 900000 ∨ 1100000 < p.factor then some (.range, i)
  else
    match previous with
    | none => none
    | some q =>
      if p.x ≤ q.x then some (.order, i)
      else if q.factor + 20000 < p.factor ∨ p.factor + 20000 < q.factor then some (.step, i)
      else none

/-- R71: the curve points in order of index; the first failure ends the check. -/
def checkCurve (i : Nat) (previous : Option TablePoint) : List TablePoint → Option (TableCause × Nat)
  | [] => none
  | p :: rest =>
    match checkCurvePoint i previous p with
    | some e => some e
    | none => checkCurve (i + 1) (some p) rest

/-- R71: the check of a whole curve of the buffer. -/
def curveError (count cap : Nat) (points : List TablePoint) : Option (TableCause × Nat) :=
  (checkCount count cap points.length).or (checkCurve 0 none (points.take count))

/-- R68: the check of a whole expansion table of the buffer. -/
def expansionError (count : Nat) (points : List TablePoint) : Option (TableCause × Nat) :=
  (checkCount count 16 points.length).or (checkExpansion 0 none (points.take count))

/-- A buffer point as a curve point with origin LOADED (R75). -/
def TablePoint.loaded (p : TablePoint) : CurvePoint :=
  { rate := p.x.toNat, factor := p.factor, origin := .loaded }

/-- A curve point as the check of R71 reads it. -/
def CurvePoint.plain (p : CurvePoint) : TablePoint := { x := p.rate, factor := p.factor }

/-! ### Tables in use, and the install (R77 to R79) -/

/-- R77: whether the curve of a pair is in use. -/
def curveInUseNow (r : Fin 4) (p : Fin 8) (s : State) : Bool :=
  s.runs[r].state != .closed && p == s.retained.batch.product

/-- R78: whether a product slot is in use. -/
def productInUseNow (p : Fin 8) (s : State) : Bool :=
  s.station == .metering
    && (p == s.retained.batch.product || s.retained.batch.queue.head?.map (·.product) == some p)

/-- R79: a new copy installed, at once if the table is not in use and has no pending copy. -/
def Copies.install {α : Type} (c : Copies α) (inUse : Bool) (new : α) : Copies α :=
  if inUse || c.pending.isSome then { c with pending := some new } else { c with inService := some new }

/-- R79: the reply code of an install: IN_SERVICE 0, PENDING 1. -/
def Copies.installCode {α : Type} (c : Copies α) (inUse : Bool) : Nat :=
  if inUse || c.pending.isSome then 1 else 0

/-- The buffer emptied by an accepted commit (R72). -/
def State.emptyBuffer (s : State) : State := { s with buffer := {} }

/-- R75, R79: the first `count` points of the buffer become the curve of a pair. -/
def installCurve (r : Fin 4) (p : Fin 8) (count : Nat) (s : State) : State :=
  (s.setCurve r p
    ((s.curve r p).install (curveInUseNow r p s)
      { points := (s.buffer.points.take count).map TablePoint.loaded
        installedAt := s.now })).emptyBuffer

/-- R75: COMMIT_CURVE from the check of the station record on. -/
def commitCurveAt (r : Fin 4) (p : Fin 8) (count : Nat) (s : State) : State × Reply :=
  match s.retained.station with
  | none => refuse .wrongState s
  | some st =>
    if st.layout.allows r p = false then refuse .badArgument s
    else if s.buffer.target ≠ some (.curve r p) then refuse .notFound s
    else
      match curveError count st.layout.pointsPerCurve s.buffer.points with
      | some e => refuseTable e s
      | none =>
        accept (encCode ((s.curve r p).installCode (curveInUseNow r p s))) (installCurve r p count s)

/-- R75: COMMIT_CURVE, taken by the Decoder. The count, in no row of R175, takes 1 byte (assumption
14). -/
def commitCurve (args : List Byte) (s : State) : State × Reply :=
  withLength 3 args
    (fun s =>
      match asRun (argU args 0 1), asProduct (argU args 1 1) with
      | some r, some p => commitCurveAt r p (argU args 2 1) s
      | _, _ => refuse .badArgument s) s

/-- COMMIT_CURVE (R71, R75, R79). -/
def execCommitCurve (src tag : Byte) (args : List Byte) (s : State) : Result :=
  runCommand 0x21 src tag args (commitCurve args) s

/-- R76: the product copy of COMMIT_PRODUCT. -/
def ProductArgs.copy (x : ProductArgs) (points : List TablePoint) (now : Word32) : ProductCopy :=
  { code := x.code
    points := points.take x.count
    compressibility := x.compressibility
    densityLow := x.densityLow
    densityHigh := x.densityHigh
    defaultDensity := x.defaultDensity
    installedAt := now }

/-- R76, R79: the fields and points of COMMIT_PRODUCT become the product of a slot. -/
def installProduct (x : ProductArgs) (s : State) : State :=
  let c := s.retained.products[x.slot].install (productInUseNow x.slot s)
    (x.copy s.buffer.points s.now)
  (s.setRetained { s.retained with products := s.retained.products.set x.slot c }).emptyBuffer

/-- R76: COMMIT_PRODUCT, taken by the Decoder. -/
def commitProduct (args : List Byte) (s : State) : State × Reply :=
  withLength 17 args
    (fun s =>
      match readProductArgs args with
      | none => refuse .badArgument s
      | some x =>
        if s.buffer.target ≠ some (.expansion x.slot) then refuse .notFound s
        else
          match expansionError x.count s.buffer.points with
          | some e => refuseTable e s
          | none =>
            accept (encCode (s.retained.products[x.slot].installCode (productInUseNow x.slot s)))
              (installProduct x s)) s

/-- COMMIT_PRODUCT (R68, R76, R79). -/
def execCommitProduct (src tag : Byte) (args : List Byte) (s : State) : Result :=
  runCommand 0x22 src tag args (commitProduct args) s

/-! ### Promotion (R80) -/

/-- R80: a table's pending copy promoted, with its installed-at number as `date` sets it. -/
def Copies.promote {α : Type} (c : Copies α) (date : α → α) : Copies α :=
  match c.pending with
  | some x => { inService := some (date x), pending := none }
  | none => c

/-- R80: every pending copy is promoted; `now` is the interval number the expiry gave. -/
def promoteAll (s : State) : State :=
  s.setRetained
    { s.retained with
      products := .ofFn fun p : Fin 8 =>
        s.retained.products[p].promote fun x => { x with installedAt := s.now }
      curves := .ofFn fun c : Fin 32 =>
        s.retained.curves[c].promote fun x => { x with installedAt := s.now } }

/-! ### READ_CURVE (R86) -/

/-- The copy of a table that a read names: `none` for an EMPTY in-service copy or an absent pending
one. -/
def Copies.select {α : Type} (c : Copies α) (pending : Bool) : Option α :=
  if pending then c.pending else c.inService

/-- A curve point as reply data. -/
def CurvePoint.bytes (p : CurvePoint) : List Byte :=
  encU 4 p.rate ++ encU 3 p.factor ++ encCode p.origin.code

/-- The installed-at number a read carries: an open word for an EMPTY copy, which has none
(assumption 18). -/
def installedAtOf (x : Option Word32) (s : State) : State × Word32 :=
  match x with
  | some w => (s, w)
  | none => drawOpen s

/-- R86: the reply data of READ_CURVE, given the installed-at number of the copy. "Whether" fields are flags,
1 for yes (assumption 37). -/
def curveData (r : Fin 4) (p : Fin 8) (layout : Layout) (pending : Bool) (part : Nat) (at0 : Word32)
    (s : State) : List Byte :=
  let copy := (s.curve r p).select pending
  let points := (copy.map (·.points)).getD []
  match part with
  | 0 =>
    encFlag copy.isSome ++ encU 1 points.length ++ encWord at0
      ++ encFlag (s.curve r p).pending.isSome ++ encFlag (curveInUseNow r p s)
      ++ encU 1 layout.pointsPerCurve
  | 1 => encList CurvePoint.bytes (points.take 6) ++ encWord at0
  | _ => encList CurvePoint.bytes (points.drop 6) ++ encWord at0

/-- R86: READ_CURVE from the check of the station record on. -/
def readCurveAt (r : Fin 4) (p : Fin 8) (pending : Bool) (part : Nat) (s : State) : State × Reply :=
  match s.retained.station with
  | none => refuse .wrongState s
  | some st =>
    if st.layout.allows r p = false then refuse .badArgument s
    else if part = 2 ∧ st.layout.pointsPerCurve ≠ 12 then refuse .badArgument s
    else if pending && (s.curve r p).pending.isNone then refuse .notFound s
    else
      let d := installedAtOf (((s.curve r p).select pending).map (·.installedAt)) s
      accept (curveData r p st.layout pending part d.2 s) d.1

/-- R86: READ_CURVE, taken by the Decoder. -/
def readCurve (args : List Byte) (s : State) : State × Reply :=
  withLength 4 args
    (fun s =>
      match asRun (argU args 0 1), asProduct (argU args 1 1), asPendingCopy (argU args 2 1) with
      | some r, some p, some pending =>
        if 2 < argU args 3 1 then refuse .badArgument s
        else readCurveAt r p pending (argU args 3 1) s
      | _, _, _ => refuse .badArgument s) s

/-- READ_CURVE (R86). -/
def execReadCurve (src tag : Byte) (args : List Byte) (s : State) : Result :=
  runCommand 0x23 src tag args (readCurve args) s

/-! ### READ_PRODUCT (R87) -/

/-- An expansion point as reply data. -/
def TablePoint.bytes (p : TablePoint) : List Byte := encS 2 p.x ++ encU 3 p.factor

/-- R87: part 0 of READ_PRODUCT for a VALID copy. "Whether" fields are flags, 1 for yes (assumption 37). -/
def productData (p : Fin 8) (x : ProductCopy) (s : State) : List Byte :=
  encFlag true ++ encU 2 x.code ++ encU 3 x.compressibility ++ encU 3 x.densityLow
    ++ encU 3 x.densityHigh ++ encOpt 3 (fun d : Nat => encU 3 d) x.defaultDensity
    ++ encU 1 x.points.length ++ encWord x.installedAt
    ++ encFlag s.retained.products[p].pending.isSome ++ encFlag (productInUseNow p s)

/-- R87: parts 1 and 2 of READ_PRODUCT: the points of one half, then the installed-at number. -/
def productPoints (part : Nat) (points : List TablePoint) (at0 : Word32) : List Byte :=
  encList TablePoint.bytes (if part = 1 then points.take 8 else points.drop 8) ++ encWord at0

/-- R87: an accepted READ_PRODUCT. An EMPTY copy gives its state alone in part 0. -/
def readProductAt (p : Fin 8) (pending : Bool) (part : Nat) (s : State) : State × Reply :=
  match s.retained.products[p].select pending with
  | none =>
    if pending then refuse .notFound s
    else if part = 0 then accept (encFlag false) s
    else
      let d := drawOpen s
      accept (productPoints part [] d.2) d.1
  | some x =>
    accept (if part = 0 then productData p x s else productPoints part x.points x.installedAt) s

/-- R87: READ_PRODUCT, taken by the Decoder. -/
def readProduct (args : List Byte) (s : State) : State × Reply :=
  withLength 3 args
    (fun s =>
      match asProduct (argU args 0 1), asPendingCopy (argU args 1 1) with
      | some p, some pending =>
        if 2 < argU args 2 1 then refuse .badArgument s
        else readProductAt p pending (argU args 2 1) s
      | _, _ => refuse .badArgument s) s

/-- READ_PRODUCT (R87). -/
def execReadProduct (src tag : Byte) (args : List Byte) (s : State) : Result :=
  runCommand 0x24 src tag args (readProduct args) s

end Sys2Proof.Machine
end

