-- ==== Sys2Proof/Machine/Expiry.lean ====
section
/-! DEFINITION. The interval expiry (R3): the Flow Engine's handling of each run (chapter 1), the
application of channel changes, the promotion of pending tables and the Batch Unit's work at an
expiry. -/

namespace Sys2Proof.Machine

/-! ### The interval record (R27) -/

/-- R4, R13: what the interval of a run is computed from at the expiry, with its process values. -/
structure Sampled where
  input : IntervalInput
  t : Reading
  pres : Reading
  rho : Reading
  sw : Reading
  deriving DecidableEq, Repr

/-- R4, R13, R16: the input of a run's computation. The settings are those of the run. -/
def sampleRun (r : Fin 4) (x : RunSettings) (s : State) : Sampled :=
  let ps := s.pulses[r]
  let t := s.reading x.tSlot
  let pres := s.reading x.pSlot
  let rho := s.densityReading
  let sw := s.waterReading
  { input :=
      { kFactor := x.kFactor
        p := ps.counts.get ps.totalizing
        length := (s.retained.station.map (·.intervalLength)).getD 0
        residues := s.retained.runs[r].residues
        curve := s.curveInUse r
        fallback := x.fallback
        product := s.product s.retained.batch.product
        t := t.value
        pres := pres.value
        rho := rho.value
        sw := sw.value }
    t, pres, rho, sw }

/-- R27, R28: the interval record formed from the inputs and the outputs of the stages. -/
def formRecord (r : Fin 4) (x : RunSettings) (d : Sampled) (out : IntervalOutput) (s : State) :
    IntervalRecord :=
  let ps := s.pulses[r]
  { run := r
    interval := s.now
    product := s.retained.batch.product
    p := d.input.p
    channel := ps.totalizing
    iv := out.iv
    q := out.q
    mf := out.mf
    ctl := out.ctl
    cpl := out.cpl
    ccf := out.ccf
    gsv := out.gsv
    nsv := out.nsv
    mass := out.mass
    t := d.t.value
    pres := d.pres.value
    rhoLine := d.rho.value
    rhoStd := out.rhoStd
    sw := d.sw.value
    flags :=
      resultFlags d.t d.pres d.rho d.sw d.input.curve.isSome out ps x.primary
        (s.retained.batch.firstOfBatch r) }

/-! ### Conditions of the Flow Engine (R16 to R18, R29) -/

/-- R29: whether the line density is outside the range of the product in service. -/
def densityOutside (product : Option ProductCopy) (rho : Int) : Bool :=
  match product with
  | none => true
  | some c => decide (rho < c.densityLow) || decide ((c.densityHigh : Int) < rho)

/-- R29: whether a rate is above a high limit; 0 is no limit. -/
def aboveLimit (limit q : Nat) : Bool := limit != 0 && decide (limit < q)

/-- R29: whether a rate above 0 is below a low limit; 0 is no limit. -/
def belowLimit (limit q : Nat) : Bool := limit != 0 && decide (0 < q) && decide (q < limit)

/-- R16 to R18, R29: the six conditions of the Flow Engine are evaluated for a run that computes. -/
def evalFlowConds (r : Fin 4) (x : RunSettings) (d : Sampled) (out : IntervalOutput) (s : State) :
    State :=
  report (.densityOutsideProduct r) (densityOutside d.input.product d.rho.value)
    (report (.tempOutsideTable r) out.tempOutside
      (report (.noCurve r) d.input.curve.isNone
        (report (.rateOutsideCurve r) out.curveClamp
          (report (.rateLow r) (belowLimit x.rateLow out.q)
            (report (.rateHigh r) (aboveLimit x.rateHigh out.q) s)))))

/-- R3: the six conditions of the Flow Engine become inactive for a run that closes. -/
def quietFlowConds (r : Fin 4) (s : State) : State :=
  reportInactive (.densityOutsideProduct r)
    (reportInactive (.tempOutsideTable r)
      (reportInactive (.noCurve r)
        (reportInactive (.rateOutsideCurve r)
          (reportInactive (.rateLow r) (reportInactive (.rateHigh r) s)))))

/-! ### Result frames (R30, R31) -/

/-- R176: the 57-byte payload of a RESULT. -/
def resultPayload (r : IntervalRecord) (t : Totals) : List Byte :=
  encU 1 r.run.val ++ encU 1 r.flags.codeByte ++ encU 1 r.flags.flagByte ++ encWord r.interval
    ++ encU 4 r.q ++ encU 3 r.mf ++ encU 3 r.ccf ++ encS 2 r.t ++ encS 3 r.pres ++ encU 3 r.rhoLine
    ++ encU 8 t.iv ++ encU 8 t.gsv ++ encU 8 t.nsv ++ encU 8 t.mass

/-- R30: whether a run that computes queues a result frame. -/
def resultDue (spacing : Nat) (interval : Word32) (closing : Bool) : Bool :=
  closing || (decide (0 < spacing) && interval.toNat % spacing == 0)

/-- R30, R168: a result frame is offered at the result level of the station record. -/
def offerResult (r : IntervalRecord) (closing : Bool) (s : State) : State :=
  match s.retained.station with
  | none => s
  | some st =>
    if resultDue st.spacing r.interval closing then
      offer
        { kind := .result, dest := allNodes, level := st.resultLevel, source := r.run.val
          payload := resultPayload r s.retained.runs[r.run].totals } s
    else s

/-! ### One run at an expiry (R3) -/

/-- R25, R26: the totals and the residues of a run after its computation. -/
def RunRetained.take (x : RunRetained) (rec : IntervalRecord) (out : IntervalOutput) : RunRetained :=
  { x with totals := x.totals.add rec, residues := out.residues }

/-- R3, R35, R36: the interval counts of a run taken and zeroed, with its batch disagreement count. -/
def PulseState.taken (p : PulseState) : PulseState := { p with counts := ⟨0, 0⟩, batchDisagree := 0 }

/-- R25 to R27: the effects of a computed interval on the run context and the pulse state. -/
def recordRun (r : Fin 4) (rec : IntervalRecord) (out : IntervalOutput) (s : State) : State :=
  let s1 := s.setRunRetained r (s.retained.runs[r].take rec out)
  (s1.setRun r { s1.runs[r] with last := some rec }).setPulse r s1.pulses[r].taken

/-- R3, R12 to R31: a run computes the interval that ends at this expiry. -/
def computeRun (r : Fin 4) (x : RunSettings) (closing : Bool) (s : State) : State :=
  let d := sampleRun r x s
  let out := computeStages d.input
  let record := formRecord r x d out s
  let s1 := evalFlowConds r x d out (recordRun r record out s)
  offerResult record closing (accumulate record s.pulses[r].batchDisagree s1)

/-- R3: an OPENING run discards its counts into the pre-open pulse count and goes to OPEN. -/
def openAtExpiry (r : Fin 4) (s : State) : State :=
  let p := s.pulses[r]
  (s.setRun r { s.runs[r] with state := .opened, preOpen := p.counts.get p.totalizing }).setPulse r
    { p with counts := ⟨0, 0⟩ }

/-- R3, R37: a CLOSING run goes to CLOSED once its last interval is computed. -/
def closeAtExpiry (r : Fin 4) (s : State) : State :=
  quietFlowConds r
    ((s.setRun r { s.runs[r] with state := .closed }).setPulse r s.pulses[r].closeRun)

/-- The computation of a run, if it has settings. A run that is not CLOSED has settings (R7). -/
def computeIfLoaded (r : Fin 4) (closing : Bool) (s : State) : State :=
  match s.settings r with
  | some x => computeRun r x closing s
  | none => s

/-- R3: one run at an expiry, by its state. -/
def expireRun (s : State) (r : Fin 4) : State :=
  match s.runs[r].state with
  | .closed => s
  | .opening => openAtExpiry r s
  | .opened => computeIfLoaded r false s
  | .closing => closeAtExpiry r (computeIfLoaded r true s)

/-! ### The expiry -/

/-- R1, R2: the interval timer is reloaded and the interval number increases by one. -/
def nextInterval (s : State) : State :=
  { s.setRetained { s.retained with intervalNumber := s.retained.intervalNumber + 1 } with
    timer := some s.intervalPeriods }

/-- An operation done for each of the four runs, in ascending order (assumption 8). -/
def forRuns (f : State → Fin 4 → State) (s : State) : State := (List.finRange 4).foldl f s

/-- R3: everything that happens at an expiry: the channel changes are applied, the runs are handled,
the Pulse Unit's conditions are evaluated, pending tables are promoted, and the Batch Unit closes or
opens its head (assumption 9). The conditions are evaluated once, after the close of a CLOSING run, so that
a change applied to it raises no CHANNEL_SUBSTITUTED (assumption 36). -/
def expiry (s : State) : State :=
  let s1 := forRuns (fun s r => applyChannelChange r s) (nextInterval s)
  let s2 := forRuns (fun s r => evalPulseConds r s) (forRuns expireRun s1)
  batchExpiry (promoteAll s2)

/-- INTERVAL_EXPIRY (R3). The clock is brought to the expiry; while the timer is stopped the event does
not arise and changes nothing (assumption 4). -/
def execIntervalExpiry (s : State) : Result :=
  whenRunning
    (fun s =>
      match s.timer with
      | some n => expiry (advanceClock n s)
      | none => s) s

end Sys2Proof.Machine
end

