-- ==== Sys2Proof/Machine/Inputs.lean ====
section
/-! DEFINITION. The Input Unit (chapter 3): LOAD_BINDING, READ_INPUT, the handling of a sample and the
10 ms count. -/

namespace Sys2Proof.Machine

/-- R63: the three state-type conditions of a binding are evaluated. -/
def evalInputConds (slot : Fin 16) (s : State) : State :=
  let l := s.live[slot]
  let s1 := report (.inputStale slot) (l.state == .held) s
  let s2 := report (.inputFailed slot) (l.state == .substituted || l.state == .noData) s1
  report (.inputClamped slot) l.clamped s2

/-! ### The uses of a slot (R55, R66) -/

/-- A use of a binding slot (R66): the role's code, a run number or 0, and whether the use makes the
slot in use. -/
structure SlotUse where
  role : Nat
  run : Nat
  inUse : Bool
  deriving DecidableEq, Repr

/-- R66: the uses of a slot by a run. -/
def runUses (slot : Fin 16) (s : State) (r : Fin 4) : List SlotUse :=
  match s.settings r with
  | none => []
  | some x =>
    let busy := s.runs[r].state != .closed
    (if x.tSlot = slot then [⟨0, r.val, busy⟩] else [])
      ++ (if x.pSlot = slot then [⟨1, r.val, busy⟩] else [])

/-- R66: the uses of a slot by the station record. -/
def stationUses (slot : Fin 16) (s : State) : List SlotUse :=
  match s.retained.station with
  | none => []
  | some x =>
    let busy := s.station == .metering
    (if x.densitySlot = some slot then [⟨2, 0, busy⟩] else [])
      ++ (if x.waterSlot = some slot then [⟨3, 0, busy⟩] else [])

/-- R66: the uses of a slot by the prover record. -/
def proverUses (slot : Fin 16) (s : State) : List SlotUse :=
  match s.retained.prover with
  | none => []
  | some x =>
    let busy := s.session.state.active
    (if x.tSlot = slot then [⟨4, 0, busy⟩] else [])
      ++ (if x.pSlot = slot then [⟨5, 0, busy⟩] else [])

/-- R66: every place where a slot is named, runs first, then the station, then the prover. -/
def slotUses (slot : Fin 16) (s : State) : List SlotUse :=
  (List.finRange 4).flatMap (runUses slot s) ++ stationUses slot s ++ proverUses slot s

/-- R55: whether a slot is in use. -/
def slotInUse (slot : Fin 16) (s : State) : Bool := (slotUses slot s).any (·.inUse)

/-! ### LOAD_BINDING -/

/-- R54: whether another slot holds a binding with the same source node and channel tag. -/
def duplicateBinding (slot : Fin 16) (b : Binding) (s : State) : Bool :=
  (List.finRange 16).any fun i =>
    i != slot
      && match s.retained.bindings[i] with
        | some c => c.node == b.node && c.tag == b.tag
        | none => false

/-- R56: the binding is written and its live state starts again from NO_DATA. -/
def installBinding (slot : Fin 16) (b : Binding) (s : State) : State :=
  let s1 := s.setRetained { s.retained with bindings := s.retained.bindings.set slot (some b) }
  evalInputConds slot (s1.setLive slot {})

/-- R54, R56: LOAD_BINDING, taken by the Decoder. -/
def loadBinding (args : List Byte) (s : State) : State × Reply :=
  withLength 18 args
    (fun s =>
      match readBinding s.node args with
      | none => refuse .badArgument s
      | some (slot, b) =>
        if duplicateBinding slot b s then refuse .badArgument s
        else if slotInUse slot s then refuse .busy s
        else accept [] (installBinding slot b s)) s

/-- LOAD_BINDING (R54 to R56). -/
def execLoadBinding (src tag : Byte) (args : List Byte) (s : State) : Result :=
  runCommand 0x10 src tag args (loadBinding args) s

/-! ### READ_INPUT -/

/-- The definition of a binding as reply data (R52). -/
def Binding.bytes (b : Binding) : List Byte :=
  encCode b.kind.code ++ encU 1 b.node ++ encU 1 b.tag ++ encS 4 b.low ++ encS 4 b.high
    ++ encU 2 b.stale ++ encS 4 b.substitute

/-- R65: part 0 of READ_INPUT for a loaded slot. -/
def inputData (slot : Fin 16) (b : Binding) (s : State) : List Byte :=
  let l := s.live[slot]
  let r := s.reading slot
  b.bytes ++ encCode l.state.code ++ encOpt 2 (fun n : Nat => encU 2 n) l.age
    ++ encS 4 r.value ++ encU 1 r.code ++ encOpt 4 (encS 4) l.held ++ encOpt 4 (encS 4) l.received
    ++ encFlag l.uncertain ++ encFlag l.clamped ++ encU 4 l.accepted

/-- R65: part 1 of READ_INPUT for a loaded slot. -/
def usesData (slot : Fin 16) (s : State) : List Byte :=
  encList (fun u : SlotUse => encU 1 u.role ++ encU 1 u.run ++ encFlag u.inUse) (slotUses slot s)

/-- R65: READ_INPUT, taken by the Decoder. An EMPTY slot answers the mark that it is EMPTY, set. -/
def readInput (args : List Byte) (s : State) : State × Reply :=
  withLength 2 args
    (fun s =>
      match asSlot (argU args 0 1) with
      | none => refuse .badArgument s
      | some slot =>
        if 1 < argU args 1 1 then refuse .badArgument s
        else
          match s.retained.bindings[slot] with
          | none => accept (encFlag true) s
          | some b => accept (if argU args 1 1 = 0 then inputData slot b s else usesData slot s) s) s

/-- READ_INPUT (R65, R66). -/
def execReadInput (src tag : Byte) (args : List Byte) (s : State) : Result :=
  runCommand 0x11 src tag args (readInput args) s

/-! ### Samples (R57 to R59) -/

/-- R57: the slot whose binding a sample matches. -/
def matchSample (source tag : Byte) (s : State) : Option (Fin 16) :=
  (List.finRange 16).find? fun i =>
    match s.retained.bindings[i] with
    | some b => b.node == source.toNat && b.tag == tag.toNat
    | none => false

/-- R59: the live state after an accepted sample. -/
def LiveInput.acceptSample (l : LiveInput) (b : Binding) (value : Int) (uncertain : Bool) :
    LiveInput :=
  { state := .live
    held := some (max b.low (min b.high value))
    received := some value
    age := some 0
    uncertain
    clamped := decide (value < b.low) || decide (b.high < value)
    accepted := count1 cap32 l.accepted }

/-- R58, R59: a matched sample is rejected or accepted according to its quality byte. -/
def takeSample (slot : Fin 16) (b : Binding) (value : Int) (quality : Nat) (s : State) : State :=
  if quality ≤ 1 then
    evalInputConds slot (s.setLive slot (s.live[slot].acceptSample b value (quality == 1)))
  else occur (.sampleRejectedBad slot) s

/-- R57, R176: the copy of a SAMPLE frame reaches the Input Unit. A payload that is not 6 bytes long is
not read. -/
def sampleArrival (f : Frame) (s : State) : State :=
  match f.payload with
  | [tag, b3, b2, b1, b0, quality] =>
    match matchSample f.source tag s with
    | none => s
    | some slot =>
      match s.retained.bindings[slot] with
      | none => s
      | some b => takeSample slot b (argS [b3, b2, b1, b0] 0 4) quality.toNat s
  | _ => s

/-! ### The 10 ms count (R60) -/

/-- R60: the state that an age gives. -/
def stateOfAge (stale age : Nat) : InputState :=
  if age ≤ stale then .live else if age ≤ 2 * stale then .held else .substituted

/-- R60: the live state of a binding that has an age, after one 10 ms count. -/
def LiveInput.grow (l : LiveInput) (b : Binding) (age : Nat) : LiveInput :=
  { l with age := some (count1 cap16 age), state := stateOfAge b.stale (count1 cap16 age) }

/-- R60: one 10 ms count for one slot. -/
def ageSlot (s : State) (slot : Fin 16) : State :=
  match s.retained.bindings[slot], s.live[slot].age with
  | some b, some age => evalInputConds slot (s.setLive slot (s.live[slot].grow b age))
  | _, _ => s

/-- R60: the Input Unit's 10 ms count falls due: every binding that has an age grows older. -/
def inputCount (s : State) : State :=
  (List.finRange 16).foldl ageSlot { s with inputDivider := periodsPer10ms }

/-- INPUT_10MS_COUNT (R60). The clock is brought to the moment the count falls due. -/
def execInput10msCount (s : State) : Result :=
  whenRunning (fun s => inputCount (advanceClock s.inputDivider s)) s

end Sys2Proof.Machine
end

