-- ==== Sys2Proof/Machine/Line.lean ====
section
/-! DEFINITION. The events of the skid loop's line (chapter 9): the receiver, the classification of a
good frame, the forward buffer and the transmitter. -/

namespace Sys2Proof.Machine

/-! ### Reception (R164) -/

/-- R164: the counter of a receive error increases by one. -/
def LoopCounters.countError (c : LoopCounters) : ReceiveFault → LoopCounters
  | .parity => { c with parity := count1 cap16 c.parity }
  | .framing => { c with framing := count1 cap16 c.framing }
  | .gap => { c with gap := count1 cap16 c.gap }
  | .length => { c with length := count1 cap16 c.length }
  | .check => { c with check := count1 cap16 c.check }

/-- R164: the frame under reception ends with an error. -/
def receiveErrorAt (e : ReceiveFault) (s : State) : State :=
  occur .loopReceiveError
    { s with receiver := .hunting, counters := s.counters.countError e }

/-- R164: whether byte 4 has arrived and all 7 + L characters with it. -/
def frameComplete (before : List Byte) : Bool :=
  match before[4]? with
  | none => false
  | some len => decide (7 + len.toNat ≤ before.length)

/-- R164: the errors that a character shows as it arrives after the bytes `before` of its frame. -/
def charFaults (before : List Byte) (c : LineChar) : List ReceiveFault :=
  (if !c.stop || (before.isEmpty && c.data != 0xA5#8) then [.framing] else [])
    ++ (if !parityOdd c then [.parity] else [])
    ++ (if (before.length == 4 && decide (64 < c.data.toNat)) || frameComplete before then [.length] else [])

/-- R164: the error that ends the frame, of those that one character shows. Which of several is open
(assumption 38). -/
def pickFault (before : List Byte) (c : LineChar) (e : ReceiveFault) : List ReceiveFault → ReceiveFault
  | [] => e
  | more => (e :: more).getD (Config.faultFound before c % (more.length + 1)) e

/-- R164: a frame is judged once the line has been idle for more than 1.5 character times after the bytes
`before`, which have arrived without a fault: GAP if it is not complete, and otherwise by its check word. -/
def judgeIdle : List Byte → Verdict
  | _ :: dest :: source :: kind :: len :: tail =>
    let f : Frame := { dest, source, kind, payload := tail.take len.toNat }
    if tail.length < len.toNat + 2 then .error .gap
    else if tail.drop len.toNat = crcBytes (frameBody f) then .good f
    else .error .check
  | _ => .error .gap

/-- R164: the receiver's verdict on a frame: each character is checked as it arrives after the bytes
`before`, the first fault found ends the frame, and a frame without one is judged on the idle line. -/
def judge (before : List Byte) : List LineChar → Verdict
  | [] => judgeIdle before
  | c :: rest =>
    match charFaults before c with
    | [] => judge (before ++ [c.data]) rest
    | e :: more => .error (pickFault before c e more)

/-- HUNTING_END (R164). -/
def execHuntingEnd (s : State) : Result :=
  whenRunning (fun s => if s.receiver = .hunting then { s with receiver := .idle } else s) s

/-- FRAME_RECEPTION_BEGIN (R164). The character is checked first by the event that ends the frame and carries
its characters (assumption 20). -/
def execFrameReceptionBegin (s : State) : Result :=
  whenRunning (fun s => if s.receiver = .idle then { s with receiver := .receiving } else s) s

/-! ### Classification and the forward buffer (R165, R166) -/

/-- R166: a frame is offered to the forward buffer. -/
def forwardFrame (f : Frame) (s : State) : State :=
  if s.forward.length < 2 then beginNext { s with forward := s.forward ++ [f] }
  else
    occur .forwardOverrun
      { s with counters := { s.counters with forwardOverrun := count1 cap16 s.counters.forwardOverrun } }

/-- R165: a good frame is counted and the receiver is IDLE again. -/
def countGood (s : State) : State :=
  { s with
    receiver := .idle
    counters := { s.counters with goodReceived := count1 cap16 s.counters.goodReceived } }

/-- R165: a frame that bears the part's own node number as its source is stripped. -/
def stripFrame (s : State) : State :=
  { s with counters := { s.counters with returned := count1 cap16 s.counters.returned } }

/-- R165: a good frame is classified by the first row that applies. -/
def classify (f : Frame) (s : State) : State :=
  if f.source.toNat = s.node then stripFrame s
  else if f.kind = kindCommand ∧ f.dest.toNat = s.node then
    bufferCommand { source := f.source, payload := f.payload } s
  else if f.kind = kindSample then forwardFrame f (sampleArrival f s)
  else forwardFrame f s

/-! ### The end of a reception (R164, R165) -/

/-- R164, R165: a frame that has been judged: a good one is classified, and any other dropped and counted. -/
def takeVerdict (v : Verdict) (s : State) : State :=
  match v with
  | .good f => classify f (countGood s)
  | .error e => receiveErrorAt e s

/-- R164: the reception of the frame of the characters `chars` ends; from IDLE it begins and ends at once
(assumption 20). While HUNTING, and where no character has come, no frame is under reception and nothing
changes (assumption 4). -/
def endReception (chars : List LineChar) (s : State) : State :=
  if s.receiver = .hunting ∨ chars = [] then s else takeVerdict (judge [] chars) s

/-- GOOD_FRAME_ARRIVAL (R165). The receiver judges the frame itself: one with a fault ends as R164 says. -/
def execGoodFrameArrival (chars : List LineChar) (s : State) : Result :=
  whenRunning (endReception chars) s

/-- RECEIVE_ERROR (R164). The receiver finds the error itself: a frame without one is a good frame. -/
def execReceiveError (chars : List LineChar) (s : State) : Result :=
  whenRunning (endReception chars) s

/-! ### The transmitter (R167) -/

/-- R167: the counter of a frame that has been sent. -/
def LoopCounters.countSent (c : LoopCounters) : SentFrom → LoopCounters
  | .forwardBuffer => { c with forwarded := count1 cap16 c.forwarded }
  | .outboundQueue _ => { c with inserted := count1 cap16 c.inserted }

/-- R167: the last character of the frame in transmission has been sent and the gap begins. -/
def frameSentAt (origin : SentFrom) (s : State) : State :=
  { s with transmitter := .gap, counters := s.counters.countSent origin }

/-- FRAME_SENT (R167). If the frame was the marked reply of a RESTART, the restart is taken at the end
of the step (R172). While nothing is being sent it does not arise (assumption 4). -/
def execFrameSent (s : State) : Result :=
  whenRunning
    (fun s =>
      match s.transmitter with
      | .sending _ origin => frameSentAt origin s
      | _ => s) s

/-- TRANSMITTER_FREE (R167). Outside the gap it does not arise (assumption 4). -/
def execTransmitterFree (s : State) : Result :=
  whenRunning
    (fun s => if s.transmitter = .gap then beginNext { s with transmitter := .free } else s) s

end Sys2Proof.Machine
end

