-- ==== Sys2Proof/Machine/Loop.lean ====
section
/-! DEFINITION. The loop commands of chapter 9: READ_LOOP_COUNTS, CLEAR_LOOP_COUNTS and the refusal of
an unknown command (R171, R174). -/

namespace Sys2Proof.Machine

/-- The 16 counters in the order of R173. -/
def LoopCounters.toList (c : LoopCounters) : List Nat :=
  [c.goodReceived, c.parity, c.framing, c.gap, c.length, c.check, c.returned, c.cmdOverflow,
    c.forwardOverrun, c.forwarded, c.inserted, c.replyDiscard, c.resultDiscard, c.ticketDiscard,
    c.proveReportDiscard, c.noticeDiscard]

/-- The 16 counters as reply data. -/
def LoopCounters.bytes (c : LoopCounters) : List Byte := c.toList.flatMap fun n => encU 2 n

/-- R174: the reply data of READ_LOOP_COUNTS. -/
def loopCountsData (s : State) : List Byte :=
  encU 1 s.node ++ encU 1 s.rateCode ++ encU 1 s.forward.length ++ encU 1 s.outbound.length
    ++ encU 1 s.commands.length ++ encFlag s.restartPending ++ s.counters.bytes

/-- R174: READ_LOOP_COUNTS, taken by the Decoder. -/
def readLoopCounts (args : List Byte) (s : State) : State × Reply :=
  withLength 0 args (fun s => accept (loopCountsData s) s) s

/-- READ_LOOP_COUNTS (R174). -/
def execReadLoopCounts (src tag : Byte) (args : List Byte) (s : State) : Result :=
  runCommand 0x01 src tag args (readLoopCounts args) s

/-- R174: CLEAR_LOOP_COUNTS, taken by the Decoder. -/
def clearLoopCounts (args : List Byte) (s : State) : State × Reply :=
  withLength 0 args (fun s => accept s.counters.bytes { s with counters := {} }) s

/-- CLEAR_LOOP_COUNTS (R174). -/
def execClearLoopCounts (src tag : Byte) (args : List Byte) (s : State) : Result :=
  runCommand 0x02 src tag args (clearLoopCounts args) s

/-- R171: the reply to a payload with no tag and code is BAD_LENGTH, with the tag echoed as its first
byte or 0, and command code 0; it comes before the BUSY of a pending RESTART. -/
def answerUnknown (src : Byte) (payload : List Byte) (s : State) : State :=
  match payload with
  | tag :: code :: _ => answer src tag code.toNat (refuse .unknownCommand) s
  | [tag] => offerReply src tag 0 { result := .badLength } s
  | [] => offerReply src 0 0 { result := .badLength } s

/-- UNKNOWN_COMMAND (R171). -/
def execUnknownCommand (src : Byte) (payload : List Byte) (s : State) : Result :=
  whenRunning
    (fun s =>
      match takeCommand ⟨src, payload⟩ s with
      | some s1 => answerUnknown src payload s1
      | none => bufferCommand ⟨src, payload⟩ s) s

end Sys2Proof.Machine
end

