-- ==== Sys2Proof/Machine/Prove.lean ====
section
/-! DEFINITION. The Prove Controller (chapters 6 and 7): LOAD_PROVER, the commands of a prove session,
ACCEPT_PROVE, READ_PROVE, and the detector, dead-time and pass-timeout events. -/

namespace Sys2Proof.Machine

/-! ### LOAD_PROVER -/

/-- R114: the record is replaced and a dead time that runs is ended. -/
def installProver (x : ProverRecord) (s : State) : State :=
  { s.setRetained { s.retained with prover := some x } with
    det1 := { s.det1 with deadRunning := false }
    det2 := { s.det2 with deadRunning := false } }

/-- R114: LOAD_PROVER, taken by the Decoder. -/
def loadProver (args : List Byte) (s : State) : State × Reply :=
  withLength 32 args
    (fun s =>
      match readProverRecord args with
      | none => refuse .badArgument s
      | some x =>
        if s.session.state.active then refuse .busy s else accept [] (installProver x s)) s

/-- LOAD_PROVER (R113, R114). -/
def execLoadProver (src tag : Byte) (args : List Byte) (s : State) : Result :=
  runCommand 0x30 src tag args (loadProver args) s

/-! ### PROVE_START, PROVE_HOLD, PROVE_RELEASE, PROVE_ABORT -/

/-- R133: the last two checks of PROVE_START. -/
def proverReady (s : State) : Bool :=
  match s.retained.prover with
  | some x => s.retained.bindings[x.tSlot].isSome && s.retained.bindings[x.pSlot].isSome
  | none => false

/-- R134: the session that PROVE_START begins; every other item starts at its value of R117 and R132. -/
def newSession (r : Fin 4) (s : State) : Session :=
  { state := s.nextPassState
    attached := some r
    product := some s.retained.batch.product
    kFactor := (s.settings r).map (·.kFactor)
    startInterval := some s.now }

/-- R133, R134: PROVE_START, taken by the Decoder. -/
def proveStart (args : List Byte) (s : State) : State × Reply :=
  withLength 1 args
    (fun s =>
      match asRun (argU args 0 1) with
      | none => refuse .badArgument s
      | some r =>
        if s.session.state.active then refuse .busy s
        else if s.station ≠ .metering ∨ s.runs[r].state ≠ .opened then refuse .wrongState s
        else if proverReady s then
          accept (encCode s.nextPassState.code) (s.setSession (newSession r s))
        else refuse .badArgument s) s

/-- PROVE_START (R133, R134). -/
def execProveStart (src tag : Byte) (args : List Byte) (s : State) : Result :=
  runCommand 0x31 src tag args (proveStart args) s

/-- R129: the session after an accepted PROVE_HOLD. -/
def Session.hold (x : Session) : Session :=
  match x.state with
  | .timing | .finishing =>
    { x with state := .held, items := {}, abandoned := count1 cap16 x.abandoned }
  | _ => { x with state := .held }

/-- R129: PROVE_HOLD, taken by the Decoder. -/
def proveHold (args : List Byte) (s : State) : State × Reply :=
  withLength 0 args
    (fun s =>
      if s.session.state.active then
        accept (encCode SessionState.held.code) (s.setSession s.session.hold)
      else refuse .wrongState s) s

/-- PROVE_HOLD (R129). -/
def execProveHold (src tag : Byte) (args : List Byte) (s : State) : Result :=
  runCommand 0x32 src tag args (proveHold args) s

/-- R130: the session after an accepted PROVE_RELEASE. -/
def Session.release (x : Session) : Session :=
  match x.state with
  | .held => { x with state := .armed }
  | _ => x

/-- R130: PROVE_RELEASE, taken by the Decoder. -/
def proveRelease (args : List Byte) (s : State) : State × Reply :=
  withLength 0 args
    (fun s =>
      if s.session.state.active then
        accept (encCode s.session.release.state.code) (s.setSession s.session.release)
      else refuse .wrongState s) s

/-- PROVE_RELEASE (R130). -/
def execProveRelease (src tag : Byte) (args : List Byte) (s : State) : Result :=
  runCommand 0x33 src tag args (proveRelease args) s

/-- R145: the session after PROVE_ABORT. -/
def Session.abort (x : Session) : Session :=
  match x.state with
  | .idle => x
  | .held | .armed | .timing | .finishing => x.leave .idle .aborted
  | .complete | .failed => { x.leave .idle .aborted with results := none }

/-- R145: PROVE_ABORT, taken by the Decoder. -/
def proveAbort (args : List Byte) (s : State) : State × Reply :=
  withLength 0 args (fun s => accept [] (s.setSession s.session.abort)) s

/-- PROVE_ABORT (R145). -/
def execProveAbort (src tag : Byte) (args : List Byte) (s : State) : Result :=
  runCommand 0x34 src tag args (proveAbort args) s

/-! ### ACCEPT_PROVE -/

/-- R83: the working copy of a pair's curve, with the layout's points per curve. -/
def State.workingCopy (s : State) (r : Fin 4) (p : Fin 8) : Option (List CurvePoint × Nat) :=
  match s.retained.station with
  | none => none
  | some st =>
    if st.layout.allows r p then
      ((s.curve r p).pending.or (s.curve r p).inService).map
        fun c => (c.points, st.layout.pointsPerCurve)
    else none

/-- The distance between two rates. -/
def rateDistance (q : Int) (p : CurvePoint) : Nat := (q - (p.rate : Int)).natAbs

/-- R147: the point nearest in rate, with its index; the lower index where two are equally near. -/
def nearestPoint (q : Int) : List CurvePoint → Option (Nat × CurvePoint)
  | [] => none
  | p :: rest =>
    match nearestPoint q rest with
    | none => some (0, p)
    | some (i, x) => if rateDistance q x < rateDistance q p then some (i + 1, x) else some (0, p)

/-- A point inserted in rate order. -/
def insertPoint (x : CurvePoint) : List CurvePoint → List CurvePoint
  | [] => [x]
  | p :: rest => if p.rate < x.rate then p :: insertPoint x rest else x :: p :: rest

/-- The edit of a curve by ACCEPT_PROVE (R147, R148). -/
structure CurveEdit where
  inserted : Bool
  index : Nat
  points : List CurvePoint
  oldFactor : Option Nat
  deriving DecidableEq, Repr

/-- R147: the edit of a working copy; none where the curve is full (STORE_FULL). -/
def editCurve (points : List CurvePoint) (cap : Nat) (q mfNew : Int) : Option CurveEdit :=
  match nearestPoint q points with
  | none => none
  | some (i, p) =>
    if rateDistance q p * 10 ≤ p.rate then
      some
        { inserted := false
          index := i
          points := points.set i { p with factor := mfNew.toNat, origin := .proved }
          oldFactor := some p.factor }
    else if points.length < cap then
      some
        { inserted := true
          index := (points.filter fun x => decide ((x.rate : Int) < q)).length
          points := insertPoint { rate := q.toNat, factor := mfNew.toNat, origin := .proved } points
          oldFactor := none }
    else none

/-- R146: the deviation test. -/
def deviates (limit : Nat) (mfNew mfCurve : Int) : Bool :=
  decide (limit * mfCurve < (mfNew - mfCurve).natAbs * 100000)

/-- R99: the prove-accepted flag of a run and of the station. -/
def ActiveAcc.markProve (a : ActiveAcc) (r : Fin 4) : ActiveAcc :=
  { a with
    runs :=
      a.runs.set r { a.runs[r] with flags := { a.runs[r].flags with proveAccepted := true } }
    station := { a.station with flags := { a.station.flags with proveAccepted := true } } }

/-- R99: the Batch Unit hears of an accepted prove. -/
def BatchUnit.markProve (b : BatchUnit) (r : Fin 4) : BatchUnit :=
  if b.queue.isEmpty then b else { b with acc := b.acc.markProve r }

/-- R83, R148: the edited curve becomes the pending copy, the Batch Unit is told, and the session is
IDLE with end cause ACCEPTED. -/
def installEdit (r : Fin 4) (p : Fin 8) (points : List CurvePoint) (s : State) : State :=
  let c := s.curve r p
  let s1 := s.setCurve r p { c with pending := some { points, installedAt := s.now } }
  let s2 := s1.setBatch (s1.retained.batch.markProve r)
  s2.setSession { s2.session with state := .idle, endCause := .accepted }

/-- R148: the reply data of an accepted prove. -/
def editData (e : CurveEdit) (mfCurve mfNew : Int) : List Byte :=
  encFlag e.inserted ++ encU 1 e.index ++ encU 3 mfCurve ++ encU 3 mfNew
    ++ encOpt 3 (fun x : Nat => encU 3 x) e.oldFactor

/-- R146 to R148: ACCEPT_PROVE on a working copy. -/
def acceptOn (r : Fin 4) (p : Fin 8) (x : Results) (points : List CurvePoint) (cap : Nat)
    (s : State) : State × Reply :=
  let mfCurve := interpolate (curvePairs points) x.qProve
  if deviates ((s.retained.prover.map (·.acceptLimit)).getD 0) x.mfNew mfCurve then
    (s, { result := .deviation, data := encU 3 mfCurve })
  else
    match editCurve points cap x.qProve x.mfNew with
    | none => refuse .storeFull s
    | some e =>
      match curveError e.points.length cap (e.points.map (·.plain)) with
      | some err => refuseTable err s
      | none => accept (editData e mfCurve x.mfNew) (installEdit r p e.points s)

/-- R146: ACCEPT_PROVE, taken by the Decoder. A COMPLETE session has an attached run, a product and
results. -/
def acceptProve (args : List Byte) (s : State) : State × Reply :=
  withLength 0 args
    (fun s =>
      if s.session.state ≠ .complete then refuse .wrongState s
      else
        match s.session.attached, s.session.product, s.session.results with
        | some r, some p, some x =>
          match s.workingCopy r p with
          | none => refuse .notFound s
          | some (points, cap) => acceptOn r p x points cap s
        | _, _, _ => refuse .notFound s) s

/-- ACCEPT_PROVE (R146 to R148). -/
def execAcceptProve (src tag : Byte) (args : List Byte) (s : State) : Result :=
  runCommand 0x35 src tag args (acceptProve args) s

/-! ### READ_PROVE -/

/-- R131: a detector as reply data: its setup, zeros while no record is loaded, and its items. The enable (R113)
and the dead time running (R116) are coded as flags, 1 for on or yes (assumption 37). -/
def detectorData (setup : Option DetectorSetup) (d : DetectorState) : List Byte :=
  encFlag ((setup.map (·.enabled)).getD false) ++ encCode ((setup.map (edgeCode ·.polarity)).getD 0)
    ++ encOpt 4 encWord d.lastEvent ++ encU 2 d.events ++ encU 2 d.rejects ++ encFlag d.deadRunning

/-- R131: part 0 of READ_PROVE. The record's mark and the auto-release are coded as flags, 1 for present and
for on, and the auto-release is 0 while no record is loaded (assumption 37). -/
def proveStatus (s : State) : List Byte :=
  let x := s.session
  let rec0 := s.retained.prover
  encCode x.state.code ++ encOpt 1 (fun r : Fin 4 => encU 1 r.val) x.attached ++ encFlag rec0.isSome
    ++ encFlag ((rec0.map (·.autoRelease)).getD false) ++ detectorData (rec0.map (·.det1)) s.det1
    ++ detectorData (rec0.map (·.det2)) s.det2 ++ encU 2 x.stray ++ encU 1 x.consecutive
    ++ encU 2 x.spoiledTotal ++ encU 2 x.abandoned ++ encU 2 x.completed ++ encWord s.timebase

/-- The last pass outcome as reply data: its code, then the pass number or the spoil cause. -/
def PassOutcome.bytes : PassOutcome → List Byte
  | .none => encCode 0
  | .completed n => encCode 1 ++ encU 2 n
  | .spoiled c => encCode 2 ++ encCode c.code

/-- R131: part 1 of READ_PROVE, marked PARTIAL 0, BETWEEN 1 or NO_SESSION 2 (assumption 37). -/
def passData (s : State) : List Byte :=
  let x := s.session
  match x.state with
  | .timing | .finishing =>
    let tD1 := x.items.tD1.getD 0
    encCode 0 ++ encWord tD1 ++ encOpt 4 encWord x.items.tP1 ++ encU 4 x.items.running
      ++ encOpt 4 encWord x.items.lastPulse ++ encOpt 4 encWord x.items.tD2
      ++ encWord (s.timebase - tD1) ++ encU 2 ((s.retained.prover.map (·.timeout)).getD 0)
  | .held | .armed => encCode 1 ++ x.lastOutcome.bytes
  | .idle | .complete | .failed => encCode 2 ++ x.lastOutcome.bytes

/-- The last window tested as reply data. -/
def TestWindow.bytes (w : TestWindow) : List Byte := encU 1 w.first ++ encU 1 w.last ++ encU 2 w.spread

/-- Whether the session is COMPLETE or FAILED. -/
def Session.ended (x : Session) : Bool := x.state == .complete || x.state == .failed

/-- R149: part 2 of READ_PROVE. In every session state the rate-clamped mark is over the last window
tested, and the marks of absent results are sent clear (assumption 33). -/
def sessionData (x : Session) : List Byte :=
  encCode x.state.code ++ encCode x.endCause.code
    ++ encOpt 1 (fun r : Fin 4 => encU 1 r.val) x.attached
    ++ encOpt 1 (fun p : Fin 8 => encU 1 p.val) x.product
    ++ encOpt 4 (fun k : Nat => encU 4 k) x.kFactor ++ encOpt 4 encWord x.startInterval
    ++ encU 1 x.proveRuns.length ++ encU 2 x.spoiledForRun ++ encU 1 x.passes.length
    ++ encOpt 4 TestWindow.bytes x.lastWindow ++ encOpt 3 (encU 3) (x.results.map (·.mfNew))
    ++ encOpt 4 (encU 4) (x.results.map (·.qProve))
    ++ encFlag ((x.results.map (·.tableClamp)).getD false)
    ++ encFlag ((x.results.map (·.factorRange)).getD false) ++ encFlag x.rateMark
    ++ encU 2 x.spoiledTotal
    ++ encOpt 1 encFlag (if x.ended then some x.inputMark else none)

/-- R149: part 3 of READ_PROVE. -/
def Results.bytes (x : Results) : List Byte :=
  encU 4 x.ni ++ encS 2 x.tPv ++ encS 3 x.pPv ++ encS 2 x.tMt ++ encS 3 x.pMt ++ encU 3 x.ctsp
    ++ encU 3 x.cpsp ++ encU 3 x.ctlp ++ encU 3 x.cplp ++ encU 3 x.ccfp ++ encU 3 x.ctlm
    ++ encU 3 x.cplm ++ encU 3 x.ccfm

/-- A value in use with its input code as reply data. -/
def Reading.bytes (r : Reading) : List Byte := encS 4 r.value ++ encU 1 r.code

/-- R149: a pass record as reply data (R124). -/
def PassRecord.bytes (p : PassRecord) : List Byte :=
  encU 2 p.number ++ encWord p.tD1 ++ encWord p.tP1 ++ encWord p.tD2 ++ encWord p.tP2
    ++ encU 4 p.nWhole ++ encU 4 p.td ++ encU 4 p.tp ++ encU 4 p.ni ++ encU 4 p.rate
    ++ encFlag p.rateClamped ++ p.proverT.bytes ++ p.proverP.bytes ++ p.meterT.bytes
    ++ p.meterP.bytes ++ encCode (channelCode p.channel) ++ encU 1 p.spoiledBefore

/-- R149: a prove-run record as reply data (R136). -/
def ProveRun.bytes (r : ProveRun) : List Byte :=
  encU 1 r.number ++ encU 2 r.firstPass ++ encU 2 r.lastPass ++ encU 4 r.ni ++ encU 4 r.rate
    ++ encS 2 r.proverT.value ++ encS 3 r.proverP.value ++ encS 2 r.meterT.value
    ++ encS 3 r.meterP.value ++ encU 1 r.proverT.code ++ encU 1 r.proverP.code
    ++ encU 1 r.meterT.code ++ encU 1 r.meterP.code ++ encFlag r.rateClamped ++ encU 2 r.spoiled

/-- R131, R149: the reply data of a part; none for a list place that holds no record. -/
def proveData (part : Nat) (s : State) : Option (List Byte) :=
  if part = 0 then some (proveStatus s)
  else if part = 1 then some (passData s)
  else if part = 2 then some (sessionData s.session)
  else if part = 3 then some (encOpt 38 Results.bytes s.session.results)
  else if part ≤ 23 then (s.session.passes[part - 4]?).map PassRecord.bytes
  else (s.session.proveRuns[part - 24]?).map ProveRun.bytes

/-- R131, R149: READ_PROVE, taken by the Decoder. -/
def readProve (args : List Byte) (s : State) : State × Reply :=
  withLength 1 args
    (fun s =>
      if 43 < argU args 0 1 then refuse .badArgument s
      else
        match proveData (argU args 0 1) s with
        | some data => accept data s
        | none => refuse .notFound s) s

/-- READ_PROVE (R131, R149). -/
def execReadProve (src tag : Byte) (args : List Byte) (s : State) : Result :=
  runCommand 0x36 src tag args (readProve args) s

/-! ### Detector events (R115) -/

/-- The part of the prover record that concerns a detector. -/
def ProverRecord.setup (x : ProverRecord) : Detector → DetectorSetup
  | .det1 => x.det1
  | .det2 => x.det2

/-- R118, R119: a detector event is handed to the pass state. -/
def passEvent (d : Detector) (stamp : Word32) (s : State) : State :=
  match d with
  | .det1 => passDet1 stamp s
  | .det2 => passDet2 stamp s

/-- R115, R116: the detector's items after a detector event. -/
def DetectorState.take (d : DetectorState) (stamp : Word32) : DetectorState :=
  { d with lastEvent := some stamp, events := count1 cap16 d.events, deadRunning := true }

/-- R115: an edge of the selected polarity on an enabled detector. -/
def acceptedEdge (d : Detector) (stamp : Word32) (s : State) : State :=
  if (s.det d).deadRunning then
    s.setDet d { s.det d with rejects := count1 cap16 (s.det d).rejects }
  else passEvent d stamp (s.setDet d ((s.det d).take stamp))

/-- R115: whether an edge is taken by a detector's enable and polarity. -/
def edgeSelected (d : Detector) (e : Edge) (s : State) : Bool :=
  match s.retained.prover with
  | none => false
  | some x => (x.setup d).enabled && (x.setup d).polarity == e

/-- R115: an edge on a detector input. -/
def detectorEdge (d : Detector) (e : Edge) (stamp : Word32) (s : State) : State :=
  if edgeSelected d e s then acceptedEdge d stamp s else s

/-- DETECTOR_EVENT (R115). -/
def execDetectorEvent (det : Detector) (edge : Edge) (stamp : Word32) (s : State) : Result :=
  whenRunning (fun s => detectorEdge det edge stamp (advanceTo stamp s)) s

/-! ### Dead times and the pass timeout (R115, R126) -/

/-- REFCLK periods that are still to run of a span that began at a timebase value. -/
def State.periodsLeft (s : State) (start : Word32) (span : Nat) : Nat :=
  span - (s.timebase - start).toNat

/-- R115: the REFCLK periods still to run of a detector's dead time; absent while none runs. -/
def State.deadTimeLeft (s : State) (d : Detector) : Option Nat :=
  match s.retained.prover, (s.det d).lastEvent with
  | some x, some start =>
    if (s.det d).deadRunning then some (s.periodsLeft start ((x.setup d).deadTime * periodsPerMs))
    else none
  | _, _ => none

/-- R115: a dead time ends. -/
def endDeadTime (d : Detector) (s : State) : State :=
  s.setDet d { s.det d with deadRunning := false }

/-- DEAD_TIME_END (R115). The clock is brought to the end of the dead time; with no dead time running
the event does not arise and changes nothing (assumption 4). -/
def execDeadTimeEnd (det : Detector) (s : State) : Result :=
  whenRunning
    (fun s =>
      match s.deadTimeLeft det with
      | some n => endDeadTime det (advanceClock n s)
      | none => s) s

/-- R126: the REFCLK periods still to run of the pass timeout; absent while it does not run. -/
def State.timeoutLeft (s : State) : Option Nat :=
  match s.retained.prover, s.session.items.tD1 with
  | some x, some start =>
    if s.session.items.timeoutRunning then some (s.periodsLeft start (x.timeout * periodsPer10ms))
    else none
  | _, _ => none

/-- PASS_TIMEOUT (R126). The clock is brought to the expiry; with no timeout running the event does not
arise and changes nothing (assumption 4). -/
def execPassTimeout (s : State) : Result :=
  whenRunning
    (fun s =>
      match s.timeoutLeft with
      | some n => spoilPass .timeout (advanceClock n s)
      | none => s) s

end Sys2Proof.Machine
end

