-- ==== Sys2Proof/Machine/Runs.lean ====
section
/-! DEFINITION. The commands that concern meter runs (chapters 1 and 2): LOAD_RUN, OPEN_RUN, CLOSE_RUN,
SELECT_CHANNEL, READ_RUN and READ_PULSES. -/

namespace Sys2Proof.Machine

/-- R10: the residues after LOAD_RUN: r_IV is 0 if the K-factor differs from the one the run held. -/
def residuesAfterLoad (old : RunRetained) (new : RunSettings) : Residues :=
  match old.settings with
  | some x => if x.kFactor = new.kFactor then old.residues else { old.residues with rIV := 0 }
  | none => old.residues

/-- R10, R43: the effects of an accepted LOAD_RUN. -/
def installSettings (r : Fin 4) (x : RunSettings) (s : State) : State :=
  let old := s.retained.runs[r]
  let s1 :=
    s.setRunRetained r { old with settings := some x, residues := residuesAfterLoad old x }
  let p := s1.pulses[r].resetComparison
  evalPulseConds r (s1.setPulse r { p with totalizing := x.primary, change := none })

/-- R9, R10: LOAD_RUN, taken by the Decoder. -/
def loadRun (args : List Byte) (s : State) : State × Reply :=
  withLength 20 args
    (fun s =>
      match readRunSettings args with
      | none => refuse .badArgument s
      | some (r, x) =>
        if s.runs[r].state = .closed then accept [] (installSettings r x s) else refuse .busy s) s

/-- LOAD_RUN (R9, R10). -/
def execLoadRun (src tag : Byte) (args : List Byte) (s : State) : Result :=
  runCommand 0x18 src tag args (loadRun args) s

/-! ### OPEN_RUN and CLOSE_RUN -/

/-- R7: the last three checks of OPEN_RUN: the layout allows the run, the settings are present, and
both binding slots hold a loaded binding. -/
def canOpen (r : Fin 4) (s : State) : Bool :=
  (match s.retained.station with
    | some st => st.layout.allowsRun r
    | none => false)
    && match s.settings r with
      | some x =>
        s.retained.bindings[x.tSlot].isSome && s.retained.bindings[x.pSlot].isSome
      | none => false

/-- R7, R43: the run goes to OPENING and its comparison and idle count start again. -/
def openRunAt (r : Fin 4) (s : State) : State :=
  let s1 := s.setRun r { s.runs[r] with state := .opening }
  evalPulseConds r (s1.setPulse r { s1.pulses[r].resetComparison with idle := 0 })

/-- R7: OPEN_RUN, taken by the Decoder. -/
def openRun (args : List Byte) (s : State) : State × Reply :=
  withLength 1 args
    (fun s =>
      match asRun (argU args 0 1) with
      | none => refuse .badArgument s
      | some r =>
        if s.station ≠ .metering ∨ s.runs[r].state ≠ .closed then refuse .wrongState s
        else if canOpen r s then accept (encCode RunState.opening.code) (openRunAt r s)
        else refuse .badArgument s) s

/-- OPEN_RUN (R7). -/
def execOpenRun (src tag : Byte) (args : List Byte) (s : State) : Result :=
  runCommand 0x19 src tag args (openRun args) s

/-- R8: a run is closed from OPENING at once: the totalizing channel's count becomes the pre-open pulse
count and the counts, the window and the batch disagreement count are zeroed (R37). -/
def closeFromOpening (r : Fin 4) (s : State) : State :=
  let p := s.pulses[r]
  let s1 := s.setRun r { s.runs[r] with state := .closed, preOpen := p.counts.get p.totalizing }
  evalPulseConds r (s1.setPulse r { p.closeRun with batchDisagree := 0 })

/-- R8: an OPEN run goes to CLOSING. -/
def beginClosing (r : Fin 4) (s : State) : State :=
  evalPulseConds r (s.setRun r { s.runs[r] with state := .closing })

/-- R8: CLOSE_RUN, taken by the Decoder. -/
def closeRun (args : List Byte) (s : State) : State × Reply :=
  withLength 1 args
    (fun s =>
      match asRun (argU args 0 1) with
      | none => refuse .badArgument s
      | some r =>
        match s.runs[r].state with
        | .closed => refuse .wrongState s
        | .opening => accept (encCode RunState.closed.code) (closeFromOpening r s)
        | .opened =>
          if s.proving r then refuse .busy s
          else accept (encCode RunState.closing.code) (beginClosing r s)
        | .closing => accept (encCode RunState.closing.code) s) s

/-- CLOSE_RUN (R8). -/
def execCloseRun (src tag : Byte) (args : List Byte) (s : State) : Result :=
  runCommand 0x1A src tag args (closeRun args) s

/-! ### SELECT_CHANNEL -/

/-- R45: the change state after SELECT_CHANNEL has named a channel. -/
def PulseState.select (p : PulseState) (ch : Channel) : PulseState :=
  { p with change := if ch = p.totalizing then none else some ch }

/-- R45, R51: the totalizing channel and the change state as reply data. R175 gives no layout for a change
state with its target: the model sends a code byte, 0 NONE or STEADY and 1 PENDING or SWITCHING, and then the
target with its presence byte (assumption 15). -/
def changeData (p : PulseState) : List Byte :=
  encCode (channelCode p.totalizing) ++ encFlag p.change.isSome
    ++ encOpt 1 (fun c : Channel => encCode (channelCode c)) p.change

/-- R45, R50: an accepted SELECT_CHANNEL. -/
def selectAt (r : Fin 4) (ch : Channel) (s : State) : State :=
  let p := s.pulses[r]
  let q := p.select ch
  reportPulseUnit r p q (evalPulseConds r (s.setPulse r q))

/-- R45: SELECT_CHANNEL, taken by the Decoder. -/
def selectChannel (args : List Byte) (s : State) : State × Reply :=
  withLength 2 args
    (fun s =>
      match asRun (argU args 0 1), asChannel (argU args 1 1) with
      | some r, some ch =>
        if s.dual r && s.pulses[r].status.get ch == .normal then
          let s1 := selectAt r ch s
          accept (changeData s1.pulses[r]) s1
        else refuse .badArgument s
      | _, _ => refuse .badArgument s) s

/-- SELECT_CHANNEL (R45). -/
def execSelectChannel (src tag : Byte) (args : List Byte) (s : State) : Result :=
  runCommand 0x1B src tag args (selectChannel args) s

/-! ### READ_RUN -/

/-- The settings fields as reply data (R9). -/
def RunSettings.bytes (x : RunSettings) : List Byte :=
  encU 4 x.kFactor ++ encCode x.mode.code ++ encCode (channelCode x.primary) ++ encU 3 x.fallback
    ++ encU 1 x.tSlot.val ++ encU 1 x.pSlot.val ++ encU 4 x.rateHigh ++ encU 4 x.rateLow

/-- R28: the result flags as reply data, one byte for each code and each flag. -/
def ResultFlags.bytes (f : ResultFlags) : List Byte :=
  encU 1 f.codeT ++ encU 1 f.codeP ++ encU 1 f.codeRho ++ encU 1 f.codeSW
    ++ [f.fallback, f.curveClamp, f.tableClamp, f.rateClamped, f.coarse, f.fine, f.substituted,
        f.firstOfBatch].flatMap encFlag

/-- R11: the last interval record without its IV, GSV, NSV and mass. -/
def IntervalRecord.partTwo (r : IntervalRecord) : List Byte :=
  encU 1 r.run.val ++ encWord r.interval ++ encU 1 r.product.val ++ encU 2 r.p
    ++ encCode (channelCode r.channel) ++ encU 4 r.q ++ encU 3 r.mf ++ encU 3 r.ctl ++ encU 3 r.cpl
    ++ encU 3 r.ccf ++ encS 2 r.t ++ encS 3 r.pres ++ encU 3 r.rhoLine ++ encU 3 r.rhoStd
    ++ encU 2 r.sw ++ r.flags.bytes

/-- R11: the run, the interval number, IV, GSV, NSV and mass of the last interval record. -/
def IntervalRecord.partThree (r : IntervalRecord) : List Byte :=
  encU 1 r.run.val ++ encWord r.interval ++ encU 8 r.iv ++ encU 8 r.gsv ++ encU 8 r.nsv
    ++ encU 8 r.mass

/-- R11: the reply data of READ_RUN. -/
def runData (r : Fin 4) (part : Nat) (s : State) : List Byte :=
  let v := s.runs[r]
  let k := s.retained.runs[r]
  match part with
  | 0 =>
    encCode v.state.code ++ encOpt 19 RunSettings.bytes k.settings ++ encU 2 v.preOpen
      ++ encWord s.now
  | 1 =>
    k.totals.bytes ++ encU 8 k.residues.rIV ++ encU 3 k.residues.rGSV ++ encU 2 k.residues.rNSV
      ++ encU 8 k.residues.rM
  | 2 => encOpt 50 IntervalRecord.partTwo v.last
  | _ => encOpt 37 IntervalRecord.partThree v.last

/-- R11: READ_RUN, taken by the Decoder. -/
def readRun (args : List Byte) (s : State) : State × Reply :=
  withLength 2 args
    (fun s =>
      match asRun (argU args 0 1) with
      | none => refuse .badArgument s
      | some r =>
        if 3 < argU args 1 1 then refuse .badArgument s
        else accept (runData r (argU args 1 1) s) s) s

/-- READ_RUN (R11). -/
def execReadRun (src tag : Byte) (args : List Byte) (s : State) : Result :=
  runCommand 0x1C src tag args (readRun args) s

/-! ### READ_PULSES -/

/-- R51: the reply data of READ_PULSES. The "prover attached" of R51, yes or no, is coded as a flag, 1 for yes
(assumption 37). -/
def pulsesData (r : Fin 4) (s : State) : List Byte :=
  let p := s.pulses[r]
  encOpt 2 (fun x : RunSettings => encCode x.mode.code ++ encCode (channelCode x.primary))
      (s.settings r)
    ++ encU 2 p.counts.a ++ encU 2 p.counts.b ++ encU 1 p.windows.a ++ encU 1 p.windows.b
    ++ encCode p.status.a.code ++ encCode p.status.b.code ++ encFlag p.coarse ++ encFlag p.fine
    ++ changeData p ++ encU 4 p.cumDisagree ++ encU 4 p.batchDisagree ++ encU 4 p.idle
    ++ encFlag (s.proving r) ++ encWord s.timebase

/-- R51: READ_PULSES, taken by the Decoder. -/
def readPulses (args : List Byte) (s : State) : State × Reply :=
  withLength 1 args
    (fun s =>
      match asRun (argU args 0 1) with
      | none => refuse .badArgument s
      | some r => accept (pulsesData r s) s) s

/-- READ_PULSES (R51). -/
def execReadPulses (src tag : Byte) (args : List Byte) (s : State) : Result :=
  runCommand 0x1D src tag args (readPulses args) s

/-! ### PULSE -/

/-- R32: a pulse on a channel of a run, by the run's state. -/
def pulseEvent (r : Fin 4) (ch : Channel) (stamp : Word32) (s : State) : State :=
  if s.runs[r].state = .closed then if ch = s.primary r then idlePulse r s else s
  else runPulse r ch stamp s

/-- PULSE (R32). -/
def execPulse (run : Fin 4) (ch : Channel) (stamp : Word32) (s : State) : Result :=
  whenRunning (fun s => pulseEvent run ch stamp (advanceTo stamp s)) s

end Sys2Proof.Machine
end

