-- ==== Sys2Proof/Machine/Supply.lean ====
section
/-! DEFINITION. The events of the supplies and of RSTn (chapter 10): the hard start, the loss of VDD or
a low RSTn, and the loss of VBAK. -/

namespace Sys2Proof.Machine

/-! ### VDD and RSTn (R183) -/

/-- Whether VDD is present. -/
def Power.hasVdd : Power → Bool
  | .running | .heldInReset => true
  | .noVdd | .noVddInReset => false

/-- R183: VDD is lost. RSTn keeps its level. -/
def Power.loseVdd : Power → Power
  | .running | .noVdd => .noVdd
  | .heldInReset | .noVddInReset => .noVddInReset

/-- R183: RSTn goes low, with VDD or without it. -/
def Power.resetFalls : Power → Power
  | .running | .heldInReset => .heldInReset
  | .noVdd | .noVddInReset => .noVddInReset

/-- R183: VDD comes up. While RSTn is low the part stays inactive. -/
def Power.vddRises : Power → Power
  | .running | .noVdd => .running
  | .heldInReset | .noVddInReset => .heldInReset

/-- R183: RSTn rises. Without VDD the part stays inactive. -/
def Power.resetRises : Power → Power
  | .running | .heldInReset => .running
  | .noVdd | .noVddInReset => .noVdd

/-- R183: VDD and RSTn after the event that a hard start comes from. -/
def Power.rise : StartCause → Power → Power
  | .powerUp => Power.vddRises
  | .resetRises => Power.resetRises

/-- R183: VDD and RSTn after an event that makes the part inactive. -/
def Power.fall : DownCause → Power → Power
  | .vddLost => Power.loseVdd
  | .resetLow => Power.resetFalls

/-! ### The events -/

/-- HARD_START (R183). The hard start is taken when the event leaves the part with VDD present and RSTn
high. A power-up while RSTn is low leaves the part inactive, its retained content as it is, and the hard
start is that of the rising edge (assumption 26). -/
def execHardStart (cause : StartCause) (straps : Straps) (s : State) : Result :=
  let power := s.power.rise cause
  .next (if power = .running then hardStart straps s else { s with power })

/-- R183: the part becomes inactive; the frame in transmission is cut off. -/
def powerDown (cause : DownCause) (s : State) : State :=
  { s with power := s.power.fall cause, transmitter := .free }

/-- R182: VDD is lost with VBAK lost before it: the area is lost, unless VBAK has returned, which is open
(assumption 31). -/
def loseBothSupplies (s : State) : State :=
  let back := Config.backupReturned s.openCount
  { s with
    backupLost := !back
    retainedLost := s.retainedLost || !back
    openCount := s.openCount + 1 }

/-- R182: what a loss of VDD or a low RSTn does to the retained area. -/
def areaAtPowerDown (cause : DownCause) (s : State) : State :=
  if cause = .vddLost ∧ s.power.hasVdd = true ∧ s.backupLost = true then loseBothSupplies s else s

/-- RESET_OR_POWER_LOSS (R183). The volatile state is set at the next hard start (assumption 26). -/
def execResetOrPowerLoss (cause : DownCause) (s : State) : Result :=
  .next (powerDown cause (areaAtPowerDown cause s))

/-- BACKUP_SUPPLY_LOSS (R182): with VDD absent, the retained area is lost with VBAK; while VDD is
present the area stays, until VDD is lost as well. -/
def execBackupSupplyLoss (s : State) : Result :=
  .next { s with backupLost := true, retainedLost := s.retainedLost || !s.power.hasVdd }

end Sys2Proof.Machine
end

