-- ==== Sys2Proof/Machine/Dispatch.lean ====
section
/-! DEFINITION. One arm for each row of spec/opcode_table.json. -/

namespace Sys2Proof.Machine

/-- The effect of a command or event on everything but the queue. -/
def exec (i : Instr) (s : State) : Host.Outcome State Fault Refusal :=
  match i with
  | .readLoopCounts src tag args => Sys2Proof.Machine.execReadLoopCounts src tag args s
  | .clearLoopCounts src tag args => Sys2Proof.Machine.execClearLoopCounts src tag args s
  | .loadStation src tag args => Sys2Proof.Machine.execLoadStation src tag args s
  | .readStation src tag args => Sys2Proof.Machine.execReadStation src tag args s
  | .startMetering src tag args => Sys2Proof.Machine.execStartMetering src tag args s
  | .stopMetering src tag args => Sys2Proof.Machine.execStopMetering src tag args s
  | .restart src tag args => Sys2Proof.Machine.execRestart src tag args s
  | .loadBinding src tag args => Sys2Proof.Machine.execLoadBinding src tag args s
  | .readInput src tag args => Sys2Proof.Machine.execReadInput src tag args s
  | .loadRun src tag args => Sys2Proof.Machine.execLoadRun src tag args s
  | .openRun src tag args => Sys2Proof.Machine.execOpenRun src tag args s
  | .closeRun src tag args => Sys2Proof.Machine.execCloseRun src tag args s
  | .selectChannel src tag args => Sys2Proof.Machine.execSelectChannel src tag args s
  | .readRun src tag args => Sys2Proof.Machine.execReadRun src tag args s
  | .readPulses src tag args => Sys2Proof.Machine.execReadPulses src tag args s
  | .loadPoints src tag args => Sys2Proof.Machine.execLoadPoints src tag args s
  | .commitCurve src tag args => Sys2Proof.Machine.execCommitCurve src tag args s
  | .commitProduct src tag args => Sys2Proof.Machine.execCommitProduct src tag args s
  | .readCurve src tag args => Sys2Proof.Machine.execReadCurve src tag args s
  | .readProduct src tag args => Sys2Proof.Machine.execReadProduct src tag args s
  | .queueBatch src tag args => Sys2Proof.Machine.execQueueBatch src tag args s
  | .cancelBatch src tag args => Sys2Proof.Machine.execCancelBatch src tag args s
  | .endBatch src tag args => Sys2Proof.Machine.execEndBatch src tag args s
  | .readBatches src tag args => Sys2Proof.Machine.execReadBatches src tag args s
  | .readTicket src tag args => Sys2Proof.Machine.execReadTicket src tag args s
  | .takeTicket src tag args => Sys2Proof.Machine.execTakeTicket src tag args s
  | .loadProver src tag args => Sys2Proof.Machine.execLoadProver src tag args s
  | .proveStart src tag args => Sys2Proof.Machine.execProveStart src tag args s
  | .proveHold src tag args => Sys2Proof.Machine.execProveHold src tag args s
  | .proveRelease src tag args => Sys2Proof.Machine.execProveRelease src tag args s
  | .proveAbort src tag args => Sys2Proof.Machine.execProveAbort src tag args s
  | .acceptProve src tag args => Sys2Proof.Machine.execAcceptProve src tag args s
  | .readProve src tag args => Sys2Proof.Machine.execReadProve src tag args s
  | .loadLevels src tag args => Sys2Proof.Machine.execLoadLevels src tag args s
  | .setLevelGate src tag args => Sys2Proof.Machine.execSetLevelGate src tag args s
  | .clearCondition src tag args => Sys2Proof.Machine.execClearCondition src tag args s
  | .readConditions src tag args => Sys2Proof.Machine.execReadConditions src tag args s
  | .unknownCommand src payload => Sys2Proof.Machine.execUnknownCommand src payload s
  | .intervalExpiry => Sys2Proof.Machine.execIntervalExpiry s
  | .input10msCount => Sys2Proof.Machine.execInput10msCount s
  | .pulse run ch stamp => Sys2Proof.Machine.execPulse run ch stamp s
  | .detectorEvent det edge stamp => Sys2Proof.Machine.execDetectorEvent det edge stamp s
  | .deadTimeEnd det => Sys2Proof.Machine.execDeadTimeEnd det s
  | .passTimeout => Sys2Proof.Machine.execPassTimeout s
  | .goodFrameArrival chars => Sys2Proof.Machine.execGoodFrameArrival chars s
  | .receiveError chars => Sys2Proof.Machine.execReceiveError chars s
  | .huntingEnd => Sys2Proof.Machine.execHuntingEnd s
  | .transmitterFree => Sys2Proof.Machine.execTransmitterFree s
  | .frameSent => Sys2Proof.Machine.execFrameSent s
  | .hardStart cause straps => Sys2Proof.Machine.execHardStart cause straps s
  | .resetOrPowerLoss cause => Sys2Proof.Machine.execResetOrPowerLoss cause s
  | .frameReceptionBegin => Sys2Proof.Machine.execFrameReceptionBegin s
  | .backupSupplyLoss => Sys2Proof.Machine.execBackupSupplyLoss s

end Sys2Proof.Machine
end

