-- ==== Sys2Proof/Machine/Idle.lean ====
section
/-! DEFINITION. What the block does by itself while no command or event waits (assumption 2): the Command
Decoder takes the oldest frame of the command buffer (R170), and otherwise one period of REFCLK passes
(R33). -/

namespace Sys2Proof.Machine

/-- R115: a detector's dead time ends when it has run out. -/
def dueDeadTime (d : Detector) (s : State) : State :=
  if s.deadTimeLeft d = some 0 then endDeadTime d s else s

/-- R126: the pass timeout expires when it has run out. -/
def dueTimeout (s : State) : State :=
  if s.timeoutLeft = some 0 then spoilPass .timeout s else s

/-- R60: the Input Unit's 10 ms count falls due. -/
def dueInputCount (s : State) : State := if s.inputDivider = 0 then inputCount s else s

/-- R1: the interval timer reaches zero. -/
def dueExpiry (s : State) : State := if s.timer = some 0 then expiry s else s

/-- What is due at this moment of the reference clock, in a fixed order (assumption 8). -/
def takeDue (s : State) : State :=
  dueExpiry (dueInputCount (dueTimeout (dueDeadTime .det2 (dueDeadTime .det1 s))))

/-- One period of REFCLK and what falls due at its end. What is due before it, because an event was given at
that very moment, is taken first (assumption 3), so that a 10 ms count is always 100,000 periods. -/
def clockPeriod (s : State) : State := takeDue (advanceClock 1 (takeDue s))

/-- What the block does when no command or event waits. -/
def idle (s : State) : Result :=
  match s.commands with
  | f :: _ => exec (decodeCommand f.source f.payload) s
  | [] => whenRunning clockPeriod s

end Sys2Proof.Machine
end

