-- ==== Sys2Proof/WellFormed.lean ====
section
/-! DEFINITION. When a command of the table is one that the loop or the pins can give: the sizes of R163
and R171, and the payload of an unknown command. -/

namespace Sys2Proof

/-- R171: a payload that spells no command of the table: too short for a tag and a code, or with a code
outside the command table. -/
def unknownPayload (payload : List Byte) : Bool :=
  match payload with
  | tag :: code :: args => (commandOfCode 0 tag code.toNat args).isNone
  | _ => true

/-- The arguments of a command: at most 62 bytes (R171). -/
def argsFit (args : List Byte) : Bool := decide (args.length ≤ 62)

/-- A payload: at most 64 bytes (R163). -/
def payloadFits (payload : List Byte) : Bool := decide (payload.length ≤ 64)

/-- The characters of a frame on the line: at most 71 (R162). -/
def charsFit (chars : List LineChar) : Bool := decide (chars.length ≤ 71)

/-- A frame that ends with an error: at most one character more, which R164 calls a LENGTH error. -/
def faultyCharsFit (chars : List LineChar) : Bool := decide (chars.length ≤ 72)

/-- A command or event that the loop or the pins can give. -/
def Instr.wellFormed : Instr → Bool
  | .readLoopCounts _ _ args => argsFit args
  | .clearLoopCounts _ _ args => argsFit args
  | .loadStation _ _ args => argsFit args
  | .readStation _ _ args => argsFit args
  | .startMetering _ _ args => argsFit args
  | .stopMetering _ _ args => argsFit args
  | .restart _ _ args => argsFit args
  | .loadBinding _ _ args => argsFit args
  | .readInput _ _ args => argsFit args
  | .loadRun _ _ args => argsFit args
  | .openRun _ _ args => argsFit args
  | .closeRun _ _ args => argsFit args
  | .selectChannel _ _ args => argsFit args
  | .readRun _ _ args => argsFit args
  | .readPulses _ _ args => argsFit args
  | .loadPoints _ _ args => argsFit args
  | .commitCurve _ _ args => argsFit args
  | .commitProduct _ _ args => argsFit args
  | .readCurve _ _ args => argsFit args
  | .readProduct _ _ args => argsFit args
  | .queueBatch _ _ args => argsFit args
  | .cancelBatch _ _ args => argsFit args
  | .endBatch _ _ args => argsFit args
  | .readBatches _ _ args => argsFit args
  | .readTicket _ _ args => argsFit args
  | .takeTicket _ _ args => argsFit args
  | .loadProver _ _ args => argsFit args
  | .proveStart _ _ args => argsFit args
  | .proveHold _ _ args => argsFit args
  | .proveRelease _ _ args => argsFit args
  | .proveAbort _ _ args => argsFit args
  | .acceptProve _ _ args => argsFit args
  | .readProve _ _ args => argsFit args
  | .loadLevels _ _ args => argsFit args
  | .setLevelGate _ _ args => argsFit args
  | .clearCondition _ _ args => argsFit args
  | .readConditions _ _ args => argsFit args
  | .unknownCommand _ payload => payloadFits payload && unknownPayload payload
  | .intervalExpiry => true
  | .input10msCount => true
  | .pulse _ _ _ => true
  | .detectorEvent _ _ _ => true
  | .deadTimeEnd _ => true
  | .passTimeout => true
  | .goodFrameArrival chars => charsFit chars
  | .receiveError chars => faultyCharsFit chars
  | .huntingEnd => true
  | .transmitterFree => true
  | .frameSent => true
  | .hardStart _ _ => true
  | .resetOrPowerLoss _ => true
  | .frameReceptionBegin => true
  | .backupSupplyLoss => true

end Sys2Proof
end

