-- ==== Sys2Proof/Safety.lean ====
section
/-! DEFINITION. What counts as a safe run, and the properties of a state that the claims are about: the
bounds of the stores, the shape of the batch queue, the rules that tie the blocks' states together, and
which parts of the state an offer to the loop can touch. -/

namespace Sys2Proof.Machine

/-- A step that stops nothing: it answers a next state, neither a fault nor a refusal. -/
def StepsOn (r : Result) : Prop := ∃ t, r = .next t

/-- What an offer to the outbound queue may change: the queue, the forward buffer and the transmitter
(a free transmitter begins), the loop counters and the condition records (R167, R169). Every other
field of `t` is as in `s`. -/
def LoopOnly (s t : State) : Prop :=
  t =
    { s with
      conds := t.conds
      forward := t.forward
      outbound := t.outbound
      transmitter := t.transmitter
      counters := t.counters }

/-- The buffers of the loop hold no more than R166, R168 and R170 give them. -/
def State.BuffersFit (s : State) : Prop :=
  s.forward.length ≤ 2 ∧ s.outbound.length ≤ 16 ∧ s.commands.length ≤ 4

/-- The batch queue holds at most 8 batches and the ticket list at most 4 tickets (R88, R108). -/
def State.StoresFit (s : State) : Prop :=
  s.retained.batch.queue.length ≤ 8 ∧ s.retained.batch.tickets.length ≤ 4

/-- R88: the head is ACTIVE or CLOSING, every entry behind it is QUEUED, and a close cause is present
exactly while the head is CLOSING. -/
def BatchUnit.Shaped (b : BatchUnit) : Prop :=
  match b.queue with
  | [] => b.progress = {}
  | h :: rest =>
    h.state ≠ .queued ∧ (∀ e ∈ rest, e.state = .queued)
      ∧ (b.progress.closeCause.isSome = true ↔ h.state = .closing)

/-- R152: every active condition record is latched. -/
def State.ActiveLatched (s : State) : Prop :=
  ∀ c : CondId, (s.cond c).active = true → (s.cond c).latched = true

/-- R39: a run's Fine agreement flag is set only while its Coarse agreement flag is set. -/
def State.FineCoarse (s : State) : Prop :=
  ∀ r : Fin 4, s.pulses[r].fine = true → s.pulses[r].coarse = true

/-- R1, R6: the interval timer runs exactly while the station is METERING, and while it is not METERING
every run is CLOSED. -/
def State.MeteringRules (s : State) : Prop :=
  (s.timer.isSome = true ↔ s.station = .metering)
    ∧ (s.station ≠ .metering → ∀ r : Fin 4, s.runs[r].state = .closed)

/-- R6, R126, R134: while a prove session is active, the run it is attached to is OPEN; the pass timeout
runs only in an active session. -/
def State.SessionHoldsRun (s : State) : Prop :=
  (s.session.state.active = true →
    ∃ r : Fin 4, s.session.attached = some r ∧ s.runs[r].state = .opened)
  ∧ (s.session.items.timeoutRunning = true → s.session.state.active = true)

/-- R26: each of the five totals is a 64-bit count. -/
def Totals.Fit (t : Totals) : Prop :=
  t.iv ≤ cap64 ∧ t.gsv ≤ cap64 ∧ t.nsv ≤ cap64 ∧ t.mass ≤ cap64 ∧ t.pulses ≤ cap64

/-- R88: no batch id stands twice in the queue and the ticket list. -/
def State.BatchIdsDiffer (s : State) : Prop :=
  (s.retained.batch.queue.map (·.id) ++ s.retained.batch.tickets.map (·.id)).Nodup

/-- R25: each residue of a run lies below its divisor, and r_IV is 0 while the run has no settings. -/
def RunRetained.ResiduesFit (x : RunRetained) : Prop :=
  x.residues.rGSV < 1000000 ∧ x.residues.rNSV < 10000 ∧ x.residues.rM < 100000000000
    ∧ (∀ y, x.settings = some y → x.residues.rIV < y.kFactor)
    ∧ (x.settings = none → x.residues.rIV = 0)

/-- The residues of every run lie below their divisors (R25). -/
def State.ResiduesFit (s : State) : Prop := ∀ r : Fin 4, s.retained.runs[r].ResiduesFit

/-- The cumulative totals of every run are 64-bit counts (R26). -/
def State.TotalsFit (s : State) : Prop := ∀ r : Fin 4, s.retained.runs[r].totals.Fit

/-- Each of five totals is at least what it was. -/
def Totals.AtLeast (t u : Totals) : Prop :=
  u.iv ≤ t.iv ∧ u.gsv ≤ t.gsv ∧ u.nsv ≤ t.nsv ∧ u.mass ≤ t.mass ∧ u.pulses ≤ t.pulses

/-- Each loop counter lies from 0 to 65,535 (R173). -/
def LoopCounters.Fit (c : LoopCounters) : Prop := ∀ n ∈ c.toList, n ≤ cap16

/-- A loop command that the Command Decoder takes from `s` and handles: the part runs, no RESTART is
pending, and the frame is the oldest of the command buffer, or comes while the buffer is empty; `s1` is
the state in which it has left the buffer (R170, R171). -/
def State.Takes (s : State) (f : CommandFrame) (s1 : State) : Prop :=
  s.power = .running ∧ s.restartPending = false ∧ takeCommand f s = some s1

/-- The frame of a loop command in the command buffer (R171). -/
def frameOf (src tag : Byte) (code : Nat) (args : List Byte) : CommandFrame :=
  { source := src, payload := commandPayload tag code args }

/-- The part runs and no RESTART is pending: the step ends where its event ends (R172, R183). -/
def State.Runs (s : State) : Prop := s.power = .running ∧ s.restartPending = false

/-- R163, R164: a frame can be under reception, and `chars` are the characters of the frame `f`, whose payload
has at most 64 bytes. -/
def State.Hears (s : State) (chars : List LineChar) (f : Frame) : Prop :=
  s.receiver ≠ .hunting ∧ f.payload.length ≤ 64 ∧ chars = (frameBytes f).map lineChar

/-- R162, R164: whether the character `c`, at place `i` of the characters `all` of a frame, shows an error as it
arrives. A GAP and a wrong check word are no error of a character. -/
def showsFault (all : List LineChar) (i : Nat) (c : LineChar) : ReceiveFault → Bool
  | .framing => !c.stop || (i == 0 && c.data != 0xA5)
  | .parity => ((List.range 8).countP (c.data.getLsbD ·) + c.parity.toNat) % 2 == 0
  | .length =>
    (i == 4 && decide (64 < c.data.toNat)) || all[4]?.any fun d => decide (7 + d.data.toNat ≤ i)
  | .gap => false
  | .check => false

/-- R164: none of the first `n` characters of a frame shows an error. -/
def FaultlessUpTo (all : List LineChar) (n : Nat) : Prop :=
  ∀ i c e, i < n → all[i]? = some c → showsFault all i c e = false

/-- R125, R128: the session once a pass has been spoiled, by whether auto-release is on; the third spoiled
pass in a row fails it. -/
def Session.afterSpoil (x : Session) (cause : SpoilCause) (auto : Bool) : Session :=
  { x with
    items := {}
    lastOutcome := .spoiled cause
    spoiledTotal := min (x.spoiledTotal + 1) 65535
    spoiledForRun := min (x.spoiledForRun + 1) 65535
    consecutive := min (x.consecutive + 1) 3
    state := if 2 ≤ x.consecutive then .failed else if auto then .armed else .held
    endCause := if 2 ≤ x.consecutive then .spoiledPasses else x.endCause }

/-- R155: whether the level table and the gate of an area keep a notice of a condition back. -/
def Retained.withholds (r : Retained) (c : CondId) : Bool :=
  match r.levels with
  | none => true
  | some l => l[c.kindIndex] != 0 && !r.gate.getLsbD l[c.kindIndex]

/-- R152, R155: a condition record after the condition is evaluated once, at interval number `now`: a rise
latches, counts and dates it, and anything else sets the active mark alone. `withheld` says whether a notice
offered now is kept back. -/
def Condition.told (r : Condition) (active withheld : Bool) (now : Word32) : Condition :=
  if active = true ∧ r.active = false then
    { active := true, latched := true
      withheld := if r.latched then r.withheld else withheld
      occurrences := min (r.occurrences + 1) 65535
      first := if r.latched then r.first else some now
      last := some now }
  else { r with active }

/-- R152: the record of a condition of `s` once the condition has been evaluated. -/
def State.told (s : State) (c : CondId) (active : Bool) : Condition :=
  (s.cond c).told active (s.retained.withholds c) s.now

/-- R152, R155: the record of an event-type condition once it has occurred at interval number `now`;
`withheld` says whether a notice offered now is kept back. -/
def Condition.occurred (r : Condition) (withheld : Bool) (now : Word32) : Condition :=
  { r with
    latched := true
    withheld := if r.latched then r.withheld else withheld
    occurrences := min (r.occurrences + 1) 65535
    first := if r.latched then r.first else some now
    last := some now }

/-- R152: the record of an event-type condition of `s` once it has occurred. -/
def State.occurred (s : State) (c : CondId) : Condition :=
  (s.cond c).occurred (s.retained.withholds c) s.now

/-- R164, R173: `t` is `s` once a frame has ended with an error: it is dropped, the error's counter and no other
receive counter goes up, LOOP_RECEIVE_ERROR has occurred, no other condition but OUTBOUND_DISCARD changes, and
the receiver is HUNTING. -/
def State.DropsFrame (s t : State) (err : ReceiveFault) : Prop :=
  let c := s.counters
  let up := fun n : Nat => min (n + 1) 65535
  LoopOnly { s with receiver := .hunting } t
    ∧ t.counters.goodReceived = c.goodReceived
    ∧ (t.counters.parity, t.counters.framing, t.counters.gap, t.counters.length, t.counters.check)
        = (match err with
          | .parity => (up c.parity, c.framing, c.gap, c.length, c.check)
          | .framing => (c.parity, up c.framing, c.gap, c.length, c.check)
          | .gap => (c.parity, c.framing, up c.gap, c.length, c.check)
          | .length => (c.parity, c.framing, c.gap, up c.length, c.check)
          | .check => (c.parity, c.framing, c.gap, c.length, up c.check))
    ∧ t.cond .loopReceiveError = s.occurred .loopReceiveError
    ∧ ∀ e : CondId, e ≠ .loopReceiveError → e ≠ .outboundDiscard → t.cond e = s.cond e

/-- R46: the three state-type conditions of the Pulse Unit for a run. -/
def pulseConds (r : Fin 4) : List CondId := [.channelDisagree r, .channelLost r, .channelSubstituted r]

/-- R46: whether such a condition is active, by the run's settings, whether it is CLOSED, and its pulse
state. -/
def pulseCondActive (settings : Option RunSettings) (closed : Bool) (p : PulseState) (c : CondId) : Bool :=
  (settings.map (·.mode) == some .dual && !closed)
    && match c with
      | .channelDisagree _ => !p.coarse
      | .channelLost _ => p.status.a == .lost || p.status.b == .lost
      | .channelSubstituted _ => settings.map (·.primary) != some p.totalizing
      | _ => false

/-- R152, R155: no notice can enter the outbound queue: every condition is latched already, or its notice
is withheld, or its level is 0. -/
def State.NoticesQuiet (s : State) : Prop :=
  ∀ c : CondId, (s.cond c).latched = true ∨ s.retained.withholds c = true
    ∨ ∃ l, s.retained.levels = some l ∧ l[c.kindIndex] = 0

/-- The byte of up to 8 marks, the first in bit 0. -/
def markByte (marks : List Bool) : Nat :=
  ((marks.zip [1, 2, 4, 8, 16, 32, 64, 128]).map fun m => if m.1 then m.2 else 0).sum

/-- R106, R177: the TICKET frame of a ticket. -/
def Ticket.frame (t : Ticket) (level : Nat) : OutFrame :=
  let f := t.station.flags
  { kind := .ticket, dest := 63, level, source := 0
    payload :=
      encU 4 t.id ++ encU 1 t.product.val ++ encU 2 t.productCode
        ++ (match t.opening with
          | some n => encWord n
          | none => [0, 0, 0, 0])
        ++ encWord t.closing
        ++ [if t.cause = .target then 0 else 1]
        ++ encU 1 t.runs.length
        ++ encU 1
            (markByte
              [f.channelSubstituted, f.inputHeld, f.curveClampOrFallback, f.proveAccepted,
                t.opening.isSome, t.targetReached])
        ++ encU 8 t.station.totals.nsv ++ encU 8 t.station.totals.mass
        ++ encU 4 t.station.disagree }

/-- R144, R177: the PROVE_REPORT frame of a session that is COMPLETE or FAILED. An absent value is sent as
zeros. -/
def Session.reportFrame (x : Session) (level : Nat) : OutFrame :=
  let window : List ProveRun :=
    match x.lastWindow with
    | none => []
    | some w => x.proveRuns.filter fun r => decide (w.first ≤ r.number) && decide (r.number ≤ w.last)
  let marked := fun r : ProveRun =>
    [r.proverT.code, r.proverP.code, r.meterT.code, r.meterP.code].any (2 ≤ ·)
  let cause : Nat :=
    match x.endCause with
    | .spoiledPasses => 1
    | .notRepeatable => 2
    | .productChanged => 3
    | _ => 0
  { kind := .proveReport, dest := 63, level, source := 0
    payload :=
      encU 1
          (((x.attached.map (·.val)).getD 0) + (if x.state = .failed then 4 else 0) + 8 * cause : Nat)
        ++ encU 1 x.proveRuns.length
        ++ (match x.results with
          | some z => encU 3 z.mfNew ++ encU 4 z.qProve
          | none => [0, 0, 0, 0, 0, 0, 0])
        ++ (match x.lastWindow with
          | some w => encU 2 w.spread
          | none => [0, 0])
        ++ encU 2 x.spoiledTotal
        ++ encU 1
            (markByte
              [(x.results.map (·.tableClamp)).getD false, (x.results.map (·.factorRange)).getD false,
                window.any (·.rateClamped),
                if x.state = .failed then x.proveRuns.any marked else window.any marked,
                x.results.isSome, x.results.isSome, x.lastWindow.isSome]) }

/-- R127: the session once the Pulse Unit has reported an event of run `r`: a pass in TIMING or FINISHING
of the attached run is spoiled, and anything else ignores the report. -/
def State.sessionTold (s : State) (r : Fin 4) (cause : SpoilCause) : Session :=
  if s.session.attached = some r ∧ (s.session.state = .timing ∨ s.session.state = .finishing) then
    s.session.afterSpoil cause ((s.retained.prover.map (·.autoRelease)).getD false)
  else s.session

/-- R183: the event that a hard start comes from leaves VDD present and RSTn high. -/
def State.Starts (s : State) (cause : StartCause) : Prop :=
  s.power = .running ∨ (cause = .powerUp ∧ s.power = .noVdd)
    ∨ (cause = .resetRises ∧ s.power = .heldInReset)

/-- R182: the front command is not a hard start over a lost area whose check word passes by chance, which
may spell any content (assumptions 6, 7). -/
def State.NoLostAreaPasses (s : State) : Prop :=
  ∀ (cause : StartCause) (straps : Straps) (rest : List Instr),
    s.pending = .hardStart cause straps :: rest → s.retainedLost = true →
      crc (Config.retainedBytes (Config.lostArea s.openCount).1) ≠ (Config.lostArea s.openCount).2

/-- R5, R34, R53, R72, R116, R117, R132, R164, R173: every volatile item of `t` but the clock, the
transmitter, the outbound queue, the discard counter and the conditions has its value after a start. -/
def State.VolatileCleared (t : State) : Prop :=
  t.station
      = (if t.retained.station.isSome = true ∧ t.retained.levels.isSome = true then .ready
        else .configuring)
    ∧ t.timer = none
    ∧ (∀ r : Fin 4, t.runs[r] = {} ∧ t.pulses[r] = { totalizing := t.primary r })
    ∧ (∀ slot : Fin 16, t.live[slot] = {}) ∧ t.buffer = {} ∧ t.det1 = {} ∧ t.det2 = {}
    ∧ t.session = {} ∧ t.receiver = .hunting ∧ t.forward = [] ∧ t.commands = []
    ∧ t.restartPending = false
    ∧ t.counters = { noticeDiscard := t.counters.noticeDiscard }

/-- R53, R112, R151, R183: the condition records of `t` after a start that raised `start`: those whose
cause is present have arisen once at the current interval number, the rest are at their cleared values.
OUTBOUND_DISCARD is left aside: it may have occurred by the notices that the start offered (R169). -/
def State.ConditionsFresh (t : State) (start : Option CondId) : Prop :=
  ∀ c : CondId, c ≠ .outboundDiscard →
    let b := t.retained.batch
    let active : Bool :=
      match c with
      | .inputFailed slot => t.retained.bindings[slot].isSome
      | .noActiveBatch => b.queue.isEmpty
      | .ticketStoreFull =>
        (b.queue.head?.map (·.state) == some .closing) && decide (4 ≤ b.tickets.length)
      | _ => false
    t.cond c
      = if active = true ∨ start = some c then
          { active, latched := true, withheld := t.retained.withholds c, occurrences := 1
            first := some t.now, last := some t.now }
        else {}

/-- R168, R173: what the loop holds after a start at which the transmitter was `tx`: nothing but notices
of the start, none of them while no level table is loaded, and a transmitter that was busy goes on. -/
def State.LoopFresh (t : State) (tx : Transmitter) : Prop :=
  (∀ f ∈ t.outbound, f.kind = .notice)
    ∧ (t.retained.levels = none → t.outbound = [] ∧ t.transmitter = tx ∧ t.counters = {})
    ∧ (tx ≠ .free → t.transmitter = tx)

/-- R98: an entry of an accumulator once a record and its disagreement count have been added; `counts`
says whether its interval count increases. What a negative quantity does to a total is open (assumption
13), and the pulse count is added also when IV is 0 (assumption 32). -/
def AccEntry.taking (e : AccEntry) (rec : IntervalRecord) (disagree : Nat) (counts : Bool) : AccEntry :=
  let f := rec.flags
  { intervals := if counts then min (e.intervals + 1) 4294967295 else e.intervals
    totals :=
      { iv := addTotal e.totals.iv rec.iv
        gsv := addTotal e.totals.gsv rec.gsv
        nsv := addTotal e.totals.nsv rec.nsv
        mass := addTotal e.totals.mass rec.mass
        pulses := addTotal e.totals.pulses rec.p }
    sums :=
      { t := e.sums.t + rec.iv * rec.t
        pres := e.sums.pres + rec.iv * rec.pres
        rho := e.sums.rho + rec.iv * rec.rhoLine
        mf := e.sums.mf + rec.iv * rec.mf }
    disagree := min (e.disagree + disagree) 4294967295
    flags :=
      { channelSubstituted := e.flags.channelSubstituted || f.substituted
        inputHeld := e.flags.inputHeld || [f.codeT, f.codeP, f.codeRho, f.codeSW].any (2 ≤ ·)
        curveClampOrFallback := e.flags.curveClampOrFallback || (f.curveClamp || f.fallback)
        proveAccepted := e.flags.proveAccepted } }

/-- R97, R98, R100, R102: the Batch Unit once an interval record and its disagreement count have gone to
one accumulator: to the active one while the head has opened, with the target check, else to the
unbatched one. -/
def BatchUnit.taking (b : BatchUnit) (rec : IntervalRecord) (disagree : Nat) : BatchUnit :=
  match b.queue, b.progress.opening with
  | h :: rest, some _ =>
    let station := b.acc.station.taking rec disagree (b.acc.last != some rec.interval)
    let acc :=
      { runs := b.acc.runs.set rec.run (b.acc.runs[rec.run].taking rec disagree true)
        station, last := some rec.interval : ActiveAcc }
    let reached : Bool :=
      !b.progress.targetReached
        && (match h.target with
          | some litres => decide (litres * 1000 ≤ station.totals.nsv)
          | none => false)
    let ends : Bool := reached && h.state == .active && h.endMode == .onTarget
    { b with
      acc
      queue := if ends then { h with state := .closing } :: rest else h :: rest
      progress :=
        { b.progress with
          targetReached := b.progress.targetReached || reached
          closeCause := if ends then some .target else b.progress.closeCause } }
  | _, _ =>
    { b with
      unbatched :=
        let e : AccEntry :=
          { intervals := b.unbatched.intervals, totals := b.unbatched.totals
            disagree := b.unbatched.disagree }
        let e1 := e.taking rec disagree (b.unbatched.last != some rec.interval)
        { intervals := e1.intervals, totals := e1.totals, disagree := e1.disagree
          last := some rec.interval } }

/-- R175: the argument bytes of the commands whose argument length does not depend on a form or a target
kind, by command code. Widths that R175 does not list are the model's (assumption 14). -/
def fixedLength : Nat → Option Nat
  | 0x01 | 0x02 | 0x09 | 0x0A | 0x0B | 0x0C | 0x32 | 0x33 | 0x34 | 0x35 => some 0
  | 0x19 | 0x1A | 0x1D | 0x2B | 0x31 | 0x36 | 0x39 => some 1
  | 0x11 | 0x1B | 0x1C => some 2
  | 0x21 | 0x24 => some 3
  | 0x23 | 0x29 | 0x2A | 0x2D => some 4
  | 0x2C => some 5
  | 0x08 => some 10
  | 0x28 => some 11
  | 0x22 => some 17
  | 0x10 => some 18
  | 0x18 => some 20
  | 0x38 => some 25
  | 0x30 => some 32
  | _ => none

/-- R36: the totalizing channel of a run once a pending change has been applied. -/
def PulseState.channelAtExpiry (p : PulseState) : Channel := p.change.getD p.totalizing

/-- R105, R107: the ticket of the head `h` of a batch queue that closes at interval number `closing`; `code`
is the code of its product in service, which a batch that has not opened copies at its close. -/
def BatchUnit.headTicket (b : BatchUnit) (h : BatchEntry) (code : Option Nat) (closing : Word32) :
    Ticket :=
  { id := h.id
    product := h.product
    productCode := (b.progress.productCode.or code).getD 0
    opening := b.progress.opening
    closing
    cause := b.progress.closeCause.getD .command
    target := h.target
    endMode := h.endMode
    targetReached := b.progress.targetReached
    runs :=
      (List.finRange 4).filterMap fun r : Fin 4 =>
        if 1 ≤ b.acc.runs[r].intervals then some (r, b.acc.runs[r].toTicket) else none
    station := b.acc.station.toTicket }

/-- R92, R93, R106: the Batch Unit once its head has closed into a ticket: the entry behind it is ACTIVE with
a zero accumulator and its product in service, opened or awaiting as `progress` says of its product. -/
def BatchUnit.afterClose (b : BatchUnit) (ticket : Ticket) (progress : Fin 8 → Progress) : BatchUnit :=
  match b.queue.tail with
  | [] => { b with queue := [], progress := {}, acc := {}, tickets := b.tickets ++ [ticket] }
  | e :: others =>
    { b with
      queue := { e with state := .active } :: others
      progress := progress e.product
      acc := {}
      tickets := b.tickets ++ [ticket]
      product := e.product }

/-- A batch queue whose head is CLOSING. -/
def BatchUnit.HeadCloses (b : BatchUnit) : Prop := ∃ h rest, b.queue = h :: rest ∧ h.state = .closing

/-- Everything the claims ask of a state between steps. -/
structure State.Sound (s : State) : Prop where
  buffers : s.BuffersFit
  stores : s.StoresFit
  queue : s.retained.batch.Shaped
  latched : s.ActiveLatched
  flags : s.FineCoarse
  metering : s.MeteringRules
  session : s.SessionHoldsRun
  totals : s.TotalsFit
  ids : s.BatchIdsDiffer
  residues : s.ResiduesFit

end Sys2Proof.Machine
end

