-- ==== Sys2Proof/Certificates/Slice0/Obligations.lean ====
section
/-! DEFINITION. The statements for the provers. In each of them `s` is any state, `s1` the state in which
the Command Decoder has taken the command's frame from its buffer, and the conclusion about a command's
effect gives the whole next state or names each part that may change. -/

open Sys2Proof Sys2Proof.Machine

/-! ### The step, the queue and the Command Decoder -/

/-- A step takes the command at the front of the queue and runs it on the queue's rest. -/
def Obligations.StepRunsTheFrontCommand : Prop :=
  ∀ (s : State) (c : Instr) (rest : List Instr), s.pending = c :: rest →
    step s = exec c { s with pending := rest }

/-- The model's own choice (assumption 2): with an empty queue the Command Decoder takes the oldest
buffered command, otherwise one period of REFCLK passes, and an inactive part does nothing. A 10 ms count
or an expiry that falls due at the end of the period is its row, and one that is still due before it comes
first, so that the next count is again 100,000 periods on (R60; assumption 3). -/
def Obligations.EmptyQueueTakesABufferedCommandOrOnePeriod : Prop :=
  (∀ (s : State) (i : Instr) (f : CommandFrame) (rest : List CommandFrame),
    s.pending = [] → s.commands = f :: rest → i.wellFormed = true → i.frame = some f →
      step s = exec i s)
  ∧ (∀ s : State, s.pending = [] → s.commands = [] → s.Runs →
      s.det1.deadRunning = false → s.det2.deadRunning = false →
      s.session.items.timeoutRunning = false →
      let later := fun x : State => ∀ n, x.timer = some n → 1 < n
      let period := fun x : State =>
        { x with
          timebase := x.timebase + 1
          timer := x.timer.map (· - 1)
          inputDivider := x.inputDivider - 1 }
      (later s → 1 < s.inputDivider → step s = .next (period s))
      ∧ (later s → s.inputDivider = 1 → step s = exec .input10msCount s)
      ∧ (∀ t, later s → s.inputDivider = 0 → exec .input10msCount s = .next t →
          step s = .next (period t))
      ∧ (s.timer = some 1 → 1 < s.inputDivider → step s = exec .intervalExpiry s)
      ∧ ∀ t, s.timer = some 0 → 1 < s.inputDivider → exec .intervalExpiry s = .next t → later t →
          step s = .next (period t))
  ∧ (∀ s : State, s.pending = [] → s.commands = [] → s.power ≠ .running → step s = .next s)

/-- R171: the command frame of every well-formed row spells that row and no other, and every payload of
at most 64 bytes is the frame of a well-formed row. -/
def Obligations.CommandFramesSpellTheirRows : Prop :=
  (∀ (i : Instr) (f : CommandFrame), i.wellFormed = true → i.frame = some f →
    decodeCommand f.source f.payload = i)
  ∧ (∀ (src : Byte) (payload : List Byte), payload.length ≤ 64 →
      (decodeCommand src payload).wellFormed = true
        ∧ (decodeCommand src payload).frame = some { source := src, payload })

/-- No command or event stops the block, and none touches the queue of those that wait. -/
def Obligations.EveryCommandGoesOnAndKeepsTheQueue : Prop :=
  ∀ (i : Instr) (s : State), ∃ t, exec i s = .next t ∧ t.pending = s.pending

/-- R171: a command is answered by one reply, and with any result but OK it changes nothing. -/
def Obligations.RefusedCommandChangesNothing : Prop :=
  ∀ (i : Instr) (src tag : Byte) (code : Nat) (args : List Byte) (s s1 : State),
    i.parts = some (src, tag, code, args) → s.Takes (frameOf src tag code args) s1 →
      ∃ (r : Reply) (s2 : State),
        exec i s = .next (settle (offerReply src tag code r s2)) ∧ (r.result ≠ .ok → s2 = s1)

/-- R172: while a RESTART is pending, every command of the table is refused with BUSY; `settle` takes a
restart whose reply is lost by it (assumption 11). -/
def Obligations.PendingRestartRefusesEveryCommand : Prop :=
  ∀ (i : Instr) (src tag : Byte) (code : Nat) (args : List Byte) (s s1 : State),
    i.parts = some (src, tag, code, args) → s.power = .running → s.restartPending = true →
    takeCommand (frameOf src tag code args) s = some s1 →
      exec i s = .next (settle (offerReply src tag code { result := .busy } s1))

/-- R171: a payload without a tag and a code, one with a code outside the table, and a command whose
argument length is not the one that R175 gives, with the model's widths for the fields R175 does not list
(assumption 14), are refused. -/
def Obligations.UnknownAndWrongLengthCommandsAreRefused : Prop :=
  (∀ (src tag code : Byte) (args : List Byte) (s s1 : State),
    commandOfCode src tag code.toNat args = none →
    s.Takes { source := src, payload := tag :: code :: args } s1 →
      exec (.unknownCommand src (tag :: code :: args)) s
        = .next (offerReply src tag code.toNat { result := .unknownCommand } s1))
  ∧ (∀ (src tag : Byte) (s s1 : State), s.Takes { source := src, payload := [tag] } s1 →
      exec (.unknownCommand src [tag]) s = .next (offerReply src tag 0 { result := .badLength } s1))
  ∧ (∀ (src : Byte) (s s1 : State), s.Takes { source := src, payload := [] } s1 →
      exec (.unknownCommand src []) s = .next (offerReply src 0 0 { result := .badLength } s1))
  ∧ (∀ (i : Instr) (src tag : Byte) (code : Nat) (args : List Byte) (n : Nat) (s s1 : State),
      i.parts = some (src, tag, code, args) → fixedLength code = some n → args.length ≠ n →
      s.Takes (frameOf src tag code args) s1 →
        exec i s = .next (offerReply src tag code { result := .badLength } s1))

/-- R182, R183: an inactive part handles nothing; a low RSTn or the loss of VDD makes it inactive and cuts
off the frame in transmission; the area is lost once VBAK and VDD are both lost; a power-up while RSTn is
low, and a rising edge of RSTn without VDD, leave the part inactive and its retained content as it is. That
the volatile state stays too, and that the hard start then waits for the other input, is the model's choice
(assumption 26); so is that a VBAK lost before VDD may or may not have returned (assumption 31). -/
def Obligations.InactivePartHandlesNothing : Prop :=
  (∀ (i : Instr) (s : State), s.power ≠ .running → (∀ c x, i ≠ .hardStart c x) →
    (∀ c, i ≠ .resetOrPowerLoss c) → i ≠ .backupSupplyLoss → exec i s = .next s)
  ∧ ∀ s : State,
      let absent := s.power = .noVdd ∨ s.power = .noVddInReset
      let low := s.power = .heldInReset ∨ s.power = .noVddInReset
      let without : Power := if low then .noVddInReset else .noVdd
      (absent ∨ s.backupLost = false →
        exec (.resetOrPowerLoss .vddLost) s
          = .next { s with power := without, transmitter := .free })
      ∧ (¬absent → s.backupLost = true →
          ∃ back : Bool,
            exec (.resetOrPowerLoss .vddLost) s
              = .next
                  { s with
                    power := without
                    transmitter := .free
                    backupLost := !back
                    retainedLost := s.retainedLost || !back
                    openCount := s.openCount + 1 })
      ∧ exec (.resetOrPowerLoss .resetLow) s
          = .next
              { s with
                power := if absent then .noVddInReset else .heldInReset
                transmitter := .free }
      ∧ (absent →
          exec .backupSupplyLoss s = .next { s with retainedLost := true, backupLost := true })
      ∧ (¬absent → exec .backupSupplyLoss s = .next { s with backupLost := true })
      ∧ ∀ straps : Straps,
          (low →
            exec (.hardStart .powerUp straps) s
              = .next { s with power := .heldInReset })
          ∧ (absent →
              exec (.hardStart .resetRises straps) s = .next { s with power := .noVdd })

/-- R174: READ_LOOP_COUNTS answers the counts, and CLEAR_LOOP_COUNTS answers and zeroes the counters.
The node number, the rate code and the counts of frames take 1 byte each, the model's choice for fields in
no row of R175 (assumption 14). -/
def Obligations.LoopCountsAreReadAndCleared : Prop :=
  ∀ (src tag : Byte) (s s1 : State),
    let counts : List Byte :=
      [s1.counters.goodReceived, s1.counters.parity, s1.counters.framing, s1.counters.gap,
        s1.counters.length, s1.counters.check, s1.counters.returned, s1.counters.cmdOverflow,
        s1.counters.forwardOverrun, s1.counters.forwarded, s1.counters.inserted,
        s1.counters.replyDiscard, s1.counters.resultDiscard, s1.counters.ticketDiscard,
        s1.counters.proveReportDiscard, s1.counters.noticeDiscard].flatMap fun n => encU 2 n
    (s.Takes (frameOf src tag 0x01 []) s1 →
      exec (.readLoopCounts src tag []) s
        = .next
            (offerReply src tag 0x01
              { result := .ok
                data :=
                  encU 1 s1.node ++ encU 1 s1.rateCode ++ encU 1 s1.forward.length
                    ++ encU 1 s1.outbound.length ++ encU 1 s1.commands.length
                    ++ encFlag s1.restartPending ++ counts } s1))
    ∧ (s.Takes (frameOf src tag 0x02 []) s1 →
        exec (.clearLoopCounts src tag []) s
          = .next
              (offerReply src tag 0x02 { result := .ok, data := counts } { s1 with counters := {} }))

/-- R11, R51, R65, R66, R86, R87, R110, R111, R131, R149, R160, R179: a read that its rule accepts is
answered OK with the fields the rule lists, in its order, and changes nothing but the model's count of
open words. The last two parts give the value in use and the input code of a binding by its state, and the
line density and the water cut with what stands for them when no slot is named or the slot is empty (R13,
R62, R124). How absent items, lists and counts without a stated width stand in the replies is the model's
choice (assumptions 14, 15, 33), as are the flags that stand for its yes-or-no and on-or-off fields and the mark
of READ_PROVE part 1 (assumption 37), and the open installed-at number of an EMPTY copy (assumption 18). -/
def Obligations.ReadsAnswerOkAndChangeNothing : Prop :=
  let word := fun w : Word32 => encWord w
  let slotOpt := fun x : Option (Fin 16) => encOpt 1 (fun b => encU 1 b.val) x
  let totals := fun t : Totals =>
    encU 8 t.iv ++ encU 8 t.gsv ++ encU 8 t.nsv ++ encU 8 t.mass ++ encU 8 t.pulses
  let flags := fun l : List Bool => l.flatMap encFlag
  let entry := fun (e : TicketEntry) (part : Bool) =>
    if part then totals e.totals
    else
      encU 4 e.intervals ++ encU 4 e.disagree
        ++ flags [e.flags.channelSubstituted, e.flags.inputHeld, e.flags.curveClampOrFallback,
            e.flags.proveAccepted]
        ++ encOpt 11 (fun a : Averages => encS 2 a.t ++ encS 3 a.pres ++ encU 3 a.rho ++ encU 3 a.mf)
            e.averages
  let reading := fun x : Reading => encS 4 x.value ++ encU 1 x.code
  -- READ_STATION
  (∀ (src tag : Byte) (s s1 : State), s.Takes (frameOf src tag 0x09 []) s1 →
    exec (.readStation src tag []) s
      = .next
          (offerReply src tag 0x09
            { result := .ok
              data :=
                encCode s1.station.code
                  ++ encOpt 10
                      (fun x : StationRecord =>
                        encU 1 x.intervalLength ++ encCode x.layout.code ++ encU 1 x.spacing
                          ++ encU 1 x.resultLevel ++ encU 1 x.ticketLevel ++ encU 1 x.reportLevel
                          ++ slotOpt x.densitySlot ++ slotOpt x.waterSlot)
                      s1.retained.station
                  ++ encFlag s1.retained.levels.isSome ++ word s1.retained.intervalNumber
                  ++ encOpt 1 (fun n : Nat => encU 1 ((n + 99999) / 100000 : Nat)) s1.timer
                  ++ encU 2 (crc (Config.retainedBytes s1.retained)).toNat
                  ++ encCode s1.lastStart.code } s1))
  -- READ_INPUT
  ∧ (∀ (src tag part : Byte) (slot : Fin 16) (s s1 : State),
      let args := [BitVec.ofNat 8 slot.val, part]
      let answers := fun data : List Byte =>
        exec (.readInput src tag args) s
          = .next (offerReply src tag 0x11 { result := .ok, data } s1)
      let use := fun (role run : Nat) (busy : Bool) => [encU 1 role ++ encU 1 run ++ encFlag busy]
      let uses : List (List Byte) :=
        ((List.finRange 4).flatMap fun r =>
            match s1.retained.runs[r].settings with
            | none => []
            | some x =>
              (if x.tSlot = slot then use 0 r.val (s1.runs[r].state != .closed) else [])
                ++ if x.pSlot = slot then use 1 r.val (s1.runs[r].state != .closed) else [])
          ++ (match s1.retained.station with
            | none => []
            | some x =>
              (if x.densitySlot = some slot then use 2 0 (s1.station == .metering) else [])
                ++ if x.waterSlot = some slot then use 3 0 (s1.station == .metering) else [])
          ++ (match s1.retained.prover with
            | none => []
            | some x =>
              (if x.tSlot = slot then use 4 0 s1.session.state.active else [])
                ++ if x.pSlot = slot then use 5 0 s1.session.state.active else [])
      s.Takes (frameOf src tag 0x11 args) s1 → part.toNat < 2 →
      (s1.retained.bindings[slot] = none → answers [1])
      ∧ ∀ b : Binding, s1.retained.bindings[slot] = some b →
          let l := s1.live[slot]
          (part = 0 →
            answers
              (encCode b.kind.code ++ encU 1 b.node ++ encU 1 b.tag ++ encS 4 b.low ++ encS 4 b.high
                ++ encU 2 b.stale ++ encS 4 b.substitute ++ encCode l.state.code
                ++ encOpt 2 (fun n : Nat => encU 2 n) l.age ++ reading (s1.reading slot)
                ++ encOpt 4 (encS 4) l.held ++ encOpt 4 (encS 4) l.received ++ encFlag l.uncertain
                ++ encFlag l.clamped ++ encU 4 l.accepted))
          ∧ (part = 1 → answers (encU 1 uses.length ++ uses.flatten)))
  -- READ_RUN
  ∧ (∀ (src tag part : Byte) (r : Fin 4) (s s1 : State),
      let args := [BitVec.ofNat 8 r.val, part]
      let answers := fun data : List Byte =>
        exec (.readRun src tag args) s
          = .next (offerReply src tag 0x1C { result := .ok, data } s1)
      let k := s1.retained.runs[r]
      s.Takes (frameOf src tag 0x1C args) s1 →
      (part = 0 →
        answers
          (encCode s1.runs[r].state.code
            ++ encOpt 19
                (fun x : RunSettings =>
                  encU 4 x.kFactor ++ encCode x.mode.code ++ encCode (channelCode x.primary)
                    ++ encU 3 x.fallback ++ encU 1 x.tSlot.val ++ encU 1 x.pSlot.val
                    ++ encU 4 x.rateHigh ++ encU 4 x.rateLow) k.settings
            ++ encU 2 s1.runs[r].preOpen ++ word s1.retained.intervalNumber))
      ∧ (part = 1 →
          answers
            (totals k.totals ++ encU 8 k.residues.rIV ++ encU 3 k.residues.rGSV
              ++ encU 2 k.residues.rNSV ++ encU 8 k.residues.rM))
      ∧ (part = 2 →
          answers
            (encOpt 50
              (fun x : IntervalRecord =>
                let f := x.flags
                encU 1 x.run.val ++ word x.interval ++ encU 1 x.product.val ++ encU 2 x.p
                  ++ encCode (channelCode x.channel) ++ encU 4 x.q ++ encU 3 x.mf ++ encU 3 x.ctl
                  ++ encU 3 x.cpl ++ encU 3 x.ccf ++ encS 2 x.t ++ encS 3 x.pres ++ encU 3 x.rhoLine
                  ++ encU 3 x.rhoStd ++ encU 2 x.sw ++ encU 1 f.codeT ++ encU 1 f.codeP
                  ++ encU 1 f.codeRho ++ encU 1 f.codeSW
                  ++ flags [f.fallback, f.curveClamp, f.tableClamp, f.rateClamped, f.coarse, f.fine,
                      f.substituted, f.firstOfBatch]) s1.runs[r].last))
      ∧ (part = 3 →
          answers
            (encOpt 37
              (fun x : IntervalRecord =>
                encU 1 x.run.val ++ word x.interval ++ encU 8 x.iv ++ encU 8 x.gsv ++ encU 8 x.nsv
                  ++ encU 8 x.mass) s1.runs[r].last)))
  -- READ_PULSES
  ∧ (∀ (src tag : Byte) (r : Fin 4) (s s1 : State),
      let args := [BitVec.ofNat 8 r.val]
      let p := s1.pulses[r]
      s.Takes (frameOf src tag 0x1D args) s1 →
      exec (.readPulses src tag args) s
        = .next
            (offerReply src tag 0x1D
              { result := .ok
                data :=
                  encOpt 2 (fun x : RunSettings => encCode x.mode.code ++ encCode (channelCode x.primary))
                      s1.retained.runs[r].settings
                    ++ encU 2 p.counts.a ++ encU 2 p.counts.b ++ encU 1 p.windows.a
                    ++ encU 1 p.windows.b ++ encCode p.status.a.code ++ encCode p.status.b.code
                    ++ encFlag p.coarse ++ encFlag p.fine ++ encCode (channelCode p.totalizing)
                    ++ encFlag p.change.isSome
                    ++ encOpt 1 (fun c : Channel => encCode (channelCode c)) p.change
                    ++ encU 4 p.cumDisagree ++ encU 4 p.batchDisagree ++ encU 4 p.idle
                    ++ encFlag (s1.session.state.active && s1.session.attached == some r)
                    ++ word s1.timebase } s1))
  -- READ_CURVE
  ∧ (∀ (src tag : Byte) (r : Fin 4) (p : Fin 8) (copy part : Byte) (st : StationRecord)
      (s s1 : State),
      let args := [BitVec.ofNat 8 r.val, BitVec.ofNat 8 p.val, copy, part]
      let c := if copy = 0 then (s1.curve r p).inService else (s1.curve r p).pending
      let points := (c.map (·.points)).getD []
      let entries := fun l : List CurvePoint =>
        encU 1 l.length
          ++ l.flatMap fun x => encU 4 x.rate ++ encU 3 x.factor ++ encCode x.origin.code
      s.Takes (frameOf src tag 0x23 args) s1 → s1.retained.station = some st →
      st.layout.allows r p = true → part.toNat < 3 →
      (part.toNat = 2 → st.layout.pointsPerCurve = 12) →
      (copy = 0 ∨ copy = 1 ∧ (s1.curve r p).pending.isSome = true) →
      ∃ (w : Word32) (n : Nat) (data : List Byte),
        exec (.readCurve src tag args) s
          = .next (offerReply src tag 0x23 { result := .ok, data } { s1 with openCount := n })
        ∧ (∀ x, c = some x → w = x.installedAt ∧ n = s1.openCount)
        ∧ (part = 0 →
            data
              = encFlag c.isSome ++ encU 1 points.length ++ word w
                ++ encFlag (s1.curve r p).pending.isSome
                ++ encFlag (s1.runs[r].state != .closed && p == s1.retained.batch.product)
                ++ encU 1 st.layout.pointsPerCurve)
        ∧ (part = 1 → data = entries (points.take 6) ++ word w)
        ∧ (part = 2 → data = entries (points.drop 6) ++ word w))
  -- READ_PRODUCT
  ∧ (∀ (src tag : Byte) (p : Fin 8) (copy part : Byte) (s s1 : State),
      let args := [BitVec.ofNat 8 p.val, copy, part]
      let c :=
        if copy = 0 then s1.retained.products[p].inService else s1.retained.products[p].pending
      let points := (c.map (·.points)).getD []
      let entries := fun l : List TablePoint =>
        encU 1 l.length ++ l.flatMap fun x => encS 2 x.x ++ encU 3 x.factor
      let b := s1.retained.batch
      s.Takes (frameOf src tag 0x24 args) s1 → part.toNat < 3 →
      (copy = 0 ∨ copy = 1 ∧ s1.retained.products[p].pending.isSome = true) →
      ∃ (w : Word32) (n : Nat) (data : List Byte),
        exec (.readProduct src tag args) s
          = .next (offerReply src tag 0x24 { result := .ok, data } { s1 with openCount := n })
        ∧ (∀ x, c = some x → w = x.installedAt ∧ n = s1.openCount)
        ∧ (part = 0 → c = none → data = [0])
        ∧ (∀ x : ProductCopy, part = 0 → c = some x →
            data
              = [1] ++ encU 2 x.code ++ encU 3 x.compressibility ++ encU 3 x.densityLow
                ++ encU 3 x.densityHigh ++ encOpt 3 (fun d : Nat => encU 3 d) x.defaultDensity
                ++ encU 1 x.points.length ++ word x.installedAt
                ++ encFlag s1.retained.products[p].pending.isSome
                ++ encFlag
                    (s1.station == .metering
                      && (p == b.product || b.queue.head?.map (·.product) == some p)))
        ∧ (part = 1 → data = entries (points.take 8) ++ word w)
        ∧ (part = 2 → data = entries (points.drop 8) ++ word w))
  -- READ_BATCHES
  ∧ (∀ (src tag part : Byte) (s s1 : State),
      let answers := fun data : List Byte =>
        exec (.readBatches src tag [part]) s
          = .next (offerReply src tag 0x2B { result := .ok, data } s1)
      let b := s1.retained.batch
      let batch := fun e : BatchEntry =>
        encU 4 e.id ++ encU 1 e.product.val ++ encCode e.state.code ++ encCode e.endMode.code
          ++ encOpt 4 (fun t : Nat => encU 4 t) e.target
      s.Takes (frameOf src tag 0x2B [part]) s1 →
      (part = 0 →
        answers
          (encU 1 b.queue.length ++ encU 1 b.product.val ++ encU 1 b.tickets.length
            ++ (b.tickets.flatMap fun t => encU 4 t.id)
            ++ encU 1 (b.queue.take 3).length ++ (b.queue.take 3).flatMap batch))
      ∧ (part = 1 → answers (encU 1 (b.queue.drop 3).length ++ (b.queue.drop 3).flatMap batch))
      ∧ (part = 2 → b.queue ≠ [] →
          answers
            (encOpt 4 encWord b.progress.opening
              ++ encOpt 2 (fun c : Nat => encU 2 c) b.progress.productCode
              ++ encFlag b.progress.targetReached
              ++ encOpt 1 (fun c : CloseCause => encCode c.code) b.progress.closeCause
              ++ encOpt 4 encWord b.acc.last))
      ∧ (b.queue ≠ [] →
          (part = 3 → answers (entry b.acc.station.toTicket true))
          ∧ (part = 4 → answers (entry b.acc.station.toTicket false))
          ∧ ∀ r : Fin 4,
              (part.toNat = 5 + r.val → answers (entry b.acc.runs[r].toTicket true))
              ∧ (part.toNat = 9 + r.val → answers (entry b.acc.runs[r].toTicket false)))
      ∧ (part = 13 →
          answers
            (encU 4 b.unbatched.intervals ++ totals b.unbatched.totals ++ encU 4 b.unbatched.disagree
              ++ encOpt 4 encWord b.unbatched.last)))
  -- READ_TICKET
  ∧ (∀ (src tag : Byte) (id : Nat) (t : Ticket) (part : Byte) (s s1 : State),
      let args := encU 4 id ++ [part]
      let answers := fun data : List Byte =>
        exec (.readTicket src tag args) s
          = .next (offerReply src tag 0x2C { result := .ok, data } s1)
      s.Takes (frameOf src tag 0x2C args) s1 → id < 2 ^ 32 →
      s1.retained.batch.tickets.find? (fun x => x.id == id) = some t →
      (part = 0 →
        answers
          (encU 4 t.id ++ encU 1 t.product.val ++ encU 2 t.productCode ++ encOpt 4 encWord t.opening
            ++ word t.closing ++ encCode t.cause.code
            ++ encOpt 4 (fun x : Nat => encU 4 x) t.target ++ encCode t.endMode.code
            ++ encFlag t.targetReached ++ encU 1 t.runs.length
            ++ t.runs.flatMap fun e => encU 1 e.1.val))
      ∧ (part = 1 → answers (entry t.station true))
      ∧ (part = 2 → answers (entry t.station false))
      ∧ ∀ (r : Fin 4) (e : Fin 4 × TicketEntry), t.runs.find? (fun e => e.1 == r) = some e →
          (part.toNat = 3 + r.val → answers (entry e.2 true))
          ∧ (part.toNat = 7 + r.val → answers (entry e.2 false)))
  -- READ_PROVE
  ∧ (∀ (src tag part : Byte) (s s1 : State),
      let answers := fun data : List Byte =>
        exec (.readProve src tag [part]) s
          = .next (offerReply src tag 0x36 { result := .ok, data } s1)
      let x := s1.session
      let prover := s1.retained.prover
      let detector := fun (setup : Option DetectorSetup) (d : DetectorState) =>
        encFlag ((setup.map (·.enabled)).getD false)
          ++ encCode ((setup.map (edgeCode ·.polarity)).getD 0) ++ encOpt 4 encWord d.lastEvent
          ++ encU 2 d.events ++ encU 2 d.rejects ++ encFlag d.deadRunning
      let outcome :=
        match x.lastOutcome with
        | .none => [0]
        | .completed n => [1] ++ encU 2 n
        | .spoiled cause => [2] ++ encCode cause.code
      let tD1 := x.items.tD1.getD 0
      let window :=
        match x.lastWindow with
        | none => []
        | some w => x.proveRuns.filter fun r => decide (w.first ≤ r.number) && decide (r.number ≤ w.last)
      let bad := fun l : List ProveRun =>
        l.any fun r =>
          [r.proverT.code, r.proverP.code, r.meterT.code, r.meterP.code].any (2 ≤ ·)
      s.Takes (frameOf src tag 0x36 [part]) s1 →
      (part = 0 →
        answers
          (encCode x.state.code ++ encOpt 1 (fun r : Fin 4 => encU 1 r.val) x.attached
            ++ encFlag prover.isSome ++ encFlag ((prover.map (·.autoRelease)).getD false)
            ++ detector (prover.map (·.det1)) s1.det1 ++ detector (prover.map (·.det2)) s1.det2
            ++ encU 2 x.stray ++ encU 1 x.consecutive ++ encU 2 x.spoiledTotal ++ encU 2 x.abandoned
            ++ encU 2 x.completed ++ word s1.timebase))
      ∧ (part = 1 → (x.state = .timing ∨ x.state = .finishing) →
          answers
            ([0] ++ word tD1 ++ encOpt 4 encWord x.items.tP1 ++ encU 4 x.items.running
              ++ encOpt 4 encWord x.items.lastPulse ++ encOpt 4 encWord x.items.tD2
              ++ word (s1.timebase - tD1) ++ encU 2 ((prover.map (·.timeout)).getD 0)))
      ∧ (part = 1 → (x.state = .held ∨ x.state = .armed) → answers ([1] ++ outcome))
      ∧ (part = 1 → x.state.active = false → answers ([2] ++ outcome))
      ∧ (part = 2 →
          answers
            (encCode x.state.code ++ encCode x.endCause.code
              ++ encOpt 1 (fun r : Fin 4 => encU 1 r.val) x.attached
              ++ encOpt 1 (fun p : Fin 8 => encU 1 p.val) x.product
              ++ encOpt 4 (fun k : Nat => encU 4 k) x.kFactor ++ encOpt 4 encWord x.startInterval
              ++ encU 1 x.proveRuns.length ++ encU 2 x.spoiledForRun ++ encU 1 x.passes.length
              ++ encOpt 4
                  (fun w : TestWindow => encU 1 w.first ++ encU 1 w.last ++ encU 2 w.spread)
                  x.lastWindow
              ++ encOpt 3 (encU 3) (x.results.map (·.mfNew))
              ++ encOpt 4 (encU 4) (x.results.map (·.qProve))
              ++ encFlag ((x.results.map (·.tableClamp)).getD false)
              ++ encFlag ((x.results.map (·.factorRange)).getD false)
              ++ encFlag (window.any (·.rateClamped)) ++ encU 2 x.spoiledTotal
              ++ if x.state = .complete then [1] ++ encFlag (bad window)
                else if x.state = .failed then [1] ++ encFlag (bad x.proveRuns) else [0, 0]))
      ∧ (part = 3 →
          answers
            (encOpt 38
              (fun y : Results =>
                encU 4 y.ni ++ encS 2 y.tPv ++ encS 3 y.pPv ++ encS 2 y.tMt ++ encS 3 y.pMt
                  ++ encU 3 y.ctsp ++ encU 3 y.cpsp ++ encU 3 y.ctlp ++ encU 3 y.cplp
                  ++ encU 3 y.ccfp ++ encU 3 y.ctlm ++ encU 3 y.cplm ++ encU 3 y.ccfm) x.results))
      ∧ (∀ (i : Nat) (y : PassRecord), x.passes[i]? = some y → i < 20 → part.toNat = 4 + i →
          answers
            (encU 2 y.number ++ word y.tD1 ++ word y.tP1 ++ word y.tD2 ++ word y.tP2
              ++ encU 4 y.nWhole ++ encU 4 y.td ++ encU 4 y.tp ++ encU 4 y.ni ++ encU 4 y.rate
              ++ encFlag y.rateClamped ++ reading y.proverT ++ reading y.proverP ++ reading y.meterT
              ++ reading y.meterP ++ encCode (channelCode y.channel) ++ encU 1 y.spoiledBefore))
      ∧ (∀ (i : Nat) (y : ProveRun), x.proveRuns[i]? = some y → i < 20 → part.toNat = 24 + i →
          answers
            (encU 1 y.number ++ encU 2 y.firstPass ++ encU 2 y.lastPass ++ encU 4 y.ni
              ++ encU 4 y.rate ++ encS 2 y.proverT.value ++ encS 3 y.proverP.value
              ++ encS 2 y.meterT.value ++ encS 3 y.meterP.value ++ encU 1 y.proverT.code
              ++ encU 1 y.proverP.code ++ encU 1 y.meterT.code ++ encU 1 y.meterP.code
              ++ encFlag y.rateClamped ++ encU 2 y.spoiled)))
  -- READ_CONDITIONS
  ∧ (∀ (src tag : Byte) (args : List Byte) (s s1 : State),
      let answers := fun data : List Byte =>
        exec (.readConditions src tag args) s
          = .next (offerReply src tag 0x3B { result := .ok, data } s1)
      let latched := allConds.filter fun c => (s1.cond c).latched
      let one := fun c : CondId =>
        let x := s1.cond c
        encU 1 c.kindCode ++ encU 1 c.unit ++ flags [x.active, x.latched, x.withheld]
          ++ encU 2 x.occurrences ++ encOpt 4 encWord x.first ++ encOpt 4 encWord x.last
      s.Takes (frameOf src tag 0x3B args) s1 →
      (args = [0] →
        answers
          (encOpt 25 (fun l : Vector Nat 25 => l.toList.flatMap fun n => encU 1 n) s1.retained.levels
            ++ [s1.retained.gate] ++ encU 1 latched.length
            ++ encU 1 (allConds.filter fun c => (s1.cond c).withheld).length))
      ∧ (∀ start : Byte, start.toNat ≤ 114 → args = [1, start] →
          let shown := (latched.drop start.toNat).take 3
          answers (encU 1 latched.length ++ encU 1 shown.length ++ shown.flatMap one))
      ∧ ∀ c : CondId, args = [2, BitVec.ofNat 8 c.kindCode, BitVec.ofNat 8 c.unit] → answers (one c))
  -- The values in use and their input codes
  ∧ (∀ (slot : Fin 16) (s : State),
      let l := s.live[slot]
      (s.retained.bindings[slot] = none → s.reading slot = ⟨0, 3⟩)
      ∧ ∀ b : Binding, s.retained.bindings[slot] = some b →
          (∀ v, l.state = .live → l.held = some v → l.uncertain = false → s.reading slot = ⟨v, 0⟩)
          ∧ (∀ v, l.state = .live → l.held = some v → l.uncertain = true → s.reading slot = ⟨v, 1⟩)
          ∧ (∀ v, l.state = .held → l.held = some v → s.reading slot = ⟨v, 2⟩)
          ∧ ((l.state = .substituted ∨ l.state = .noData) → s.reading slot = ⟨b.substitute, 3⟩))
  ∧ ∀ (x : StationRecord) (s : State), s.retained.station = some x →
      let standard := (s.retained.products[s.retained.batch.product].inService).bind (·.defaultDensity)
      (∀ slot, x.densitySlot = some slot → s.retained.bindings[slot].isSome = true →
        s.densityReading = s.reading slot)
      ∧ (∀ slot, x.densitySlot = some slot → s.retained.bindings[slot] = none →
          s.densityReading = ⟨((standard.getD 0 : Nat) : Int), 3⟩)
      ∧ (∀ d : Nat, x.densitySlot = none → standard = some d → s.densityReading = ⟨(d : Int), 0⟩)
      ∧ (x.densitySlot = none → standard = none → s.densityReading = ⟨0, 3⟩)
      ∧ (∀ slot, x.waterSlot = some slot → s.retained.bindings[slot].isSome = true →
          s.waterReading = s.reading slot)
      ∧ (∀ slot, x.waterSlot = some slot → s.retained.bindings[slot] = none →
          s.waterReading = ⟨0, 3⟩)
      ∧ (x.waterSlot = none → s.waterReading = ⟨0, 0⟩)

/-! ### The line: reception, forwarding, transmission -/

/-- R165, R170: a good frame that bears the part's own node number as its source is stripped; a COMMAND
frame for the part enters the command buffer, or is dropped and counted when the buffer is full. -/
def Obligations.FramesForThePartAreTakenOffTheRing : Prop :=
  ∀ (chars : List LineChar) (f : Frame) (s : State), s.Runs → s.Hears chars f →
    let good := { s.counters with goodReceived := min (s.counters.goodReceived + 1) 65535 }
    (f.source.toNat = s.node →
      exec (.goodFrameArrival chars) s
        = .next
            { s with
              receiver := .idle
              counters := { good with returned := min (s.counters.returned + 1) 65535 } })
    ∧ (f.source.toNat ≠ s.node → f.kind = 0x20 → f.dest.toNat = s.node → s.commands.length < 4 →
        exec (.goodFrameArrival chars) s
          = .next
              { s with
                receiver := .idle
                counters := good
                commands := s.commands ++ [{ source := f.source, payload := f.payload }] })
    ∧ (f.source.toNat ≠ s.node → f.kind = 0x20 → f.dest.toNat = s.node → 4 ≤ s.commands.length →
        exec (.goodFrameArrival chars) s
          = .next
              { s with
                receiver := .idle
                counters := { good with cmdOverflow := min (s.counters.cmdOverflow + 1) 65535 } })

/-- R57 to R59, R63, R165 to R167: a SAMPLE frame that matches a binding makes it LIVE with the clamped
value, with INPUT_CLAMPED by the new mark and INPUT_STALE and INPUT_FAILED inactive, or is rejected, and goes
on round the ring, and nothing else but the loop and its conditions changes; any other frame that is not taken off the ring, an unmatched
SAMPLE among them, changes nothing but the loop: it enters the forward buffer, begins at once on a free
transmitter, or is dropped, counted and reported when the buffer is full. -/
def Obligations.SampleReachesItsBinding : Prop :=
  (∀ (chars : List LineChar) (f : Frame) (tag b3 b2 b1 b0 quality : Byte) (slot : Fin 16) (b : Binding)
    (s : State),
    s.Runs → s.Hears chars f → f.source.toNat ≠ s.node → f.kind = 0x10 →
    f.payload = [tag, b3, b2, b1, b0, quality] → s.retained.bindings[slot] = some b →
    b.node = f.source.toNat → b.tag = tag.toNat →
    (∀ (j : Fin 16) (c : Binding), j ≠ slot → s.retained.bindings[j] = some c →
      ¬(c.node = b.node ∧ c.tag = b.tag)) →
    let value := argS [b3, b2, b1, b0] 0 4
    let clamped := decide (value < b.low) || decide (b.high < value)
    let taken : LiveInput :=
      { state := .live
        held := some (max b.low (min b.high value))
        received := some value
        age := some 0
        uncertain := quality == 1
        clamped
        accepted := min (s.live[slot].accepted + 1) 4294967295 }
    ∃ t, exec (.goodFrameArrival chars) s = .next t
      ∧ LoopOnly
          { s with
            receiver := .idle
            live := if quality.toNat ≤ 1 then s.live.set slot taken else s.live } t
      ∧ (quality.toNat ≤ 1 →
          t.cond (.inputClamped slot) = s.told (.inputClamped slot) clamped
          ∧ t.cond (.inputStale slot) = s.told (.inputStale slot) false
          ∧ t.cond (.inputFailed slot) = s.told (.inputFailed slot) false
          ∧ t.cond (.sampleRejectedBad slot) = s.cond (.sampleRejectedBad slot))
      ∧ (2 ≤ quality.toNat →
          t.cond (.sampleRejectedBad slot) = s.occurred (.sampleRejectedBad slot)
          ∧ t.cond (.inputClamped slot) = s.cond (.inputClamped slot)
          ∧ t.cond (.inputStale slot) = s.cond (.inputStale slot)
          ∧ t.cond (.inputFailed slot) = s.cond (.inputFailed slot))
      ∧ (∀ c : CondId, c ≠ .inputClamped slot → c ≠ .inputStale slot → c ≠ .inputFailed slot →
          c ≠ .sampleRejectedBad slot → c ≠ .forwardOverrun → c ≠ .outboundDiscard →
          t.cond c = s.cond c)
      ∧ t.counters.goodReceived = min (s.counters.goodReceived + 1) 65535
      ∧ (s.transmitter ≠ .free → t.transmitter = s.transmitter
          ∧ (s.forward.length < 2 →
              t.forward = s.forward ++ [f] ∧ t.cond .forwardOverrun = s.cond .forwardOverrun)
          ∧ (2 ≤ s.forward.length →
              t.forward = s.forward
                ∧ t.counters.forwardOverrun = min (s.counters.forwardOverrun + 1) 65535
                ∧ t.cond .forwardOverrun = s.occurred .forwardOverrun))
      ∧ (s.transmitter = .free → s.forward = [] →
          t.forward = [f]
            ∨ (t.forward = [] ∧ t.transmitter = .sending (frameBytes f) .forwardBuffer)))
  ∧ ∀ (chars : List LineChar) (f : Frame) (s : State), s.Runs → s.Hears chars f →
      f.source.toNat ≠ s.node → ¬(f.kind = 0x20 ∧ f.dest.toNat = s.node) →
      (f.kind = 0x10 → f.payload.length = 6 → ∀ (slot : Fin 16) (b : Binding),
        s.retained.bindings[slot] = some b →
        ¬(b.node = f.source.toNat ∧ some b.tag = f.payload.head?.map (·.toNat))) →
      let good := { s.counters with goodReceived := min (s.counters.goodReceived + 1) 65535 }
      let full := { good with forwardOverrun := min (s.counters.forwardOverrun + 1) 65535 }
      let lost := s.cond .forwardOverrun
      let again :=
        { lost with
          latched := true
          occurrences := min (lost.occurrences + 1) 65535
          last := some s.now }
      (s.forward.length < 2 → s.transmitter ≠ .free →
        exec (.goodFrameArrival chars) s
          = .next { s with receiver := .idle, counters := good, forward := s.forward ++ [f] })
      ∧ (∀ g rest, s.forward.length < 2 → s.transmitter = .free → s.forward ++ [f] = g :: rest →
          exec (.goodFrameArrival chars) s
            = .next
                { s with
                  receiver := .idle
                  counters := good
                  forward := rest
                  transmitter := .sending (frameBytes g) .forwardBuffer })
      ∧ (2 ≤ s.forward.length → lost.latched = true →
          exec (.goodFrameArrival chars) s
            = .next
                (State.setCond { s with receiver := .idle, counters := full } .forwardOverrun again))
      ∧ (2 ≤ s.forward.length → lost.latched = false →
          ∃ t, exec (.goodFrameArrival chars) s = .next t ∧ LoopOnly { s with receiver := .idle } t
            ∧ t.counters.forwardOverrun = min (s.counters.forwardOverrun + 1) 65535
            ∧ t.counters.goodReceived = min (s.counters.goodReceived + 1) 65535
            ∧ (∃ withheld,
                t.cond .forwardOverrun = { again with withheld, first := some s.now })
            ∧ (s.transmitter ≠ .free → t.forward = s.forward ∧ t.transmitter = s.transmitter)
            ∧ (s.transmitter = .free → t.forward = s.forward ∨ t.forward = s.forward.tail))

/-- R162, R164: the first character that shows a FRAMING, PARITY or LENGTH error ends its frame with an error
that it shows; a frame without one that is not complete ends with GAP, and a complete one whose check word does
not match with CHECK. Such a frame is dropped, counted under its error, and sends the receiver HUNTING; an
idle line ends HUNTING and a character begins a frame. That which of several errors of one character counts is
open is assumption 38; that both rows that end a reception let the receiver judge the characters, assumption 20;
and that in any other receiver state these events do not arise and change nothing, assumption 4. -/
def Obligations.ReceiverFollowsTheLine : Prop :=
  (∀ (chars : List LineChar) (s : State), s.Runs → s.receiver ≠ .hunting →
    let bytes := chars.map (·.data)
    let ends := fun err : ReceiveFault =>
      ∃ t, exec (.receiveError chars) s = .next t ∧ s.DropsFrame t err
    (∀ i c, chars[i]? = some c → FaultlessUpTo chars i → (∃ err, showsFault chars i c err = true) →
      ∃ err, showsFault chars i c err = true ∧ ends err)
    ∧ (FaultlessUpTo chars chars.length → chars ≠ [] →
        (∀ len, bytes[4]? = some len → chars.length < 7 + len.toNat) → ends .gap)
    ∧ (∀ len, FaultlessUpTo chars chars.length → bytes[4]? = some len → 7 + len.toNat ≤ chars.length →
        bytes.drop (5 + len.toNat)
          ≠ natBytes 2 (crc ((bytes.drop 1).take (4 + len.toNat))).toNat → ends .check))
  ∧ (∀ (chars : List LineChar) (s : State),
      exec (.goodFrameArrival chars) s = exec (.receiveError chars) s)
  ∧ (∀ (chars : List LineChar) (s : State), s.Runs →
      (s.receiver = .hunting ∨ chars = []) →
      exec (.receiveError chars) s = .next s)
  ∧ (∀ s : State, s.Runs → s.receiver = .hunting →
      exec .huntingEnd s = .next { s with receiver := .idle })
  ∧ (∀ s : State, s.Runs → s.receiver ≠ .hunting → exec .huntingEnd s = .next s)
  ∧ (∀ s : State, s.Runs → s.receiver = .idle →
      exec .frameReceptionBegin s = .next { s with receiver := .receiving })
  ∧ (∀ s : State, s.Runs → s.receiver ≠ .idle → exec .frameReceptionBegin s = .next s)

/-- R167: at the end of the gap the transmitter begins the oldest forwarded frame, otherwise the
highest-ranked frame of the outbound queue, otherwise it is free; outside the gap the event changes
nothing (the model's choice, assumption 4). -/
def Obligations.FreeTransmitterBeginsTheNextFrame : Prop :=
  ∀ s : State, s.Runs →
    (∀ f rest, s.transmitter = .gap → s.forward = f :: rest →
      exec .transmitterFree s
        = .next
            { s with forward := rest, transmitter := .sending (frameBytes f) .forwardBuffer })
    ∧ (∀ f others, s.transmitter = .gap → s.forward = [] → highest s.outbound = some (f, others) →
        exec .transmitterFree s
          = .next
              { s with
                outbound := others
                transmitter := .sending (frameBytes (f.toFrame s.node)) (.outboundQueue f.marked) })
    ∧ (s.transmitter = .gap → s.forward = [] → s.outbound = [] →
        exec .transmitterFree s = .next { s with transmitter := .free })
    ∧ (s.transmitter ≠ .gap → exec .transmitterFree s = .next s)

/-- R168, R169: the frame the transmitter takes outranks every older frame and is outranked by none; the
frame a full queue gives up is outranked by every younger frame and outranks no older one. -/
def Obligations.QueueIsRankedByLevelSourceAndAge : Prop :=
  ∀ (q others : List OutFrame) (f : OutFrame),
    (highest q = some (f, others) →
      ∃ older younger, q = older ++ f :: younger ∧ others = older ++ younger
        ∧ (∀ g ∈ older, outranks f g = true) ∧ ∀ g ∈ younger, outranks g f = false)
    ∧ (lowest q = some (f, others) →
        ∃ older younger, q = older ++ f :: younger ∧ others = older ++ younger
          ∧ (∀ g ∈ older, outranks f g = false) ∧ ∀ g ∈ younger, outranks g f = true)
    ∧ (q ≠ [] → (highest q).isSome = true ∧ (lowest q).isSome = true)

/-- R167, R169: a frame offered to the outbound queue enters it while there is room, and a free transmitter
begins at once: with no frame to forward the highest-ranked frame of the queue that it then is, with the
part's node number as its source (so the offered frame itself when the queue was empty), otherwise the oldest
frame to forward; behind a busy transmitter, in a full queue it
displaces the lowest-ranked frame if it outranks it, and is dropped otherwise; the lost frame is counted
under its kind and OUTBOUND_DISCARD occurs. If that latches it, its notice is withheld, not sent, or
offered to the queue in its turn, and the discard which that offer causes is counted and occurs again. -/
def Obligations.FullOutboundQueueDisplacesOrDrops : Prop :=
  (∀ (f : OutFrame) (s : State), s.transmitter ≠ .free →
    s.outbound.length < 16 → offer f s = { s with outbound := s.outbound ++ [f] })
  ∧ (∀ (f : OutFrame) (s : State), s.transmitter = .free → s.outbound.length < 16 →
      let begun := fun (g : OutFrame) (others : List OutFrame) =>
        { s with
          outbound := others
          transmitter :=
            .sending
              (frameBytes
                { dest := g.dest, source := BitVec.ofNat 8 s.node, kind := g.kind.code
                  payload := g.payload })
              (.outboundQueue g.marked) }
      (s.forward = [] → s.outbound = [] → offer f s = begun f [])
      ∧ (∀ g others, s.forward = [] → highest (s.outbound ++ [f]) = some (g, others) →
          offer f s = begun g others)
      ∧ ∀ g rest, s.forward = g :: rest →
          offer f s
            = { s with
                outbound := s.outbound ++ [f]
                forward := rest
                transmitter := .sending (frameBytes g) .forwardBuffer })
  ∧ (∀ (f g lost : OutFrame) (others queue : List OutFrame) (s : State),
      let c := s.cond .outboundDiscard
      let up := fun n : Nat => min (n + 1) 65535
      let cond := fun (withheld : Bool) (occurrences : Nat) =>
        { c with
          latched := true, withheld, occurrences
          first := if c.latched then c.first else some s.now
          last := some s.now }
      let s1 := countDiscard lost.kind { s with outbound := queue }
      s.transmitter ≠ .free → s.outbound.length = 16 → lowest s.outbound = some (g, others) →
      (outranks f g = true ∧ queue = others ++ [f] ∧ lost = g
        ∨ outranks f g = false ∧ queue = s.outbound ∧ lost = f) →
      (c.latched = true →
        offer f s = s1.setCond .outboundDiscard (cond c.withheld (up c.occurrences)))
      ∧ (c.latched = false → (∀ l, s.retained.levels = some l → l[(23 : Fin 25)] = 0 ∨
            s.retained.gate.getLsbD l[(23 : Fin 25)] = false) →
          offer f s
            = s1.setCond .outboundDiscard
                (cond (s.retained.withholds .outboundDiscard) (up c.occurrences)))
      ∧ ∀ (l : Vector Nat 25) (h : OutFrame) (rest : List OutFrame),
          let level := l[(23 : Fin 25)]
          let n : OutFrame :=
            { kind := .notice, dest := 63, level, source := 384
              payload :=
                [24, 0] ++ encFlag c.active ++ encU 2 (up c.occurrences) ++ encWord s.now }
          c.latched = false → s.retained.levels = some l → level ≠ 0 →
          s.retained.gate.getLsbD level = true → lowest queue = some (h, rest) →
          offer f s
            = (if outranks n h then countDiscard h.kind { s1 with outbound := rest ++ [n] }
                else countDiscard .notice s1).setCond .outboundDiscard
                (cond false (up (up c.occurrences))))
  ∧ ∀ (k : OutKind) (s : State),
      let c := s.counters
      countDiscard k s
        = { s with
            counters :=
              match k with
              | .reply => { c with replyDiscard := min (c.replyDiscard + 1) 65535 }
              | .result => { c with resultDiscard := min (c.resultDiscard + 1) 65535 }
              | .ticket => { c with ticketDiscard := min (c.ticketDiscard + 1) 65535 }
              | .proveReport => { c with proveReportDiscard := min (c.proveReportDiscard + 1) 65535 }
              | .notice => { c with noticeDiscard := min (c.noticeDiscard + 1) 65535 } }

/-- R167, R172: a frame that has been sent is counted by where it came from and the gap begins; when the
marked reply of a RESTART has been sent, the soft restart is taken at the end of the step (assumption
11); with no frame in transmission the event changes nothing (assumption 4). -/
def Obligations.SentFrameIsCountedAndTakesTheRestart : Prop :=
  ∀ (s : State) (bytes : List Byte) (marked : Bool), s.power = .running →
    let forwarded := { s.counters with forwarded := min (s.counters.forwarded + 1) 65535 }
    let inserted := { s.counters with inserted := min (s.counters.inserted + 1) 65535 }
    (s.restartPending = false → s.transmitter = .sending bytes .forwardBuffer →
      exec .frameSent s = .next { s with transmitter := .gap, counters := forwarded })
    ∧ (s.restartPending = false → s.transmitter = .sending bytes (.outboundQueue marked) →
        exec .frameSent s = .next { s with transmitter := .gap, counters := inserted })
    ∧ (s.restartPending = true → s.transmitter = .sending bytes (.outboundQueue true) →
        (∀ f ∈ s.outbound, f.marked = false) →
        exec .frameSent s
          = .next (softRestart { s with transmitter := .gap, counters := inserted }))
    ∧ (s.restartPending = false → (s.transmitter = .free ∨ s.transmitter = .gap) →
        exec .frameSent s = .next s)

/-- R163: a receiver that runs the check-word computation over a string and its check word arrives at 0;
for the bytes 0x31 to 0x39 the check word is 0x29B1; a frame on the line has R163's layout. R162, R164: a
character carries its byte with odd parity and a stop bit, and the receiver takes characters as the good frame
`f` exactly when they are those of `f`, with at most 64 bytes of payload. -/
def Obligations.CheckWordOverItselfIsZero : Prop :=
  (∀ bytes : List Byte, crc (bytes ++ natBytes 2 (crc bytes).toNat) = 0)
  ∧ crc [0x31, 0x32, 0x33, 0x34, 0x35, 0x36, 0x37, 0x38, 0x39] = 0x29B1#16
  ∧ ∀ f : Frame,
      let body := [f.dest, f.source, f.kind, BitVec.ofNat 8 f.payload.length] ++ f.payload
      frameBytes f = [0xA5] ++ body ++ natBytes 2 (crc body).toNat
        ∧ (∀ b, (lineChar b).data = b ∧ (lineChar b).stop = true
            ∧ ((List.range 8).countP (b.getLsbD ·) + (lineChar b).parity.toNat) % 2 = 1)
        ∧ ∀ all : List LineChar,
            judge [] all = .good f ↔ f.payload.length ≤ 64 ∧ all = (frameBytes f).map lineChar

/-! ### Station Control -/

/-- R84, R178, R179: an accepted LOAD_STATION replaces the record, applies a change of layout, and takes
a CONFIGURING station to READY when the level table is valid. -/
def Obligations.LoadStationInstallsTheRecord : Prop :=
  ∀ (src tag : Byte) (args : List Byte) (x : StationRecord) (s s1 : State),
    s.Takes (frameOf src tag 0x08 args) s1 → args.length = 10 → readStationRecord args = some x →
    s1.station ≠ .metering →
    let same := s1.retained.station.map (·.layout) = some x.layout
    let onCurve := ∃ r p, s1.buffer.target = some (.curve r p)
    ∃ station buffer,
      exec (.loadStation src tag args) s
        = .next
            (offerReply src tag 0x08 { result := .ok, data := encCode station.code }
              { s1 with
                station := station
                buffer := buffer
                retained :=
                  { s1.retained with
                    station := some x
                    curves := if same then s1.retained.curves else .replicate 32 {} } })
      ∧ (station
          = if s1.station = .configuring ∧ s1.retained.levels.isSome = true then .ready
            else s1.station)
      ∧ (¬same → onCurve → buffer = {}) ∧ (same ∨ ¬onCurve → buffer = s1.buffer)

/-- R180, R93: START_METERING in READY loads the timer with a full interval, and opens a head that is
ACTIVE and awaiting. -/
def Obligations.StartMeteringStartsTheTimer : Prop :=
  ∀ (src tag : Byte) (x : StationRecord) (s s1 : State), s.Takes (frameOf src tag 0x0A []) s1 →
    s1.retained.station = some x → s1.station = .ready →
    let reply := { result := .ok, data := encWord s1.retained.intervalNumber : Reply }
    let s2 := { s1 with station := .metering, timer := some (x.intervalLength * 100000) }
    let b := s1.retained.batch
    ((∀ h rest, b.queue = h :: rest → h.state = .active → b.progress.opening.isSome = true) →
      exec (.startMetering src tag []) s = .next (offerReply src tag 0x0A reply s2))
    ∧ (∀ h rest, b.queue = h :: rest → h.state = .active → b.progress.opening = none →
        exec (.startMetering src tag []) s
          = .next
              (offerReply src tag 0x0A reply
                { s2 with
                  retained :=
                    { s1.retained with
                      batch :=
                        { b with
                          product := h.product
                          progress :=
                            { b.progress with
                              opening := some (s1.retained.intervalNumber + 1)
                              productCode :=
                                s1.retained.products[h.product].inService.map (·.code) } } } }))

/-- R92, R94, R105 to R107, R112, R180: STOP_METERING with every run CLOSED stops the timer, puts the head's
product in service, and closes a CLOSING head when the ticket list has room: into its ticket, with the TICKET
frame queued, and with the batch behind it ACTIVE, awaiting, its accumulator zero and its product in service;
nothing else changes but the loop and the batch conditions. With a run that is not CLOSED it is refused with
BUSY. -/
def Obligations.StopMeteringStopsTheTimer : Prop :=
  ∀ (src tag : Byte) (s s1 : State), s.Takes (frameOf src tag 0x0B []) s1 →
    s1.station = .metering →
    let b := s1.retained.batch
    let ready := fun batch : BatchUnit =>
      { s1 with station := .ready, timer := none, retained := { s1.retained with batch } }
    ((∀ r : Fin 4, s1.runs[r].state = .closed) →
      ((¬b.HeadCloses ∨ 4 ≤ b.tickets.length) →
        exec (.stopMetering src tag []) s
          = .next
              (offerReply src tag 0x0B { result := .ok }
                (ready { b with product := (b.queue.head?.map (·.product)).getD b.product })))
      ∧ ∀ h rest, b.queue = h :: rest → h.state = .closing → b.tickets.length < 4 →
          let code := (s1.retained.products[h.product].inService).map (·.code)
          let ticket := b.headTicket h code s1.retained.intervalNumber
          ∃ s2 : State,
            exec (.stopMetering src tag []) s
              = .next (offerReply src tag 0x0B { result := .ok } s2)
            ∧ LoopOnly (ready ({ b with product := h.product }.afterClose ticket fun _ => {})) s2
            ∧ s2.cond .noActiveBatch = s1.told .noActiveBatch rest.isEmpty
            ∧ s2.cond .ticketStoreFull = s1.told .ticketStoreFull false
            ∧ (∀ c : CondId, c ≠ .noActiveBatch → c ≠ .ticketStoreFull → c ≠ .outboundDiscard →
                s2.cond c = s1.cond c)
            ∧ ∀ st, s1.retained.station = some st → s1.transmitter ≠ .free →
                s1.outbound.length ≤ 10 →
                s2.outbound.filter (·.kind == .ticket)
                  = s1.outbound.filter (·.kind == .ticket) ++ [ticket.frame st.ticketLevel])
    ∧ ((∃ r : Fin 4, s1.runs[r].state ≠ .closed) →
        exec (.stopMetering src tag []) s
          = .next (offerReply src tag 0x0B { result := .busy } s1))

/-- R181, R172: RESTART becomes pending with its reply marked when every run is CLOSED and the session is
IDLE; a queue with room behind a busy transmitter holds the reply. -/
def Obligations.RestartWaitsForItsReply : Prop :=
  ∀ (src tag : Byte) (s s1 : State), s.Takes (frameOf src tag 0x0C []) s1 →
    let quiet := (∀ r : Fin 4, s1.runs[r].state = .closed) ∧ s1.session.state = .idle
    (quiet → s1.transmitter ≠ .free → s1.outbound.length < 16 →
      exec (.restart src tag []) s
        = .next
            { s1 with
              restartPending := true
              outbound :=
                s1.outbound
                  ++ [{ kind := .reply, dest := src, level := 7, source := 0
                        payload := [tag, 0x0C, 0], marked := true }] })
    ∧ (quiet →
        exec (.restart src tag []) s
          = .next
              (settle
                (offerReply src tag 0x0C { result := .ok, marked := true }
                  { s1 with restartPending := true })))
    ∧ (¬quiet →
        exec (.restart src tag []) s = .next (offerReply src tag 0x0C { result := .busy } s1))

/-- R151, R162, R173, R181, R183: a soft restart, and a hard start that finds the check word good, keep
the retained content (the product in service follows the head) and set every volatile item to its value
after a start; the soft restart keeps the clock, the straps and a frame in transmission, the hard start
samples the straps, restarts the timebase and raises POWER_RESTORED. That a HARD_START of a running part is
taken too is the model's choice (assumption 26), and a full 10 ms count at a hard start is
the model's choice (assumption 23). -/
def Obligations.StartsSetEveryVolatileItem : Prop :=
  let kept := fun r : Retained =>
    { r with
      batch := { r.batch with product := (r.batch.queue.head?.map (·.product)).getD r.batch.product } }
  (∀ s : State,
    let t := softRestart s
    t.retained = kept s.retained ∧ t.timebase = s.timebase ∧ t.node = s.node
      ∧ t.rateCode = s.rateCode ∧ t.inputDivider = s.inputDivider ∧ t.lastStart = .soft
      ∧ t.power = s.power ∧ t.retainedLost = s.retainedLost ∧ t.pending = s.pending
      ∧ t.VolatileCleared ∧ t.ConditionsFresh none ∧ t.LoopFresh s.transmitter)
  ∧ ∀ (cause : StartCause) (straps : Straps) (s : State),
      s.Starts cause → s.retainedLost = false →
      ∃ t, exec (.hardStart cause straps) s = .next t
        ∧ t.retained = kept s.retained ∧ t.power = .running ∧ t.retainedLost = false
        ∧ t.node = (if straps.node.toNat = 63 then 62 else straps.node.toNat)
        ∧ t.rateCode = straps.rate.toNat ∧ t.lastStart = .hardGood ∧ t.timebase = 0
        ∧ t.inputDivider = 100000 ∧ t.pending = s.pending
        ∧ t.VolatileCleared ∧ t.ConditionsFresh (some .powerRestored) ∧ t.LoopFresh .free

/-- R182, R183: a hard start over a lost area tests its check word, the CRC of R163. It gives the state
after reset, with the straps as sampled (the straps of the reset state itself are assumption 5), unless
by chance what the area spells has the check word that stands beside it: then the hard start goes on as
over an area kept whole with that content, whatever it is. What a lost area spells, and the order of its
bytes, are open (assumptions 6, 7); that a HARD_START of a running part is taken is assumption 26. -/
def Obligations.HardStartOverALostAreaGivesTheResetState : Prop :=
  ∀ (cause : StartCause) (straps : Straps) (s : State),
    s.Starts cause → s.retainedLost = true →
    let area := Config.lostArea s.openCount
    (crc (Config.retainedBytes area.1) ≠ area.2 →
      exec (.hardStart cause straps) s
        = .next
            { State.reset with
              pending := s.pending
              backupLost := s.backupLost
              openCount := s.openCount + 1
              node := if straps.node.toNat = 63 then 62 else straps.node.toNat
              rateCode := straps.rate.toNat })
    ∧ (crc (Config.retainedBytes area.1) = area.2 →
        exec (.hardStart cause straps) s
          = exec (.hardStart cause straps)
              { s with retained := area.1, retainedLost := false, openCount := s.openCount + 1 })

/-! ### Input Unit -/

/-- R54 to R56, R63: an accepted LOAD_BINDING writes the binding of its slot, which starts again from
NO_DATA with INPUT_FAILED active. That 18 argument bytes carry the binding rests on the 1-byte source node
and channel tag, in no row of R175, which are the model's choice (assumption 14). -/
def Obligations.LoadBindingStartsFromNoData : Prop :=
  ∀ (src tag : Byte) (args : List Byte) (slot : Fin 16) (b : Binding) (s s1 : State),
    s.Takes (frameOf src tag 0x10 args) s1 → args.length = 18 →
    readBinding s1.node args = some (slot, b) →
    (∀ (j : Fin 16) (c : Binding), j ≠ slot → s1.retained.bindings[j] = some c →
      ¬(c.node = b.node ∧ c.tag = b.tag)) →
    (∀ (r : Fin 4) (x : RunSettings), s1.runs[r].state ≠ .closed →
      s1.retained.runs[r].settings = some x → x.tSlot ≠ slot ∧ x.pSlot ≠ slot) →
    (∀ x : StationRecord, s1.station = .metering → s1.retained.station = some x →
      x.densitySlot ≠ some slot ∧ x.waterSlot ≠ some slot) →
    (∀ x : ProverRecord, s1.session.state.active = true → s1.retained.prover = some x →
      x.tSlot ≠ slot ∧ x.pSlot ≠ slot) →
    ∃ s2 : State,
      exec (.loadBinding src tag args) s = .next (offerReply src tag 0x10 { result := .ok } s2)
      ∧ LoopOnly
          { s1 with
            live := s1.live.set slot {}
            retained :=
              { s1.retained with bindings := s1.retained.bindings.set slot (some b) } } s2
      ∧ (s2.cond (.inputFailed slot)).active = true
      ∧ (s2.cond (.inputStale slot)).active = false
      ∧ (s2.cond (.inputClamped slot)).active = false

/-- R60, R63: the 10 ms count ages every binding that has an age, sets its state by its stale limit, and
has its three conditions evaluated; nothing else but the loop and the clock changes. The clock is brought to
the count (the model's choice, assumption 3). -/
def Obligations.TenMsCountAgesEveryBinding : Prop :=
  ∀ s : State, s.Runs →
    ∃ t, exec .input10msCount s = .next t
      ∧ LoopOnly
          { s with
            live := t.live
            timebase := s.timebase + BitVec.ofNat 32 s.inputDivider
            timer := s.timer.map (· - s.inputDivider)
            inputDivider := 100000 } t
      ∧ (∀ slot : Fin 16,
          let stays :=
            t.live[slot] = s.live[slot]
              ∧ t.cond (.inputStale slot) = s.cond (.inputStale slot)
              ∧ t.cond (.inputFailed slot) = s.cond (.inputFailed slot)
              ∧ t.cond (.inputClamped slot) = s.cond (.inputClamped slot)
          match s.retained.bindings[slot], s.live[slot].age with
          | some b, some age =>
            let older := min (age + 1) 65535
            let held := decide (b.stale < older) && decide (older ≤ 2 * b.stale)
            let gone := decide (2 * b.stale < older)
            t.live[slot]
                = { s.live[slot] with
                    age := some older
                    state := if gone then .substituted else if held then .held else .live }
              ∧ t.cond (.inputStale slot) = s.told (.inputStale slot) held
              ∧ t.cond (.inputFailed slot) = s.told (.inputFailed slot) gone
              ∧ t.cond (.inputClamped slot)
                  = s.told (.inputClamped slot) s.live[slot].clamped
          | _, _ => stays)
      ∧ ∀ c : CondId,
          (∀ slot : Fin 16, c ≠ .inputStale slot ∧ c ≠ .inputFailed slot ∧ c ≠ .inputClamped slot) →
          c ≠ .outboundDiscard → t.cond c = s.cond c

/-! ### Meter runs and the Pulse Unit -/

/-- R9, R10, R43: LOAD_RUN of a CLOSED run replaces its settings, zeroes r_IV when the K-factor differs,
and resets its comparison; of any other run it is refused with BUSY. -/
def Obligations.LoadRunReplacesTheSettings : Prop :=
  ∀ (src tag : Byte) (args : List Byte) (r : Fin 4) (x : RunSettings) (s s1 : State),
    s.Takes (frameOf src tag 0x18 args) s1 → args.length = 20 →
    readRunSettings args = some (r, x) →
    let old := s1.retained.runs[r]
    let differs := ∃ y, old.settings = some y ∧ y.kFactor ≠ x.kFactor
    (s1.runs[r].state = .closed →
      ∃ residues,
        exec (.loadRun src tag args) s
          = .next
              (offerReply src tag 0x18 { result := .ok }
                (evalPulseConds r
                  { s1 with
                    retained :=
                      { s1.retained with
                        runs :=
                          s1.retained.runs.set r { old with settings := some x, residues } }
                    pulses :=
                      s1.pulses.set r
                        { s1.pulses[r] with
                          windows := ⟨0, 0⟩
                          coarse := false
                          fine := false
                          status := ⟨.normal, .normal⟩
                          totalizing := x.primary
                          change := none } }))
        ∧ (differs → residues = { old.residues with rIV := 0 })
        ∧ (¬differs → residues = old.residues))
    ∧ (s1.runs[r].state ≠ .closed →
        exec (.loadRun src tag args) s = .next (offerReply src tag 0x18 { result := .busy } s1))

/-- R7, R8, R43, R46: OPEN_RUN takes a CLOSED run to OPENING; CLOSE_RUN takes an OPENING run to CLOSED, an
OPEN run to CLOSING unless a prove holds it, and leaves a CLOSING run. The last part says what the evaluation
of a run's three pulse conditions leaves, here and at LOAD_RUN. -/
def Obligations.RunsOpenAndClose : Prop :=
  (∀ (src tag : Byte) (r : Fin 4) (st : StationRecord) (x : RunSettings) (s s1 : State),
    let args := [BitVec.ofNat 8 r.val]
    s.Takes (frameOf src tag 0x19 args) s1 → s1.station = .metering →
    s1.runs[r].state = .closed → s1.retained.station = some st → st.layout.allowsRun r = true →
    s1.retained.runs[r].settings = some x → (s1.retained.bindings[x.tSlot]).isSome = true →
    (s1.retained.bindings[x.pSlot]).isSome = true →
    exec (.openRun src tag args) s
      = .next
          (offerReply src tag 0x19 { result := .ok, data := [1] }
            (evalPulseConds r
              { s1 with
                runs := s1.runs.set r { s1.runs[r] with state := .opening }
                pulses :=
                  s1.pulses.set r
                    { s1.pulses[r] with
                      windows := ⟨0, 0⟩
                      coarse := false
                      fine := false
                      status := ⟨.normal, .normal⟩
                      idle := 0 } })))
  ∧ (∀ (src tag : Byte) (r : Fin 4) (s s1 : State),
      let args := [BitVec.ofNat 8 r.val]
      let p := s1.pulses[r]
      s.Takes (frameOf src tag 0x1A args) s1 →
      (s1.runs[r].state = .opening →
        exec (.closeRun src tag args) s
          = .next
              (offerReply src tag 0x1A { result := .ok, data := [0] }
                (evalPulseConds r
                  { s1 with
                    runs :=
                      s1.runs.set r
                        { s1.runs[r] with state := .closed, preOpen := p.counts.get p.totalizing }
                    pulses :=
                      s1.pulses.set r
                        { p with counts := ⟨0, 0⟩, windows := ⟨0, 0⟩, batchDisagree := 0 } })))
      ∧ (s1.runs[r].state = .opened → s1.proving r = false →
          exec (.closeRun src tag args) s
            = .next
                (offerReply src tag 0x1A { result := .ok, data := [3] }
                  (evalPulseConds r
                    { s1 with runs := s1.runs.set r { s1.runs[r] with state := .closing } })))
      ∧ (s1.runs[r].state = .opened → s1.proving r = true →
          exec (.closeRun src tag args) s
            = .next (offerReply src tag 0x1A { result := .busy } s1))
      ∧ (s1.runs[r].state = .closing →
          exec (.closeRun src tag args) s
            = .next (offerReply src tag 0x1A { result := .ok, data := [3] } s1))
      ∧ (s1.runs[r].state = .closed →
          exec (.closeRun src tag args) s
            = .next (offerReply src tag 0x1A { result := .wrongState } s1)))
  ∧ ∀ (r : Fin 4) (s : State),
      let t := evalPulseConds r s
      LoopOnly s t
      ∧ (∀ c ∈ pulseConds r,
          t.cond c
            = s.told c
                (pulseCondActive s.retained.runs[r].settings (s.runs[r].state == .closed) s.pulses[r] c))
      ∧ ∀ c : CondId, c ∉ pulseConds r → c ≠ .outboundDiscard → t.cond c = s.cond c

/-- R45, R46, R50, R127: SELECT_CHANNEL of a NORMAL channel of a DUAL run makes a change to it pending, or
withdraws the pending change when it names the totalizing channel; a change that becomes pending spoils a
timed pass of the attached run with cause CHANNEL; and the run's pulse conditions are evaluated. How the
change state stands in the reply is the model's choice (assumption 15). -/
def Obligations.SelectChannelSetsThePendingChange : Prop :=
  ∀ (src tag : Byte) (r : Fin 4) (ch : Channel) (x : RunSettings) (s s1 : State),
    let args := [BitVec.ofNat 8 r.val, BitVec.ofNat 8 (channelCode ch)]
    let p := s1.pulses[r]
    let change := if ch = p.totalizing then none else some ch
    s.Takes (frameOf src tag 0x1B args) s1 → s1.retained.runs[r].settings = some x →
    x.mode = .dual → p.status.get ch = .normal →
    ∃ s2 : State,
      exec (.selectChannel src tag args) s
        = .next
            (offerReply src tag 0x1B
              { result := .ok
                data :=
                  [BitVec.ofNat 8 (channelCode p.totalizing)] ++ encFlag change.isSome
                    ++ encOpt 1 (fun c => [BitVec.ofNat 8 (channelCode c)]) change } s2)
      ∧ LoopOnly
          { s1 with
            pulses := s1.pulses.set r { p with change }
            session :=
              if p.change = none ∧ change ≠ none then s1.sessionTold r .channel else s1.session } s2
      ∧ (s2.session ≠ s1.session →
          s2.cond .provePassSpoiled = s1.occurred .provePassSpoiled)
      ∧ ∀ c ∈ pulseConds r,
          s2.cond c = s1.told c (pulseCondActive (some x) (s1.runs[r].state == .closed) p c)

/-- R32, R35, R47: a pulse of a run that is not CLOSED is counted on its channel, up to 20,000; a pulse on
the primary channel of a CLOSED run is an idle pulse, and on the other channel is not counted; the clock
is brought to the pulse (the model's choice, assumption 3). -/
def Obligations.PulsesAreCountedByRunState : Prop :=
  ∀ (r : Fin 4) (ch : Channel) (stamp : Word32) (s : State), s.Runs →
    (s.runs[r].state ≠ .closed →
      ∃ t, exec (.pulse r ch stamp) s = .next t
        ∧ t.pulses[r].counts.get ch = min (s.pulses[r].counts.get ch + 1) 20000
        ∧ t.pulses[r].counts.get ch.other = s.pulses[r].counts.get ch.other
        ∧ t.pulses[r].idle = s.pulses[r].idle
        ∧ t.pulses[r].totalizing = s.pulses[r].totalizing
        ∧ (∀ q : Fin 4, q ≠ r → t.pulses[q] = s.pulses[q])
        ∧ t.timebase = stamp ∧ t.retained = s.retained ∧ t.runs = s.runs ∧ t.live = s.live
        ∧ t.station = s.station)
    ∧ (s.runs[r].state = .closed → ch = s.primary r →
        ∃ t, exec (.pulse r ch stamp) s = .next t
          ∧ LoopOnly
              { advanceTo stamp s with
                pulses :=
                  s.pulses.set r
                    { s.pulses[r] with idle := min (s.pulses[r].idle + 1) 4294967295 } } t
          ∧ (s.pulses[r].idle = 99 → (t.cond (.pulsesWhileClosed r)).latched = true)
          ∧ (s.pulses[r].idle ≠ 99 → t.conds = s.conds))
    ∧ (s.runs[r].state = .closed → ch ≠ s.primary r →
        exec (.pulse r ch stamp) s = .next (advanceTo stamp s))

/-- R37 to R40, R50, R127: the pulse that makes the leading window count of a DUAL run 16, 32 or 64 is a checkpoint,
and no other pulse is; the outcome of a checkpoint at which the lagging count is at least 1, with both
channels NORMAL or with a LOST one that recovers or stays LOST, and of one at which the other channel has
counted nothing; what a checkpoint reports to the Prove Controller spoils a timed pass of the attached run,
with AGREEMENT when Fine clears, and otherwise with CHANNEL when a change becomes pending; and a checkpoint,
and no other pulse, evaluates the run's pulse conditions (R46). That a checkpoint
is reported before its pulse is delivered is the model's choice (assumption 10). -/
def Obligations.CheckpointOutcomes : Prop :=
  (∀ (r : Fin 4) (ch : Channel) (stamp : Word32) (x : RunSettings) (s : State), s.Runs →
    s.runs[r].state ≠ .closed → s.retained.runs[r].settings = some x →
    let p := s.pulses[r]
    let counted := { p with counts := p.counts.set ch (min (p.counts.get ch + 1) 20000) }
    let lead := p.windows.get ch + 1
    let windowed := { counted with windows := p.windows.set ch lead }
    let there := (lead = 16 ∨ lead = 32 ∨ lead = 64) ∧ p.windows.get ch.other < lead
    ∃ t, exec (.pulse r ch stamp) s = .next t
      ∧ (x.mode = .single → t.pulses[r] = counted)
      ∧ (x.mode = .dual → there → t.pulses[r] = windowed.checkpoint ch)
      ∧ (x.mode = .dual → ¬there → t.pulses[r] = windowed)
      ∧ (x.mode = .dual → there →
          let q := windowed.checkpoint ch
          let loses := p.fine = true ∧ q.fine = false
          let changes := p.change = none ∧ q.change ≠ none
          let timed :=
            s.session.attached = some r ∧ (s.session.state = .timing ∨ s.session.state = .finishing)
          (¬timed → t.session = s.session)
          ∧ (loses → t.session = s.sessionTold r .agreement)
          ∧ (¬loses → changes → t.session = s.sessionTold r .channel)
          ∧ (timed → (loses ∨ changes) →
              t.cond .provePassSpoiled = s.occurred .provePassSpoiled)
          ∧ (¬loses → ¬changes → q.totalizing ≠ ch → t.session = s.session)
          ∧ ∀ c ∈ pulseConds r, t.cond c = s.told c (pulseCondActive (some x) false q c))
      ∧ ((x.mode = .single ∨ ¬there) → ∀ c ∈ pulseConds r, t.cond c = s.cond c))
  ∧ ∀ (p : PulseState) (ch : Channel),
    let lead := p.windows.get ch
    let lag := p.windows.get ch.other
    let d := lead - lag - 1
    let fresh := { p with windows := ⟨0, 0⟩ }
    let normal := p.status = ⟨.normal, .normal⟩
    let disagreed := fun n : Nat =>
      { fresh with
        cumDisagree := min (p.cumDisagree + n) 4294967295
        batchDisagree := min (p.batchDisagree + n) 4294967295 }
    (1 ≤ lag → normal → 2 ≤ d →
      p.checkpoint ch = { disagreed d with coarse := false, fine := false })
    ∧ (1 ≤ lag → normal → d ≤ 1 → lead = 16 → p.checkpoint ch = p)
    ∧ (1 ≤ lag → normal → d ≤ 1 → lead = 32 → p.checkpoint ch = { p with coarse := true })
    ∧ (1 ≤ lag → normal → d = 0 → lead = 64 →
        p.checkpoint ch = { fresh with coarse := true, fine := true })
    ∧ (1 ≤ lag → normal → d = 1 → lead = 64 →
        p.checkpoint ch = { disagreed 1 with fine := false })
    ∧ (1 ≤ lag → ¬normal → 2 ≤ d →
        p.checkpoint ch = { fresh with coarse := false, fine := false })
    ∧ (1 ≤ lag → ¬normal → d ≤ 1 → (lead = 16 ∨ lead = 32) →
        p.checkpoint ch = { p with status := ⟨.normal, .normal⟩ })
    ∧ (1 ≤ lag → ¬normal → d = 0 → lead = 64 →
        p.checkpoint ch = { fresh with status := ⟨.normal, .normal⟩ })
    ∧ (1 ≤ lag → ¬normal → d = 1 → lead = 64 →
        p.checkpoint ch = { fresh with status := ⟨.normal, .normal⟩, fine := false })
    ∧ (lag = 0 →
        (p.checkpoint ch).status = p.status.set ch.other .lost
          ∧ (p.checkpoint ch).windows = ⟨0, 0⟩ ∧ (p.checkpoint ch).coarse = false
          ∧ (p.checkpoint ch).fine = false ∧ (p.checkpoint ch).cumDisagree = p.cumDisagree
          ∧ (p.checkpoint ch).batchDisagree = p.batchDisagree
          ∧ (p.checkpoint ch).counts = p.counts
          ∧ (p.checkpoint ch).totalizing = p.totalizing
          ∧ (p.status.get ch.other = .lost → (p.checkpoint ch).change = p.change)
          ∧ (p.status.get ch.other = .normal → p.totalizing = ch.other →
              p.status.get ch = .normal → p.change = none → (p.checkpoint ch).change = some ch)
          ∧ (p.status.get ch.other = .normal → p.totalizing = ch.other →
              (p.status.get ch = .lost ∨ p.change ≠ none) → (p.checkpoint ch).change = p.change)
          ∧ (p.status.get ch.other = .normal → p.totalizing = ch → p.change = some ch.other →
              (p.checkpoint ch).change = none)
          ∧ (p.status.get ch.other = .normal → p.totalizing = ch → p.change ≠ some ch.other →
              (p.checkpoint ch).change = p.change))

/-! ### Flow Engine -/

/-- R20: stage 6 combines the factors in two steps, each rounded half up. -/
def Obligations.StageSixCombinesTheFactors : Prop :=
  ∀ x : IntervalInput,
    let out := computeStages x
    ∃ first : Int,
      2 * 1000000 * first ≤ 2 * (out.mf * out.ctl) + 1000000
      ∧ 2 * (out.mf * out.ctl) + 1000000 < 2 * 1000000 * (first + 1)
      ∧ 2 * 1000000 * out.ccf ≤ 2 * (first * out.cpl) + 1000000
      ∧ 2 * (first * out.cpl) + 1000000 < 2 * 1000000 * (out.ccf + 1)

/-- R21: stage 7 computes the gross standard volume and the new r_GSV. -/
def Obligations.StageSevenComputesGrossVolume : Prop :=
  ∀ x : IntervalInput,
    let out := computeStages x
    0 ≤ out.ccf →
      (out.iv : Int) * out.ccf + x.residues.rGSV
          = (out.gsv : Int) * 1000000 + (out.residues.rGSV : Int)
        ∧ out.residues.rGSV < 1000000

/-- R22: stage 8 computes the net standard volume and the new r_NSV. -/
def Obligations.StageEightComputesNetVolume : Prop :=
  ∀ x : IntervalInput,
    let out := computeStages x
    (0 ≤ x.sw → x.sw ≤ 10000 →
      (out.gsv : Int) * (10000 - x.sw) + x.residues.rNSV
          = out.nsv * 10000 + (out.residues.rNSV : Int)
        ∧ out.residues.rNSV < 10000)
    ∧ (x.sw = 0 → x.residues.rNSV < 10000 →
        out.nsv = out.gsv ∧ out.residues.rNSV = x.residues.rNSV)
    ∧ BindingKind.waterCut.deviceRange = (0, 10000)

/-- R24: stage 10 computes the standard density; its divisor cannot be 0, and it enters no total. -/
def Obligations.StageTenComputesStandardDensity : Prop :=
  (∀ x : IntervalInput,
    let out := computeStages x
    let d := out.ctl * out.cpl
    (∀ c, x.product = some c → 2 ≤ c.points.length
      ∧ ∀ p ∈ c.points, 950000 ≤ p.factor ∧ p.factor ≤ 1050000) →
    (∀ c, x.product = some c → (c.points.map (·.x)).Pairwise (· < ·)) →
      950000 ≤ out.ctl ∧ 1000000 ≤ out.cpl ∧ d ≠ 0
        ∧ 2 * d * out.rhoStd ≤ 2 * (x.rho * 1000000000000) + d
        ∧ 2 * (x.rho * 1000000000000) + d < 2 * d * (out.rhoStd + 1)
        ∧ (x.rho = 0 → out.rhoStd = 0))
  ∧ (∀ (t : Totals) (r : IntervalRecord) (v : Int), t.add { r with rhoStd := v } = t.add r)
  ∧ ∀ (r : Fin 4) (x : RunSettings) (d : Sampled) (s : State),
      (formRecord r x d (computeStages d.input) s).rhoStd = (computeStages d.input).rhoStd

/-- R17, R18: the factor at a rate or temperature: below the first point it is the first factor, at and
above the last point the last factor, and from a point up to the next that point's factor plus the
increment, rounded half away from zero. It lies between the smallest and the largest factor. -/
def Obligations.InterpolationStaysWithinTheFactors : Prop :=
  ∀ (points : List (Int × Int)) (x : Int), points ≠ [] → (points.map (·.1)).Pairwise (· < ·) →
    (∀ low high : Int, (∀ p ∈ points, low ≤ p.2 ∧ p.2 ≤ high) →
      low ≤ interpolate points x ∧ interpolate points x ≤ high)
    ∧ (∀ p, points.head? = some p → x ≤ p.1 → interpolate points x = p.2)
    ∧ (∀ p, points.getLast? = some p → p.1 ≤ x → interpolate points x = p.2)
    ∧ ∀ (i : Nat) (p q : Int × Int), points[i]? = some p → points[i + 1]? = some q → p.1 ≤ x →
        x < q.1 →
        let n := (q.2 - p.2) * (x - p.1)
        let d := q.1 - p.1
        ∃ size : Int,
          2 * d * size ≤ 2 * (n.natAbs : Int) + d ∧ 2 * (n.natAbs : Int) + d < 2 * d * (size + 1)
          ∧ interpolate points x = p.2 + if 0 ≤ n then size else -size

/-- R3, R14 to R29, R36: at an expiry every run is handled by its state: a CLOSED run is left, an OPENING
run discards its counts and is OPEN, and an OPEN or CLOSING run computes its interval from what was in
effect during it, adds it to its totals, keeps its residues and its whole record, and has its six conditions
evaluated, which a run that closes leaves inactive. The pending change of every run, a CLOSED one too, is
applied and gone, a run that closes has an empty window, and the channel states, the flags, the window of any
other run and the disagreement of an OPENING one stay (R36, R37). The pulse conditions of every run are
evaluated (R46), once and after a CLOSING run has closed (the model's choice, assumption 36). Stages 1 to 5 and 9 of the computation and
the bounds of its residues (R14 to R19, R23, R25) stand in the second part. What a negative quantity does to
a total is open (assumption 13). -/
def Obligations.ExpiryHandlesEveryRunByItsState : Prop :=
  (∀ (n : Nat) (s : State), s.Runs → s.timer = some n →
    ∃ t, exec .intervalExpiry s = .next t
      ∧ ∀ r : Fin 4,
          let p := s.pulses[r]
          let used := p.channelAtExpiry
          let flow : List CondId :=
            [.rateHigh r, .rateLow r, .rateOutsideCurve r, .noCurve r, .tempOutsideTable r,
              .densityOutsideProduct r]
          (s.runs[r].state = .closed →
            t.runs[r] = s.runs[r] ∧ t.retained.runs[r] = s.retained.runs[r]
              ∧ t.pulses[r] = { p with totalizing := used, change := none })
          ∧ ((s.runs[r].state = .closed ∨ s.runs[r].state = .opening) →
              ∀ c ∈ flow, t.cond c = s.cond c)
          ∧ (let closed := s.runs[r].state == .closed || s.runs[r].state == .closing
            ∀ c ∈ pulseConds r,
              t.cond c
                = (s.cond c).told
                    (pulseCondActive s.retained.runs[r].settings closed { p with totalizing := used } c)
                    (s.retained.withholds c) (s.retained.intervalNumber + 1))
          ∧ (s.runs[r].state = .opening →
              t.runs[r] = { s.runs[r] with state := .opened, preOpen := p.counts.get used }
                ∧ t.retained.runs[r] = s.retained.runs[r]
                ∧ t.pulses[r] = { p with totalizing := used, change := none, counts := ⟨0, 0⟩ })
          ∧ ∀ (x : RunSettings) (st : StationRecord),
              (s.runs[r].state = .opened ∨ s.runs[r].state = .closing) →
              s.retained.runs[r].settings = some x → s.retained.station = some st →
              let b := s.retained.batch
              let curve :=
                if st.layout.allows r b.product = true then
                  ((s.curve r b.product).inService).map (·.points)
                else none
              let product := s.retained.products[b.product].inService
              let rho := s.densityReading
              let out :=
                computeStages
                  { kFactor := x.kFactor
                    p := p.counts.get used
                    length := st.intervalLength
                    residues := s.retained.runs[r].residues
                    curve, product
                    fallback := x.fallback
                    t := (s.reading x.tSlot).value
                    pres := (s.reading x.pSlot).value
                    rho := rho.value
                    sw := s.waterReading.value }
              let old := s.retained.runs[r].totals
              t.retained.runs[r]
                  = { settings := some x
                      residues := out.residues
                      totals :=
                        { iv := addTotal old.iv out.iv
                          gsv := addTotal old.gsv out.gsv
                          nsv := addTotal old.nsv out.nsv
                          mass := addTotal old.mass out.mass
                          pulses := addTotal old.pulses (p.counts.get used) } }
                ∧ t.pulses[r]
                    = { p with
                        totalizing := used, change := none, counts := ⟨0, 0⟩, batchDisagree := 0
                        windows := if s.runs[r].state = .closing then ⟨0, 0⟩ else p.windows }
                ∧ t.runs[r]
                    = { s.runs[r] with
                        state := if s.runs[r].state = .closing then .closed else .opened
                        last :=
                          some
                            { run := r, interval := s.retained.intervalNumber + 1
                              product := b.product, p := p.counts.get used, channel := used
                              iv := out.iv, q := out.q, mf := out.mf, ctl := out.ctl, cpl := out.cpl
                              ccf := out.ccf, gsv := out.gsv, nsv := out.nsv, mass := out.mass
                              t := (s.reading x.tSlot).value
                              pres := (s.reading x.pSlot).value
                              rhoLine := rho.value, rhoStd := out.rhoStd
                              sw := s.waterReading.value
                              flags :=
                                { codeT := (s.reading x.tSlot).code
                                  codeP := (s.reading x.pSlot).code
                                  codeRho := rho.code
                                  codeSW := s.waterReading.code
                                  fallback := curve == none
                                  curveClamp := out.curveClamp
                                  tableClamp := out.tempOutside || out.cplCapped
                                  rateClamped := out.rateClamped
                                  coarse := p.coarse
                                  fine := p.fine
                                  substituted := used != x.primary
                                  firstOfBatch :=
                                    b.queue != [] && b.progress.opening != none
                                      && b.acc.runs[r].intervals == 0 } } }
                ∧ ∀ c ∈ flow,
                    let active : Bool :=
                      match c with
                      | .rateHigh _ => x.rateHigh != 0 && decide (x.rateHigh < out.q)
                      | .rateLow _ =>
                        x.rateLow != 0 && decide (0 < out.q) && decide (out.q < x.rateLow)
                      | .rateOutsideCurve _ => out.curveClamp
                      | .noCurve _ => curve == none
                      | .tempOutsideTable _ => out.tempOutside
                      | _ =>
                        match product with
                        | none => true
                        | some y =>
                          decide (rho.value < y.densityLow) || decide (y.densityHigh < rho.value)
                    let told :=
                      (s.cond c).told active (s.retained.withholds c) (s.retained.intervalNumber + 1)
                    t.cond c
                      = if s.runs[r].state = .closing then { told with active := false } else told)
  ∧ ∀ x : IntervalInput,
      let out := computeStages x
      let f : Nat := (x.product.map (·.compressibility)).getD 0
      (x.kFactor ≠ 0 →
        x.p * 1000000000 + x.residues.rIV = out.iv * x.kFactor + out.residues.rIV
          ∧ out.residues.rIV < x.kFactor)
      ∧ (x.length ≠ 0 →
          ∃ q : Nat,
            2 * (10 * x.length) * q ≤ 2 * (out.iv * 360) + 10 * x.length
            ∧ 2 * (out.iv * 360) + 10 * x.length < 2 * (10 * x.length) * (q + 1)
            ∧ out.q = min q 10000000 ∧ out.rateClamped = decide (10000000 < q)
            ∧ (out.iv = 0 → out.q = 0))
      ∧ (x.curve = none → out.mf = x.fallback ∧ out.curveClamp = false)
      ∧ (∀ (points : List CurvePoint) (first last : CurvePoint), x.curve = some points →
          points.head? = some first → points.getLast? = some last →
          out.mf = interpolate (points.map fun y => ((y.rate : Int), (y.factor : Int))) out.q
            ∧ (out.curveClamp = true ↔ 0 < out.q ∧ (out.q < first.rate ∨ last.rate < out.q)))
      ∧ (x.product = none → out.ctl = 1000000 ∧ out.tempOutside = true)
      ∧ (∀ (c : ProductCopy) (first last : TablePoint), x.product = some c →
          c.points.head? = some first → c.points.getLast? = some last →
          out.ctl = interpolate (c.points.map fun y => (y.x, (y.factor : Int))) x.t
            ∧ (out.tempOutside = true ↔ x.t < first.x ∨ last.x < x.t))
      ∧ (∃ v : Int,
          2 * 10000 * v ≤ 2 * (f * max x.pres 0) + 10000
          ∧ 2 * (f * max x.pres 0) + 10000 < 2 * 10000 * (v + 1)
          ∧ out.cpl = min (1000000 + v) 1050000 ∧ out.cplCapped = decide (50000 < v)
          ∧ 1000000 ≤ out.cpl ∧ out.cpl ≤ 1050000)
      ∧ (out.iv : Int) * out.mf * x.rho + x.residues.rM
          = out.mass * 100000000000 + (out.residues.rM : Int)
      ∧ (x.rho = 0 → x.residues.rM < 100000000000 →
          out.mass = 0 ∧ out.residues.rM = x.residues.rM)
      ∧ out.residues.rGSV < 1000000 ∧ out.residues.rNSV < 10000
      ∧ out.residues.rM < 100000000000

/-- R1, R2, R80: an expiry advances the interval number, reloads the timer and promotes every pending
table; the bindings, the prover record, the station record and the levels stay; the clock is brought to
the expiry (the model's choice, assumption 3). -/
def Obligations.ExpiryAdvancesTheIntervalAndPromotes : Prop :=
  ∀ (n : Nat) (x : StationRecord) (s : State), s.Runs → s.timer = some n →
    s.retained.station = some x →
    let next := s.retained.intervalNumber + 1
    ∃ t, exec .intervalExpiry s = .next t ∧ t.retained.intervalNumber = next
      ∧ t.timer = some (x.intervalLength * 100000)
      ∧ t.timebase = s.timebase + BitVec.ofNat 32 n ∧ t.station = s.station ∧ t.live = s.live
      ∧ t.buffer = s.buffer ∧ t.retained.station = some x
      ∧ t.retained.bindings = s.retained.bindings ∧ t.retained.prover = s.retained.prover
      ∧ t.retained.levels = s.retained.levels ∧ t.retained.gate = s.retained.gate
      ∧ (∀ q : Fin 8,
          t.retained.products[q]
            = match s.retained.products[q].pending with
              | some c => { inService := some { c with installedAt := next }, pending := none }
              | none => s.retained.products[q])
      ∧ ∀ k : Fin 32,
          t.retained.curves[k]
            = match s.retained.curves[k].pending with
              | some c => { inService := some { c with installedAt := next }, pending := none }
              | none => s.retained.curves[k]

/-- R30, R31, R93, R97 to R106, R143: at an expiry the record of every run that computes goes whole to one
accumulator, with the target check after each. Then a CLOSING head closes when the ticket list has room,
into its ticket and with the batch behind it open at once, or an awaiting ACTIVE head opens; either fails
an active prove session, unless the change of channel that is applied has failed it (R127, R143: one of the
orders they allow, assumption 8). While no notice can enter the queue, the RESULT frames of the computing
runs, at the spacing or for a run that closes, enter the outbound queue in the order of runs (the model's
choice, assumption 8; that pending tables are promoted first is assumption 9), with the TICKET of the batch
that closes and the PROVE_REPORT of a session that fails. TARGET_REACHED occurs when a record reaches the target
(R102), PROVE_PASS_SPOILED and PROVE_FAILED with the session (R128, R142), and NO_ACTIVE_BATCH and
TICKET_STORE_FULL are evaluated when a target ends the batch and when a batch closes (R112); every other
record stays but those of the runs and OUTBOUND_DISCARD. What a negative quantity does to a total is open
(assumption 13), and the pulse count of an interval whose IV is 0 is added, the model's choice (assumption
32). -/
def Obligations.ExpiryAccumulatesClosesAndOpensBatches : Prop :=
  ∀ (n : Nat) (st : StationRecord) (s : State), s.Runs → s.timer = some n →
    s.retained.station = some st →
    let computes := fun r : Fin 4 =>
      (s.runs[r].state == .opened || s.runs[r].state == .closing)
        && s.retained.runs[r].settings.isSome
    let now := s.retained.intervalNumber + 1
    let quiet := s.NoticesQuiet ∧ s.transmitter ≠ .free ∧ s.outbound.length ≤ 8
    let told : Session :=
      match s.session.attached with
      | some r => if s.pulses[r].change = none then s.session else s.sessionTold r .channel
      | none => s.session
    let failed : Session :=
      if told.state.active = true then
        { told with state := .failed, endCause := .productChanged, items := {} }
      else told
    ∃ t, exec .intervalExpiry s = .next t
      ∧ (let recs : List (IntervalRecord × Nat) :=
          (List.finRange 4).filterMap fun r =>
            if computes r then t.runs[r].last.map fun x => (x, s.pulses[r].batchDisagree) else none
        let b : BatchUnit := recs.foldl (fun (b : BatchUnit) x => b.taking x.1 x.2) s.retained.batch
        let code := fun p : Fin 8 => (t.retained.products[p].inService).map (·.code)
        let tickets := fun x : State => x.outbound.filter (·.kind == .ticket)
        let told1 := fun (c : CondId) (x : Condition) (active : Bool) =>
          x.told active (s.retained.withholds c) now
        let occurs := fun (c : CondId) (happens : Bool) =>
          t.cond c
            = if happens then (s.cond c).occurred (s.retained.withholds c) now else s.cond c
        let old := s.retained.batch
        let ended :=
          old.queue.head?.map (·.state) == some .active && b.queue.head?.map (·.state) == some .closing
        let none1 :=
          if ended then told1 .noActiveBatch (s.cond .noActiveBatch) false else s.cond .noActiveBatch
        let full1 :=
          if ended then
            told1 .ticketStoreFull (s.cond .ticketStoreFull) (decide (4 ≤ b.tickets.length))
          else s.cond .ticketStoreFull
        let kept := t.cond .noActiveBatch = none1 ∧ t.cond .ticketStoreFull = full1
        occurs .targetReached (b.progress.targetReached && !old.progress.targetReached)
        ∧ occurs .provePassSpoiled (told != s.session)
        ∧ occurs .proveFailed (s.session.state.active && t.session.state == .failed)
        ∧ ((¬b.HeadCloses ∨ 4 ≤ b.tickets.length) →
          (∀ h rest, b.queue = h :: rest → h.state = .active → b.progress.opening.isSome = true) →
            t.retained.batch = b ∧ t.session = told ∧ kept ∧ (quiet → tickets t = tickets s))
        ∧ (∀ h rest, b.queue = h :: rest → h.state = .active → b.progress.opening = none →
            t.retained.batch
                = { b with
                    product := h.product
                    progress :=
                      { b.progress with opening := some (now + 1), productCode := code h.product } }
              ∧ t.session = failed ∧ kept ∧ (quiet → tickets t = tickets s))
        ∧ ∀ h rest, b.queue = h :: rest → h.state = .closing → b.tickets.length < 4 →
            let ticket := b.headTicket h (code h.product) now
            t.retained.batch
                = b.afterClose ticket
                    (fun p => { opening := some (now + 1), productCode := code p })
              ∧ t.session = failed
              ∧ t.cond .noActiveBatch = told1 .noActiveBatch none1 rest.isEmpty
              ∧ t.cond .ticketStoreFull = told1 .ticketStoreFull full1 false
              ∧ (quiet → tickets t = tickets s ++ [ticket.frame st.ticketLevel]))
      ∧ (∀ c : CondId,
          c ∉ [.targetReached, .provePassSpoiled, .proveFailed, .noActiveBatch, .ticketStoreFull,
            .outboundDiscard] →
          (∀ r : Fin 4,
            c ∉ pulseConds r ++ [.rateHigh r, .rateLow r, .rateOutsideCurve r, .noCurve r,
              .tempOutsideTable r, .densityOutsideProduct r]) → t.cond c = s.cond c)
      ∧ (quiet →
          t.outbound.filter (·.kind == .proveReport)
            = s.outbound.filter (·.kind == .proveReport)
              ++ if s.session.state.active = true ∧ t.session.state = .failed then
                  [t.session.reportFrame st.reportLevel]
                else [])
      ∧ (quiet →
          t.outbound.filter (·.kind == .result)
            = s.outbound.filter (·.kind == .result)
              ++ (List.finRange 4).filterMap fun r =>
                let due :=
                  s.runs[r].state == .closing
                    || (decide (0 < st.spacing) && now.toNat % st.spacing == 0)
                let totals := t.retained.runs[r].totals
                if computes r && due then
                  t.runs[r].last.map fun x =>
                    let f := x.flags
                    let bit := fun (b : Bool) (w : Nat) => if b then w else 0
                    { kind := .result, dest := 63, level := st.resultLevel, source := r.val
                      payload :=
                        encU 1 r.val
                          ++ encU 1 (f.codeT + 4 * f.codeP + 16 * f.codeRho + 64 * f.codeSW : Nat)
                          ++ encU 1
                              (bit f.fallback 1 + bit f.curveClamp 2 + bit f.tableClamp 4
                                + bit f.rateClamped 8 + bit f.coarse 16 + bit f.fine 32
                                + bit f.substituted 64 + bit f.firstOfBatch 128 : Nat)
                          ++ encWord now ++ encU 4 x.q ++ encU 3 x.mf ++ encU 3 x.ccf ++ encS 2 x.t
                          ++ encS 3 x.pres ++ encU 3 x.rhoLine ++ encU 8 totals.iv
                          ++ encU 8 totals.gsv ++ encU 8 totals.nsv ++ encU 8 totals.mass }
                else none)

/-! ### Table Store -/

/-- R73, R74: an accepted LOAD_POINTS writes its points into the assembly buffer from the start index on,
and empties it first when the target differs; its reply carries the target and the filled count. The codes
of the target kinds and the run byte of an EXPANSION target are the model's choice (assumption 16), and so
is the 1-byte filled count of the reply, in no row of R175 (assumption 14). -/
def Obligations.LoadPointsWritesTheBuffer : Prop :=
  ∀ (src tag kind : Byte) (rest : List Byte) (t : Target) (s s1 : State),
    let args := kind :: rest
    let start := argU args 3 1
    let points := readPoints (kind == 0) args
    let old := if s1.buffer.target = some t then s1.buffer.points else []
    s.Takes (frameOf src tag 0x20 args) s1 → pointsLengthOk (kind == 0) args.length = true →
    readTarget args = some t → start ≤ old.length →
    (∀ r p, t = .curve r p → ∃ st, s1.retained.station = some st
      ∧ st.layout.allows r p = true ∧ start + points.length ≤ st.layout.pointsPerCurve) →
    (∀ p, t = .expansion p → start + points.length ≤ 16) →
    let shown :=
      match t with
      | .curve r p => [0] ++ encU 1 r.val ++ encU 1 p.val
      | .expansion p => [1, 0] ++ encU 1 p.val
    ∃ filled : List TablePoint,
      exec (.loadPoints src tag args) s
        = .next
            (offerReply src tag 0x20 { result := .ok, data := shown ++ encU 1 filled.length }
              { s1 with buffer := { target := some t, points := filled } })
      ∧ filled.length = max old.length (start + points.length)
      ∧ ∀ i, filled[i]? =
          if i < start then old[i]?
          else if i < start + points.length then points[i - start]? else old[i]?

/-- R68, R71: the check of a curve, and that of an expansion table, finds no failure exactly when the
count, the ranges, the order and, for a curve, the steps are as the rule gives them; and the cause and the
index of every failure. Of a count above both the capacity and the number of filled points, whose index the
rules state twice (assumption 34), it says only that the index is one of the two. -/
def Obligations.CurveCheckAcceptsExactlyValidCurves : Prop :=
  ∀ (count cap : Nat) (points : List TablePoint),
    let counted := 2 ≤ count ∧ count ≤ points.length
    let rateOk := fun p : TablePoint => 1 ≤ p.x ∧ p.x ≤ 10000000
    let factorOk := fun p : TablePoint => 900000 ≤ p.factor ∧ p.factor ≤ 1100000
    let stepOk := fun p q : TablePoint =>
      q.factor ≤ p.factor + 20000 ∧ p.factor ≤ q.factor + 20000
    let tempOk := fun p : TablePoint => -4000 ≤ p.x ∧ p.x ≤ 10000
    let expansionOk := fun p : TablePoint => 950000 ≤ p.factor ∧ p.factor ≤ 1050000
    -- the points before `i` pass the range checks `ok` and, each with the point before it, `next`
    let before := fun (ok : TablePoint → Prop) (next : TablePoint → TablePoint → Prop) (i : Nat) =>
      (∀ (j : Nat) (p : TablePoint), j < i → points[j]? = some p → ok p)
      ∧ ∀ (j : Nat) (p q : TablePoint), j + 1 < i → points[j]? = some p →
          points[j + 1]? = some q → next p q
    let curveRange := fun p : TablePoint => rateOk p ∧ factorOk p
    let curveNext := fun p q : TablePoint => p.x < q.x ∧ stepOk p q
    let tempRange := fun p : TablePoint => tempOk p ∧ expansionOk p
    let tempNext := fun p q : TablePoint => p.x < q.x
    let curve := curveError count cap points
    let expansion := expansionError count points
    -- the check of a curve
    (curve = none ↔ counted ∧ count ≤ cap ∧ before curveRange curveNext count)
    ∧ (count < 2 → curve = some (.count, count))
    ∧ (2 ≤ count → cap < count → count ≤ points.length → curve = some (.count, cap))
    ∧ (2 ≤ count → count ≤ cap → points.length < count → curve = some (.count, points.length))
    ∧ (2 ≤ count → cap < count → points.length < count →
        curve = some (.count, cap) ∨ curve = some (.count, points.length))
    ∧ (counted → count ≤ cap → ∀ (i : Nat) (q : TablePoint), i < count → points[i]? = some q →
        before curveRange curveNext i →
        (¬curveRange q → curve = some (.range, i))
        ∧ ∀ (j : Nat) (p : TablePoint), j + 1 = i → points[j]? = some p → curveRange q →
            (q.x ≤ p.x → curve = some (.order, i))
            ∧ (p.x < q.x → ¬stepOk p q → curve = some (.step, i)))
    -- the check of an expansion table
    ∧ (expansion = none ↔ counted ∧ count ≤ 16 ∧ before tempRange tempNext count)
    ∧ (count < 2 → expansion = some (.count, count))
    ∧ (16 < count → count ≤ points.length → expansion = some (.count, 16))
    ∧ (2 ≤ count → count ≤ 16 → points.length < count → expansion = some (.count, points.length))
    ∧ (16 < count → points.length < count →
        expansion = some (.count, 16) ∨ expansion = some (.count, points.length))
    ∧ (counted → count ≤ 16 → ∀ (i : Nat) (q : TablePoint), i < count → points[i]? = some q →
        before tempRange tempNext i →
        (¬tempRange q → expansion = some (.range, i))
        ∧ ∀ (j : Nat) (p : TablePoint), j + 1 = i → points[j]? = some p → tempRange q → q.x ≤ p.x →
            expansion = some (.order, i))

/-- R75 to R79: an accepted COMMIT_CURVE or COMMIT_PRODUCT installs the new copy in service, or as the
pending copy when the table is in use or has one, and empties the assembly buffer. That a count takes 1
argument byte, which makes the 3 and the 17 bytes, is the model's choice for a field in no row of R175
(assumption 14). -/
def Obligations.CommitsInstallInServiceOrPending : Prop :=
  (∀ (src tag : Byte) (r : Fin 4) (p : Fin 8) (count : Byte) (st : StationRecord) (s s1 : State),
    let args := [BitVec.ofNat 8 r.val, BitVec.ofNat 8 p.val, count]
    let c := s1.curve r p
    let new : CurveCopy :=
      { points :=
          (s1.buffer.points.take count.toNat).map fun x =>
            { rate := x.x.toNat, factor := x.factor, origin := .loaded }
        installedAt := s1.retained.intervalNumber }
    let waits := (s1.runs[r].state ≠ .closed ∧ p = s1.retained.batch.product) ∨ c.pending ≠ none
    let done := fun k : Copies CurveCopy =>
      { s1 with
        buffer := {}
        retained :=
          { s1.retained with curves := s1.retained.curves.set (curveIndex r p) k } }
    s.Takes (frameOf src tag 0x21 args) s1 → s1.retained.station = some st →
    st.layout.allows r p = true → s1.buffer.target = some (.curve r p) →
    curveError count.toNat st.layout.pointsPerCurve s1.buffer.points = none →
    (waits →
      exec (.commitCurve src tag args) s
        = .next
            (offerReply src tag 0x21 { result := .ok, data := [1] }
              (done { c with pending := some new })))
    ∧ (¬waits →
        exec (.commitCurve src tag args) s
          = .next
              (offerReply src tag 0x21 { result := .ok, data := [0] }
                (done { c with inService := some new }))))
  ∧ (∀ (src tag : Byte) (args : List Byte) (x : ProductArgs) (s s1 : State),
      let c := s1.retained.products[x.slot]
      let new : ProductCopy :=
        { code := x.code
          points := s1.buffer.points.take x.count
          compressibility := x.compressibility
          densityLow := x.densityLow
          densityHigh := x.densityHigh
          defaultDensity := x.defaultDensity
          installedAt := s1.retained.intervalNumber }
      let b := s1.retained.batch
      let waits :=
        (s1.station = .metering
          ∧ (x.slot = b.product ∨ ∃ h rest, b.queue = h :: rest ∧ h.product = x.slot))
        ∨ c.pending ≠ none
      let done := fun k : Copies ProductCopy =>
        { s1 with
          buffer := {}
          retained := { s1.retained with products := s1.retained.products.set x.slot k } }
      s.Takes (frameOf src tag 0x22 args) s1 → args.length = 17 →
      readProductArgs args = some x → s1.buffer.target = some (.expansion x.slot) →
      expansionError x.count s1.buffer.points = none →
      (waits →
        exec (.commitProduct src tag args) s
          = .next
              (offerReply src tag 0x22 { result := .ok, data := [1] }
                (done { c with pending := some new })))
      ∧ (¬waits →
          exec (.commitProduct src tag args) s
            = .next
                (offerReply src tag 0x22 { result := .ok, data := [0] }
                  (done { c with inService := some new }))))

/-! ### Batch Unit -/

/-- R89, R90, R92, R112: an accepted QUEUE_BATCH appends its batch, which becomes ACTIVE and awaiting in an
empty queue (and puts its product in service while not METERING); CANCEL_BATCH removes a QUEUED entry. The
last part says what the evaluation of the two state-type batch conditions leaves, here and at a close, at
END_BATCH and at TAKE_TICKET. That the position in the reply of QUEUE_BATCH takes 1 byte is the model's choice,
for a field in no row of R175 (assumption 14). -/
def Obligations.BatchesAreQueuedAndCancelled : Prop :=
  (∀ (src tag : Byte) (args : List Byte) (x : BatchArgs) (s s1 : State),
    let b := s1.retained.batch
    let entry := fun state : BatchState =>
      ({ id := x.id, product := x.product, target := x.target, endMode := x.endMode, state } :
        BatchEntry)
    let withBatch := fun c : BatchUnit => { s1 with retained := { s1.retained with batch := c } }
    s.Takes (frameOf src tag 0x28 args) s1 → args.length = 11 → readBatchArgs args = some x →
    (∀ e ∈ b.queue, e.id ≠ x.id) → (∀ t ∈ b.tickets, t.id ≠ x.id) →
    (s1.retained.products[x.product]).inService.isSome = true → b.queue.length < 8 →
    (b.queue = [] →
      exec (.queueBatch src tag args) s
        = .next
            (offerReply src tag 0x28 { result := .ok, data := [0, 1] }
              (evalBatchConds
                (withBatch
                  { b with
                    queue := [entry .active]
                    progress := {}
                    acc := {}
                    product := if s1.station = .metering then b.product else x.product }))))
    ∧ (b.queue ≠ [] →
        exec (.queueBatch src tag args) s
          = .next
              (offerReply src tag 0x28
                { result := .ok, data := [BitVec.ofNat 8 b.queue.length, 0] }
                (evalBatchConds (withBatch { b with queue := b.queue ++ [entry .queued] })))))
  ∧ (∀ (src tag : Byte) (e h : BatchEntry) (before after : List BatchEntry) (s s1 : State),
      let args := encU 4 e.id
      let b := s1.retained.batch
      s.Takes (frameOf src tag 0x29 args) s1 → e.id < 2 ^ 32 →
      b.queue = h :: before ++ e :: after → h.id ≠ e.id → (∀ x ∈ before, x.id ≠ e.id) →
        exec (.cancelBatch src tag args) s
          = .next
              (offerReply src tag 0x29 { result := .ok }
                { s1 with
                  retained :=
                    { s1.retained with
                      batch := { b with queue := h :: before ++ after } } }))
  ∧ ∀ s : State,
      let b := s.retained.batch
      let t := evalBatchConds s
      LoopOnly s t
      ∧ t.cond .noActiveBatch = s.told .noActiveBatch (b.queue == [])
      ∧ t.cond .ticketStoreFull
          = s.told .ticketStoreFull
              (b.queue.head?.map (·.state) == some .closing && decide (4 ≤ b.tickets.length))
      ∧ ∀ c : CondId, c ≠ .noActiveBatch → c ≠ .ticketStoreFull → c ≠ .outboundDiscard →
          t.cond c = s.cond c

/-- R101, R103 to R107, R109: END_BATCH makes an ACTIVE head CLOSING with cause COMMAND; while not METERING, END_BATCH
and TAKE_TICKET close a CLOSING head at once when the ticket list has room, into its ticket and with the batch
behind it ACTIVE and awaiting, and the close queues its TICKET frame. What END_BATCH answers as the head's
state when it has emptied the queue is open (assumption 18). The last part gives what a ticket keeps of an
entry, with its averages (R101). -/
def Obligations.BatchesEndAndTicketsAreTaken : Prop :=
  (∀ (src tag : Byte) (h : BatchEntry) (rest : List BatchEntry) (s s1 : State),
    let args := encU 4 h.id
    let b := s1.retained.batch
    s.Takes (frameOf src tag 0x2A args) s1 → h.id < 2 ^ 32 → b.queue = h :: rest →
    h.state ≠ .queued →
    ((s1.station = .metering ∨ 4 ≤ b.tickets.length) → h.state = .active →
      exec (.endBatch src tag args) s
        = .next
            (offerReply src tag 0x2A { result := .ok, data := [2] }
              (evalBatchConds
                { s1 with
                  retained :=
                    { s1.retained with
                      batch :=
                        { b with
                          queue := { h with state := .closing } :: rest
                          progress := { b.progress with closeCause := some .command } } } })))
    ∧ ((s1.station = .metering ∨ 4 ≤ b.tickets.length) → h.state = .closing →
        exec (.endBatch src tag args) s
          = .next (offerReply src tag 0x2A { result := .ok, data := [2] } s1))
    ∧ (s1.station ≠ .metering → b.tickets.length < 4 →
        let ended : BatchUnit :=
          if h.state = .active then
            { b with progress := { b.progress with closeCause := some .command } }
          else b
        let ticket :=
          ended.headTicket h ((s1.retained.products[h.product].inService).map (·.code))
            s1.retained.intervalNumber
        ∃ (s2 : State) (data : List Byte),
          exec (.endBatch src tag args) s
            = .next (offerReply src tag 0x2A { result := .ok, data } s2)
          ∧ (rest ≠ [] → data = [1])
          ∧ LoopOnly
              { s1 with
                openCount := s1.openCount + if rest.isEmpty then 1 else 0
                retained := { s1.retained with batch := ended.afterClose ticket fun _ => {} } } s2
          ∧ (s2.cond .noActiveBatch).active = rest.isEmpty
          ∧ (s2.cond .ticketStoreFull).active = false
          ∧ (∀ c : CondId, c ≠ .noActiveBatch → c ≠ .ticketStoreFull → c ≠ .outboundDiscard →
              s2.cond c = s1.cond c)
          ∧ ∀ st, s1.retained.station = some st → s1.transmitter ≠ .free →
              s1.outbound.length ≤ 10 →
              s2.outbound.filter (·.kind == .ticket)
                = s1.outbound.filter (·.kind == .ticket) ++ [ticket.frame st.ticketLevel]))
  ∧ (∀ (src tag : Byte) (t : Ticket) (before after : List Ticket) (s s1 : State),
      let args := encU 4 t.id
      let b := s1.retained.batch
      s.Takes (frameOf src tag 0x2D args) s1 → t.id < 2 ^ 32 → b.tickets.length ≤ 4 →
      b.tickets = before ++ t :: after → (∀ x ∈ before, x.id ≠ t.id) →
      ∃ s2 : State,
        exec (.takeTicket src tag args) s = .next (offerReply src tag 0x2D { result := .ok } s2)
        ∧ ((s1.station = .metering ∨ ¬b.HeadCloses) →
            s2
              = evalBatchConds
                  { s1 with
                    retained :=
                      { s1.retained with batch := { b with tickets := before ++ after } } })
        ∧ (s1.station ≠ .metering → b.HeadCloses →
            ∀ h rest, b.queue = h :: rest →
              let left : BatchUnit := { b with tickets := before ++ after }
              let ticket :=
                left.headTicket h ((s1.retained.products[h.product].inService).map (·.code))
                  s1.retained.intervalNumber
              LoopOnly
                  { s1 with
                    retained := { s1.retained with batch := left.afterClose ticket fun _ => {} } } s2
                ∧ (s2.cond .noActiveBatch).active = rest.isEmpty
                ∧ (s2.cond .ticketStoreFull).active = false
                ∧ (∀ c : CondId, c ≠ .noActiveBatch → c ≠ .ticketStoreFull →
                    c ≠ .outboundDiscard → s2.cond c = s1.cond c)
                ∧ ∀ st, s1.retained.station = some st → s1.transmitter ≠ .free →
                    s1.outbound.length ≤ 10 →
                    s2.outbound.filter (·.kind == .ticket)
                      = s1.outbound.filter (·.kind == .ticket) ++ [ticket.frame st.ticketLevel]))
  ∧ ∀ e : AccEntry,
      let x := e.toTicket
      let d := e.totals.iv
      let rounded := fun (n q : Int) =>
        ∃ size : Int,
          2 * d * size ≤ 2 * (n.natAbs : Int) + d ∧ 2 * (n.natAbs : Int) + d < 2 * d * (size + 1)
          ∧ q = if 0 ≤ n then size else -size
      x.intervals = e.intervals ∧ x.totals = e.totals ∧ x.disagree = e.disagree ∧ x.flags = e.flags
      ∧ ((d = 0 ∨ 18446744073709551615 ≤ d) → x.averages = none)
      ∧ (0 < d → d < 18446744073709551615 →
          ∃ a, x.averages = some a ∧ rounded e.sums.t a.t ∧ rounded e.sums.pres a.pres
            ∧ rounded e.sums.rho a.rho ∧ rounded e.sums.mf a.mf)

/-! ### Prove Controller -/

/-- R114, R133, R134: with no session active, an accepted LOAD_PROVER replaces the record and ends the
dead times that run, and PROVE_START discards the old session and attaches the named OPEN run, HELD or
ARMED; while a session is active both are refused with BUSY. That 32 argument bytes carry the record rests on
1-byte counts of passes and prove runs, in no row of R175, which are the model's choice (assumption 14), and
that an enable or auto-release byte of 1 is on is its choice too (assumption 37). -/
def Obligations.ProverIsLoadedAndAttachesAnOpenRun : Prop :=
  (∀ (src tag : Byte) (args : List Byte) (x : ProverRecord) (s s1 : State),
    s.Takes (frameOf src tag 0x30 args) s1 → args.length = 32 → readProverRecord args = some x →
    (s1.session.state.active = false →
      exec (.loadProver src tag args) s
        = .next
            (offerReply src tag 0x30 { result := .ok }
              { s1 with
                retained := { s1.retained with prover := some x }
                det1 := { s1.det1 with deadRunning := false }
                det2 := { s1.det2 with deadRunning := false } }))
    ∧ (s1.session.state.active = true →
        exec (.loadProver src tag args) s
          = .next (offerReply src tag 0x30 { result := .busy } s1)))
  ∧ (∀ (src tag : Byte) (r : Fin 4) (x : ProverRecord) (s s1 : State),
      let args := [BitVec.ofNat 8 r.val]
      let state : SessionState := if x.autoRelease then .armed else .held
      s.Takes (frameOf src tag 0x31 args) s1 →
      (s1.session.state.active = true →
        exec (.proveStart src tag args) s = .next (offerReply src tag 0x31 { result := .busy } s1))
      ∧ (s1.session.state.active = false → s1.station = .metering → s1.runs[r].state = .opened →
          s1.retained.prover = some x → (s1.retained.bindings[x.tSlot]).isSome = true →
          (s1.retained.bindings[x.pSlot]).isSome = true →
          exec (.proveStart src tag args) s
            = .next
                (offerReply src tag 0x31
                  { result := .ok, data := [if x.autoRelease then 2 else 1] }
                  { s1 with
                    session :=
                      { state := state
                        attached := some r
                        product := some s1.retained.batch.product
                        kFactor := s1.retained.runs[r].settings.map (·.kFactor)
                        startInterval := some s1.retained.intervalNumber } })))

/-- R129, R145: PROVE_HOLD takes an active session to HELD, abandoning a pass in progress; PROVE_ABORT
ends any session in IDLE with cause ABORTED and discards the results. The byte 1 that PROVE_HOLD answers
is the code of the session state HELD, which R129 calls the pass state (assumption 16). -/
def Obligations.HoldAndAbortEndThePass : Prop :=
  ∀ (src tag : Byte) (s s1 : State),
    let x := s1.session
    let timed := x.state = .timing ∨ x.state = .finishing
    (s.Takes (frameOf src tag 0x32 []) s1 →
      (timed →
        exec (.proveHold src tag []) s
          = .next
              (offerReply src tag 0x32 { result := .ok, data := [1] }
                { s1 with
                  session :=
                    { x with
                      state := .held, items := {}, abandoned := min (x.abandoned + 1) 65535 } }))
      ∧ ((x.state = .held ∨ x.state = .armed) →
          exec (.proveHold src tag []) s
            = .next
                (offerReply src tag 0x32 { result := .ok, data := [1] }
                  { s1 with session := { x with state := .held } }))
      ∧ (x.state.active = false →
          exec (.proveHold src tag []) s
            = .next (offerReply src tag 0x32 { result := .wrongState } s1)))
    ∧ (s.Takes (frameOf src tag 0x34 []) s1 →
        (x.state = .idle →
          exec (.proveAbort src tag []) s = .next (offerReply src tag 0x34 { result := .ok } s1))
        ∧ (x.state.active = true →
            exec (.proveAbort src tag []) s
              = .next
                  (offerReply src tag 0x34 { result := .ok }
                    { s1 with
                      session := { x with state := .idle, endCause := .aborted, items := {} } }))
        ∧ ((x.state = .complete ∨ x.state = .failed) →
            exec (.proveAbort src tag []) s
              = .next
                  (offerReply src tag 0x34 { result := .ok }
                    { s1 with
                      session :=
                        { x with
                          state := .idle, endCause := .aborted, items := {}, results := none } })))

/-- R130: PROVE_RELEASE acts according to the session state, in every station state. Its reply carries the
code of the session state where R130 says the pass state (the model's choice, assumption 16). -/
def Obligations.ReleaseArmsAHeldSession : Prop :=
  ∀ (src tag : Byte) (s s1 : State), s.Takes (frameOf src tag 0x33 []) s1 →
    let x := s1.session
    ((x.state = .idle ∨ x.state = .complete ∨ x.state = .failed) →
      exec (.proveRelease src tag []) s
        = .next (offerReply src tag 0x33 { result := .wrongState } s1))
    ∧ (x.state = .held →
        exec (.proveRelease src tag []) s
          = .next
              (offerReply src tag 0x33
                { result := .ok, data := encCode SessionState.armed.code }
                { s1 with session := { x with state := .armed } }))
    ∧ ((x.state = .armed ∨ x.state = .timing ∨ x.state = .finishing) →
        exec (.proveRelease src tag []) s
          = .next (offerReply src tag 0x33 { result := .ok, data := encCode x.state.code } s1))

/-- R49, R120 to R125, R136 to R142, R144: a pulse on the totalizing channel of the run a prove is attached to
(here one that is no checkpoint of its comparison) is ignored in HELD and ARMED, gives t_P1 or is counted
in TIMING, and ends the pass in FINISHING: spoiled below the minimum of whole pulses, otherwise recorded.
A recorded pass is appended to the pass list; N of them form a prove run; the last M prove runs are tested
for repeatability; and a session that repeats forms its results and is COMPLETE, one that cannot is
FAILED, each with its PROVE_REPORT frame in a queue with room. What a rounding gives for a divisor of 0 is
open (assumption 12); that the checkpoint comes before the prover, and that the clock is brought to the
pulse, are the model's choices (assumptions 10, 3). -/
def Obligations.PulsesTimePassesAndProveRuns : Prop :=
  (∀ (r : Fin 4) (ch : Channel) (stamp : Word32) (y : RunSettings) (s : State), s.Runs →
    s.runs[r].state ≠ .closed → s.retained.runs[r].settings = some y →
    s.session.attached = some r → s.session.state.active = true → s.pulses[r].totalizing = ch →
    let p := s.pulses[r]
    let lead := p.windows.get ch + 1
    let x := s.session
    let i := x.items
    let s1 : State :=
      { advanceTo stamp s with
        pulses :=
          s.pulses.set r
            { p with
              counts := p.counts.set ch (min (p.counts.get ch + 1) 20000)
              windows := if y.mode = .dual then p.windows.set ch lead else p.windows } }
    (y.mode = .dual → ¬((lead = 16 ∨ lead = 32 ∨ lead = 64) ∧ p.windows.get ch.other < lead)) →
    ((x.state = .held ∨ x.state = .armed) → exec (.pulse r ch stamp) s = .next s1)
    ∧ (x.state = .timing → i.tP1 = none →
        exec (.pulse r ch stamp) s
          = .next
              { s1 with
                session :=
                  { x with items := { i with tP1 := some stamp, lastPulse := some stamp } } })
    ∧ (x.state = .timing → i.tP1.isSome = true →
        exec (.pulse r ch stamp) s
          = .next
              { s1 with
                session :=
                  { x with
                    items := { i with running := i.running + 1, lastPulse := some stamp } } })
    ∧ ∀ (rec : ProverRecord) (tD1 tP1 tD2 : Word32), x.state = .finishing →
        s.retained.prover = some rec → i.tD1 = some tD1 → i.tP1 = some tP1 → i.tD2 = some tD2 →
        let whole := i.running + 1
        let td := (tD2 - tD1).toNat
        let tp := (stamp - tP1).toNat
        let ni := roundHalfUp (whole * td * 1000) tp
        let rate := roundHalfUp (ni * 3600000000000) (y.kFactor * td)
        (whole < rec.minPulses →
          ∃ t, exec (.pulse r ch stamp) s = .next t
            ∧ LoopOnly { s1 with session := x.afterSpoil .fewPulses rec.autoRelease } t
            ∧ (t.cond .provePassSpoiled).occurrences
                = min ((s.cond .provePassSpoiled).occurrences + 1) 65535)
        ∧ (rec.minPulses ≤ whole →
            exec (.pulse r ch stamp) s
              = .next
                  (recordPass rec
                    { number := x.completed + 1
                      tD1, tP1, tD2
                      tP2 := stamp
                      nWhole := whole
                      td, tp, ni
                      rate := min rate 10000000
                      rateClamped := decide (10000000 < rate)
                      proverT := s.reading rec.tSlot
                      proverP := s.reading rec.pSlot
                      meterT := s.reading y.tSlot
                      meterP := s.reading y.pSlot
                      channel := ch
                      spoiledBefore := x.consecutive } s1)))
  ∧ ∀ (rec : ProverRecord) (pass : PassRecord) (s : State), s.retained.prover = some rec →
      let x := s.session
      let passes := x.passes ++ [pass]
      let next : SessionState := if rec.autoRelease then .armed else .held
      let base : Session :=
        { x with
          items := {}
          completed := x.completed + 1
          consecutive := 0
          lastOutcome := .completed (x.completed + 1) }
      let up := fun v : PassRecord → Int => roundHalfUp (passes.map v).sum passes.length
      let mean := fun v : PassRecord → Reading =>
        ({ value := roundHalfAway (passes.map fun z => (v z).value).sum passes.length
           code := (passes.map fun z => (v z).code).foldl max 0 } : Reading)
      let run : ProveRun :=
        { number := x.proveRuns.length + 1
          firstPass := (passes.head?.map (·.number)).getD 0
          lastPass := pass.number
          ni := up (·.ni)
          rate := up (·.rate)
          proverT := mean (·.proverT)
          proverP := mean (·.proverP)
          meterT := mean (·.meterT)
          meterP := mean (·.meterP)
          rateClamped := passes.any (·.rateClamped)
          spoiled := x.spoiledForRun }
      let runs := x.proveRuns ++ [run]
      let formed : Session := { base with passes := [], proveRuns := runs, spoiledForRun := 0 }
      (passes.length < rec.passesPerRun →
        recordPass rec pass s = { s with session := { base with passes, state := next } })
      ∧ (rec.passesPerRun ≤ passes.length → runs.length < rec.runsRequired →
          recordPass rec pass s = { s with session := { formed with state := next } })
      ∧ (rec.passesPerRun ≤ passes.length → rec.runsRequired ≤ runs.length →
          let window := runs.drop (runs.length - rec.runsRequired)
          ∀ hi lo : Int, (∀ w ∈ window, lo ≤ w.ni ∧ w.ni ≤ hi) → (∃ w ∈ window, w.ni = hi) →
            (∃ w ∈ window, w.ni = lo) →
            let tested : TestWindow :=
              { first := runs.length - rec.runsRequired + 1
                last := runs.length
                spread := min (roundHalfUp ((hi - lo) * 100000) lo).toNat 65535 }
            let repeated := (hi - lo) * 100000 ≤ rec.repeatLimit * lo
            let meanOf := fun v : ProveRun → Int =>
              roundHalfAway (window.map v).sum window.length
            let t := recordPass rec pass s
            let reported := fun t : State =>
              ∀ st, s.retained.station = some st → s.transmitter ≠ .free → s.outbound.length ≤ 13 →
                t.outbound.filter (·.kind == .proveReport)
                  = s.outbound.filter (·.kind == .proveReport)
                    ++ [t.session.reportFrame st.reportLevel]
            (repeated →
              ∃ z : Results,
                LoopOnly
                  { s with
                    session :=
                      { formed with
                        state := .complete, endCause := .completed, lastWindow := some tested
                        results := some z } } t
                ∧ (t.cond .proveComplete).latched = true
                ∧ z.ni = roundHalfUp (window.map (·.ni)).sum window.length
                ∧ z.qProve = roundHalfUp (window.map (·.rate)).sum window.length
                ∧ z.tPv = meanOf (·.proverT.value) ∧ z.pPv = meanOf (·.proverP.value)
                ∧ z.tMt = meanOf (·.meterT.value) ∧ z.pMt = meanOf (·.meterP.value)
                ∧ z.ctsp = 1000000 + roundHalfAway (rec.gc * (z.tPv - 1500)) 10000
                ∧ z.cpsp = 1000000 + roundHalfUp (rec.gp * max z.pPv 0) 10000
                ∧ (∀ c : ProductCopy,
                    x.product.bind (fun q => s.retained.products[q].inService) = some c →
                    let table := c.points.map fun w => (w.x, (w.factor : Int))
                    let f : Int := c.compressibility
                    z.ctlp = interpolate table z.tPv ∧ z.ctlm = interpolate table z.tMt
                      ∧ z.cplp = min (1000000 + roundHalfUp (f * max z.pPv 0) 10000) 1050000
                      ∧ z.cplm = min (1000000 + roundHalfUp (f * max z.pMt 0) 10000) 1050000)
                ∧ (x.product.bind (fun q => s.retained.products[q].inService) = none →
                    z.ctlp = 1000000 ∧ z.ctlm = 1000000 ∧ z.cplp = 1000000 ∧ z.cplm = 1000000
                      ∧ z.tableClamp = true)
                ∧ z.ccfp
                    = roundHalfUp
                        (roundHalfUp (roundHalfUp (z.ctsp * z.cpsp) 1000000 * z.ctlp) 1000000
                          * z.cplp) 1000000
                ∧ z.ccfm = roundHalfUp (z.ctlm * z.cplm) 1000000
                ∧ (∀ k, x.kFactor = some k →
                    z.mfNew = min (roundHalfUp (rec.bpv * z.ccfp * k) (z.ni * z.ccfm)) 16777215)
                ∧ z.factorRange = (decide (z.mfNew < 900000) || decide (1100000 < z.mfNew))
                ∧ reported t)
            ∧ (¬repeated → runs.length < rec.maxRuns →
                t = { s with session := { formed with lastWindow := some tested, state := next } })
            ∧ (¬repeated → rec.maxRuns ≤ runs.length →
                LoopOnly
                    { s with
                      session :=
                        { formed with
                          state := .failed, endCause := .notRepeatable, lastWindow := some tested } }
                    t
                  ∧ (t.cond .proveFailed).latched = true ∧ reported t))

/-- R146 to R148, R99: ACCEPT_PROVE of a COMPLETE session whose factor passes the deviation test and
whose edited curve passes R71 makes the edited curve pending (a point replaced, or one inserted) and
leaves the session IDLE, ACCEPTED; its reply carries the edit, the index, both factors and the old factor
of a replaced point. -/
def Obligations.AcceptedProveEditsThePendingCurve : Prop :=
  ∀ (src tag : Byte) (r : Fin 4) (p : Fin 8) (x : Results) (rec0 : ProverRecord)
    (st : StationRecord) (c : CurveCopy) (i : Nat) (near : CurvePoint) (s s1 : State),
    let cap := st.layout.pointsPerCurve
    let away := fun y : CurvePoint => (x.qProve - (y.rate : Int)).natAbs
    let mfCurve := interpolate (c.points.map fun y => ((y.rate : Int), (y.factor : Int))) x.qProve
    let factor := x.mfNew.toNat
    let replaced := c.points.set i { near with factor := factor, origin := .proved }
    let below := fun y : CurvePoint => decide (y.rate < x.qProve.toNat)
    let inserted :=
      c.points.takeWhile below
        ++ { rate := x.qProve.toNat, factor := factor, origin := .proved }
          :: c.points.dropWhile below
    let mark := fun e : AccEntry => { e with flags := { e.flags with proveAccepted := true } }
    let accepted := fun points : List CurvePoint =>
      { s1 with
        session := { s1.session with state := .idle, endCause := .accepted }
        retained :=
          { s1.retained with
            curves :=
              s1.retained.curves.set (curveIndex r p)
                { s1.curve r p with
                  pending := some { points, installedAt := s1.retained.intervalNumber } }
            batch :=
              if s1.retained.batch.queue = [] then s1.retained.batch
              else
                { s1.retained.batch with
                  acc :=
                    { s1.retained.batch.acc with
                      runs :=
                        s1.retained.batch.acc.runs.set r (mark s1.retained.batch.acc.runs[r])
                      station := mark s1.retained.batch.acc.station } } } }
    s.Takes (frameOf src tag 0x35 []) s1 → s1.session.state = .complete →
    s1.session.attached = some r → s1.session.product = some p → s1.session.results = some x →
    s1.retained.prover = some rec0 → s1.retained.station = some st →
    st.layout.allows r p = true → ((s1.curve r p).pending.or (s1.curve r p).inService) = some c →
    ((x.mfNew - mfCurve).natAbs : Int) * 100000 ≤ rec0.acceptLimit * mfCurve →
    0 ≤ x.qProve → c.points[i]? = some near → (∀ y ∈ c.points, away near ≤ away y) →
    (∀ j y, j < i → c.points[j]? = some y → away near < away y) →
    (away near * 10 ≤ near.rate →
      curveError replaced.length cap (replaced.map fun y => { x := y.rate, factor := y.factor })
        = none →
      exec (.acceptProve src tag []) s
        = .next
            (offerReply src tag 0x35
              { result := .ok
                data :=
                  [0] ++ encU 1 i ++ encU 3 mfCurve ++ encU 3 x.mfNew ++ [1] ++ encU 3 near.factor }
              (accepted replaced)))
    ∧ (near.rate < away near * 10 → c.points.length < cap →
        curveError inserted.length cap (inserted.map fun y => { x := y.rate, factor := y.factor })
          = none →
        exec (.acceptProve src tag []) s
          = .next
              (offerReply src tag 0x35
                { result := .ok
                  data :=
                    [1] ++ encU 1 (c.points.takeWhile below).length ++ encU 3 mfCurve
                      ++ encU 3 x.mfNew ++ [0, 0, 0, 0] }
                (accepted inserted)))
    ∧ (near.rate < away near * 10 → cap ≤ c.points.length →
        exec (.acceptProve src tag []) s
          = .next (offerReply src tag 0x35 { result := .storeFull } s1))

/-- R115, R116, R118, R119: an edge of an enabled detector's polarity outside its dead time is a detector
event, in the dead time it is rejected, and any other edge, or one with no prover record loaded, is
ignored. A DET1 event in ARMED begins a pass and in a timed pass is stray; a DET2 event ends a pass that
has its first pulse, spoils one that has none, and is stray in ARMED and FINISHING. A dead time ends by
DEAD_TIME_END. The clock is brought to the event (the model's choice, assumption 3). -/
def Obligations.DetectorEventsAndDeadTimes : Prop :=
  (∀ (det : Detector) (edge : Edge) (stamp : Word32) (x : ProverRecord) (s : State), s.Runs →
    s.retained.prover = some x →
    let d := s.det det
    let y := s.session
    let strayed := { y with stray := min (y.stray + 1) 65535 }
    ((x.setup det).enabled = true → (x.setup det).polarity = edge → d.deadRunning = false →
      ∃ t, exec (.detectorEvent det edge stamp) s = .next t
        ∧ t.det det
            = { d with
                lastEvent := some stamp, events := min (d.events + 1) 65535, deadRunning := true }
        ∧ (∀ e, e ≠ det → t.det e = s.det e) ∧ t.timebase = stamp ∧ t.retained = s.retained
        ∧ t.runs = s.runs ∧ t.pulses = s.pulses
        ∧ (det = .det1 → y.state = .armed →
            t.session
              = { y with state := .timing, items := { tD1 := some stamp, timeoutRunning := true } })
        ∧ (det = .det1 → (y.state = .timing ∨ y.state = .finishing) → t.session = strayed)
        ∧ (det = .det2 → y.state = .timing → y.items.tP1.isSome = true →
            t.session
              = { y with state := .finishing, items := { y.items with tD2 := some stamp } })
        ∧ (det = .det2 → y.state = .timing → y.items.tP1 = none →
            t.session = y.afterSpoil .fewPulses x.autoRelease
              ∧ (t.cond .provePassSpoiled).occurrences
                  = min ((s.cond .provePassSpoiled).occurrences + 1) 65535)
        ∧ (det = .det2 → (y.state = .armed ∨ y.state = .finishing) → t.session = strayed)
        ∧ (y.state = .held ∨ y.state.active = false → t.session = y)
        ∧ (¬(det = .det2 ∧ y.state = .timing ∧ y.items.tP1 = none) →
            t.conds = s.conds ∧ t.outbound = s.outbound))
    ∧ ((x.setup det).enabled = true → (x.setup det).polarity = edge → d.deadRunning = true →
        exec (.detectorEvent det edge stamp) s
          = .next
              ((advanceTo stamp s).setDet det { d with rejects := min (d.rejects + 1) 65535 }))
    ∧ ((x.setup det).enabled = false ∨ (x.setup det).polarity ≠ edge →
        exec (.detectorEvent det edge stamp) s = .next (advanceTo stamp s)))
  ∧ (∀ (det : Detector) (edge : Edge) (stamp : Word32) (s : State), s.Runs →
      s.retained.prover = none →
      exec (.detectorEvent det edge stamp) s = .next (advanceTo stamp s))
  ∧ (∀ (det : Detector) (start : Word32) (x : ProverRecord) (s : State), s.Runs →
      s.retained.prover = some x → (s.det det).lastEvent = some start →
      (s.det det).deadRunning = true →
      let left := (x.setup det).deadTime * 10000 - (s.timebase - start).toNat
      exec (.deadTimeEnd det) s
        = .next ((advanceClock left s).setDet det { s.det det with deadRunning := false }))

/-- R126, R128, R142, R144: the pass timeout spoils the pass with cause TIMEOUT; the third spoiled pass in
a row fails the session, and its PROVE_REPORT frame enters a queue with room; the clock is brought to the expiry (the model's choice,
assumption 3). -/
def Obligations.PassTimeoutSpoilsThePass : Prop :=
  ∀ (x : ProverRecord) (start : Word32) (s : State), s.Runs → s.retained.prover = some x →
    s.session.items.tD1 = some start → s.session.items.timeoutRunning = true →
    s.session.consecutive < 3 →
    let old := s.session
    let left := x.timeout * 100000 - (s.timebase - start).toNat
    let spoiled :=
      { old with
        items := {}
        lastOutcome := .spoiled .timeout
        spoiledTotal := min (old.spoiledTotal + 1) 65535
        spoiledForRun := min (old.spoiledForRun + 1) 65535
        consecutive := old.consecutive + 1 }
    ∃ t, exec .passTimeout s = .next t
      ∧ LoopOnly
          { advanceClock left s with
            session :=
              if old.consecutive = 2 then
                { spoiled with state := .failed, endCause := .spoiledPasses }
              else { spoiled with state := if x.autoRelease then .armed else .held } } t
      ∧ (t.cond .provePassSpoiled).latched = true
      ∧ (t.cond .provePassSpoiled).occurrences
          = min ((s.cond .provePassSpoiled).occurrences + 1) 65535
      ∧ (old.consecutive = 2 → (t.cond .proveFailed).latched = true)
      ∧ ∀ st, s.retained.station = some st → s.transmitter ≠ .free → s.outbound.length ≤ 13 →
          t.outbound.filter (·.kind == .proveReport)
            = s.outbound.filter (·.kind == .proveReport)
              ++ if old.consecutive = 2 then [t.session.reportFrame st.reportLevel] else []

/-! ### Condition Unit -/

/-- R152, R155, R161, R176: what a report does to the condition record it names, and what becomes of the
notice that a latch offers: it is withheld without a level table or at a closed level, not sent at level
0, and otherwise formed from the record and offered to the outbound queue. Another record can change only
when it is OUTBOUND_DISCARD, through a frame the notice displaces. -/
def Obligations.ReportsLatchCountAndDate : Prop :=
  (∀ (c : CondId) (s : State), c ≠ .outboundDiscard →
    let r := s.cond c
    let first := if r.latched then r.first else some s.now
    let withheld := if r.latched then r.withheld else s.retained.withholds c
    (r.active = true → report c true s = s)
    ∧ (r.active = false →
        (report c true s).cond c
          = { active := true, latched := true, withheld
              occurrences := min (r.occurrences + 1) 65535, first, last := some s.now })
    ∧ (report c false s = s.setCond c { r with active := false })
    ∧ (occur c s).cond c
        = { r with
            latched := true, withheld
            occurrences := min (r.occurrences + 1) 65535, first, last := some s.now }
    ∧ ∀ e : CondId, e ≠ c → e ≠ .outboundDiscard →
        (report c true s).cond e = s.cond e ∧ (occur c s).cond e = s.cond e)
  ∧ ∀ (c : CondId) (active : Bool) (s : State),
      let r := s.cond c
      let raised := if active then report c true s else occur c s
      let new :=
        { r with
          active := active || r.active, latched := true
          occurrences := min (r.occurrences + 1) 65535
          first := if r.latched then r.first else some s.now
          last := some s.now }
      (active = true → r.active = false) →
      (r.latched = true → raised = s.setCond c new)
      ∧ (r.latched = false → s.retained.levels = none →
          raised = s.setCond c { new with withheld := true })
      ∧ ∀ l : Vector Nat 25, s.retained.levels = some l → r.latched = false →
          let level := l[c.kindIndex]
          (level = 0 → raised = s.setCond c { new with withheld := false })
          ∧ (level ≠ 0 → s.retained.gate.getLsbD level = false →
              raised = s.setCond c { new with withheld := true })
          ∧ (level ≠ 0 → s.retained.gate.getLsbD level = true →
              raised
                = offer
                    { kind := .notice, dest := 63, level, source := c.kindCode * 16 + c.unit
                      payload :=
                        encU 1 c.kindCode ++ encU 1 c.unit ++ encFlag new.active
                          ++ encU 2 new.occurrences ++ encWord s.now }
                    (s.setCond c { new with withheld := false }))

/-- R155 to R158, R178: LOAD_LEVELS replaces the level table, and SET_LEVEL_GATE the gate. LOAD_LEVELS,
and a gate that opens a closed level, release the withheld notices in ascending order of kind and unit, by
the levels and the gate as they then stand: a mark at an open level is cleared and its notice offered, one
at level 0 is cleared, one at a closed level stays. Each changes nothing else (but for the station's going
to READY, and OUTBOUND_DISCARD, which a displaced frame may raise). -/
def Obligations.LevelsAndGateAreReplaced : Prop :=
  let released := fun (c : Condition) (r : Retained) (id : CondId) =>
    { c with withheld := c.withheld && r.withholds id }
  let notices := fun (s : State) (r : Retained) =>
    allConds.filterMap fun c =>
      let x := s.cond c
      match r.levels with
      | none => none
      | some l =>
        let level := l[c.kindIndex]
        if x.withheld && level != 0 && r.gate.getLsbD level then
          some
            ({ kind := .notice, dest := 63, level, source := c.kindCode * 16 + c.unit
               payload :=
                encU 1 c.kindCode ++ encU 1 c.unit ++ encFlag x.active ++ encU 2 x.occurrences
                  ++ encWord (x.last.getD 0) } : OutFrame)
        else none
  let roomy := fun (s : State) (l : List OutFrame) =>
    s.transmitter ≠ .free ∧ s.outbound.length + l.length ≤ 16
  (∀ (src tag : Byte) (args : List Byte) (levels : Vector Nat 25) (s s1 : State),
    s.Takes (frameOf src tag 0x38 args) s1 → args.length = 25 →
    (∀ i : Fin 25, levels[i] = argU args i.val 1 ∧ levels[i] ≤ 7) →
    let r := { s1.retained with levels := some levels }
    ∃ s2 : State,
      exec (.loadLevels src tag args) s = .next (offerReply src tag 0x38 { result := .ok } s2)
      ∧ LoopOnly
          { s1 with
            retained := r
            station :=
              if s1.station = .configuring ∧ s1.retained.station.isSome = true then .ready
              else s1.station } s2
      ∧ (∀ c : CondId, c ≠ .outboundDiscard → s2.cond c = released (s1.cond c) r c)
      ∧ (roomy s1 (notices s1 r) → s2.outbound = s1.outbound ++ notices s1 r))
  ∧ ∀ (src tag gate : Byte) (s s1 : State), s.Takes (frameOf src tag 0x39 [gate]) s1 →
      gate.getLsbD 0 = false →
      let r := { s1.retained with gate := gate }
      let opens := ∃ i : Nat, gate.getLsbD i = true ∧ s1.retained.gate.getLsbD i = false
      ∃ s2 : State,
        exec (.setLevelGate src tag [gate]) s
          = .next (offerReply src tag 0x39 { result := .ok, data := [gate] } s2)
        ∧ LoopOnly { s1 with retained := r } s2
        ∧ (¬opens → s2 = { s1 with retained := r })
        ∧ (opens → ∀ c : CondId, c ≠ .outboundDiscard → s2.cond c = released (s1.cond c) r c)
        ∧ (opens → roomy s1 (notices s1 r) → s2.outbound = s1.outbound ++ notices s1 r)

/-- R159: CLEAR_CONDITION, in each of its forms, unlatches the named records whose cause has gone and
latches again those still active; every other record stays (OUTBOUND_DISCARD apart, which a displaced
frame may raise). Each record latched again offers its notice afresh, with its occurrences as they were and
the current interval number: in a queue with room the notices enter it in ascending order of kind and unit.
The reply carries the two counts. The 1-byte unit and the 1-byte width of the two counts are the
model's choice (assumption 14). -/
def Obligations.ClearConditionUnlatchesWhatHasGone : Prop :=
  ∀ (src tag : Byte) (args : List Byte) (named : List CondId) (s s1 : State),
    s.Takes (frameOf src tag 0x3A args) s1 →
    ((∃ c : CondId, args = [0, BitVec.ofNat 8 c.kindCode, BitVec.ofNat 8 c.unit] ∧ named = [c])
      ∨ (∃ kind : Byte, 1 ≤ kind.toNat ∧ kind.toNat ≤ 25 ∧ args = [1, kind]
          ∧ named = condsOfKind kind.toNat)
      ∨ (args = [2] ∧ named = allConds)) →
    let count := fun active : Bool =>
      (named.filter fun c => (s1.cond c).latched && (s1.cond c).active == active).length
    ∃ (s2 : State) (data : List Byte),
      exec (.clearCondition src tag args) s
        = .next (offerReply src tag 0x3A { result := .ok, data } s2)
      ∧ LoopOnly s1 s2
      ∧ (let notices : List OutFrame :=
          named.filterMap fun c =>
            let x := s1.cond c
            match s1.retained.levels with
            | none => none
            | some l =>
              let level := l[c.kindIndex]
              if x.latched && x.active && level != 0 && s1.retained.gate.getLsbD level then
                some
                  { kind := .notice, dest := 63, level, source := c.kindCode * 16 + c.unit
                    payload :=
                      encU 1 c.kindCode ++ encU 1 c.unit ++ [1] ++ encU 2 x.occurrences
                        ++ encWord s1.now }
              else none
        s1.transmitter ≠ .free → s1.outbound.length + notices.length ≤ 16 →
          s2.outbound = s1.outbound ++ notices)
      ∧ ((CondId.outboundDiscard ∉ named ∨ (s1.cond .outboundDiscard).latched = true) →
          data = encU 1 (count false) ++ encU 1 (count true))
      ∧ ∀ c : CondId, c ≠ .outboundDiscard →
          (c ∉ named → s2.cond c = s1.cond c)
          ∧ (c ∈ named → (s1.cond c).latched = false → s2.cond c = s1.cond c)
          ∧ (c ∈ named → (s1.cond c).latched = true → (s1.cond c).active = false →
              s2.cond c = { s1.cond c with latched := false, withheld := false })
          ∧ (c ∈ named → (s1.cond c).latched = true → (s1.cond c).active = true →
              s2.cond c
                = { s1.cond c with
                    withheld := s1.retained.withholds c
                    first := some s1.now
                    last := some s1.now })

/-! ### Invariants -/

/-- R166, R168, R170, R173: every step keeps the buffers and the outbound queue within their sizes. -/
def Obligations.StepsKeepTheLoopBuffersInSize : Prop :=
  ∀ s t : State, s.BuffersFit → step s = .next t → t.BuffersFit

/-- R88, R108: every step keeps the batch queue within 8 entries and the ticket list within 4, with one
ACTIVE or CLOSING head and QUEUED entries behind it, and no batch id twice in the two. Left aside is a hard
start over a lost area whose check word passes by chance: R182 gives no further guard, and what such an area
spells is open (assumption 7). -/
def Obligations.StepsKeepTheBatchQueueInShape : Prop :=
  (∀ s t : State, s.NoLostAreaPasses → s.StoresFit → s.retained.batch.Shaped → step s = .next t →
    t.StoresFit ∧ t.retained.batch.Shaped)
  ∧ ∀ s t : State, s.NoLostAreaPasses → s.BatchIdsDiffer → step s = .next t → t.BatchIdsDiffer

/-- R152, R39: every step keeps every active condition record latched, and Fine set only while Coarse is
set. -/
def Obligations.StepsKeepTheConditionAndAgreementMarks : Prop :=
  (∀ s t : State, s.ActiveLatched → step s = .next t → t.ActiveLatched)
  ∧ (∀ s t : State, s.FineCoarse → step s = .next t → t.FineCoarse)

/-- R1, R6, R126, R134: every step keeps the timer running exactly while METERING, the runs CLOSED outside
it, the attached run of an active session OPEN, and the pass timeout still outside one. -/
def Obligations.StepsKeepMeteringAndProvingTogether : Prop :=
  ∀ s t : State, s.MeteringRules → s.SessionHoldsRun → step s = .next t →
    t.MeteringRules ∧ t.SessionHoldsRun

/-- R25, R26: a run's cumulative totals stay 64-bit counts and never decrease, but by a hard start over a
lost area, and its residues stay below their divisors. Left aside is a hard start over a lost area whose
check word passes by chance: R182 gives no further guard, and what such an area spells is open (assumption
7). That a negative quantity, whose result is open, neither lowers a total nor takes it above 64 bits is
assumption 13. -/
def Obligations.CumulativeTotalsNeverDecrease : Prop :=
  (∀ s t : State, s.NoLostAreaPasses → s.TotalsFit → step s = .next t →
    t.TotalsFit
      ∧ ((∀ c x rest, s.pending = .hardStart c x :: rest → s.retainedLost = false) →
          ∀ r : Fin 4, (t.retained.runs[r].totals).AtLeast (s.retained.runs[r].totals)))
  ∧ ∀ s t : State, s.NoLostAreaPasses → s.ResiduesFit → step s = .next t → t.ResiduesFit

/-- The state after reset meets every rule that the steps keep. -/
def Obligations.ResetStateIsSound : Prop := State.reset.Sound
end

