-- ==== Sys2Proof/Laws/State.lean ====
section
/-! SUPPORT. One lemma for each field of the state and each update of the state, so that no later proof
unfolds a record update. -/

namespace Sys2Proof.Machine

variable (s : State)

/-! ### setRun -/

@[simp] theorem State.setRun_pending (r : Fin 4) (v : RunVolatile) : (s.setRun r v).pending = s.pending := rfl
@[simp] theorem State.setRun_power (r : Fin 4) (v : RunVolatile) : (s.setRun r v).power = s.power := rfl
@[simp] theorem State.setRun_retained (r : Fin 4) (v : RunVolatile) : (s.setRun r v).retained = s.retained := rfl
@[simp] theorem State.setRun_retainedLost (r : Fin 4) (v : RunVolatile) : (s.setRun r v).retainedLost = s.retainedLost := rfl
@[simp] theorem State.setRun_backupLost (r : Fin 4) (v : RunVolatile) : (s.setRun r v).backupLost = s.backupLost := rfl
@[simp] theorem State.setRun_node (r : Fin 4) (v : RunVolatile) : (s.setRun r v).node = s.node := rfl
@[simp] theorem State.setRun_rateCode (r : Fin 4) (v : RunVolatile) : (s.setRun r v).rateCode = s.rateCode := rfl
@[simp] theorem State.setRun_lastStart (r : Fin 4) (v : RunVolatile) : (s.setRun r v).lastStart = s.lastStart := rfl
@[simp] theorem State.setRun_station (r : Fin 4) (v : RunVolatile) : (s.setRun r v).station = s.station := rfl
@[simp] theorem State.setRun_timebase (r : Fin 4) (v : RunVolatile) : (s.setRun r v).timebase = s.timebase := rfl
@[simp] theorem State.setRun_timer (r : Fin 4) (v : RunVolatile) : (s.setRun r v).timer = s.timer := rfl
@[simp] theorem State.setRun_inputDivider (r : Fin 4) (v : RunVolatile) : (s.setRun r v).inputDivider = s.inputDivider := rfl
@[simp] theorem State.setRun_runs (r : Fin 4) (v : RunVolatile) : (s.setRun r v).runs = s.runs.set r v := rfl
@[simp] theorem State.setRun_pulses (r : Fin 4) (v : RunVolatile) : (s.setRun r v).pulses = s.pulses := rfl
@[simp] theorem State.setRun_live (r : Fin 4) (v : RunVolatile) : (s.setRun r v).live = s.live := rfl
@[simp] theorem State.setRun_buffer (r : Fin 4) (v : RunVolatile) : (s.setRun r v).buffer = s.buffer := rfl
@[simp] theorem State.setRun_det1 (r : Fin 4) (v : RunVolatile) : (s.setRun r v).det1 = s.det1 := rfl
@[simp] theorem State.setRun_det2 (r : Fin 4) (v : RunVolatile) : (s.setRun r v).det2 = s.det2 := rfl
@[simp] theorem State.setRun_session (r : Fin 4) (v : RunVolatile) : (s.setRun r v).session = s.session := rfl
@[simp] theorem State.setRun_conds (r : Fin 4) (v : RunVolatile) : (s.setRun r v).conds = s.conds := rfl
@[simp] theorem State.setRun_receiver (r : Fin 4) (v : RunVolatile) : (s.setRun r v).receiver = s.receiver := rfl
@[simp] theorem State.setRun_forward (r : Fin 4) (v : RunVolatile) : (s.setRun r v).forward = s.forward := rfl
@[simp] theorem State.setRun_outbound (r : Fin 4) (v : RunVolatile) : (s.setRun r v).outbound = s.outbound := rfl
@[simp] theorem State.setRun_transmitter (r : Fin 4) (v : RunVolatile) : (s.setRun r v).transmitter = s.transmitter := rfl
@[simp] theorem State.setRun_commands (r : Fin 4) (v : RunVolatile) : (s.setRun r v).commands = s.commands := rfl
@[simp] theorem State.setRun_restartPending (r : Fin 4) (v : RunVolatile) : (s.setRun r v).restartPending = s.restartPending := rfl
@[simp] theorem State.setRun_counters (r : Fin 4) (v : RunVolatile) : (s.setRun r v).counters = s.counters := rfl
@[simp] theorem State.setRun_openCount (r : Fin 4) (v : RunVolatile) : (s.setRun r v).openCount = s.openCount := rfl

/-! ### setPulse -/

@[simp] theorem State.setPulse_pending (r : Fin 4) (p : PulseState) : (s.setPulse r p).pending = s.pending := rfl
@[simp] theorem State.setPulse_power (r : Fin 4) (p : PulseState) : (s.setPulse r p).power = s.power := rfl
@[simp] theorem State.setPulse_retained (r : Fin 4) (p : PulseState) : (s.setPulse r p).retained = s.retained := rfl
@[simp] theorem State.setPulse_retainedLost (r : Fin 4) (p : PulseState) : (s.setPulse r p).retainedLost = s.retainedLost := rfl
@[simp] theorem State.setPulse_backupLost (r : Fin 4) (p : PulseState) : (s.setPulse r p).backupLost = s.backupLost := rfl
@[simp] theorem State.setPulse_node (r : Fin 4) (p : PulseState) : (s.setPulse r p).node = s.node := rfl
@[simp] theorem State.setPulse_rateCode (r : Fin 4) (p : PulseState) : (s.setPulse r p).rateCode = s.rateCode := rfl
@[simp] theorem State.setPulse_lastStart (r : Fin 4) (p : PulseState) : (s.setPulse r p).lastStart = s.lastStart := rfl
@[simp] theorem State.setPulse_station (r : Fin 4) (p : PulseState) : (s.setPulse r p).station = s.station := rfl
@[simp] theorem State.setPulse_timebase (r : Fin 4) (p : PulseState) : (s.setPulse r p).timebase = s.timebase := rfl
@[simp] theorem State.setPulse_timer (r : Fin 4) (p : PulseState) : (s.setPulse r p).timer = s.timer := rfl
@[simp] theorem State.setPulse_inputDivider (r : Fin 4) (p : PulseState) : (s.setPulse r p).inputDivider = s.inputDivider := rfl
@[simp] theorem State.setPulse_runs (r : Fin 4) (p : PulseState) : (s.setPulse r p).runs = s.runs := rfl
@[simp] theorem State.setPulse_pulses (r : Fin 4) (p : PulseState) : (s.setPulse r p).pulses = s.pulses.set r p := rfl
@[simp] theorem State.setPulse_live (r : Fin 4) (p : PulseState) : (s.setPulse r p).live = s.live := rfl
@[simp] theorem State.setPulse_buffer (r : Fin 4) (p : PulseState) : (s.setPulse r p).buffer = s.buffer := rfl
@[simp] theorem State.setPulse_det1 (r : Fin 4) (p : PulseState) : (s.setPulse r p).det1 = s.det1 := rfl
@[simp] theorem State.setPulse_det2 (r : Fin 4) (p : PulseState) : (s.setPulse r p).det2 = s.det2 := rfl
@[simp] theorem State.setPulse_session (r : Fin 4) (p : PulseState) : (s.setPulse r p).session = s.session := rfl
@[simp] theorem State.setPulse_conds (r : Fin 4) (p : PulseState) : (s.setPulse r p).conds = s.conds := rfl
@[simp] theorem State.setPulse_receiver (r : Fin 4) (p : PulseState) : (s.setPulse r p).receiver = s.receiver := rfl
@[simp] theorem State.setPulse_forward (r : Fin 4) (p : PulseState) : (s.setPulse r p).forward = s.forward := rfl
@[simp] theorem State.setPulse_outbound (r : Fin 4) (p : PulseState) : (s.setPulse r p).outbound = s.outbound := rfl
@[simp] theorem State.setPulse_transmitter (r : Fin 4) (p : PulseState) : (s.setPulse r p).transmitter = s.transmitter := rfl
@[simp] theorem State.setPulse_commands (r : Fin 4) (p : PulseState) : (s.setPulse r p).commands = s.commands := rfl
@[simp] theorem State.setPulse_restartPending (r : Fin 4) (p : PulseState) : (s.setPulse r p).restartPending = s.restartPending := rfl
@[simp] theorem State.setPulse_counters (r : Fin 4) (p : PulseState) : (s.setPulse r p).counters = s.counters := rfl
@[simp] theorem State.setPulse_openCount (r : Fin 4) (p : PulseState) : (s.setPulse r p).openCount = s.openCount := rfl

/-! ### setLive -/

@[simp] theorem State.setLive_pending (b : Fin 16) (l : LiveInput) : (s.setLive b l).pending = s.pending := rfl
@[simp] theorem State.setLive_power (b : Fin 16) (l : LiveInput) : (s.setLive b l).power = s.power := rfl
@[simp] theorem State.setLive_retained (b : Fin 16) (l : LiveInput) : (s.setLive b l).retained = s.retained := rfl
@[simp] theorem State.setLive_retainedLost (b : Fin 16) (l : LiveInput) : (s.setLive b l).retainedLost = s.retainedLost := rfl
@[simp] theorem State.setLive_backupLost (b : Fin 16) (l : LiveInput) : (s.setLive b l).backupLost = s.backupLost := rfl
@[simp] theorem State.setLive_node (b : Fin 16) (l : LiveInput) : (s.setLive b l).node = s.node := rfl
@[simp] theorem State.setLive_rateCode (b : Fin 16) (l : LiveInput) : (s.setLive b l).rateCode = s.rateCode := rfl
@[simp] theorem State.setLive_lastStart (b : Fin 16) (l : LiveInput) : (s.setLive b l).lastStart = s.lastStart := rfl
@[simp] theorem State.setLive_station (b : Fin 16) (l : LiveInput) : (s.setLive b l).station = s.station := rfl
@[simp] theorem State.setLive_timebase (b : Fin 16) (l : LiveInput) : (s.setLive b l).timebase = s.timebase := rfl
@[simp] theorem State.setLive_timer (b : Fin 16) (l : LiveInput) : (s.setLive b l).timer = s.timer := rfl
@[simp] theorem State.setLive_inputDivider (b : Fin 16) (l : LiveInput) : (s.setLive b l).inputDivider = s.inputDivider := rfl
@[simp] theorem State.setLive_runs (b : Fin 16) (l : LiveInput) : (s.setLive b l).runs = s.runs := rfl
@[simp] theorem State.setLive_pulses (b : Fin 16) (l : LiveInput) : (s.setLive b l).pulses = s.pulses := rfl
@[simp] theorem State.setLive_live (b : Fin 16) (l : LiveInput) : (s.setLive b l).live = s.live.set b l := rfl
@[simp] theorem State.setLive_buffer (b : Fin 16) (l : LiveInput) : (s.setLive b l).buffer = s.buffer := rfl
@[simp] theorem State.setLive_det1 (b : Fin 16) (l : LiveInput) : (s.setLive b l).det1 = s.det1 := rfl
@[simp] theorem State.setLive_det2 (b : Fin 16) (l : LiveInput) : (s.setLive b l).det2 = s.det2 := rfl
@[simp] theorem State.setLive_session (b : Fin 16) (l : LiveInput) : (s.setLive b l).session = s.session := rfl
@[simp] theorem State.setLive_conds (b : Fin 16) (l : LiveInput) : (s.setLive b l).conds = s.conds := rfl
@[simp] theorem State.setLive_receiver (b : Fin 16) (l : LiveInput) : (s.setLive b l).receiver = s.receiver := rfl
@[simp] theorem State.setLive_forward (b : Fin 16) (l : LiveInput) : (s.setLive b l).forward = s.forward := rfl
@[simp] theorem State.setLive_outbound (b : Fin 16) (l : LiveInput) : (s.setLive b l).outbound = s.outbound := rfl
@[simp] theorem State.setLive_transmitter (b : Fin 16) (l : LiveInput) : (s.setLive b l).transmitter = s.transmitter := rfl
@[simp] theorem State.setLive_commands (b : Fin 16) (l : LiveInput) : (s.setLive b l).commands = s.commands := rfl
@[simp] theorem State.setLive_restartPending (b : Fin 16) (l : LiveInput) : (s.setLive b l).restartPending = s.restartPending := rfl
@[simp] theorem State.setLive_counters (b : Fin 16) (l : LiveInput) : (s.setLive b l).counters = s.counters := rfl
@[simp] theorem State.setLive_openCount (b : Fin 16) (l : LiveInput) : (s.setLive b l).openCount = s.openCount := rfl

/-! ### setSession -/

@[simp] theorem State.setSession_pending (x : Session) : (s.setSession x).pending = s.pending := rfl
@[simp] theorem State.setSession_power (x : Session) : (s.setSession x).power = s.power := rfl
@[simp] theorem State.setSession_retained (x : Session) : (s.setSession x).retained = s.retained := rfl
@[simp] theorem State.setSession_retainedLost (x : Session) : (s.setSession x).retainedLost = s.retainedLost := rfl
@[simp] theorem State.setSession_backupLost (x : Session) : (s.setSession x).backupLost = s.backupLost := rfl
@[simp] theorem State.setSession_node (x : Session) : (s.setSession x).node = s.node := rfl
@[simp] theorem State.setSession_rateCode (x : Session) : (s.setSession x).rateCode = s.rateCode := rfl
@[simp] theorem State.setSession_lastStart (x : Session) : (s.setSession x).lastStart = s.lastStart := rfl
@[simp] theorem State.setSession_station (x : Session) : (s.setSession x).station = s.station := rfl
@[simp] theorem State.setSession_timebase (x : Session) : (s.setSession x).timebase = s.timebase := rfl
@[simp] theorem State.setSession_timer (x : Session) : (s.setSession x).timer = s.timer := rfl
@[simp] theorem State.setSession_inputDivider (x : Session) : (s.setSession x).inputDivider = s.inputDivider := rfl
@[simp] theorem State.setSession_runs (x : Session) : (s.setSession x).runs = s.runs := rfl
@[simp] theorem State.setSession_pulses (x : Session) : (s.setSession x).pulses = s.pulses := rfl
@[simp] theorem State.setSession_live (x : Session) : (s.setSession x).live = s.live := rfl
@[simp] theorem State.setSession_buffer (x : Session) : (s.setSession x).buffer = s.buffer := rfl
@[simp] theorem State.setSession_det1 (x : Session) : (s.setSession x).det1 = s.det1 := rfl
@[simp] theorem State.setSession_det2 (x : Session) : (s.setSession x).det2 = s.det2 := rfl
@[simp] theorem State.setSession_session (x : Session) : (s.setSession x).session = x := rfl
@[simp] theorem State.setSession_conds (x : Session) : (s.setSession x).conds = s.conds := rfl
@[simp] theorem State.setSession_receiver (x : Session) : (s.setSession x).receiver = s.receiver := rfl
@[simp] theorem State.setSession_forward (x : Session) : (s.setSession x).forward = s.forward := rfl
@[simp] theorem State.setSession_outbound (x : Session) : (s.setSession x).outbound = s.outbound := rfl
@[simp] theorem State.setSession_transmitter (x : Session) : (s.setSession x).transmitter = s.transmitter := rfl
@[simp] theorem State.setSession_commands (x : Session) : (s.setSession x).commands = s.commands := rfl
@[simp] theorem State.setSession_restartPending (x : Session) : (s.setSession x).restartPending = s.restartPending := rfl
@[simp] theorem State.setSession_counters (x : Session) : (s.setSession x).counters = s.counters := rfl
@[simp] theorem State.setSession_openCount (x : Session) : (s.setSession x).openCount = s.openCount := rfl

/-! ### setRetained -/

@[simp] theorem State.setRetained_pending (x : Retained) : (s.setRetained x).pending = s.pending := rfl
@[simp] theorem State.setRetained_power (x : Retained) : (s.setRetained x).power = s.power := rfl
@[simp] theorem State.setRetained_retained (x : Retained) : (s.setRetained x).retained = x := rfl
@[simp] theorem State.setRetained_retainedLost (x : Retained) : (s.setRetained x).retainedLost = s.retainedLost := rfl
@[simp] theorem State.setRetained_backupLost (x : Retained) : (s.setRetained x).backupLost = s.backupLost := rfl
@[simp] theorem State.setRetained_node (x : Retained) : (s.setRetained x).node = s.node := rfl
@[simp] theorem State.setRetained_rateCode (x : Retained) : (s.setRetained x).rateCode = s.rateCode := rfl
@[simp] theorem State.setRetained_lastStart (x : Retained) : (s.setRetained x).lastStart = s.lastStart := rfl
@[simp] theorem State.setRetained_station (x : Retained) : (s.setRetained x).station = s.station := rfl
@[simp] theorem State.setRetained_timebase (x : Retained) : (s.setRetained x).timebase = s.timebase := rfl
@[simp] theorem State.setRetained_timer (x : Retained) : (s.setRetained x).timer = s.timer := rfl
@[simp] theorem State.setRetained_inputDivider (x : Retained) : (s.setRetained x).inputDivider = s.inputDivider := rfl
@[simp] theorem State.setRetained_runs (x : Retained) : (s.setRetained x).runs = s.runs := rfl
@[simp] theorem State.setRetained_pulses (x : Retained) : (s.setRetained x).pulses = s.pulses := rfl
@[simp] theorem State.setRetained_live (x : Retained) : (s.setRetained x).live = s.live := rfl
@[simp] theorem State.setRetained_buffer (x : Retained) : (s.setRetained x).buffer = s.buffer := rfl
@[simp] theorem State.setRetained_det1 (x : Retained) : (s.setRetained x).det1 = s.det1 := rfl
@[simp] theorem State.setRetained_det2 (x : Retained) : (s.setRetained x).det2 = s.det2 := rfl
@[simp] theorem State.setRetained_session (x : Retained) : (s.setRetained x).session = s.session := rfl
@[simp] theorem State.setRetained_conds (x : Retained) : (s.setRetained x).conds = s.conds := rfl
@[simp] theorem State.setRetained_receiver (x : Retained) : (s.setRetained x).receiver = s.receiver := rfl
@[simp] theorem State.setRetained_forward (x : Retained) : (s.setRetained x).forward = s.forward := rfl
@[simp] theorem State.setRetained_outbound (x : Retained) : (s.setRetained x).outbound = s.outbound := rfl
@[simp] theorem State.setRetained_transmitter (x : Retained) : (s.setRetained x).transmitter = s.transmitter := rfl
@[simp] theorem State.setRetained_commands (x : Retained) : (s.setRetained x).commands = s.commands := rfl
@[simp] theorem State.setRetained_restartPending (x : Retained) : (s.setRetained x).restartPending = s.restartPending := rfl
@[simp] theorem State.setRetained_counters (x : Retained) : (s.setRetained x).counters = s.counters := rfl
@[simp] theorem State.setRetained_openCount (x : Retained) : (s.setRetained x).openCount = s.openCount := rfl

/-! ### setCond -/

@[simp] theorem State.setCond_pending (c : CondId) (x : Condition) : (s.setCond c x).pending = s.pending := rfl
@[simp] theorem State.setCond_power (c : CondId) (x : Condition) : (s.setCond c x).power = s.power := rfl
@[simp] theorem State.setCond_retained (c : CondId) (x : Condition) : (s.setCond c x).retained = s.retained := rfl
@[simp] theorem State.setCond_retainedLost (c : CondId) (x : Condition) : (s.setCond c x).retainedLost = s.retainedLost := rfl
@[simp] theorem State.setCond_backupLost (c : CondId) (x : Condition) : (s.setCond c x).backupLost = s.backupLost := rfl
@[simp] theorem State.setCond_node (c : CondId) (x : Condition) : (s.setCond c x).node = s.node := rfl
@[simp] theorem State.setCond_rateCode (c : CondId) (x : Condition) : (s.setCond c x).rateCode = s.rateCode := rfl
@[simp] theorem State.setCond_lastStart (c : CondId) (x : Condition) : (s.setCond c x).lastStart = s.lastStart := rfl
@[simp] theorem State.setCond_station (c : CondId) (x : Condition) : (s.setCond c x).station = s.station := rfl
@[simp] theorem State.setCond_timebase (c : CondId) (x : Condition) : (s.setCond c x).timebase = s.timebase := rfl
@[simp] theorem State.setCond_timer (c : CondId) (x : Condition) : (s.setCond c x).timer = s.timer := rfl
@[simp] theorem State.setCond_inputDivider (c : CondId) (x : Condition) : (s.setCond c x).inputDivider = s.inputDivider := rfl
@[simp] theorem State.setCond_runs (c : CondId) (x : Condition) : (s.setCond c x).runs = s.runs := rfl
@[simp] theorem State.setCond_pulses (c : CondId) (x : Condition) : (s.setCond c x).pulses = s.pulses := rfl
@[simp] theorem State.setCond_live (c : CondId) (x : Condition) : (s.setCond c x).live = s.live := rfl
@[simp] theorem State.setCond_buffer (c : CondId) (x : Condition) : (s.setCond c x).buffer = s.buffer := rfl
@[simp] theorem State.setCond_det1 (c : CondId) (x : Condition) : (s.setCond c x).det1 = s.det1 := rfl
@[simp] theorem State.setCond_det2 (c : CondId) (x : Condition) : (s.setCond c x).det2 = s.det2 := rfl
@[simp] theorem State.setCond_session (c : CondId) (x : Condition) : (s.setCond c x).session = s.session := rfl
@[simp] theorem State.setCond_conds (c : CondId) (x : Condition) : (s.setCond c x).conds = s.conds.set c.index x := rfl
@[simp] theorem State.setCond_receiver (c : CondId) (x : Condition) : (s.setCond c x).receiver = s.receiver := rfl
@[simp] theorem State.setCond_forward (c : CondId) (x : Condition) : (s.setCond c x).forward = s.forward := rfl
@[simp] theorem State.setCond_outbound (c : CondId) (x : Condition) : (s.setCond c x).outbound = s.outbound := rfl
@[simp] theorem State.setCond_transmitter (c : CondId) (x : Condition) : (s.setCond c x).transmitter = s.transmitter := rfl
@[simp] theorem State.setCond_commands (c : CondId) (x : Condition) : (s.setCond c x).commands = s.commands := rfl
@[simp] theorem State.setCond_restartPending (c : CondId) (x : Condition) : (s.setCond c x).restartPending = s.restartPending := rfl
@[simp] theorem State.setCond_counters (c : CondId) (x : Condition) : (s.setCond c x).counters = s.counters := rfl
@[simp] theorem State.setCond_openCount (c : CondId) (x : Condition) : (s.setCond c x).openCount = s.openCount := rfl

/-! ### setBatch -/

@[simp] theorem State.setBatch_pending (b : BatchUnit) : (s.setBatch b).pending = s.pending := rfl
@[simp] theorem State.setBatch_power (b : BatchUnit) : (s.setBatch b).power = s.power := rfl
@[simp] theorem State.setBatch_retained (b : BatchUnit) :
    (s.setBatch b).retained = { s.retained with batch := b } := rfl
@[simp] theorem State.setBatch_retainedLost (b : BatchUnit) :
    (s.setBatch b).retainedLost = s.retainedLost := rfl
@[simp] theorem State.setBatch_backupLost (b : BatchUnit) :
    (s.setBatch b).backupLost = s.backupLost := rfl
@[simp] theorem State.setBatch_node (b : BatchUnit) : (s.setBatch b).node = s.node := rfl
@[simp] theorem State.setBatch_rateCode (b : BatchUnit) :
    (s.setBatch b).rateCode = s.rateCode := rfl
@[simp] theorem State.setBatch_lastStart (b : BatchUnit) :
    (s.setBatch b).lastStart = s.lastStart := rfl
@[simp] theorem State.setBatch_station (b : BatchUnit) : (s.setBatch b).station = s.station := rfl
@[simp] theorem State.setBatch_timebase (b : BatchUnit) :
    (s.setBatch b).timebase = s.timebase := rfl
@[simp] theorem State.setBatch_timer (b : BatchUnit) : (s.setBatch b).timer = s.timer := rfl
@[simp] theorem State.setBatch_inputDivider (b : BatchUnit) :
    (s.setBatch b).inputDivider = s.inputDivider := rfl
@[simp] theorem State.setBatch_runs (b : BatchUnit) : (s.setBatch b).runs = s.runs := rfl
@[simp] theorem State.setBatch_pulses (b : BatchUnit) : (s.setBatch b).pulses = s.pulses := rfl
@[simp] theorem State.setBatch_live (b : BatchUnit) : (s.setBatch b).live = s.live := rfl
@[simp] theorem State.setBatch_buffer (b : BatchUnit) : (s.setBatch b).buffer = s.buffer := rfl
@[simp] theorem State.setBatch_det1 (b : BatchUnit) : (s.setBatch b).det1 = s.det1 := rfl
@[simp] theorem State.setBatch_det2 (b : BatchUnit) : (s.setBatch b).det2 = s.det2 := rfl
@[simp] theorem State.setBatch_session (b : BatchUnit) : (s.setBatch b).session = s.session := rfl
@[simp] theorem State.setBatch_conds (b : BatchUnit) : (s.setBatch b).conds = s.conds := rfl
@[simp] theorem State.setBatch_receiver (b : BatchUnit) :
    (s.setBatch b).receiver = s.receiver := rfl
@[simp] theorem State.setBatch_forward (b : BatchUnit) : (s.setBatch b).forward = s.forward := rfl
@[simp] theorem State.setBatch_outbound (b : BatchUnit) :
    (s.setBatch b).outbound = s.outbound := rfl
@[simp] theorem State.setBatch_transmitter (b : BatchUnit) :
    (s.setBatch b).transmitter = s.transmitter := rfl
@[simp] theorem State.setBatch_commands (b : BatchUnit) :
    (s.setBatch b).commands = s.commands := rfl
@[simp] theorem State.setBatch_restartPending (b : BatchUnit) :
    (s.setBatch b).restartPending = s.restartPending := rfl
@[simp] theorem State.setBatch_counters (b : BatchUnit) :
    (s.setBatch b).counters = s.counters := rfl
@[simp] theorem State.setBatch_openCount (b : BatchUnit) :
    (s.setBatch b).openCount = s.openCount := rfl

/-! ### setRunRetained -/

@[simp] theorem State.setRunRetained_pending (r : Fin 4) (v : RunRetained) :
    (s.setRunRetained r v).pending = s.pending := rfl
@[simp] theorem State.setRunRetained_power (r : Fin 4) (v : RunRetained) :
    (s.setRunRetained r v).power = s.power := rfl
@[simp] theorem State.setRunRetained_retained (r : Fin 4) (v : RunRetained) :
    (s.setRunRetained r v).retained = { s.retained with runs := s.retained.runs.set r v } := rfl
@[simp] theorem State.setRunRetained_retainedLost (r : Fin 4) (v : RunRetained) :
    (s.setRunRetained r v).retainedLost = s.retainedLost := rfl
@[simp] theorem State.setRunRetained_backupLost (r : Fin 4) (v : RunRetained) :
    (s.setRunRetained r v).backupLost = s.backupLost := rfl
@[simp] theorem State.setRunRetained_node (r : Fin 4) (v : RunRetained) :
    (s.setRunRetained r v).node = s.node := rfl
@[simp] theorem State.setRunRetained_rateCode (r : Fin 4) (v : RunRetained) :
    (s.setRunRetained r v).rateCode = s.rateCode := rfl
@[simp] theorem State.setRunRetained_lastStart (r : Fin 4) (v : RunRetained) :
    (s.setRunRetained r v).lastStart = s.lastStart := rfl
@[simp] theorem State.setRunRetained_station (r : Fin 4) (v : RunRetained) :
    (s.setRunRetained r v).station = s.station := rfl
@[simp] theorem State.setRunRetained_timebase (r : Fin 4) (v : RunRetained) :
    (s.setRunRetained r v).timebase = s.timebase := rfl
@[simp] theorem State.setRunRetained_timer (r : Fin 4) (v : RunRetained) :
    (s.setRunRetained r v).timer = s.timer := rfl
@[simp] theorem State.setRunRetained_inputDivider (r : Fin 4) (v : RunRetained) :
    (s.setRunRetained r v).inputDivider = s.inputDivider := rfl
@[simp] theorem State.setRunRetained_runs (r : Fin 4) (v : RunRetained) :
    (s.setRunRetained r v).runs = s.runs := rfl
@[simp] theorem State.setRunRetained_pulses (r : Fin 4) (v : RunRetained) :
    (s.setRunRetained r v).pulses = s.pulses := rfl
@[simp] theorem State.setRunRetained_live (r : Fin 4) (v : RunRetained) :
    (s.setRunRetained r v).live = s.live := rfl
@[simp] theorem State.setRunRetained_buffer (r : Fin 4) (v : RunRetained) :
    (s.setRunRetained r v).buffer = s.buffer := rfl
@[simp] theorem State.setRunRetained_det1 (r : Fin 4) (v : RunRetained) :
    (s.setRunRetained r v).det1 = s.det1 := rfl
@[simp] theorem State.setRunRetained_det2 (r : Fin 4) (v : RunRetained) :
    (s.setRunRetained r v).det2 = s.det2 := rfl
@[simp] theorem State.setRunRetained_session (r : Fin 4) (v : RunRetained) :
    (s.setRunRetained r v).session = s.session := rfl
@[simp] theorem State.setRunRetained_conds (r : Fin 4) (v : RunRetained) :
    (s.setRunRetained r v).conds = s.conds := rfl
@[simp] theorem State.setRunRetained_receiver (r : Fin 4) (v : RunRetained) :
    (s.setRunRetained r v).receiver = s.receiver := rfl
@[simp] theorem State.setRunRetained_forward (r : Fin 4) (v : RunRetained) :
    (s.setRunRetained r v).forward = s.forward := rfl
@[simp] theorem State.setRunRetained_outbound (r : Fin 4) (v : RunRetained) :
    (s.setRunRetained r v).outbound = s.outbound := rfl
@[simp] theorem State.setRunRetained_transmitter (r : Fin 4) (v : RunRetained) :
    (s.setRunRetained r v).transmitter = s.transmitter := rfl
@[simp] theorem State.setRunRetained_commands (r : Fin 4) (v : RunRetained) :
    (s.setRunRetained r v).commands = s.commands := rfl
@[simp] theorem State.setRunRetained_restartPending (r : Fin 4) (v : RunRetained) :
    (s.setRunRetained r v).restartPending = s.restartPending := rfl
@[simp] theorem State.setRunRetained_counters (r : Fin 4) (v : RunRetained) :
    (s.setRunRetained r v).counters = s.counters := rfl
@[simp] theorem State.setRunRetained_openCount (r : Fin 4) (v : RunRetained) :
    (s.setRunRetained r v).openCount = s.openCount := rfl

/-! ### setCurve -/

@[simp] theorem State.setCurve_pending (r : Fin 4) (p : Fin 8) (c : Copies CurveCopy) :
    (s.setCurve r p c).pending = s.pending := rfl
@[simp] theorem State.setCurve_power (r : Fin 4) (p : Fin 8) (c : Copies CurveCopy) :
    (s.setCurve r p c).power = s.power := rfl
@[simp] theorem State.setCurve_retained (r : Fin 4) (p : Fin 8) (c : Copies CurveCopy) :
    (s.setCurve r p c).retained =
      { s.retained with curves := s.retained.curves.set (curveIndex r p) c } := rfl
@[simp] theorem State.setCurve_retainedLost (r : Fin 4) (p : Fin 8) (c : Copies CurveCopy) :
    (s.setCurve r p c).retainedLost = s.retainedLost := rfl
@[simp] theorem State.setCurve_backupLost (r : Fin 4) (p : Fin 8) (c : Copies CurveCopy) :
    (s.setCurve r p c).backupLost = s.backupLost := rfl
@[simp] theorem State.setCurve_node (r : Fin 4) (p : Fin 8) (c : Copies CurveCopy) :
    (s.setCurve r p c).node = s.node := rfl
@[simp] theorem State.setCurve_rateCode (r : Fin 4) (p : Fin 8) (c : Copies CurveCopy) :
    (s.setCurve r p c).rateCode = s.rateCode := rfl
@[simp] theorem State.setCurve_lastStart (r : Fin 4) (p : Fin 8) (c : Copies CurveCopy) :
    (s.setCurve r p c).lastStart = s.lastStart := rfl
@[simp] theorem State.setCurve_station (r : Fin 4) (p : Fin 8) (c : Copies CurveCopy) :
    (s.setCurve r p c).station = s.station := rfl
@[simp] theorem State.setCurve_timebase (r : Fin 4) (p : Fin 8) (c : Copies CurveCopy) :
    (s.setCurve r p c).timebase = s.timebase := rfl
@[simp] theorem State.setCurve_timer (r : Fin 4) (p : Fin 8) (c : Copies CurveCopy) :
    (s.setCurve r p c).timer = s.timer := rfl
@[simp] theorem State.setCurve_inputDivider (r : Fin 4) (p : Fin 8) (c : Copies CurveCopy) :
    (s.setCurve r p c).inputDivider = s.inputDivider := rfl
@[simp] theorem State.setCurve_runs (r : Fin 4) (p : Fin 8) (c : Copies CurveCopy) :
    (s.setCurve r p c).runs = s.runs := rfl
@[simp] theorem State.setCurve_pulses (r : Fin 4) (p : Fin 8) (c : Copies CurveCopy) :
    (s.setCurve r p c).pulses = s.pulses := rfl
@[simp] theorem State.setCurve_live (r : Fin 4) (p : Fin 8) (c : Copies CurveCopy) :
    (s.setCurve r p c).live = s.live := rfl
@[simp] theorem State.setCurve_buffer (r : Fin 4) (p : Fin 8) (c : Copies CurveCopy) :
    (s.setCurve r p c).buffer = s.buffer := rfl
@[simp] theorem State.setCurve_det1 (r : Fin 4) (p : Fin 8) (c : Copies CurveCopy) :
    (s.setCurve r p c).det1 = s.det1 := rfl
@[simp] theorem State.setCurve_det2 (r : Fin 4) (p : Fin 8) (c : Copies CurveCopy) :
    (s.setCurve r p c).det2 = s.det2 := rfl
@[simp] theorem State.setCurve_session (r : Fin 4) (p : Fin 8) (c : Copies CurveCopy) :
    (s.setCurve r p c).session = s.session := rfl
@[simp] theorem State.setCurve_conds (r : Fin 4) (p : Fin 8) (c : Copies CurveCopy) :
    (s.setCurve r p c).conds = s.conds := rfl
@[simp] theorem State.setCurve_receiver (r : Fin 4) (p : Fin 8) (c : Copies CurveCopy) :
    (s.setCurve r p c).receiver = s.receiver := rfl
@[simp] theorem State.setCurve_forward (r : Fin 4) (p : Fin 8) (c : Copies CurveCopy) :
    (s.setCurve r p c).forward = s.forward := rfl
@[simp] theorem State.setCurve_outbound (r : Fin 4) (p : Fin 8) (c : Copies CurveCopy) :
    (s.setCurve r p c).outbound = s.outbound := rfl
@[simp] theorem State.setCurve_transmitter (r : Fin 4) (p : Fin 8) (c : Copies CurveCopy) :
    (s.setCurve r p c).transmitter = s.transmitter := rfl
@[simp] theorem State.setCurve_commands (r : Fin 4) (p : Fin 8) (c : Copies CurveCopy) :
    (s.setCurve r p c).commands = s.commands := rfl
@[simp] theorem State.setCurve_restartPending (r : Fin 4) (p : Fin 8) (c : Copies CurveCopy) :
    (s.setCurve r p c).restartPending = s.restartPending := rfl
@[simp] theorem State.setCurve_counters (r : Fin 4) (p : Fin 8) (c : Copies CurveCopy) :
    (s.setCurve r p c).counters = s.counters := rfl
@[simp] theorem State.setCurve_openCount (r : Fin 4) (p : Fin 8) (c : Copies CurveCopy) :
    (s.setCurve r p c).openCount = s.openCount := rfl

/-! ### setDet -/

@[simp] theorem State.setDet_pending (d : Detector) (x : DetectorState) :
    (s.setDet d x).pending = s.pending := by cases d <;> rfl
@[simp] theorem State.setDet_power (d : Detector) (x : DetectorState) :
    (s.setDet d x).power = s.power := by cases d <;> rfl
@[simp] theorem State.setDet_retained (d : Detector) (x : DetectorState) :
    (s.setDet d x).retained = s.retained := by cases d <;> rfl
@[simp] theorem State.setDet_retainedLost (d : Detector) (x : DetectorState) :
    (s.setDet d x).retainedLost = s.retainedLost := by cases d <;> rfl
@[simp] theorem State.setDet_backupLost (d : Detector) (x : DetectorState) :
    (s.setDet d x).backupLost = s.backupLost := by cases d <;> rfl
@[simp] theorem State.setDet_node (d : Detector) (x : DetectorState) :
    (s.setDet d x).node = s.node := by cases d <;> rfl
@[simp] theorem State.setDet_rateCode (d : Detector) (x : DetectorState) :
    (s.setDet d x).rateCode = s.rateCode := by cases d <;> rfl
@[simp] theorem State.setDet_lastStart (d : Detector) (x : DetectorState) :
    (s.setDet d x).lastStart = s.lastStart := by cases d <;> rfl
@[simp] theorem State.setDet_station (d : Detector) (x : DetectorState) :
    (s.setDet d x).station = s.station := by cases d <;> rfl
@[simp] theorem State.setDet_timebase (d : Detector) (x : DetectorState) :
    (s.setDet d x).timebase = s.timebase := by cases d <;> rfl
@[simp] theorem State.setDet_timer (d : Detector) (x : DetectorState) :
    (s.setDet d x).timer = s.timer := by cases d <;> rfl
@[simp] theorem State.setDet_inputDivider (d : Detector) (x : DetectorState) :
    (s.setDet d x).inputDivider = s.inputDivider := by cases d <;> rfl
@[simp] theorem State.setDet_runs (d : Detector) (x : DetectorState) :
    (s.setDet d x).runs = s.runs := by cases d <;> rfl
@[simp] theorem State.setDet_pulses (d : Detector) (x : DetectorState) :
    (s.setDet d x).pulses = s.pulses := by cases d <;> rfl
@[simp] theorem State.setDet_live (d : Detector) (x : DetectorState) :
    (s.setDet d x).live = s.live := by cases d <;> rfl
@[simp] theorem State.setDet_buffer (d : Detector) (x : DetectorState) :
    (s.setDet d x).buffer = s.buffer := by cases d <;> rfl
@[simp] theorem State.setDet_session (d : Detector) (x : DetectorState) :
    (s.setDet d x).session = s.session := by cases d <;> rfl
@[simp] theorem State.setDet_conds (d : Detector) (x : DetectorState) :
    (s.setDet d x).conds = s.conds := by cases d <;> rfl
@[simp] theorem State.setDet_receiver (d : Detector) (x : DetectorState) :
    (s.setDet d x).receiver = s.receiver := by cases d <;> rfl
@[simp] theorem State.setDet_forward (d : Detector) (x : DetectorState) :
    (s.setDet d x).forward = s.forward := by cases d <;> rfl
@[simp] theorem State.setDet_outbound (d : Detector) (x : DetectorState) :
    (s.setDet d x).outbound = s.outbound := by cases d <;> rfl
@[simp] theorem State.setDet_transmitter (d : Detector) (x : DetectorState) :
    (s.setDet d x).transmitter = s.transmitter := by cases d <;> rfl
@[simp] theorem State.setDet_commands (d : Detector) (x : DetectorState) :
    (s.setDet d x).commands = s.commands := by cases d <;> rfl
@[simp] theorem State.setDet_restartPending (d : Detector) (x : DetectorState) :
    (s.setDet d x).restartPending = s.restartPending := by cases d <;> rfl
@[simp] theorem State.setDet_counters (d : Detector) (x : DetectorState) :
    (s.setDet d x).counters = s.counters := by cases d <;> rfl
@[simp] theorem State.setDet_openCount (d : Detector) (x : DetectorState) :
    (s.setDet d x).openCount = s.openCount := by cases d <;> rfl

@[simp] theorem State.det_setDet (d : Detector) (x : DetectorState) : (s.setDet d x).det d = x := by
  cases d <;> rfl

/-- One detector's items are not the other's. -/
theorem State.det_setDet_ne (d e : Detector) (x : DetectorState) (h : e ≠ d) :
    (s.setDet d x).det e = s.det e := by
  cases d <;> cases e <;> first | rfl | exact absurd rfl h

/-! ### advanceClock -/

@[simp] theorem advanceClock_pending (n : Nat) : (advanceClock n s).pending = s.pending := rfl
@[simp] theorem advanceClock_power (n : Nat) : (advanceClock n s).power = s.power := rfl
@[simp] theorem advanceClock_retained (n : Nat) : (advanceClock n s).retained = s.retained := rfl
@[simp] theorem advanceClock_retainedLost (n : Nat) : (advanceClock n s).retainedLost = s.retainedLost := rfl
@[simp] theorem advanceClock_backupLost (n : Nat) : (advanceClock n s).backupLost = s.backupLost := rfl
@[simp] theorem advanceClock_node (n : Nat) : (advanceClock n s).node = s.node := rfl
@[simp] theorem advanceClock_rateCode (n : Nat) : (advanceClock n s).rateCode = s.rateCode := rfl
@[simp] theorem advanceClock_lastStart (n : Nat) : (advanceClock n s).lastStart = s.lastStart := rfl
@[simp] theorem advanceClock_station (n : Nat) : (advanceClock n s).station = s.station := rfl
@[simp] theorem advanceClock_timebase (n : Nat) : (advanceClock n s).timebase = s.timebase + BitVec.ofNat 32 n := rfl
@[simp] theorem advanceClock_timer (n : Nat) : (advanceClock n s).timer = s.timer.map (· - n) := rfl
@[simp] theorem advanceClock_inputDivider (n : Nat) : (advanceClock n s).inputDivider = s.inputDivider - n := rfl
@[simp] theorem advanceClock_runs (n : Nat) : (advanceClock n s).runs = s.runs := rfl
@[simp] theorem advanceClock_pulses (n : Nat) : (advanceClock n s).pulses = s.pulses := rfl
@[simp] theorem advanceClock_live (n : Nat) : (advanceClock n s).live = s.live := rfl
@[simp] theorem advanceClock_buffer (n : Nat) : (advanceClock n s).buffer = s.buffer := rfl
@[simp] theorem advanceClock_det1 (n : Nat) : (advanceClock n s).det1 = s.det1 := rfl
@[simp] theorem advanceClock_det2 (n : Nat) : (advanceClock n s).det2 = s.det2 := rfl
@[simp] theorem advanceClock_session (n : Nat) : (advanceClock n s).session = s.session := rfl
@[simp] theorem advanceClock_conds (n : Nat) : (advanceClock n s).conds = s.conds := rfl
@[simp] theorem advanceClock_receiver (n : Nat) : (advanceClock n s).receiver = s.receiver := rfl
@[simp] theorem advanceClock_forward (n : Nat) : (advanceClock n s).forward = s.forward := rfl
@[simp] theorem advanceClock_outbound (n : Nat) : (advanceClock n s).outbound = s.outbound := rfl
@[simp] theorem advanceClock_transmitter (n : Nat) : (advanceClock n s).transmitter = s.transmitter := rfl
@[simp] theorem advanceClock_commands (n : Nat) : (advanceClock n s).commands = s.commands := rfl
@[simp] theorem advanceClock_restartPending (n : Nat) : (advanceClock n s).restartPending = s.restartPending := rfl
@[simp] theorem advanceClock_counters (n : Nat) : (advanceClock n s).counters = s.counters := rfl
@[simp] theorem advanceClock_openCount (n : Nat) : (advanceClock n s).openCount = s.openCount := rfl

/-- The clock brought to a timestamp stands at it. -/
theorem advanceTo_timebase (stamp : Word32) : (advanceTo stamp s).timebase = stamp := by
  have h : BitVec.ofNat 32 (stamp - s.timebase).toNat = stamp - s.timebase := BitVec.ofNat_toNat ..
  show s.timebase + BitVec.ofNat 32 (stamp - s.timebase).toNat = stamp
  rw [h, BitVec.add_comm, BitVec.sub_add_cancel]

/-! ### Reading what was written -/

@[simp] theorem ByChannel.get_set {α : Type} (p : ByChannel α) (ch : Channel) (x : α) :
    (p.set ch x).get ch = x := by cases ch <;> rfl

/-- Writing one channel leaves the other. -/
theorem ByChannel.get_set_ne {α : Type} (p : ByChannel α) (c d : Channel) (x : α) (h : d ≠ c) :
    (p.set c x).get d = p.get d := by
  cases c <;> cases d <;> first | rfl | exact absurd rfl h

@[simp] theorem State.cond_setCond (c : CondId) (x : Condition) : (s.setCond c x).cond c = x := by
  simp [State.cond, State.setCond]

/-- Two condition records have different places. -/
theorem CondId.index_injective : Function.Injective CondId.index := by
  intro c d h
  have h' := congrArg Fin.val h
  cases c <;> cases d <;> simp [CondId.index] at h' ⊢ <;> omega

/-- Writing one condition record leaves every other. -/
theorem State.cond_setCond_ne (c d : CondId) (x : Condition) (h : d ≠ c) :
    (s.setCond c x).cond d = s.cond d := by
  have hne : c.index.val ≠ d.index.val := fun e => h (CondId.index_injective (Fin.ext e.symm))
  simp [State.cond, State.setCond, hne]

end Sys2Proof.Machine
end

