-- ==== Sys2Proof/Laws/Loop.lean ====
section
/-! SUPPORT. What the shared operations of the loop and of the Condition Unit can do: they touch the
outbound queue, the forward buffer, the transmitter, the loop counters and the condition records, and
nothing else. Each operation has one lemma saying so, and from it one lemma for each field it keeps. -/

namespace Sys2Proof.Machine

/-! ### LoopOnly -/

theorem LoopOnly.refl (s : State) : LoopOnly s s := rfl

theorem LoopOnly.trans {s t u : State} (h : LoopOnly s t) (k : LoopOnly t u) : LoopOnly s u := by
  unfold LoopOnly at *
  rw [k, h]

/-- An update of the five fields is LoopOnly. -/
theorem LoopOnly.update (s : State) (a : Vector Condition 115) (b : List Frame) (c : List OutFrame)
    (d : Transmitter) (e : LoopCounters) :
    LoopOnly s { s with conds := a, forward := b, outbound := c, transmitter := d, counters := e } :=
  rfl

theorem setCond_loopOnly (c : CondId) (x : Condition) (s : State) : LoopOnly s (s.setCond c x) := rfl

/-- A condition record written after a LoopOnly change. -/
theorem LoopOnly.setCond {s t : State} (h : LoopOnly s t) (c : CondId) (x : Condition) :
    LoopOnly s (t.setCond c x) := h.trans rfl

/-- R167: a free transmitter that begins a frame. -/
theorem beginNext_loopOnly (s : State) : LoopOnly s (beginNext s) := by
  unfold beginNext
  split
  · split
    · rfl
    · split <;> rfl
  · rfl

/-- R169: a frame that enters, displaces or is dropped. -/
theorem enqueue_loopOnly (f : OutFrame) (s : State) : LoopOnly s (enqueue f s).1 := by
  unfold enqueue
  split
  · exact (LoopOnly.trans (t := { s with outbound := s.outbound ++ [f] }) rfl (beginNext_loopOnly _))
  · split
    · next others _ =>
      split
      · exact LoopOnly.trans (t := { s with outbound := others ++ [f] }) rfl (beginNext_loopOnly _)
      · rfl
    · rfl

theorem countDiscard_loopOnly (k : OutKind) (s : State) : LoopOnly s (countDiscard k s) := rfl

theorem recordOccurrence_loopOnly (c : CondId) (s : State) : LoopOnly s (recordOccurrence c s) := rfl

theorem offerNoticeOnce_loopOnly (c : CondId) (s : State) : LoopOnly s (offerNoticeOnce c s).1 := by
  unfold offerNoticeOnce
  split
  · rfl
  · rfl
  · exact LoopOnly.trans (setCond_loopOnly c { s.cond c with withheld := false } s) (enqueue_loopOnly _ _)

theorem loseFrame_loopOnly (g : OutFrame) (s : State) : LoopOnly s (loseFrame g s) := by
  have h2 : LoopOnly s (recordOccurrence .outboundDiscard (countDiscard g.kind s)) := rfl
  unfold loseFrame
  simp only
  split
  · exact h2
  · have h3 := h2.trans (offerNoticeOnce_loopOnly .outboundDiscard _)
    split
    · exact h3
    · exact h3.trans rfl

theorem afterOffer_loopOnly {s : State} {r : State × Option OutFrame} (h : LoopOnly s r.1) :
    LoopOnly s (afterOffer r) := by
  unfold afterOffer
  split
  · exact h
  · exact h.trans (loseFrame_loopOnly _ _)

theorem offer_loopOnly (f : OutFrame) (s : State) : LoopOnly s (offer f s) :=
  afterOffer_loopOnly (enqueue_loopOnly f s)

theorem offerNotice_loopOnly (c : CondId) (s : State) : LoopOnly s (offerNotice c s) :=
  afterOffer_loopOnly (offerNoticeOnce_loopOnly c s)

theorem latchAndNotify_loopOnly (c : CondId) (s : State) : LoopOnly s (latchAndNotify c s) := by
  unfold latchAndNotify
  split
  · rfl
  · exact (recordOccurrence_loopOnly c s).trans (offerNotice_loopOnly c _)

theorem occur_loopOnly (c : CondId) (s : State) : LoopOnly s (occur c s) := latchAndNotify_loopOnly c s

theorem reportActive_loopOnly (c : CondId) (s : State) : LoopOnly s (reportActive c s) := by
  unfold reportActive
  split
  · rfl
  · exact (setCond_loopOnly c { s.cond c with active := true } s).trans (latchAndNotify_loopOnly c _)

theorem reportInactive_loopOnly (c : CondId) (s : State) : LoopOnly s (reportInactive c s) := by
  unfold reportInactive
  split <;> rfl

theorem report_loopOnly (c : CondId) (b : Bool) (s : State) : LoopOnly s (report c b s) := by
  unfold report
  split
  · exact reportActive_loopOnly c s
  · exact reportInactive_loopOnly c s

/-- A fold of LoopOnly steps is LoopOnly. -/
theorem foldl_loopOnly {α : Type} (f : State → α → State) (h : ∀ s a, LoopOnly s (f s a))
    (l : List α) (s : State) : LoopOnly s (l.foldl f s) := by
  induction l generalizing s with
  | nil => rfl
  | cons a l ih => exact (h s a).trans (ih _)

theorem releaseNotices_loopOnly (s : State) : LoopOnly s (releaseNotices s) := by
  refine foldl_loopOnly _ (fun s c => ?_) _ s
  split
  · exact offerNotice_loopOnly c s
  · rfl

theorem evalPulseConds_loopOnly (r : Fin 4) (s : State) : LoopOnly s (evalPulseConds r s) :=
  ((report_loopOnly _ _ s).trans (report_loopOnly _ _ _)).trans (report_loopOnly _ _ _)

theorem evalBatchConds_loopOnly (s : State) : LoopOnly s (evalBatchConds s) :=
  (report_loopOnly _ _ s).trans (report_loopOnly _ _ _)

theorem evalInputConds_loopOnly (b : Fin 16) (s : State) : LoopOnly s (evalInputConds b s) :=
  ((report_loopOnly _ _ s).trans (report_loopOnly _ _ _)).trans (report_loopOnly _ _ _)

theorem evalFlowConds_loopOnly (r : Fin 4) (x : RunSettings) (d : Sampled) (out : IntervalOutput)
    (s : State) : LoopOnly s (evalFlowConds r x d out s) :=
  (((((report_loopOnly _ _ s).trans (report_loopOnly _ _ _)).trans (report_loopOnly _ _ _)).trans
    (report_loopOnly _ _ _)).trans (report_loopOnly _ _ _)).trans (report_loopOnly _ _ _)

theorem quietFlowConds_loopOnly (r : Fin 4) (s : State) : LoopOnly s (quietFlowConds r s) :=
  (((((reportInactive_loopOnly _ s).trans (reportInactive_loopOnly _ _)).trans
    (reportInactive_loopOnly _ _)).trans (reportInactive_loopOnly _ _)).trans
      (reportInactive_loopOnly _ _)).trans (reportInactive_loopOnly _ _)

theorem failInputs_loopOnly (s : State) : LoopOnly s (failInputs s) := by
  refine foldl_loopOnly _ (fun s b => ?_) _ s
  split
  · exact reportActive_loopOnly _ s
  · rfl

theorem offerResult_loopOnly (r : IntervalRecord) (closing : Bool) (s : State) :
    LoopOnly s (offerResult r closing s) := by
  unfold offerResult
  split
  · rfl
  · split
    · exact offer_loopOnly _ s
    · rfl

theorem offerTicket_loopOnly (t : Ticket) (s : State) : LoopOnly s (offerTicket t s) := by
  unfold offerTicket
  split
  · rfl
  · exact offer_loopOnly _ s

theorem offerReport_loopOnly (s : State) : LoopOnly s (offerReport s) := by
  unfold offerReport
  split
  · rfl
  · exact offer_loopOnly _ s

theorem offerReply_loopOnly (src tag : Byte) (code : Nat) (r : Reply) (s : State) :
    LoopOnly s (offerReply src tag code r s) := offer_loopOnly _ s

theorem forwardFrame_loopOnly (f : Frame) (s : State) : LoopOnly s (forwardFrame f s) := by
  unfold forwardFrame
  split
  · exact LoopOnly.trans (t := { s with forward := s.forward ++ [f] }) rfl (beginNext_loopOnly _)
  · let c := { s.counters with forwardOverrun := count1 cap16 s.counters.forwardOverrun }
    exact LoopOnly.trans (t := { s with counters := c }) rfl (occur_loopOnly _ _)

/-! ### The fields that a LoopOnly change keeps -/

theorem LoopOnly.pending {s t : State} (h : LoopOnly s t) : t.pending = s.pending := by rw [h]
theorem LoopOnly.power {s t : State} (h : LoopOnly s t) : t.power = s.power := by rw [h]
theorem LoopOnly.retained {s t : State} (h : LoopOnly s t) : t.retained = s.retained := by rw [h]
theorem LoopOnly.retainedLost {s t : State} (h : LoopOnly s t) : t.retainedLost = s.retainedLost := by rw [h]
theorem LoopOnly.backupLost {s t : State} (h : LoopOnly s t) : t.backupLost = s.backupLost := by rw [h]
theorem LoopOnly.node {s t : State} (h : LoopOnly s t) : t.node = s.node := by rw [h]
theorem LoopOnly.rateCode {s t : State} (h : LoopOnly s t) : t.rateCode = s.rateCode := by rw [h]
theorem LoopOnly.lastStart {s t : State} (h : LoopOnly s t) : t.lastStart = s.lastStart := by rw [h]
theorem LoopOnly.station {s t : State} (h : LoopOnly s t) : t.station = s.station := by rw [h]
theorem LoopOnly.timebase {s t : State} (h : LoopOnly s t) : t.timebase = s.timebase := by rw [h]
theorem LoopOnly.timer {s t : State} (h : LoopOnly s t) : t.timer = s.timer := by rw [h]
theorem LoopOnly.inputDivider {s t : State} (h : LoopOnly s t) : t.inputDivider = s.inputDivider := by rw [h]
theorem LoopOnly.runs {s t : State} (h : LoopOnly s t) : t.runs = s.runs := by rw [h]
theorem LoopOnly.pulses {s t : State} (h : LoopOnly s t) : t.pulses = s.pulses := by rw [h]
theorem LoopOnly.live {s t : State} (h : LoopOnly s t) : t.live = s.live := by rw [h]
theorem LoopOnly.buffer {s t : State} (h : LoopOnly s t) : t.buffer = s.buffer := by rw [h]
theorem LoopOnly.det1 {s t : State} (h : LoopOnly s t) : t.det1 = s.det1 := by rw [h]
theorem LoopOnly.det2 {s t : State} (h : LoopOnly s t) : t.det2 = s.det2 := by rw [h]
theorem LoopOnly.session {s t : State} (h : LoopOnly s t) : t.session = s.session := by rw [h]
theorem LoopOnly.receiver {s t : State} (h : LoopOnly s t) : t.receiver = s.receiver := by rw [h]
theorem LoopOnly.commands {s t : State} (h : LoopOnly s t) : t.commands = s.commands := by rw [h]
theorem LoopOnly.restartPending {s t : State} (h : LoopOnly s t) : t.restartPending = s.restartPending := by rw [h]
theorem LoopOnly.openCount {s t : State} (h : LoopOnly s t) : t.openCount = s.openCount := by rw [h]

/-! #### beginNext -/

@[simp] theorem beginNext_pending (s : State) : (beginNext s).pending = s.pending :=
  (beginNext_loopOnly s).pending
@[simp] theorem beginNext_power (s : State) : (beginNext s).power = s.power :=
  (beginNext_loopOnly s).power
@[simp] theorem beginNext_retained (s : State) : (beginNext s).retained = s.retained :=
  (beginNext_loopOnly s).retained
@[simp] theorem beginNext_retainedLost (s : State) : (beginNext s).retainedLost = s.retainedLost :=
  (beginNext_loopOnly s).retainedLost
@[simp] theorem beginNext_backupLost (s : State) : (beginNext s).backupLost = s.backupLost :=
  (beginNext_loopOnly s).backupLost
@[simp] theorem beginNext_node (s : State) : (beginNext s).node = s.node :=
  (beginNext_loopOnly s).node
@[simp] theorem beginNext_rateCode (s : State) : (beginNext s).rateCode = s.rateCode :=
  (beginNext_loopOnly s).rateCode
@[simp] theorem beginNext_lastStart (s : State) : (beginNext s).lastStart = s.lastStart :=
  (beginNext_loopOnly s).lastStart
@[simp] theorem beginNext_station (s : State) : (beginNext s).station = s.station :=
  (beginNext_loopOnly s).station
@[simp] theorem beginNext_timebase (s : State) : (beginNext s).timebase = s.timebase :=
  (beginNext_loopOnly s).timebase
@[simp] theorem beginNext_timer (s : State) : (beginNext s).timer = s.timer :=
  (beginNext_loopOnly s).timer
@[simp] theorem beginNext_inputDivider (s : State) : (beginNext s).inputDivider = s.inputDivider :=
  (beginNext_loopOnly s).inputDivider
@[simp] theorem beginNext_runs (s : State) : (beginNext s).runs = s.runs :=
  (beginNext_loopOnly s).runs
@[simp] theorem beginNext_pulses (s : State) : (beginNext s).pulses = s.pulses :=
  (beginNext_loopOnly s).pulses
@[simp] theorem beginNext_live (s : State) : (beginNext s).live = s.live :=
  (beginNext_loopOnly s).live
@[simp] theorem beginNext_buffer (s : State) : (beginNext s).buffer = s.buffer :=
  (beginNext_loopOnly s).buffer
@[simp] theorem beginNext_det1 (s : State) : (beginNext s).det1 = s.det1 :=
  (beginNext_loopOnly s).det1
@[simp] theorem beginNext_det2 (s : State) : (beginNext s).det2 = s.det2 :=
  (beginNext_loopOnly s).det2
@[simp] theorem beginNext_session (s : State) : (beginNext s).session = s.session :=
  (beginNext_loopOnly s).session
@[simp] theorem beginNext_receiver (s : State) : (beginNext s).receiver = s.receiver :=
  (beginNext_loopOnly s).receiver
@[simp] theorem beginNext_commands (s : State) : (beginNext s).commands = s.commands :=
  (beginNext_loopOnly s).commands
@[simp] theorem beginNext_restartPending (s : State) :
    (beginNext s).restartPending = s.restartPending := (beginNext_loopOnly s).restartPending
@[simp] theorem beginNext_openCount (s : State) : (beginNext s).openCount = s.openCount :=
  (beginNext_loopOnly s).openCount

/-! #### offer -/

@[simp] theorem offer_pending (f : OutFrame) (s : State) : (offer f s).pending = s.pending :=
  (offer_loopOnly f s).pending
@[simp] theorem offer_power (f : OutFrame) (s : State) : (offer f s).power = s.power :=
  (offer_loopOnly f s).power
@[simp] theorem offer_retained (f : OutFrame) (s : State) : (offer f s).retained = s.retained :=
  (offer_loopOnly f s).retained
@[simp] theorem offer_retainedLost (f : OutFrame) (s : State) :
    (offer f s).retainedLost = s.retainedLost := (offer_loopOnly f s).retainedLost
@[simp] theorem offer_backupLost (f : OutFrame) (s : State) :
    (offer f s).backupLost = s.backupLost := (offer_loopOnly f s).backupLost
@[simp] theorem offer_node (f : OutFrame) (s : State) : (offer f s).node = s.node :=
  (offer_loopOnly f s).node
@[simp] theorem offer_rateCode (f : OutFrame) (s : State) : (offer f s).rateCode = s.rateCode :=
  (offer_loopOnly f s).rateCode
@[simp] theorem offer_lastStart (f : OutFrame) (s : State) : (offer f s).lastStart = s.lastStart :=
  (offer_loopOnly f s).lastStart
@[simp] theorem offer_station (f : OutFrame) (s : State) : (offer f s).station = s.station :=
  (offer_loopOnly f s).station
@[simp] theorem offer_timebase (f : OutFrame) (s : State) : (offer f s).timebase = s.timebase :=
  (offer_loopOnly f s).timebase
@[simp] theorem offer_timer (f : OutFrame) (s : State) : (offer f s).timer = s.timer :=
  (offer_loopOnly f s).timer
@[simp] theorem offer_inputDivider (f : OutFrame) (s : State) :
    (offer f s).inputDivider = s.inputDivider := (offer_loopOnly f s).inputDivider
@[simp] theorem offer_runs (f : OutFrame) (s : State) : (offer f s).runs = s.runs :=
  (offer_loopOnly f s).runs
@[simp] theorem offer_pulses (f : OutFrame) (s : State) : (offer f s).pulses = s.pulses :=
  (offer_loopOnly f s).pulses
@[simp] theorem offer_live (f : OutFrame) (s : State) : (offer f s).live = s.live :=
  (offer_loopOnly f s).live
@[simp] theorem offer_buffer (f : OutFrame) (s : State) : (offer f s).buffer = s.buffer :=
  (offer_loopOnly f s).buffer
@[simp] theorem offer_det1 (f : OutFrame) (s : State) : (offer f s).det1 = s.det1 :=
  (offer_loopOnly f s).det1
@[simp] theorem offer_det2 (f : OutFrame) (s : State) : (offer f s).det2 = s.det2 :=
  (offer_loopOnly f s).det2
@[simp] theorem offer_session (f : OutFrame) (s : State) : (offer f s).session = s.session :=
  (offer_loopOnly f s).session
@[simp] theorem offer_receiver (f : OutFrame) (s : State) : (offer f s).receiver = s.receiver :=
  (offer_loopOnly f s).receiver
@[simp] theorem offer_commands (f : OutFrame) (s : State) : (offer f s).commands = s.commands :=
  (offer_loopOnly f s).commands
@[simp] theorem offer_restartPending (f : OutFrame) (s : State) :
    (offer f s).restartPending = s.restartPending := (offer_loopOnly f s).restartPending
@[simp] theorem offer_openCount (f : OutFrame) (s : State) : (offer f s).openCount = s.openCount :=
  (offer_loopOnly f s).openCount

/-! #### offerNotice -/

@[simp] theorem offerNotice_pending (c : CondId) (s : State) :
    (offerNotice c s).pending = s.pending := (offerNotice_loopOnly c s).pending
@[simp] theorem offerNotice_power (c : CondId) (s : State) : (offerNotice c s).power = s.power :=
  (offerNotice_loopOnly c s).power
@[simp] theorem offerNotice_retained (c : CondId) (s : State) :
    (offerNotice c s).retained = s.retained := (offerNotice_loopOnly c s).retained
@[simp] theorem offerNotice_retainedLost (c : CondId) (s : State) :
    (offerNotice c s).retainedLost = s.retainedLost := (offerNotice_loopOnly c s).retainedLost
@[simp] theorem offerNotice_backupLost (c : CondId) (s : State) :
    (offerNotice c s).backupLost = s.backupLost := (offerNotice_loopOnly c s).backupLost
@[simp] theorem offerNotice_node (c : CondId) (s : State) : (offerNotice c s).node = s.node :=
  (offerNotice_loopOnly c s).node
@[simp] theorem offerNotice_rateCode (c : CondId) (s : State) :
    (offerNotice c s).rateCode = s.rateCode := (offerNotice_loopOnly c s).rateCode
@[simp] theorem offerNotice_lastStart (c : CondId) (s : State) :
    (offerNotice c s).lastStart = s.lastStart := (offerNotice_loopOnly c s).lastStart
@[simp] theorem offerNotice_station (c : CondId) (s : State) :
    (offerNotice c s).station = s.station := (offerNotice_loopOnly c s).station
@[simp] theorem offerNotice_timebase (c : CondId) (s : State) :
    (offerNotice c s).timebase = s.timebase := (offerNotice_loopOnly c s).timebase
@[simp] theorem offerNotice_timer (c : CondId) (s : State) : (offerNotice c s).timer = s.timer :=
  (offerNotice_loopOnly c s).timer
@[simp] theorem offerNotice_inputDivider (c : CondId) (s : State) :
    (offerNotice c s).inputDivider = s.inputDivider := (offerNotice_loopOnly c s).inputDivider
@[simp] theorem offerNotice_runs (c : CondId) (s : State) : (offerNotice c s).runs = s.runs :=
  (offerNotice_loopOnly c s).runs
@[simp] theorem offerNotice_pulses (c : CondId) (s : State) : (offerNotice c s).pulses = s.pulses :=
  (offerNotice_loopOnly c s).pulses
@[simp] theorem offerNotice_live (c : CondId) (s : State) : (offerNotice c s).live = s.live :=
  (offerNotice_loopOnly c s).live
@[simp] theorem offerNotice_buffer (c : CondId) (s : State) : (offerNotice c s).buffer = s.buffer :=
  (offerNotice_loopOnly c s).buffer
@[simp] theorem offerNotice_det1 (c : CondId) (s : State) : (offerNotice c s).det1 = s.det1 :=
  (offerNotice_loopOnly c s).det1
@[simp] theorem offerNotice_det2 (c : CondId) (s : State) : (offerNotice c s).det2 = s.det2 :=
  (offerNotice_loopOnly c s).det2
@[simp] theorem offerNotice_session (c : CondId) (s : State) :
    (offerNotice c s).session = s.session := (offerNotice_loopOnly c s).session
@[simp] theorem offerNotice_receiver (c : CondId) (s : State) :
    (offerNotice c s).receiver = s.receiver := (offerNotice_loopOnly c s).receiver
@[simp] theorem offerNotice_commands (c : CondId) (s : State) :
    (offerNotice c s).commands = s.commands := (offerNotice_loopOnly c s).commands
@[simp] theorem offerNotice_restartPending (c : CondId) (s : State) :
    (offerNotice c s).restartPending = s.restartPending := (offerNotice_loopOnly c s).restartPending
@[simp] theorem offerNotice_openCount (c : CondId) (s : State) :
    (offerNotice c s).openCount = s.openCount := (offerNotice_loopOnly c s).openCount

/-! #### occur -/

@[simp] theorem occur_pending (c : CondId) (s : State) : (occur c s).pending = s.pending :=
  (occur_loopOnly c s).pending
@[simp] theorem occur_power (c : CondId) (s : State) : (occur c s).power = s.power :=
  (occur_loopOnly c s).power
@[simp] theorem occur_retained (c : CondId) (s : State) : (occur c s).retained = s.retained :=
  (occur_loopOnly c s).retained
@[simp] theorem occur_retainedLost (c : CondId) (s : State) :
    (occur c s).retainedLost = s.retainedLost := (occur_loopOnly c s).retainedLost
@[simp] theorem occur_backupLost (c : CondId) (s : State) :
    (occur c s).backupLost = s.backupLost := (occur_loopOnly c s).backupLost
@[simp] theorem occur_node (c : CondId) (s : State) : (occur c s).node = s.node :=
  (occur_loopOnly c s).node
@[simp] theorem occur_rateCode (c : CondId) (s : State) : (occur c s).rateCode = s.rateCode :=
  (occur_loopOnly c s).rateCode
@[simp] theorem occur_lastStart (c : CondId) (s : State) : (occur c s).lastStart = s.lastStart :=
  (occur_loopOnly c s).lastStart
@[simp] theorem occur_station (c : CondId) (s : State) : (occur c s).station = s.station :=
  (occur_loopOnly c s).station
@[simp] theorem occur_timebase (c : CondId) (s : State) : (occur c s).timebase = s.timebase :=
  (occur_loopOnly c s).timebase
@[simp] theorem occur_timer (c : CondId) (s : State) : (occur c s).timer = s.timer :=
  (occur_loopOnly c s).timer
@[simp] theorem occur_inputDivider (c : CondId) (s : State) :
    (occur c s).inputDivider = s.inputDivider := (occur_loopOnly c s).inputDivider
@[simp] theorem occur_runs (c : CondId) (s : State) : (occur c s).runs = s.runs :=
  (occur_loopOnly c s).runs
@[simp] theorem occur_pulses (c : CondId) (s : State) : (occur c s).pulses = s.pulses :=
  (occur_loopOnly c s).pulses
@[simp] theorem occur_live (c : CondId) (s : State) : (occur c s).live = s.live :=
  (occur_loopOnly c s).live
@[simp] theorem occur_buffer (c : CondId) (s : State) : (occur c s).buffer = s.buffer :=
  (occur_loopOnly c s).buffer
@[simp] theorem occur_det1 (c : CondId) (s : State) : (occur c s).det1 = s.det1 :=
  (occur_loopOnly c s).det1
@[simp] theorem occur_det2 (c : CondId) (s : State) : (occur c s).det2 = s.det2 :=
  (occur_loopOnly c s).det2
@[simp] theorem occur_session (c : CondId) (s : State) : (occur c s).session = s.session :=
  (occur_loopOnly c s).session
@[simp] theorem occur_receiver (c : CondId) (s : State) : (occur c s).receiver = s.receiver :=
  (occur_loopOnly c s).receiver
@[simp] theorem occur_commands (c : CondId) (s : State) : (occur c s).commands = s.commands :=
  (occur_loopOnly c s).commands
@[simp] theorem occur_restartPending (c : CondId) (s : State) :
    (occur c s).restartPending = s.restartPending := (occur_loopOnly c s).restartPending
@[simp] theorem occur_openCount (c : CondId) (s : State) : (occur c s).openCount = s.openCount :=
  (occur_loopOnly c s).openCount

/-! #### report -/

@[simp] theorem report_pending (c : CondId) (b : Bool) (s : State) :
    (report c b s).pending = s.pending := (report_loopOnly c b s).pending
@[simp] theorem report_power (c : CondId) (b : Bool) (s : State) : (report c b s).power = s.power :=
  (report_loopOnly c b s).power
@[simp] theorem report_retained (c : CondId) (b : Bool) (s : State) :
    (report c b s).retained = s.retained := (report_loopOnly c b s).retained
@[simp] theorem report_retainedLost (c : CondId) (b : Bool) (s : State) :
    (report c b s).retainedLost = s.retainedLost := (report_loopOnly c b s).retainedLost
@[simp] theorem report_backupLost (c : CondId) (b : Bool) (s : State) :
    (report c b s).backupLost = s.backupLost := (report_loopOnly c b s).backupLost
@[simp] theorem report_node (c : CondId) (b : Bool) (s : State) : (report c b s).node = s.node :=
  (report_loopOnly c b s).node
@[simp] theorem report_rateCode (c : CondId) (b : Bool) (s : State) :
    (report c b s).rateCode = s.rateCode := (report_loopOnly c b s).rateCode
@[simp] theorem report_lastStart (c : CondId) (b : Bool) (s : State) :
    (report c b s).lastStart = s.lastStart := (report_loopOnly c b s).lastStart
@[simp] theorem report_station (c : CondId) (b : Bool) (s : State) :
    (report c b s).station = s.station := (report_loopOnly c b s).station
@[simp] theorem report_timebase (c : CondId) (b : Bool) (s : State) :
    (report c b s).timebase = s.timebase := (report_loopOnly c b s).timebase
@[simp] theorem report_timer (c : CondId) (b : Bool) (s : State) : (report c b s).timer = s.timer :=
  (report_loopOnly c b s).timer
@[simp] theorem report_inputDivider (c : CondId) (b : Bool) (s : State) :
    (report c b s).inputDivider = s.inputDivider := (report_loopOnly c b s).inputDivider
@[simp] theorem report_runs (c : CondId) (b : Bool) (s : State) : (report c b s).runs = s.runs :=
  (report_loopOnly c b s).runs
@[simp] theorem report_pulses (c : CondId) (b : Bool) (s : State) :
    (report c b s).pulses = s.pulses := (report_loopOnly c b s).pulses
@[simp] theorem report_live (c : CondId) (b : Bool) (s : State) : (report c b s).live = s.live :=
  (report_loopOnly c b s).live
@[simp] theorem report_buffer (c : CondId) (b : Bool) (s : State) :
    (report c b s).buffer = s.buffer := (report_loopOnly c b s).buffer
@[simp] theorem report_det1 (c : CondId) (b : Bool) (s : State) : (report c b s).det1 = s.det1 :=
  (report_loopOnly c b s).det1
@[simp] theorem report_det2 (c : CondId) (b : Bool) (s : State) : (report c b s).det2 = s.det2 :=
  (report_loopOnly c b s).det2
@[simp] theorem report_session (c : CondId) (b : Bool) (s : State) :
    (report c b s).session = s.session := (report_loopOnly c b s).session
@[simp] theorem report_receiver (c : CondId) (b : Bool) (s : State) :
    (report c b s).receiver = s.receiver := (report_loopOnly c b s).receiver
@[simp] theorem report_commands (c : CondId) (b : Bool) (s : State) :
    (report c b s).commands = s.commands := (report_loopOnly c b s).commands
@[simp] theorem report_restartPending (c : CondId) (b : Bool) (s : State) :
    (report c b s).restartPending = s.restartPending := (report_loopOnly c b s).restartPending
@[simp] theorem report_openCount (c : CondId) (b : Bool) (s : State) :
    (report c b s).openCount = s.openCount := (report_loopOnly c b s).openCount

/-! #### releaseNotices -/

@[simp] theorem releaseNotices_pending (s : State) : (releaseNotices s).pending = s.pending :=
  (releaseNotices_loopOnly s).pending
@[simp] theorem releaseNotices_power (s : State) : (releaseNotices s).power = s.power :=
  (releaseNotices_loopOnly s).power
@[simp] theorem releaseNotices_retained (s : State) : (releaseNotices s).retained = s.retained :=
  (releaseNotices_loopOnly s).retained
@[simp] theorem releaseNotices_retainedLost (s : State) :
    (releaseNotices s).retainedLost = s.retainedLost := (releaseNotices_loopOnly s).retainedLost
@[simp] theorem releaseNotices_backupLost (s : State) :
    (releaseNotices s).backupLost = s.backupLost := (releaseNotices_loopOnly s).backupLost
@[simp] theorem releaseNotices_node (s : State) : (releaseNotices s).node = s.node :=
  (releaseNotices_loopOnly s).node
@[simp] theorem releaseNotices_rateCode (s : State) : (releaseNotices s).rateCode = s.rateCode :=
  (releaseNotices_loopOnly s).rateCode
@[simp] theorem releaseNotices_lastStart (s : State) : (releaseNotices s).lastStart = s.lastStart :=
  (releaseNotices_loopOnly s).lastStart
@[simp] theorem releaseNotices_station (s : State) : (releaseNotices s).station = s.station :=
  (releaseNotices_loopOnly s).station
@[simp] theorem releaseNotices_timebase (s : State) : (releaseNotices s).timebase = s.timebase :=
  (releaseNotices_loopOnly s).timebase
@[simp] theorem releaseNotices_timer (s : State) : (releaseNotices s).timer = s.timer :=
  (releaseNotices_loopOnly s).timer
@[simp] theorem releaseNotices_inputDivider (s : State) :
    (releaseNotices s).inputDivider = s.inputDivider := (releaseNotices_loopOnly s).inputDivider
@[simp] theorem releaseNotices_runs (s : State) : (releaseNotices s).runs = s.runs :=
  (releaseNotices_loopOnly s).runs
@[simp] theorem releaseNotices_pulses (s : State) : (releaseNotices s).pulses = s.pulses :=
  (releaseNotices_loopOnly s).pulses
@[simp] theorem releaseNotices_live (s : State) : (releaseNotices s).live = s.live :=
  (releaseNotices_loopOnly s).live
@[simp] theorem releaseNotices_buffer (s : State) : (releaseNotices s).buffer = s.buffer :=
  (releaseNotices_loopOnly s).buffer
@[simp] theorem releaseNotices_det1 (s : State) : (releaseNotices s).det1 = s.det1 :=
  (releaseNotices_loopOnly s).det1
@[simp] theorem releaseNotices_det2 (s : State) : (releaseNotices s).det2 = s.det2 :=
  (releaseNotices_loopOnly s).det2
@[simp] theorem releaseNotices_session (s : State) : (releaseNotices s).session = s.session :=
  (releaseNotices_loopOnly s).session
@[simp] theorem releaseNotices_receiver (s : State) : (releaseNotices s).receiver = s.receiver :=
  (releaseNotices_loopOnly s).receiver
@[simp] theorem releaseNotices_commands (s : State) : (releaseNotices s).commands = s.commands :=
  (releaseNotices_loopOnly s).commands
@[simp] theorem releaseNotices_restartPending (s : State) :
    (releaseNotices s).restartPending = s.restartPending := (releaseNotices_loopOnly s).restartPending
@[simp] theorem releaseNotices_openCount (s : State) : (releaseNotices s).openCount = s.openCount :=
  (releaseNotices_loopOnly s).openCount

/-! #### evalPulseConds -/

@[simp] theorem evalPulseConds_pending (r : Fin 4) (s : State) :
    (evalPulseConds r s).pending = s.pending := (evalPulseConds_loopOnly r s).pending
@[simp] theorem evalPulseConds_power (r : Fin 4) (s : State) :
    (evalPulseConds r s).power = s.power := (evalPulseConds_loopOnly r s).power
@[simp] theorem evalPulseConds_retained (r : Fin 4) (s : State) :
    (evalPulseConds r s).retained = s.retained := (evalPulseConds_loopOnly r s).retained
@[simp] theorem evalPulseConds_retainedLost (r : Fin 4) (s : State) :
    (evalPulseConds r s).retainedLost = s.retainedLost := (evalPulseConds_loopOnly r s).retainedLost
@[simp] theorem evalPulseConds_backupLost (r : Fin 4) (s : State) :
    (evalPulseConds r s).backupLost = s.backupLost := (evalPulseConds_loopOnly r s).backupLost
@[simp] theorem evalPulseConds_node (r : Fin 4) (s : State) : (evalPulseConds r s).node = s.node :=
  (evalPulseConds_loopOnly r s).node
@[simp] theorem evalPulseConds_rateCode (r : Fin 4) (s : State) :
    (evalPulseConds r s).rateCode = s.rateCode := (evalPulseConds_loopOnly r s).rateCode
@[simp] theorem evalPulseConds_lastStart (r : Fin 4) (s : State) :
    (evalPulseConds r s).lastStart = s.lastStart := (evalPulseConds_loopOnly r s).lastStart
@[simp] theorem evalPulseConds_station (r : Fin 4) (s : State) :
    (evalPulseConds r s).station = s.station := (evalPulseConds_loopOnly r s).station
@[simp] theorem evalPulseConds_timebase (r : Fin 4) (s : State) :
    (evalPulseConds r s).timebase = s.timebase := (evalPulseConds_loopOnly r s).timebase
@[simp] theorem evalPulseConds_timer (r : Fin 4) (s : State) :
    (evalPulseConds r s).timer = s.timer := (evalPulseConds_loopOnly r s).timer
@[simp] theorem evalPulseConds_inputDivider (r : Fin 4) (s : State) :
    (evalPulseConds r s).inputDivider = s.inputDivider := (evalPulseConds_loopOnly r s).inputDivider
@[simp] theorem evalPulseConds_runs (r : Fin 4) (s : State) : (evalPulseConds r s).runs = s.runs :=
  (evalPulseConds_loopOnly r s).runs
@[simp] theorem evalPulseConds_pulses (r : Fin 4) (s : State) :
    (evalPulseConds r s).pulses = s.pulses := (evalPulseConds_loopOnly r s).pulses
@[simp] theorem evalPulseConds_live (r : Fin 4) (s : State) : (evalPulseConds r s).live = s.live :=
  (evalPulseConds_loopOnly r s).live
@[simp] theorem evalPulseConds_buffer (r : Fin 4) (s : State) :
    (evalPulseConds r s).buffer = s.buffer := (evalPulseConds_loopOnly r s).buffer
@[simp] theorem evalPulseConds_det1 (r : Fin 4) (s : State) : (evalPulseConds r s).det1 = s.det1 :=
  (evalPulseConds_loopOnly r s).det1
@[simp] theorem evalPulseConds_det2 (r : Fin 4) (s : State) : (evalPulseConds r s).det2 = s.det2 :=
  (evalPulseConds_loopOnly r s).det2
@[simp] theorem evalPulseConds_session (r : Fin 4) (s : State) :
    (evalPulseConds r s).session = s.session := (evalPulseConds_loopOnly r s).session
@[simp] theorem evalPulseConds_receiver (r : Fin 4) (s : State) :
    (evalPulseConds r s).receiver = s.receiver := (evalPulseConds_loopOnly r s).receiver
@[simp] theorem evalPulseConds_commands (r : Fin 4) (s : State) :
    (evalPulseConds r s).commands = s.commands := (evalPulseConds_loopOnly r s).commands
@[simp] theorem evalPulseConds_restartPending (r : Fin 4) (s : State) :
    (evalPulseConds r s).restartPending = s.restartPending := (evalPulseConds_loopOnly r s).restartPending
@[simp] theorem evalPulseConds_openCount (r : Fin 4) (s : State) :
    (evalPulseConds r s).openCount = s.openCount := (evalPulseConds_loopOnly r s).openCount

/-! #### evalBatchConds -/

@[simp] theorem evalBatchConds_pending (s : State) : (evalBatchConds s).pending = s.pending :=
  (evalBatchConds_loopOnly s).pending
@[simp] theorem evalBatchConds_power (s : State) : (evalBatchConds s).power = s.power :=
  (evalBatchConds_loopOnly s).power
@[simp] theorem evalBatchConds_retained (s : State) : (evalBatchConds s).retained = s.retained :=
  (evalBatchConds_loopOnly s).retained
@[simp] theorem evalBatchConds_retainedLost (s : State) :
    (evalBatchConds s).retainedLost = s.retainedLost := (evalBatchConds_loopOnly s).retainedLost
@[simp] theorem evalBatchConds_backupLost (s : State) :
    (evalBatchConds s).backupLost = s.backupLost := (evalBatchConds_loopOnly s).backupLost
@[simp] theorem evalBatchConds_node (s : State) : (evalBatchConds s).node = s.node :=
  (evalBatchConds_loopOnly s).node
@[simp] theorem evalBatchConds_rateCode (s : State) : (evalBatchConds s).rateCode = s.rateCode :=
  (evalBatchConds_loopOnly s).rateCode
@[simp] theorem evalBatchConds_lastStart (s : State) : (evalBatchConds s).lastStart = s.lastStart :=
  (evalBatchConds_loopOnly s).lastStart
@[simp] theorem evalBatchConds_station (s : State) : (evalBatchConds s).station = s.station :=
  (evalBatchConds_loopOnly s).station
@[simp] theorem evalBatchConds_timebase (s : State) : (evalBatchConds s).timebase = s.timebase :=
  (evalBatchConds_loopOnly s).timebase
@[simp] theorem evalBatchConds_timer (s : State) : (evalBatchConds s).timer = s.timer :=
  (evalBatchConds_loopOnly s).timer
@[simp] theorem evalBatchConds_inputDivider (s : State) :
    (evalBatchConds s).inputDivider = s.inputDivider := (evalBatchConds_loopOnly s).inputDivider
@[simp] theorem evalBatchConds_runs (s : State) : (evalBatchConds s).runs = s.runs :=
  (evalBatchConds_loopOnly s).runs
@[simp] theorem evalBatchConds_pulses (s : State) : (evalBatchConds s).pulses = s.pulses :=
  (evalBatchConds_loopOnly s).pulses
@[simp] theorem evalBatchConds_live (s : State) : (evalBatchConds s).live = s.live :=
  (evalBatchConds_loopOnly s).live
@[simp] theorem evalBatchConds_buffer (s : State) : (evalBatchConds s).buffer = s.buffer :=
  (evalBatchConds_loopOnly s).buffer
@[simp] theorem evalBatchConds_det1 (s : State) : (evalBatchConds s).det1 = s.det1 :=
  (evalBatchConds_loopOnly s).det1
@[simp] theorem evalBatchConds_det2 (s : State) : (evalBatchConds s).det2 = s.det2 :=
  (evalBatchConds_loopOnly s).det2
@[simp] theorem evalBatchConds_session (s : State) : (evalBatchConds s).session = s.session :=
  (evalBatchConds_loopOnly s).session
@[simp] theorem evalBatchConds_receiver (s : State) : (evalBatchConds s).receiver = s.receiver :=
  (evalBatchConds_loopOnly s).receiver
@[simp] theorem evalBatchConds_commands (s : State) : (evalBatchConds s).commands = s.commands :=
  (evalBatchConds_loopOnly s).commands
@[simp] theorem evalBatchConds_restartPending (s : State) :
    (evalBatchConds s).restartPending = s.restartPending := (evalBatchConds_loopOnly s).restartPending
@[simp] theorem evalBatchConds_openCount (s : State) : (evalBatchConds s).openCount = s.openCount :=
  (evalBatchConds_loopOnly s).openCount

/-! #### evalInputConds -/

@[simp] theorem evalInputConds_pending (b : Fin 16) (s : State) :
    (evalInputConds b s).pending = s.pending := (evalInputConds_loopOnly b s).pending
@[simp] theorem evalInputConds_power (b : Fin 16) (s : State) :
    (evalInputConds b s).power = s.power := (evalInputConds_loopOnly b s).power
@[simp] theorem evalInputConds_retained (b : Fin 16) (s : State) :
    (evalInputConds b s).retained = s.retained := (evalInputConds_loopOnly b s).retained
@[simp] theorem evalInputConds_retainedLost (b : Fin 16) (s : State) :
    (evalInputConds b s).retainedLost = s.retainedLost := (evalInputConds_loopOnly b s).retainedLost
@[simp] theorem evalInputConds_backupLost (b : Fin 16) (s : State) :
    (evalInputConds b s).backupLost = s.backupLost := (evalInputConds_loopOnly b s).backupLost
@[simp] theorem evalInputConds_node (b : Fin 16) (s : State) : (evalInputConds b s).node = s.node :=
  (evalInputConds_loopOnly b s).node
@[simp] theorem evalInputConds_rateCode (b : Fin 16) (s : State) :
    (evalInputConds b s).rateCode = s.rateCode := (evalInputConds_loopOnly b s).rateCode
@[simp] theorem evalInputConds_lastStart (b : Fin 16) (s : State) :
    (evalInputConds b s).lastStart = s.lastStart := (evalInputConds_loopOnly b s).lastStart
@[simp] theorem evalInputConds_station (b : Fin 16) (s : State) :
    (evalInputConds b s).station = s.station := (evalInputConds_loopOnly b s).station
@[simp] theorem evalInputConds_timebase (b : Fin 16) (s : State) :
    (evalInputConds b s).timebase = s.timebase := (evalInputConds_loopOnly b s).timebase
@[simp] theorem evalInputConds_timer (b : Fin 16) (s : State) :
    (evalInputConds b s).timer = s.timer := (evalInputConds_loopOnly b s).timer
@[simp] theorem evalInputConds_inputDivider (b : Fin 16) (s : State) :
    (evalInputConds b s).inputDivider = s.inputDivider := (evalInputConds_loopOnly b s).inputDivider
@[simp] theorem evalInputConds_runs (b : Fin 16) (s : State) : (evalInputConds b s).runs = s.runs :=
  (evalInputConds_loopOnly b s).runs
@[simp] theorem evalInputConds_pulses (b : Fin 16) (s : State) :
    (evalInputConds b s).pulses = s.pulses := (evalInputConds_loopOnly b s).pulses
@[simp] theorem evalInputConds_live (b : Fin 16) (s : State) : (evalInputConds b s).live = s.live :=
  (evalInputConds_loopOnly b s).live
@[simp] theorem evalInputConds_buffer (b : Fin 16) (s : State) :
    (evalInputConds b s).buffer = s.buffer := (evalInputConds_loopOnly b s).buffer
@[simp] theorem evalInputConds_det1 (b : Fin 16) (s : State) : (evalInputConds b s).det1 = s.det1 :=
  (evalInputConds_loopOnly b s).det1
@[simp] theorem evalInputConds_det2 (b : Fin 16) (s : State) : (evalInputConds b s).det2 = s.det2 :=
  (evalInputConds_loopOnly b s).det2
@[simp] theorem evalInputConds_session (b : Fin 16) (s : State) :
    (evalInputConds b s).session = s.session := (evalInputConds_loopOnly b s).session
@[simp] theorem evalInputConds_receiver (b : Fin 16) (s : State) :
    (evalInputConds b s).receiver = s.receiver := (evalInputConds_loopOnly b s).receiver
@[simp] theorem evalInputConds_commands (b : Fin 16) (s : State) :
    (evalInputConds b s).commands = s.commands := (evalInputConds_loopOnly b s).commands
@[simp] theorem evalInputConds_restartPending (b : Fin 16) (s : State) :
    (evalInputConds b s).restartPending = s.restartPending := (evalInputConds_loopOnly b s).restartPending
@[simp] theorem evalInputConds_openCount (b : Fin 16) (s : State) :
    (evalInputConds b s).openCount = s.openCount := (evalInputConds_loopOnly b s).openCount

/-! #### quietFlowConds -/

@[simp] theorem quietFlowConds_pending (r : Fin 4) (s : State) :
    (quietFlowConds r s).pending = s.pending := (quietFlowConds_loopOnly r s).pending
@[simp] theorem quietFlowConds_power (r : Fin 4) (s : State) :
    (quietFlowConds r s).power = s.power := (quietFlowConds_loopOnly r s).power
@[simp] theorem quietFlowConds_retained (r : Fin 4) (s : State) :
    (quietFlowConds r s).retained = s.retained := (quietFlowConds_loopOnly r s).retained
@[simp] theorem quietFlowConds_retainedLost (r : Fin 4) (s : State) :
    (quietFlowConds r s).retainedLost = s.retainedLost := (quietFlowConds_loopOnly r s).retainedLost
@[simp] theorem quietFlowConds_backupLost (r : Fin 4) (s : State) :
    (quietFlowConds r s).backupLost = s.backupLost := (quietFlowConds_loopOnly r s).backupLost
@[simp] theorem quietFlowConds_node (r : Fin 4) (s : State) : (quietFlowConds r s).node = s.node :=
  (quietFlowConds_loopOnly r s).node
@[simp] theorem quietFlowConds_rateCode (r : Fin 4) (s : State) :
    (quietFlowConds r s).rateCode = s.rateCode := (quietFlowConds_loopOnly r s).rateCode
@[simp] theorem quietFlowConds_lastStart (r : Fin 4) (s : State) :
    (quietFlowConds r s).lastStart = s.lastStart := (quietFlowConds_loopOnly r s).lastStart
@[simp] theorem quietFlowConds_station (r : Fin 4) (s : State) :
    (quietFlowConds r s).station = s.station := (quietFlowConds_loopOnly r s).station
@[simp] theorem quietFlowConds_timebase (r : Fin 4) (s : State) :
    (quietFlowConds r s).timebase = s.timebase := (quietFlowConds_loopOnly r s).timebase
@[simp] theorem quietFlowConds_timer (r : Fin 4) (s : State) :
    (quietFlowConds r s).timer = s.timer := (quietFlowConds_loopOnly r s).timer
@[simp] theorem quietFlowConds_inputDivider (r : Fin 4) (s : State) :
    (quietFlowConds r s).inputDivider = s.inputDivider := (quietFlowConds_loopOnly r s).inputDivider
@[simp] theorem quietFlowConds_runs (r : Fin 4) (s : State) : (quietFlowConds r s).runs = s.runs :=
  (quietFlowConds_loopOnly r s).runs
@[simp] theorem quietFlowConds_pulses (r : Fin 4) (s : State) :
    (quietFlowConds r s).pulses = s.pulses := (quietFlowConds_loopOnly r s).pulses
@[simp] theorem quietFlowConds_live (r : Fin 4) (s : State) : (quietFlowConds r s).live = s.live :=
  (quietFlowConds_loopOnly r s).live
@[simp] theorem quietFlowConds_buffer (r : Fin 4) (s : State) :
    (quietFlowConds r s).buffer = s.buffer := (quietFlowConds_loopOnly r s).buffer
@[simp] theorem quietFlowConds_det1 (r : Fin 4) (s : State) : (quietFlowConds r s).det1 = s.det1 :=
  (quietFlowConds_loopOnly r s).det1
@[simp] theorem quietFlowConds_det2 (r : Fin 4) (s : State) : (quietFlowConds r s).det2 = s.det2 :=
  (quietFlowConds_loopOnly r s).det2
@[simp] theorem quietFlowConds_session (r : Fin 4) (s : State) :
    (quietFlowConds r s).session = s.session := (quietFlowConds_loopOnly r s).session
@[simp] theorem quietFlowConds_receiver (r : Fin 4) (s : State) :
    (quietFlowConds r s).receiver = s.receiver := (quietFlowConds_loopOnly r s).receiver
@[simp] theorem quietFlowConds_commands (r : Fin 4) (s : State) :
    (quietFlowConds r s).commands = s.commands := (quietFlowConds_loopOnly r s).commands
@[simp] theorem quietFlowConds_restartPending (r : Fin 4) (s : State) :
    (quietFlowConds r s).restartPending = s.restartPending := (quietFlowConds_loopOnly r s).restartPending
@[simp] theorem quietFlowConds_openCount (r : Fin 4) (s : State) :
    (quietFlowConds r s).openCount = s.openCount := (quietFlowConds_loopOnly r s).openCount

/-! #### failInputs -/

@[simp] theorem failInputs_pending (s : State) : (failInputs s).pending = s.pending :=
  (failInputs_loopOnly s).pending
@[simp] theorem failInputs_power (s : State) : (failInputs s).power = s.power :=
  (failInputs_loopOnly s).power
@[simp] theorem failInputs_retained (s : State) : (failInputs s).retained = s.retained :=
  (failInputs_loopOnly s).retained
@[simp] theorem failInputs_retainedLost (s : State) :
    (failInputs s).retainedLost = s.retainedLost := (failInputs_loopOnly s).retainedLost
@[simp] theorem failInputs_backupLost (s : State) :
    (failInputs s).backupLost = s.backupLost := (failInputs_loopOnly s).backupLost
@[simp] theorem failInputs_node (s : State) : (failInputs s).node = s.node :=
  (failInputs_loopOnly s).node
@[simp] theorem failInputs_rateCode (s : State) : (failInputs s).rateCode = s.rateCode :=
  (failInputs_loopOnly s).rateCode
@[simp] theorem failInputs_lastStart (s : State) : (failInputs s).lastStart = s.lastStart :=
  (failInputs_loopOnly s).lastStart
@[simp] theorem failInputs_station (s : State) : (failInputs s).station = s.station :=
  (failInputs_loopOnly s).station
@[simp] theorem failInputs_timebase (s : State) : (failInputs s).timebase = s.timebase :=
  (failInputs_loopOnly s).timebase
@[simp] theorem failInputs_timer (s : State) : (failInputs s).timer = s.timer :=
  (failInputs_loopOnly s).timer
@[simp] theorem failInputs_inputDivider (s : State) :
    (failInputs s).inputDivider = s.inputDivider := (failInputs_loopOnly s).inputDivider
@[simp] theorem failInputs_runs (s : State) : (failInputs s).runs = s.runs :=
  (failInputs_loopOnly s).runs
@[simp] theorem failInputs_pulses (s : State) : (failInputs s).pulses = s.pulses :=
  (failInputs_loopOnly s).pulses
@[simp] theorem failInputs_live (s : State) : (failInputs s).live = s.live :=
  (failInputs_loopOnly s).live
@[simp] theorem failInputs_buffer (s : State) : (failInputs s).buffer = s.buffer :=
  (failInputs_loopOnly s).buffer
@[simp] theorem failInputs_det1 (s : State) : (failInputs s).det1 = s.det1 :=
  (failInputs_loopOnly s).det1
@[simp] theorem failInputs_det2 (s : State) : (failInputs s).det2 = s.det2 :=
  (failInputs_loopOnly s).det2
@[simp] theorem failInputs_session (s : State) : (failInputs s).session = s.session :=
  (failInputs_loopOnly s).session
@[simp] theorem failInputs_receiver (s : State) : (failInputs s).receiver = s.receiver :=
  (failInputs_loopOnly s).receiver
@[simp] theorem failInputs_commands (s : State) : (failInputs s).commands = s.commands :=
  (failInputs_loopOnly s).commands
@[simp] theorem failInputs_restartPending (s : State) :
    (failInputs s).restartPending = s.restartPending := (failInputs_loopOnly s).restartPending
@[simp] theorem failInputs_openCount (s : State) : (failInputs s).openCount = s.openCount :=
  (failInputs_loopOnly s).openCount

/-! #### offerResult -/

@[simp] theorem offerResult_pending (r : IntervalRecord) (c : Bool) (s : State) :
    (offerResult r c s).pending = s.pending := (offerResult_loopOnly r c s).pending
@[simp] theorem offerResult_power (r : IntervalRecord) (c : Bool) (s : State) :
    (offerResult r c s).power = s.power := (offerResult_loopOnly r c s).power
@[simp] theorem offerResult_retained (r : IntervalRecord) (c : Bool) (s : State) :
    (offerResult r c s).retained = s.retained := (offerResult_loopOnly r c s).retained
@[simp] theorem offerResult_retainedLost (r : IntervalRecord) (c : Bool) (s : State) :
    (offerResult r c s).retainedLost = s.retainedLost := (offerResult_loopOnly r c s).retainedLost
@[simp] theorem offerResult_backupLost (r : IntervalRecord) (c : Bool) (s : State) :
    (offerResult r c s).backupLost = s.backupLost := (offerResult_loopOnly r c s).backupLost
@[simp] theorem offerResult_node (r : IntervalRecord) (c : Bool) (s : State) :
    (offerResult r c s).node = s.node := (offerResult_loopOnly r c s).node
@[simp] theorem offerResult_rateCode (r : IntervalRecord) (c : Bool) (s : State) :
    (offerResult r c s).rateCode = s.rateCode := (offerResult_loopOnly r c s).rateCode
@[simp] theorem offerResult_lastStart (r : IntervalRecord) (c : Bool) (s : State) :
    (offerResult r c s).lastStart = s.lastStart := (offerResult_loopOnly r c s).lastStart
@[simp] theorem offerResult_station (r : IntervalRecord) (c : Bool) (s : State) :
    (offerResult r c s).station = s.station := (offerResult_loopOnly r c s).station
@[simp] theorem offerResult_timebase (r : IntervalRecord) (c : Bool) (s : State) :
    (offerResult r c s).timebase = s.timebase := (offerResult_loopOnly r c s).timebase
@[simp] theorem offerResult_timer (r : IntervalRecord) (c : Bool) (s : State) :
    (offerResult r c s).timer = s.timer := (offerResult_loopOnly r c s).timer
@[simp] theorem offerResult_inputDivider (r : IntervalRecord) (c : Bool) (s : State) :
    (offerResult r c s).inputDivider = s.inputDivider := (offerResult_loopOnly r c s).inputDivider
@[simp] theorem offerResult_runs (r : IntervalRecord) (c : Bool) (s : State) :
    (offerResult r c s).runs = s.runs := (offerResult_loopOnly r c s).runs
@[simp] theorem offerResult_pulses (r : IntervalRecord) (c : Bool) (s : State) :
    (offerResult r c s).pulses = s.pulses := (offerResult_loopOnly r c s).pulses
@[simp] theorem offerResult_live (r : IntervalRecord) (c : Bool) (s : State) :
    (offerResult r c s).live = s.live := (offerResult_loopOnly r c s).live
@[simp] theorem offerResult_buffer (r : IntervalRecord) (c : Bool) (s : State) :
    (offerResult r c s).buffer = s.buffer := (offerResult_loopOnly r c s).buffer
@[simp] theorem offerResult_det1 (r : IntervalRecord) (c : Bool) (s : State) :
    (offerResult r c s).det1 = s.det1 := (offerResult_loopOnly r c s).det1
@[simp] theorem offerResult_det2 (r : IntervalRecord) (c : Bool) (s : State) :
    (offerResult r c s).det2 = s.det2 := (offerResult_loopOnly r c s).det2
@[simp] theorem offerResult_session (r : IntervalRecord) (c : Bool) (s : State) :
    (offerResult r c s).session = s.session := (offerResult_loopOnly r c s).session
@[simp] theorem offerResult_receiver (r : IntervalRecord) (c : Bool) (s : State) :
    (offerResult r c s).receiver = s.receiver := (offerResult_loopOnly r c s).receiver
@[simp] theorem offerResult_commands (r : IntervalRecord) (c : Bool) (s : State) :
    (offerResult r c s).commands = s.commands := (offerResult_loopOnly r c s).commands
@[simp] theorem offerResult_restartPending (r : IntervalRecord) (c : Bool) (s : State) :
    (offerResult r c s).restartPending = s.restartPending := (offerResult_loopOnly r c s).restartPending
@[simp] theorem offerResult_openCount (r : IntervalRecord) (c : Bool) (s : State) :
    (offerResult r c s).openCount = s.openCount := (offerResult_loopOnly r c s).openCount

/-! #### offerTicket -/

@[simp] theorem offerTicket_pending (t : Ticket) (s : State) :
    (offerTicket t s).pending = s.pending := (offerTicket_loopOnly t s).pending
@[simp] theorem offerTicket_power (t : Ticket) (s : State) : (offerTicket t s).power = s.power :=
  (offerTicket_loopOnly t s).power
@[simp] theorem offerTicket_retained (t : Ticket) (s : State) :
    (offerTicket t s).retained = s.retained := (offerTicket_loopOnly t s).retained
@[simp] theorem offerTicket_retainedLost (t : Ticket) (s : State) :
    (offerTicket t s).retainedLost = s.retainedLost := (offerTicket_loopOnly t s).retainedLost
@[simp] theorem offerTicket_backupLost (t : Ticket) (s : State) :
    (offerTicket t s).backupLost = s.backupLost := (offerTicket_loopOnly t s).backupLost
@[simp] theorem offerTicket_node (t : Ticket) (s : State) : (offerTicket t s).node = s.node :=
  (offerTicket_loopOnly t s).node
@[simp] theorem offerTicket_rateCode (t : Ticket) (s : State) :
    (offerTicket t s).rateCode = s.rateCode := (offerTicket_loopOnly t s).rateCode
@[simp] theorem offerTicket_lastStart (t : Ticket) (s : State) :
    (offerTicket t s).lastStart = s.lastStart := (offerTicket_loopOnly t s).lastStart
@[simp] theorem offerTicket_station (t : Ticket) (s : State) :
    (offerTicket t s).station = s.station := (offerTicket_loopOnly t s).station
@[simp] theorem offerTicket_timebase (t : Ticket) (s : State) :
    (offerTicket t s).timebase = s.timebase := (offerTicket_loopOnly t s).timebase
@[simp] theorem offerTicket_timer (t : Ticket) (s : State) : (offerTicket t s).timer = s.timer :=
  (offerTicket_loopOnly t s).timer
@[simp] theorem offerTicket_inputDivider (t : Ticket) (s : State) :
    (offerTicket t s).inputDivider = s.inputDivider := (offerTicket_loopOnly t s).inputDivider
@[simp] theorem offerTicket_runs (t : Ticket) (s : State) : (offerTicket t s).runs = s.runs :=
  (offerTicket_loopOnly t s).runs
@[simp] theorem offerTicket_pulses (t : Ticket) (s : State) : (offerTicket t s).pulses = s.pulses :=
  (offerTicket_loopOnly t s).pulses
@[simp] theorem offerTicket_live (t : Ticket) (s : State) : (offerTicket t s).live = s.live :=
  (offerTicket_loopOnly t s).live
@[simp] theorem offerTicket_buffer (t : Ticket) (s : State) : (offerTicket t s).buffer = s.buffer :=
  (offerTicket_loopOnly t s).buffer
@[simp] theorem offerTicket_det1 (t : Ticket) (s : State) : (offerTicket t s).det1 = s.det1 :=
  (offerTicket_loopOnly t s).det1
@[simp] theorem offerTicket_det2 (t : Ticket) (s : State) : (offerTicket t s).det2 = s.det2 :=
  (offerTicket_loopOnly t s).det2
@[simp] theorem offerTicket_session (t : Ticket) (s : State) :
    (offerTicket t s).session = s.session := (offerTicket_loopOnly t s).session
@[simp] theorem offerTicket_receiver (t : Ticket) (s : State) :
    (offerTicket t s).receiver = s.receiver := (offerTicket_loopOnly t s).receiver
@[simp] theorem offerTicket_commands (t : Ticket) (s : State) :
    (offerTicket t s).commands = s.commands := (offerTicket_loopOnly t s).commands
@[simp] theorem offerTicket_restartPending (t : Ticket) (s : State) :
    (offerTicket t s).restartPending = s.restartPending := (offerTicket_loopOnly t s).restartPending
@[simp] theorem offerTicket_openCount (t : Ticket) (s : State) :
    (offerTicket t s).openCount = s.openCount := (offerTicket_loopOnly t s).openCount

/-! #### offerReport -/

@[simp] theorem offerReport_pending (s : State) : (offerReport s).pending = s.pending :=
  (offerReport_loopOnly s).pending
@[simp] theorem offerReport_power (s : State) : (offerReport s).power = s.power :=
  (offerReport_loopOnly s).power
@[simp] theorem offerReport_retained (s : State) : (offerReport s).retained = s.retained :=
  (offerReport_loopOnly s).retained
@[simp] theorem offerReport_retainedLost (s : State) :
    (offerReport s).retainedLost = s.retainedLost := (offerReport_loopOnly s).retainedLost
@[simp] theorem offerReport_backupLost (s : State) :
    (offerReport s).backupLost = s.backupLost := (offerReport_loopOnly s).backupLost
@[simp] theorem offerReport_node (s : State) : (offerReport s).node = s.node :=
  (offerReport_loopOnly s).node
@[simp] theorem offerReport_rateCode (s : State) : (offerReport s).rateCode = s.rateCode :=
  (offerReport_loopOnly s).rateCode
@[simp] theorem offerReport_lastStart (s : State) : (offerReport s).lastStart = s.lastStart :=
  (offerReport_loopOnly s).lastStart
@[simp] theorem offerReport_station (s : State) : (offerReport s).station = s.station :=
  (offerReport_loopOnly s).station
@[simp] theorem offerReport_timebase (s : State) : (offerReport s).timebase = s.timebase :=
  (offerReport_loopOnly s).timebase
@[simp] theorem offerReport_timer (s : State) : (offerReport s).timer = s.timer :=
  (offerReport_loopOnly s).timer
@[simp] theorem offerReport_inputDivider (s : State) :
    (offerReport s).inputDivider = s.inputDivider := (offerReport_loopOnly s).inputDivider
@[simp] theorem offerReport_runs (s : State) : (offerReport s).runs = s.runs :=
  (offerReport_loopOnly s).runs
@[simp] theorem offerReport_pulses (s : State) : (offerReport s).pulses = s.pulses :=
  (offerReport_loopOnly s).pulses
@[simp] theorem offerReport_live (s : State) : (offerReport s).live = s.live :=
  (offerReport_loopOnly s).live
@[simp] theorem offerReport_buffer (s : State) : (offerReport s).buffer = s.buffer :=
  (offerReport_loopOnly s).buffer
@[simp] theorem offerReport_det1 (s : State) : (offerReport s).det1 = s.det1 :=
  (offerReport_loopOnly s).det1
@[simp] theorem offerReport_det2 (s : State) : (offerReport s).det2 = s.det2 :=
  (offerReport_loopOnly s).det2
@[simp] theorem offerReport_session (s : State) : (offerReport s).session = s.session :=
  (offerReport_loopOnly s).session
@[simp] theorem offerReport_receiver (s : State) : (offerReport s).receiver = s.receiver :=
  (offerReport_loopOnly s).receiver
@[simp] theorem offerReport_commands (s : State) : (offerReport s).commands = s.commands :=
  (offerReport_loopOnly s).commands
@[simp] theorem offerReport_restartPending (s : State) :
    (offerReport s).restartPending = s.restartPending := (offerReport_loopOnly s).restartPending
@[simp] theorem offerReport_openCount (s : State) : (offerReport s).openCount = s.openCount :=
  (offerReport_loopOnly s).openCount

/-! #### offerReply -/

@[simp] theorem offerReply_pending (src tag : Byte) (code : Nat) (r : Reply) (s : State) :
    (offerReply src tag code r s).pending = s.pending := (offerReply_loopOnly src tag code r s).pending
@[simp] theorem offerReply_power (src tag : Byte) (code : Nat) (r : Reply) (s : State) :
    (offerReply src tag code r s).power = s.power := (offerReply_loopOnly src tag code r s).power
@[simp] theorem offerReply_retained (src tag : Byte) (code : Nat) (r : Reply) (s : State) :
    (offerReply src tag code r s).retained = s.retained := (offerReply_loopOnly src tag code r s).retained
@[simp] theorem offerReply_retainedLost (src tag : Byte) (code : Nat) (r : Reply) (s : State) :
    (offerReply src tag code r s).retainedLost = s.retainedLost := (offerReply_loopOnly src tag code r s).retainedLost
@[simp] theorem offerReply_backupLost (src tag : Byte) (code : Nat) (r : Reply) (s : State) :
    (offerReply src tag code r s).backupLost = s.backupLost := (offerReply_loopOnly src tag code r s).backupLost
@[simp] theorem offerReply_node (src tag : Byte) (code : Nat) (r : Reply) (s : State) :
    (offerReply src tag code r s).node = s.node := (offerReply_loopOnly src tag code r s).node
@[simp] theorem offerReply_rateCode (src tag : Byte) (code : Nat) (r : Reply) (s : State) :
    (offerReply src tag code r s).rateCode = s.rateCode := (offerReply_loopOnly src tag code r s).rateCode
@[simp] theorem offerReply_lastStart (src tag : Byte) (code : Nat) (r : Reply) (s : State) :
    (offerReply src tag code r s).lastStart = s.lastStart := (offerReply_loopOnly src tag code r s).lastStart
@[simp] theorem offerReply_station (src tag : Byte) (code : Nat) (r : Reply) (s : State) :
    (offerReply src tag code r s).station = s.station := (offerReply_loopOnly src tag code r s).station
@[simp] theorem offerReply_timebase (src tag : Byte) (code : Nat) (r : Reply) (s : State) :
    (offerReply src tag code r s).timebase = s.timebase := (offerReply_loopOnly src tag code r s).timebase
@[simp] theorem offerReply_timer (src tag : Byte) (code : Nat) (r : Reply) (s : State) :
    (offerReply src tag code r s).timer = s.timer := (offerReply_loopOnly src tag code r s).timer
@[simp] theorem offerReply_inputDivider (src tag : Byte) (code : Nat) (r : Reply) (s : State) :
    (offerReply src tag code r s).inputDivider = s.inputDivider := (offerReply_loopOnly src tag code r s).inputDivider
@[simp] theorem offerReply_runs (src tag : Byte) (code : Nat) (r : Reply) (s : State) :
    (offerReply src tag code r s).runs = s.runs := (offerReply_loopOnly src tag code r s).runs
@[simp] theorem offerReply_pulses (src tag : Byte) (code : Nat) (r : Reply) (s : State) :
    (offerReply src tag code r s).pulses = s.pulses := (offerReply_loopOnly src tag code r s).pulses
@[simp] theorem offerReply_live (src tag : Byte) (code : Nat) (r : Reply) (s : State) :
    (offerReply src tag code r s).live = s.live := (offerReply_loopOnly src tag code r s).live
@[simp] theorem offerReply_buffer (src tag : Byte) (code : Nat) (r : Reply) (s : State) :
    (offerReply src tag code r s).buffer = s.buffer := (offerReply_loopOnly src tag code r s).buffer
@[simp] theorem offerReply_det1 (src tag : Byte) (code : Nat) (r : Reply) (s : State) :
    (offerReply src tag code r s).det1 = s.det1 := (offerReply_loopOnly src tag code r s).det1
@[simp] theorem offerReply_det2 (src tag : Byte) (code : Nat) (r : Reply) (s : State) :
    (offerReply src tag code r s).det2 = s.det2 := (offerReply_loopOnly src tag code r s).det2
@[simp] theorem offerReply_session (src tag : Byte) (code : Nat) (r : Reply) (s : State) :
    (offerReply src tag code r s).session = s.session := (offerReply_loopOnly src tag code r s).session
@[simp] theorem offerReply_receiver (src tag : Byte) (code : Nat) (r : Reply) (s : State) :
    (offerReply src tag code r s).receiver = s.receiver := (offerReply_loopOnly src tag code r s).receiver
@[simp] theorem offerReply_commands (src tag : Byte) (code : Nat) (r : Reply) (s : State) :
    (offerReply src tag code r s).commands = s.commands := (offerReply_loopOnly src tag code r s).commands
@[simp] theorem offerReply_restartPending (src tag : Byte) (code : Nat) (r : Reply) (s : State) :
    (offerReply src tag code r s).restartPending = s.restartPending := (offerReply_loopOnly src tag code r s).restartPending
@[simp] theorem offerReply_openCount (src tag : Byte) (code : Nat) (r : Reply) (s : State) :
    (offerReply src tag code r s).openCount = s.openCount := (offerReply_loopOnly src tag code r s).openCount

/-! #### forwardFrame -/

@[simp] theorem forwardFrame_pending (f : Frame) (s : State) :
    (forwardFrame f s).pending = s.pending := (forwardFrame_loopOnly f s).pending
@[simp] theorem forwardFrame_power (f : Frame) (s : State) : (forwardFrame f s).power = s.power :=
  (forwardFrame_loopOnly f s).power
@[simp] theorem forwardFrame_retained (f : Frame) (s : State) :
    (forwardFrame f s).retained = s.retained := (forwardFrame_loopOnly f s).retained
@[simp] theorem forwardFrame_retainedLost (f : Frame) (s : State) :
    (forwardFrame f s).retainedLost = s.retainedLost := (forwardFrame_loopOnly f s).retainedLost
@[simp] theorem forwardFrame_backupLost (f : Frame) (s : State) :
    (forwardFrame f s).backupLost = s.backupLost := (forwardFrame_loopOnly f s).backupLost
@[simp] theorem forwardFrame_node (f : Frame) (s : State) : (forwardFrame f s).node = s.node :=
  (forwardFrame_loopOnly f s).node
@[simp] theorem forwardFrame_rateCode (f : Frame) (s : State) :
    (forwardFrame f s).rateCode = s.rateCode := (forwardFrame_loopOnly f s).rateCode
@[simp] theorem forwardFrame_lastStart (f : Frame) (s : State) :
    (forwardFrame f s).lastStart = s.lastStart := (forwardFrame_loopOnly f s).lastStart
@[simp] theorem forwardFrame_station (f : Frame) (s : State) :
    (forwardFrame f s).station = s.station := (forwardFrame_loopOnly f s).station
@[simp] theorem forwardFrame_timebase (f : Frame) (s : State) :
    (forwardFrame f s).timebase = s.timebase := (forwardFrame_loopOnly f s).timebase
@[simp] theorem forwardFrame_timer (f : Frame) (s : State) : (forwardFrame f s).timer = s.timer :=
  (forwardFrame_loopOnly f s).timer
@[simp] theorem forwardFrame_inputDivider (f : Frame) (s : State) :
    (forwardFrame f s).inputDivider = s.inputDivider := (forwardFrame_loopOnly f s).inputDivider
@[simp] theorem forwardFrame_runs (f : Frame) (s : State) : (forwardFrame f s).runs = s.runs :=
  (forwardFrame_loopOnly f s).runs
@[simp] theorem forwardFrame_pulses (f : Frame) (s : State) :
    (forwardFrame f s).pulses = s.pulses := (forwardFrame_loopOnly f s).pulses
@[simp] theorem forwardFrame_live (f : Frame) (s : State) : (forwardFrame f s).live = s.live :=
  (forwardFrame_loopOnly f s).live
@[simp] theorem forwardFrame_buffer (f : Frame) (s : State) :
    (forwardFrame f s).buffer = s.buffer := (forwardFrame_loopOnly f s).buffer
@[simp] theorem forwardFrame_det1 (f : Frame) (s : State) : (forwardFrame f s).det1 = s.det1 :=
  (forwardFrame_loopOnly f s).det1
@[simp] theorem forwardFrame_det2 (f : Frame) (s : State) : (forwardFrame f s).det2 = s.det2 :=
  (forwardFrame_loopOnly f s).det2
@[simp] theorem forwardFrame_session (f : Frame) (s : State) :
    (forwardFrame f s).session = s.session := (forwardFrame_loopOnly f s).session
@[simp] theorem forwardFrame_receiver (f : Frame) (s : State) :
    (forwardFrame f s).receiver = s.receiver := (forwardFrame_loopOnly f s).receiver
@[simp] theorem forwardFrame_commands (f : Frame) (s : State) :
    (forwardFrame f s).commands = s.commands := (forwardFrame_loopOnly f s).commands
@[simp] theorem forwardFrame_restartPending (f : Frame) (s : State) :
    (forwardFrame f s).restartPending = s.restartPending := (forwardFrame_loopOnly f s).restartPending
@[simp] theorem forwardFrame_openCount (f : Frame) (s : State) :
    (forwardFrame f s).openCount = s.openCount := (forwardFrame_loopOnly f s).openCount

/-! #### evalFlowConds -/

@[simp] theorem evalFlowConds_pending (r : Fin 4) (x : RunSettings) (d : Sampled) (o : IntervalOutput) (s : State) :
    (evalFlowConds r x d o s).pending = s.pending := (evalFlowConds_loopOnly r x d o s).pending
@[simp] theorem evalFlowConds_power (r : Fin 4) (x : RunSettings) (d : Sampled) (o : IntervalOutput) (s : State) :
    (evalFlowConds r x d o s).power = s.power := (evalFlowConds_loopOnly r x d o s).power
@[simp] theorem evalFlowConds_retained (r : Fin 4) (x : RunSettings) (d : Sampled) (o : IntervalOutput) (s : State) :
    (evalFlowConds r x d o s).retained = s.retained := (evalFlowConds_loopOnly r x d o s).retained
@[simp] theorem evalFlowConds_retainedLost (r : Fin 4) (x : RunSettings) (d : Sampled) (o : IntervalOutput) (s : State) :
    (evalFlowConds r x d o s).retainedLost = s.retainedLost := (evalFlowConds_loopOnly r x d o s).retainedLost
@[simp] theorem evalFlowConds_backupLost (r : Fin 4) (x : RunSettings) (d : Sampled) (o : IntervalOutput) (s : State) :
    (evalFlowConds r x d o s).backupLost = s.backupLost := (evalFlowConds_loopOnly r x d o s).backupLost
@[simp] theorem evalFlowConds_node (r : Fin 4) (x : RunSettings) (d : Sampled) (o : IntervalOutput) (s : State) :
    (evalFlowConds r x d o s).node = s.node := (evalFlowConds_loopOnly r x d o s).node
@[simp] theorem evalFlowConds_rateCode (r : Fin 4) (x : RunSettings) (d : Sampled) (o : IntervalOutput) (s : State) :
    (evalFlowConds r x d o s).rateCode = s.rateCode := (evalFlowConds_loopOnly r x d o s).rateCode
@[simp] theorem evalFlowConds_lastStart (r : Fin 4) (x : RunSettings) (d : Sampled) (o : IntervalOutput) (s : State) :
    (evalFlowConds r x d o s).lastStart = s.lastStart := (evalFlowConds_loopOnly r x d o s).lastStart
@[simp] theorem evalFlowConds_station (r : Fin 4) (x : RunSettings) (d : Sampled) (o : IntervalOutput) (s : State) :
    (evalFlowConds r x d o s).station = s.station := (evalFlowConds_loopOnly r x d o s).station
@[simp] theorem evalFlowConds_timebase (r : Fin 4) (x : RunSettings) (d : Sampled) (o : IntervalOutput) (s : State) :
    (evalFlowConds r x d o s).timebase = s.timebase := (evalFlowConds_loopOnly r x d o s).timebase
@[simp] theorem evalFlowConds_timer (r : Fin 4) (x : RunSettings) (d : Sampled) (o : IntervalOutput) (s : State) :
    (evalFlowConds r x d o s).timer = s.timer := (evalFlowConds_loopOnly r x d o s).timer
@[simp] theorem evalFlowConds_inputDivider (r : Fin 4) (x : RunSettings) (d : Sampled) (o : IntervalOutput) (s : State) :
    (evalFlowConds r x d o s).inputDivider = s.inputDivider := (evalFlowConds_loopOnly r x d o s).inputDivider
@[simp] theorem evalFlowConds_runs (r : Fin 4) (x : RunSettings) (d : Sampled) (o : IntervalOutput) (s : State) :
    (evalFlowConds r x d o s).runs = s.runs := (evalFlowConds_loopOnly r x d o s).runs
@[simp] theorem evalFlowConds_pulses (r : Fin 4) (x : RunSettings) (d : Sampled) (o : IntervalOutput) (s : State) :
    (evalFlowConds r x d o s).pulses = s.pulses := (evalFlowConds_loopOnly r x d o s).pulses
@[simp] theorem evalFlowConds_live (r : Fin 4) (x : RunSettings) (d : Sampled) (o : IntervalOutput) (s : State) :
    (evalFlowConds r x d o s).live = s.live := (evalFlowConds_loopOnly r x d o s).live
@[simp] theorem evalFlowConds_buffer (r : Fin 4) (x : RunSettings) (d : Sampled) (o : IntervalOutput) (s : State) :
    (evalFlowConds r x d o s).buffer = s.buffer := (evalFlowConds_loopOnly r x d o s).buffer
@[simp] theorem evalFlowConds_det1 (r : Fin 4) (x : RunSettings) (d : Sampled) (o : IntervalOutput) (s : State) :
    (evalFlowConds r x d o s).det1 = s.det1 := (evalFlowConds_loopOnly r x d o s).det1
@[simp] theorem evalFlowConds_det2 (r : Fin 4) (x : RunSettings) (d : Sampled) (o : IntervalOutput) (s : State) :
    (evalFlowConds r x d o s).det2 = s.det2 := (evalFlowConds_loopOnly r x d o s).det2
@[simp] theorem evalFlowConds_session (r : Fin 4) (x : RunSettings) (d : Sampled) (o : IntervalOutput) (s : State) :
    (evalFlowConds r x d o s).session = s.session := (evalFlowConds_loopOnly r x d o s).session
@[simp] theorem evalFlowConds_receiver (r : Fin 4) (x : RunSettings) (d : Sampled) (o : IntervalOutput) (s : State) :
    (evalFlowConds r x d o s).receiver = s.receiver := (evalFlowConds_loopOnly r x d o s).receiver
@[simp] theorem evalFlowConds_commands (r : Fin 4) (x : RunSettings) (d : Sampled) (o : IntervalOutput) (s : State) :
    (evalFlowConds r x d o s).commands = s.commands := (evalFlowConds_loopOnly r x d o s).commands
@[simp] theorem evalFlowConds_restartPending (r : Fin 4) (x : RunSettings) (d : Sampled) (o : IntervalOutput) (s : State) :
    (evalFlowConds r x d o s).restartPending = s.restartPending := (evalFlowConds_loopOnly r x d o s).restartPending
@[simp] theorem evalFlowConds_openCount (r : Fin 4) (x : RunSettings) (d : Sampled) (o : IntervalOutput) (s : State) :
    (evalFlowConds r x d o s).openCount = s.openCount := (evalFlowConds_loopOnly r x d o s).openCount

/-! ### The end of a step -/

/-- With no RESTART pending, the end of a step changes nothing. -/
@[simp] theorem settle_of_not_pending {s : State} (h : s.restartPending = false) : settle s = s := by
  simp [settle, h]

/-- A loop command that the Decoder takes: its owner handles it and its reply is offered. -/
theorem runCommand_takes {code : Nat} {src tag : Byte} {args : List Byte}
    {body : State → State × Reply} {s s1 : State} (h : s.Takes (frameOf src tag code args) s1) :
    runCommand code src tag args body s = .next (settle (answer src tag code body s1)) := by
  obtain ⟨hp, -, ht⟩ := h
  unfold frameOf at ht
  simp [runCommand, whenRunning, hp, ht]

/-- Taking a frame from the command buffer changes the command buffer alone. -/
theorem takeCommand_eq {f : CommandFrame} {s s1 : State} (h : takeCommand f s = some s1) :
    s1 = { s with commands := s1.commands } := by
  unfold takeCommand at h
  split at h
  · cases h; rfl
  · split at h
    · cases h; rfl
    · cases h

/-- The answer to a command whose handling leaves no RESTART pending is the whole step. -/
theorem runCommand_next {code : Nat} {src tag : Byte} {args : List Byte}
    {body : State → State × Reply} {s s1 : State} (h : s.Takes (frameOf src tag code args) s1)
    (hb : (body s1).1.restartPending = false) :
    runCommand code src tag args body s
      = .next (offerReply src tag code (body s1).2 (body s1).1) := by
  have h1 : s1.restartPending = false := by rw [takeCommand_eq h.2.2]; exact h.2.1
  rw [runCommand_takes h]
  simp [answer, h1, hb]

end Sys2Proof.Machine
end

