-- ==== Sys2Proof/Laws/Ops.lean ====
section
/-! SUPPORT. What each shared operation can do, said once: the outbound queue and the transmitter, the
condition records under an offer or a report, the answer to a command, the argument fields, and the
arithmetic. -/

namespace Sys2Proof.Machine

/-! ### Argument fields (R175) -/

@[simp] theorem argU_first (b : Byte) (l : List Byte) : argU (b :: l) 0 1 = b.toNat := by
  simp [argU, bytesNat]

@[simp] theorem argU_second (a b : Byte) (l : List Byte) : argU (a :: b :: l) 1 1 = b.toNat := by
  simp [argU, bytesNat]

@[simp] theorem argU_third (a b c : Byte) (l : List Byte) : argU (a :: b :: c :: l) 2 1 = c.toNat := by
  simp [argU, bytesNat]

@[simp] theorem argU_fourth (a b c d : Byte) (l : List Byte) :
    argU (a :: b :: c :: d :: l) 3 1 = d.toNat := by
  simp [argU, bytesNat]

@[simp] theorem asRun_val (r : Fin 4) : asRun r.val = some r := by simp [asRun]

@[simp] theorem asProduct_val (p : Fin 8) : asProduct p.val = some p := by simp [asProduct]

@[simp] theorem asSlot_val (b : Fin 16) : asSlot b.val = some b := by simp [asSlot]

@[simp] theorem asChannel_code (ch : Channel) : asChannel (channelCode ch) = some ch := by
  cases ch <;> rfl

/-- A small number as a byte. -/
theorem byte_toNat {n : Nat} (h : n < 256) : (BitVec.ofNat 8 n).toNat = n := by
  simp; omega

@[simp] theorem length_natBytes (w n : Nat) : (natBytes w n).length = w := by
  induction w generalizing n with
  | zero => rfl
  | succ w ih => simp [natBytes, ih]

@[simp] theorem length_encU (w : Nat) (x : Int) : (encU w x).length = w := by simp [encU]

/-- A four-byte field that fits is read back as it was written. -/
theorem argU_encU_four {n : Nat} (h : n < 2 ^ 32) (l : List Byte) : argU (encU 4 n ++ l) 0 4 = n := by
  have e : (if (n : Int) < 0 then 0 else min (n : Int).toNat (256 ^ 4 - 1)) = n := by
    rw [if_neg (by omega)]
    simp; omega
  unfold encU
  rw [e]
  simp [natBytes, argU, bytesNat]
  omega

/-! ### The answer to a command (R171) -/

/-- The step of a command that the Decoder takes, from what its handling gives. -/
theorem runCommand_result {code : Nat} {src tag : Byte} {args : List Byte}
    {body : State → State × Reply} {s s1 s2 : State} {r : Reply}
    (h : s.Takes (frameOf src tag code args) s1) (hb : body s1 = (s2, r))
    (hp : s2.restartPending = s1.restartPending) :
    runCommand code src tag args body s = .next (offerReply src tag code r s2) := by
  have h1 : s1.restartPending = false := by rw [takeCommand_eq h.2.2]; exact h.2.1
  rw [runCommand_next h (by rw [hb]; simp [hp, h1]), hb]

/-! ### The transmitter and the outbound queue (R167 to R169) -/

/-- A transmitter that is sending or keeping its gap begins nothing. -/
theorem beginNext_of_busy {s : State} (h : s.transmitter ≠ .free) : beginNext s = s := by
  unfold beginNext
  split
  · contradiction
  · rfl

@[simp] theorem beginNext_conds (s : State) : (beginNext s).conds = s.conds := by
  unfold beginNext
  split
  · split
    · rfl
    · split <;> rfl
  · rfl

@[simp] theorem beginNext_counters (s : State) : (beginNext s).counters = s.counters := by
  unfold beginNext
  split
  · split
    · rfl
    · split <;> rfl
  · rfl

/-- R169: the three outcomes of a frame that is offered. -/
theorem enqueue_cases (f : OutFrame) (s : State) :
    (s.outbound.length < 16
        ∧ enqueue f s = (beginNext { s with outbound := s.outbound ++ [f] }, none))
      ∨ (∃ g others, 16 ≤ s.outbound.length ∧ lowest s.outbound = some (g, others)
          ∧ outranks f g = true
          ∧ enqueue f s = (beginNext { s with outbound := others ++ [f] }, some g))
      ∨ (16 ≤ s.outbound.length ∧ enqueue f s = (s, some f)) := by
  unfold enqueue
  split
  · exact .inl ⟨by assumption, rfl⟩
  · split
    · split
      · exact .inr (.inl ⟨_, _, by omega, by assumption, by assumption, rfl⟩)
      · exact .inr (.inr ⟨by omega, rfl⟩)
    · exact .inr (.inr ⟨by omega, rfl⟩)

@[simp] theorem enqueue_conds (f : OutFrame) (s : State) : (enqueue f s).1.conds = s.conds := by
  rcases enqueue_cases f s with ⟨_, h⟩ | ⟨_, _, _, _, _, h⟩ | ⟨_, h⟩ <;> simp [h]

@[simp] theorem enqueue_cond (f : OutFrame) (s : State) (c : CondId) :
    (enqueue f s).1.cond c = s.cond c := by
  simp [State.cond]

@[simp] theorem countDiscard_cond (k : OutKind) (s : State) (c : CondId) :
    (countDiscard k s).cond c = s.cond c := rfl

/-! ### The condition records (R152, R155, R169) -/

/-- An occurrence touches the record of its own condition only. -/
theorem recordOccurrence_cond_ne {c e : CondId} (h : e ≠ c) (s : State) :
    (recordOccurrence c s).cond e = s.cond e := State.cond_setCond_ne s c e _ h

/-- The offer of a notice touches its own record only, by the withheld mark. -/
theorem offerNoticeOnce_cond_ne {c e : CondId} (h : e ≠ c) (s : State) :
    (offerNoticeOnce c s).1.cond e = s.cond e := by
  unfold offerNoticeOnce
  split
  · exact State.cond_setCond_ne s c e _ h
  · exact State.cond_setCond_ne s c e _ h
  · simp [State.cond_setCond_ne s c e _ h]

/-- A lost frame touches the record of OUTBOUND_DISCARD only. -/
theorem loseFrame_cond_ne {e : CondId} (h : e ≠ .outboundDiscard) (g : OutFrame) (s : State) :
    (loseFrame g s).cond e = s.cond e := by
  unfold loseFrame
  simp only
  split
  · simp [recordOccurrence_cond_ne h]
  · split
    · simp [offerNoticeOnce_cond_ne h, recordOccurrence_cond_ne h]
    · simp [offerNoticeOnce_cond_ne h, recordOccurrence_cond_ne h]

theorem afterOffer_cond_ne {e : CondId} (h : e ≠ .outboundDiscard) (r : State × Option OutFrame) :
    (afterOffer r).cond e = r.1.cond e := by
  unfold afterOffer
  split
  · rfl
  · exact loseFrame_cond_ne h _ _

/-- A frame that is offered touches the record of OUTBOUND_DISCARD only. -/
theorem offer_cond_ne {e : CondId} (h : e ≠ .outboundDiscard) (f : OutFrame) (s : State) :
    (offer f s).cond e = s.cond e := by
  unfold offer
  rw [afterOffer_cond_ne h, enqueue_cond]

theorem offerReply_cond_ne {e : CondId} (h : e ≠ .outboundDiscard) (src tag : Byte) (code : Nat)
    (r : Reply) (s : State) : (offerReply src tag code r s).cond e = s.cond e := offer_cond_ne h _ s

/-- A notice that is offered touches its own record and that of OUTBOUND_DISCARD only. -/
theorem offerNotice_cond_ne {c e : CondId} (h : e ≠ .outboundDiscard) (hc : e ≠ c) (s : State) :
    (offerNotice c s).cond e = s.cond e := by
  unfold offerNotice
  rw [afterOffer_cond_ne h, offerNoticeOnce_cond_ne hc]

/-- What the offer of a notice does to its own record: the withheld mark, by the notice's fate. -/
theorem offerNotice_cond_self {c : CondId} (h : c ≠ .outboundDiscard) (s : State) :
    (offerNotice c s).cond c
      = { s.cond c with withheld := decide (noticeFate s c = .withheld) } := by
  unfold offerNotice
  rw [afterOffer_cond_ne h]
  unfold offerNoticeOnce
  split <;> simp [*]

/-- An occurrence leaves every other record, OUTBOUND_DISCARD apart. -/
theorem occur_cond_ne {c e : CondId} (h : e ≠ .outboundDiscard) (hc : e ≠ c) (s : State) :
    (occur c s).cond e = s.cond e := by
  unfold occur latchAndNotify
  split
  · exact recordOccurrence_cond_ne hc s
  · rw [offerNotice_cond_ne h hc, recordOccurrence_cond_ne hc]

/-- A report leaves every other record, OUTBOUND_DISCARD apart. -/
theorem report_cond_ne {c e : CondId} (h : e ≠ .outboundDiscard) (hc : e ≠ c) (b : Bool) (s : State) :
    (report c b s).cond e = s.cond e := by
  unfold report
  split
  · unfold reportActive
    split
    · rfl
    · have := occur_cond_ne h hc (s.setCond c { s.cond c with active := true })
      unfold occur at this
      rw [this, State.cond_setCond_ne s c e _ hc]
  · unfold reportInactive
    split
    · exact State.cond_setCond_ne s c e _ hc
    · rfl

/-! ### Arithmetic (section 1.7, R26) -/

/-- R26: a total never decreases, while it is a 64-bit count. -/
theorem le_addTotal {total : Nat} (h : total ≤ cap64) (x : Int) : total ≤ addTotal total x := by
  unfold addTotal addSat
  split <;> omega

/-- R26: a total stays a 64-bit count. -/
theorem addTotal_le {total : Nat} (h : total ≤ cap64) (x : Int) : addTotal total x ≤ cap64 := by
  unfold addTotal addSat
  split <;> omega

theorem count1_le (cap n : Nat) : count1 cap n ≤ cap := by unfold count1; omega

/-- Rounding half up by a positive divisor: the nearest integer, an exact half to the larger. -/
theorem roundHalfUp_bounds (n : Int) {d : Int} (h : 0 < d) :
    2 * d * roundHalfUp n d ≤ 2 * n + d ∧ 2 * n + d < 2 * d * (roundHalfUp n d + 1) := by
  unfold roundHalfUp
  rw [if_neg (by omega)]
  have h2 : 0 < 2 * d := by omega
  exact ⟨Int.mul_ediv_self_le (by omega), Int.lt_mul_ediv_self_add h2 |>.trans_eq (by ring)⟩

/-! ### VDD, RSTn and the retained area (R182, R183) -/

/-- The part runs with VDD present and RSTn high. -/
theorem Power.eq_running_iff (p : Power) : p = .running ↔ p.hasVdd = true ∧ p.loseVdd = .noVdd := by
  cases p <;> decide

@[simp] theorem Power.hasVdd_loseVdd (p : Power) : p.loseVdd.hasVdd = false := by cases p <;> rfl
@[simp] theorem Power.hasVdd_resetFalls (p : Power) : p.resetFalls.hasVdd = p.hasVdd := by
  cases p <;> rfl
@[simp] theorem Power.hasVdd_vddRises (p : Power) : p.vddRises.hasVdd = true := by cases p <;> rfl
@[simp] theorem Power.hasVdd_resetRises (p : Power) : p.resetRises.hasVdd = p.hasVdd := by
  cases p <;> rfl

/-- R183: an event that makes the part inactive leaves it inactive. -/
theorem Power.fall_ne_running (cause : DownCause) (p : Power) : p.fall cause ≠ .running := by
  cases cause <;> cases p <;> decide

/-- R183: the two outcomes of HARD_START. -/
theorem execHardStart_cases (cause : StartCause) (straps : Straps) (s : State) :
    s.power.rise cause = .running ∧ execHardStart cause straps s = .next (hardStart straps s)
      ∨ s.power.rise cause ≠ .running
        ∧ execHardStart cause straps s = .next { s with power := s.power.rise cause } := by
  unfold execHardStart
  by_cases h : s.power.rise cause = .running
  · exact .inl ⟨h, by simp only [h, if_true]⟩
  · exact .inr ⟨h, by simp only [h, if_false]⟩

/-- R182: what a loss of VDD or a low RSTn does to the area: nothing, or, once VBAK is lost as well, what
an open value says of its return. -/
theorem areaAtPowerDown_cases (cause : DownCause) (s : State) :
    areaAtPowerDown cause s = s
      ∨ cause = .vddLost ∧ s.power.hasVdd = true ∧ s.backupLost = true
        ∧ areaAtPowerDown cause s = loseBothSupplies s := by
  unfold areaAtPowerDown
  split
  · rename_i h; exact .inr ⟨h.1, h.2.1, h.2.2, rfl⟩
  · exact .inl rfl

/-- R183: what the check-word test finds: the area kept whole, or over a lost one the content it spells,
when its check word stands beside it, and otherwise nothing. -/
theorem goodArea_cases (s : State) :
    s.retainedLost = false ∧ goodArea s = some s.retained
      ∨ s.retainedLost = true
        ∧ checkWord (Config.lostArea s.openCount).1 = (Config.lostArea s.openCount).2
        ∧ goodArea s = some (Config.lostArea s.openCount).1
      ∨ s.retainedLost = true
        ∧ checkWord (Config.lostArea s.openCount).1 ≠ (Config.lostArea s.openCount).2
        ∧ goodArea s = none := by
  unfold goodArea lostAreaPasses
  cases h : s.retainedLost with
  | false => exact .inl ⟨rfl, rfl⟩
  | true =>
    refine .inr ?_
    by_cases e : checkWord (Config.lostArea s.openCount).1 = (Config.lostArea s.openCount).2
    · exact .inl ⟨rfl, e, by simp only [e, if_true]⟩
    · exact .inr ⟨rfl, e, by simp only [e, if_true, if_false]⟩

/-! ### Reception (R164) -/

/-- The error that ends a frame is one of those that the character shows. -/
theorem pickFault_mem (before : List Byte) (c : LineChar) (e : ReceiveFault) (more : List ReceiveFault) :
    pickFault before c e more ∈ e :: more := by
  cases more with
  | nil => simp [pickFault]
  | cons x l =>
    have hlt : Config.faultFound before c % ((x :: l).length + 1) < (e :: x :: l).length :=
      Nat.mod_lt _ (by simp)
    simp only [pickFault]
    rw [List.getD_eq_getElem _ _ hlt]
    exact List.getElem_mem _

/-- Characters without a fault are heard, and the verdict is on what follows them. -/
theorem judge_append (before : List Byte) (pre rest : List LineChar)
    (h : ∀ i c, pre[i]? = some c → charFaults (before ++ (pre.take i).map (·.data)) c = []) :
    judge before (pre ++ rest) = judge (before ++ pre.map (·.data)) rest := by
  induction pre generalizing before with
  | nil => simp
  | cons c l ih =>
    have h0 : charFaults before c = [] := by simpa using h 0 c rfl
    rw [List.cons_append, judge, h0]
    refine (ih (before ++ [c.data]) fun i d hd => ?_).trans (by simp)
    simpa using h (i + 1) d hd

/-- The first character that shows a fault ends its frame, with one of the faults it shows. -/
theorem judge_fault {before : List Byte} {c : LineChar} (h : charFaults before c ≠ [])
    (rest : List LineChar) : ∃ e ∈ charFaults before c, judge before (c :: rest) = .error e := by
  unfold judge
  split
  · contradiction
  · rename_i e more he
    exact ⟨_, he ▸ pickFault_mem _ _ _ _, rfl⟩

/-- The end of a reception: nothing is under reception, or the verdict on its characters is taken. -/
theorem endReception_cases (chars : List LineChar) (s : State) :
    (s.receiver = .hunting ∨ chars = []) ∧ endReception chars s = s
      ∨ s.receiver ≠ .hunting ∧ chars ≠ []
        ∧ endReception chars s = takeVerdict (judge [] chars) s := by
  unfold endReception
  split
  · exact .inl ⟨by assumption, rfl⟩
  · rename_i h
    exact .inr ⟨fun e => h (.inl e), fun e => h (.inr e), rfl⟩

/-! ### What falls due (R1, R60, R115, R126) -/

/-- Nothing happens at a moment at which nothing is due. -/
theorem takeDue_of_none {s : State} (h1 : s.deadTimeLeft .det1 ≠ some 0)
    (h2 : s.deadTimeLeft .det2 ≠ some 0) (ht : s.timeoutLeft ≠ some 0) (hi : s.inputDivider ≠ 0)
    (he : s.timer ≠ some 0) : takeDue s = s := by
  simp [takeDue, dueDeadTime, dueTimeout, dueInputCount, dueExpiry, h1, h2, ht, hi, he]

/-- No dead time has an end while none runs. -/
theorem deadTimeLeft_of_stopped {s : State} {d : Detector} (h : (s.det d).deadRunning = false) :
    s.deadTimeLeft d = none := by
  unfold State.deadTimeLeft
  split <;> simp [h]

/-- The pass timeout has no end while it does not run. -/
theorem timeoutLeft_of_stopped {s : State} (h : s.session.items.timeoutRunning = false) :
    s.timeoutLeft = none := by
  unfold State.timeoutLeft
  split <;> simp [h]

end Sys2Proof.Machine
end

