-- ==== Sys2Proof/Tests/Slice0.lean ====
section
/-! SUPPORT. The model's own tests: ill-formed commands, the spec's worked examples, one or two single
steps for each family, and for each obligation with hypotheses a state and operands that meet them. -/

namespace Sys2Proof.Tests

open Sys2Proof Sys2Proof.Machine

set_option maxRecDepth 20000

/-! ### The state the tests start from: the station of chapter 1's worked examples, metering -/

/-- The run settings of chapter 1's worked examples. -/
def settings : RunSettings :=
  { kFactor := 2400000, mode := .dual, primary := .a, fallback := 1000000, tSlot := 3, pSlot := 4
    rateHigh := 800000, rateLow := 100000 }

def record0 : StationRecord :=
  { intervalLength := 50, layout := .l4R4P, spacing := 4, resultLevel := 3, ticketLevel := 3
    reportLevel := 3, densitySlot := some 5, waterSlot := some 6 }

def binding0 (kind : BindingKind) (tag : Nat) (sub : Int) : Binding :=
  { kind, node := 11, tag, low := kind.deviceRange.1, high := kind.deviceRange.2, stale := 100
    substitute := sub }

def product0 : ProductCopy :=
  { code := 77
    points := [⟨2000, 995300⟩, ⟨3000, 987200⟩, ⟨4000, 978900⟩]
    compressibility := 800, densityLow := 80000, densityHigh := 90000, defaultDensity := none
    installedAt := 40000 }

def curve0 : CurveCopy :=
  { points :=
      [⟨200000, 1002900, .loaded⟩, ⟨400000, 1002100, .loaded⟩, ⟨600000, 1001300, .loaded⟩,
        ⟨800000, 1000900, .loaded⟩]
    installedAt := 40000 }

def prover0 : ProverRecord :=
  { bpv := 150000, gc := 1120, gp := 90, tSlot := 3, pSlot := 4
    det1 := { enabled := true, polarity := .rising, deadTime := 5 }
    det2 := { enabled := false, polarity := .rising, deadTime := 250 }
    timeout := 1000, minPulses := 100, passesPerRun := 3, runsRequired := 2, maxRuns := 5
    repeatLimit := 50, acceptLimit := 250, autoRelease := true }

def head0 : BatchEntry :=
  { id := 7, product := 2, target := none, endMode := .onCommand, state := .active }

def batch0 : BatchUnit :=
  { queue := [head0], progress := { opening := some 40115, productCode := some 77 }, product := 2 }

def entry0 : TicketEntry := AccEntry.toTicket {}

def ticket0 (id : Nat) : Ticket :=
  { id, product := 2, productCode := 77, opening := some 1, closing := 2, cause := .command
    target := none, endMode := .onCommand, targetReached := false, runs := [(3, entry0)]
    station := entry0 }

def retained0 : Retained :=
  { station := some record0
    levels := some (.replicate 25 2)
    bindings :=
      ((((Vector.replicate 16 none).set 3 (some (binding0 .temperature 3 2000))).set 4
        (some (binding0 .pressure 4 1000))).set 5 (some (binding0 .density 5 80000))).set 6
          (some (binding0 .waterCut 6 0))
    runs := .replicate 4 { settings := some settings }
    intervalNumber := 40115
    products := (Vector.replicate 8 {}).set 2 { inService := some product0 }
    curves := (Vector.replicate 32 {}).set 2 { inService := some curve0 }
    prover := some prover0
    batch := batch0 }

/-- A metering station: run 0 OPEN, run 1 OPENING, run 2 CLOSING, run 3 CLOSED. -/
def demo : State :=
  { retained := retained0
    node := 4
    station := .metering
    timer := some 5000000
    runs :=
      (((Vector.replicate 4 {}).set 0 { state := .opened }).set 1 { state := .opening }).set 2
        { state := .closing }
    receiver := .idle
    transmitter := .gap }

/-- The same station READY, with every run CLOSED. -/
def ready : State := { demo with station := .ready, timer := none, runs := .replicate 4 {} }

/-- A prove session attached to run 0. -/
def sessionOf (state : SessionState) : Session :=
  { state, attached := some 0, product := some 2, kFactor := some 2400000, startInterval := some 1 }

def proving (state : SessionState) : State := { demo with session := sessionOf state }

/-- A run that is taken by the Decoder from an empty command buffer. -/
theorem takes_now {f : CommandFrame} {s : State} (hp : s.power = .running)
    (hr : s.restartPending = false) (hc : s.commands = []) : s.Takes f s :=
  ⟨hp, hr, by simp [takeCommand, hc]⟩

/-- What holds of whatever an option may hold. -/
theorem of_all {α : Type} {o : Option α} {p : α → Bool} {x : α} (h : o.all p = true)
    (e : o = some x) : p x = true := by
  subst e; exact h

/-- The next state of a step, for reading a field of it. -/
def nextOf (r : Result) : State :=
  match r with
  | .next t => t
  | .fault _ => State.reset
  | .refused _ => State.reset

/-- The characters of a frame on the line (R162, R163). -/
def charsOf (f : Frame) : List LineChar := (frameBytes f).map lineChar

/-- The next state after one command or event from a state. -/
def after (i : Instr) (s : State) : State := nextOf (exec i s)

/-- Result code and data of the reply at the end of the outbound queue. -/
def replyOf (s : State) : List Nat :=
  match s.outbound.getLast? with
  | some f => (f.payload.drop 2).map (·.toNat)
  | none => []

/-! ### Ill-formed commands -/

def long : List Byte := List.replicate 63 0

/-- The largest argument list is 62 bytes, in every row that carries one. -/
theorem test_wellFormed_refuses_long_arguments :
    ((List.range 64).filterMap fun c => commandOfCode 1 2 c long).all (fun i => !i.wellFormed)
      = true := by decide

theorem test_wellFormed_accepts_longest_arguments :
    ((List.range 64).filterMap fun c => commandOfCode 1 2 c (List.replicate 62 0)).all
      (·.wellFormed) = true := by decide

theorem test_wellFormed_refuses_known_code_as_unknown :
    (Instr.unknownCommand 1 [2, 0x3B]).wellFormed = false
      ∧ (Instr.unknownCommand 1 [2, 0x3C]).wellFormed = true := by decide

theorem test_wellFormed_refuses_long_payloads :
    (Instr.unknownCommand 1 (2 :: 0 :: long)).wellFormed = false
      ∧ (Instr.goodFrameArrival (List.replicate 72 (lineChar 0))).wellFormed = false
      ∧ (Instr.receiveError (List.replicate 73 (lineChar 0))).wellFormed = false := by decide

/-- The command table holds 37 codes, from 0x01 to 0x3B (R171). -/
theorem test_command_table_has_37_codes :
    ((List.range 64).filter fun c => (commandOfCode 1 2 c []).isSome)
      = [0x01, 0x02, 0x08, 0x09, 0x0A, 0x0B, 0x0C, 0x10, 0x11, 0x18, 0x19, 0x1A, 0x1B, 0x1C, 0x1D,
          0x20, 0x21, 0x22, 0x23, 0x24, 0x28, 0x29, 0x2A, 0x2B, 0x2C, 0x2D, 0x30, 0x31, 0x32, 0x33,
          0x34, 0x35, 0x36, 0x38, 0x39, 0x3A, 0x3B] := by decide

/-! ### The spec's worked examples -/

/-- R163: the check word of 0x31 to 0x39. -/
theorem test_check_word_of_R163 :
    crc [0x31, 0x32, 0x33, 0x34, 0x35, 0x36, 0x37, 0x38, 0x39] = 0x29B1#16 := by decide

/-- Chapter 1, first case: interval 40,116. -/
def case1 : IntervalInput :=
  { kFactor := 2400000, p := 1850, length := 50, residues := ⟨1300000, 400000, 0, 0⟩
    curve := some curve0.points, fallback := 1000000, product := some product0
    t := 3840, pres := 12500, rho := 84237, sw := 35 }

theorem test_chapter1_first_case :
    let out := computeStages case1
    out.iv = 770833 ∧ out.residues.rIV = 2100000 ∧ out.q = 555000 ∧ out.mf = 1001480
      ∧ out.ctl = 980228 ∧ out.cpl = 1001000 ∧ out.ccf = 982661 ∧ out.gsv = 757467
      ∧ out.residues.rGSV = 926613 := by decide

/-- Chapter 6, R122 and R123: the worked pass. -/
theorem test_chapter6_pass :
    interpolatedPulses 359 5012345 5000000 = 359886 ∧ passRate 359886 2400000 5012345 = 107700 := by
  decide

/-- Chapter 7, R140: the worked meter factor. -/
theorem test_chapter7_meter_factor :
    roundHalfUp (150000 * 1000312 * 2400000) (359886 * 999874) = 1000755 := by decide

/-- Chapter 7: the spreads of the two windows tested. -/
theorem test_chapter7_spreads :
    roundHalfUp (217 * 100000) 359885 = 60 ∧ roundHalfUp (2 * 100000) 359885 = 1 := by decide

/-- Chapter 7, acceptance: the factor of the curve at 107,700. -/
theorem test_chapter7_curve_factor :
    interpolate [(60000, 1001400), (100000, 1001000), (200000, 1000400)] 107700 = 1000954 := by decide

/-- R162: a node strap of 63 gives node 62. -/
theorem test_node_strap_63 : strappedNode 63 = 62 ∧ strappedNode 61 = 61 := by decide

/-- R175: the nearest value that fits is sent. -/
theorem test_fields_saturate :
    encU 1 300 = [255] ∧ encU 1 (-1) = [0] ∧ encS 2 (-40000) = [0x80, 0] ∧ encS 2 (-2) = [0xFF, 0xFE] := by
  decide

/-! ### Single steps, one or two for each family -/

/-- R174: the counts are answered, then zero. -/
theorem test_clear_loop_counts :
    (after (.clearLoopCounts 9 1 []) { demo with counters := { gap := 3 } }).counters = {} := by decide

theorem test_unknown_command_answers_7 :
    replyOf (after (.unknownCommand 9 [1, 0x3C]) demo) = [7] := by decide

/-- R180: the timer is loaded with 50 counts of 10 ms. -/
theorem test_start_metering :
    (after (.startMetering 9 1 []) ready).timer = some 5000000
      ∧ replyOf (after (.startMetering 9 1 []) ready) = [0, 0, 0, 0x9C, 0xB3] := by decide

theorem test_stop_metering_needs_closed_runs :
    replyOf (after (.stopMetering 9 1 []) demo) = [1] := by decide

theorem test_load_station_refused_while_metering :
    replyOf (after (.loadStation 9 1 [50, 0, 4, 3, 3, 3, 0, 0, 0, 0]) demo) = [2] := by decide

/-- R172: the transmitter is busy, so the restart waits for its reply. -/
theorem test_restart_waits :
    (after (.restart 9 1 []) { ready with transmitter := .gap }).restartPending = true := by decide

/-- R55: slot 3 is in use by the runs that are not CLOSED. -/
theorem test_load_binding_in_use :
    replyOf
        (after (.loadBinding 9 1
          [3, 0, 12, 3, 0xFF, 0xFF, 0xF0, 0x60, 0, 0, 0x27, 0x10, 0, 100, 0, 0, 0, 0]) demo)
      = [1] := by decide

/-- R65, R175: an EMPTY slot answers its mark set; slot 3 is the temperature of the four runs, of which
runs 0 to 2 are not CLOSED, and of the prover. -/
theorem test_read_input :
    replyOf (after (.readInput 9 1 [0, 0]) demo) = [0, 1]
      ∧ replyOf (after (.readInput 9 1 [3, 1]) demo)
          = [0, 5, 0, 0, 1, 0, 1, 1, 0, 2, 1, 0, 3, 0, 4, 0, 0] := by decide

/-- R59: a sample above the high limit is clamped to it. -/
theorem test_sample_clamped :
    let f : Frame := ⟨63, 11, 0x10, [3, 0, 0, 0x27, 0x11, 0]⟩
    (after (.goodFrameArrival (charsOf f)) demo).live[3].held = some 10000
      ∧ (after (.goodFrameArrival (charsOf f)) demo).live[3].clamped = true := by decide

/-- R60: the age grows by one count. -/
theorem test_10ms_count :
    (after .input10msCount { demo with live := demo.live.set 3 { state := .live, age := some 100 } }
      ).live[3] = { state := .held, age := some 101 } := by decide

/-- R60: a 10 ms count that a pulse of its very moment leaves due is followed by the next 100,000 periods
later. -/
theorem test_10ms_count_after_a_pulse_of_its_moment :
    let pulsed := after (.pulse 3 .a 7) { demo with timebase := 6, inputDivider := 1 }
    pulsed.inputDivider = 0 ∧ (nextOf (step pulsed)).inputDivider = 99999
      ∧ (nextOf (step pulsed)).timebase = 8 := by
  decide

theorem test_load_run_busy :
    replyOf
        (after (.loadRun 9 1
          [0, 0, 0x24, 0x9F, 0, 1, 0, 0x0F, 0x42, 0x40, 3, 4, 0, 0, 0, 0, 0, 0, 0, 0]) demo)
      = [1] := by decide

theorem test_open_run :
    (after (.openRun 9 1 [3]) demo).runs[3].state = .opening := by decide

theorem test_close_run_held_by_a_prove :
    replyOf (after (.closeRun 9 1 [0]) (proving .armed)) = [1]
      ∧ (after (.closeRun 9 1 [0]) demo).runs[0].state = .closing := by decide

theorem test_select_channel :
    (after (.selectChannel 9 1 [0, 1]) demo).pulses[0].change = some .b
      ∧ replyOf (after (.selectChannel 9 1 [0, 1]) demo) = [0, 0, 1, 1, 1] := by decide

/-- R127: a change made pending spoils a timed pass with CHANNEL. -/
theorem test_select_channel_spoils_a_timed_pass :
    (after (.selectChannel 9 1 [0, 1]) (proving .timing)).session.lastOutcome = .spoiled .channel := by
  decide

/-- R127: a checkpoint spoils a timed pass with AGREEMENT when it clears Fine, and with CHANNEL when it
only makes a change pending. -/
theorem test_checkpoint_spoils_a_timed_pass :
    let s := (proving .timing).setPulse 0 { windows := ⟨15, 3⟩, coarse := true, fine := true }
    let t := (proving .timing).setPulse 0 { windows := ⟨15, 0⟩, totalizing := .b }
    (after (.pulse 0 .a 10) s).session.lastOutcome = .spoiled .agreement
      ∧ (after (.pulse 0 .a 10) t).session.lastOutcome = .spoiled .channel := by decide

theorem test_pulse_counted :
    (after (.pulse 0 .a 10) demo).pulses[0].counts = ⟨1, 0⟩
      ∧ (after (.pulse 3 .a 10) demo).pulses[3].idle = 1
      ∧ (after (.pulse 3 .b 10) demo).pulses[3].idle = 0 := by decide

/-- R3: every run at an expiry, by its state. -/
theorem test_expiry_run_states :
    (after .intervalExpiry demo).runs[0].state = .opened
      ∧ (after .intervalExpiry demo).runs[1].state = .opened
      ∧ (after .intervalExpiry demo).runs[2].state = .closed
      ∧ (after .intervalExpiry demo).runs[3].state = .closed := by decide

theorem test_load_points :
    (after (.loadPoints 9 1 [1, 0, 2, 0, 0xFF, 0xFE, 0x0F, 0x42, 0x40]) demo).buffer
      = { target := some (.expansion 2), points := [⟨-2, 1000000⟩] } := by decide

/-- R71: point 1 of a curve is not above point 0, so the table is refused: cause ORDER, index 1. -/
theorem test_commit_curve_order :
    replyOf
        (after (.commitCurve 9 1 [0, 2, 2])
          { demo with
            buffer := ⟨some (.curve 0 2), [⟨200000, 1000000⟩, ⟨200000, 1000000⟩]⟩ })
      = [4, 2, 1] := by decide

/-- R68: of an expansion table, a count above 16, a count above the filled points, and a point that is not
above the one before it. -/
theorem test_expansion_table_failures :
    expansionError 17 (List.replicate 17 ⟨0, 1000000⟩) = some (.count, 16)
      ∧ expansionError 4 [⟨0, 1000000⟩, ⟨1, 1000000⟩, ⟨2, 1000000⟩] = some (.count, 3)
      ∧ expansionError 3 [⟨0, 1000000⟩, ⟨1, 1050001⟩, ⟨1, 1000000⟩] = some (.range, 1)
      ∧ expansionError 3 [⟨0, 1000000⟩, ⟨1, 1050000⟩, ⟨1, 1000000⟩] = some (.order, 2) := by decide

theorem test_commit_product_needs_its_target :
    replyOf
        (after (.commitProduct 9 1
          [2, 0, 77, 0, 3, 0x20, 1, 0x38, 0x80, 1, 0x5F, 0x90, 0, 0, 0, 0, 3]) demo)
      = [6] := by decide

theorem test_queue_batch :
    replyOf (after (.queueBatch 9 1 [0, 0, 0, 8, 2, 0, 0, 0, 0, 0, 1]) demo) = [0, 1, 0]
      ∧ replyOf (after (.queueBatch 9 1 [0, 0, 0, 7, 2, 0, 0, 0, 0, 0, 1]) demo) = [3] := by decide

theorem test_cancel_batch_not_the_head :
    replyOf (after (.cancelBatch 9 1 [0, 0, 0, 7]) demo) = [2]
      ∧ replyOf (after (.cancelBatch 9 1 [0, 0, 0, 9]) demo) = [6] := by decide

theorem test_end_batch :
    (after (.endBatch 9 1 [0, 0, 0, 7]) demo).retained.batch.progress.closeCause = some .command
      ∧ (after (.endBatch 9 1 [0, 0, 0, 7]) ready).retained.batch.tickets.map (·.id) = [7] := by decide

theorem test_prove_start :
    (after (.proveStart 9 1 [0]) demo).session = { sessionOf .armed with startInterval := some 40115 }
      ∧ replyOf (after (.proveStart 9 1 [3]) demo) = [2] := by decide

/-- R118, R115: DET1 begins a pass and its dead time rejects the next edge. -/
theorem test_detector_events :
    (after (.detectorEvent .det1 .rising 50) (proving .armed)).session.items.tD1 = some 50
      ∧ (after (.detectorEvent .det1 .rising 60)
          (after (.detectorEvent .det1 .rising 50) (proving .armed))).det1.rejects = 1 := by decide

theorem test_prove_hold_abandons_a_pass :
    (after (.proveHold 9 1 []) (proving .timing)).session.abandoned = 1 := by decide

theorem test_set_level_gate_has_no_level_0 :
    replyOf (after (.setLevelGate 9 1 [1]) demo) = [3]
      ∧ (after (.setLevelGate 9 1 [0x80]) demo).retained.gate = 0x80#8 := by decide

/-- R159: NO_ACTIVE_BATCH is active after reset, RETENTION_LOST is not. -/
theorem test_clear_condition_after_reset :
    replyOf (after (.clearCondition 9 1 [2]) { State.reset with transmitter := .gap }) = [0, 1, 1] := by
  decide

theorem test_hard_start_power_restored :
    ((after (.hardStart .resetRises ⟨63, 2⟩) demo).cond .powerRestored).latched = true
      ∧ (after (.hardStart .resetRises ⟨63, 2⟩) demo).node = 62
      ∧ (after (.hardStart .resetRises ⟨63, 2⟩) demo).station = .ready := by decide

/-- R182: the area stays while one of the two supplies does. -/
theorem test_power_and_backup_loss :
    (after .backupSupplyLoss demo).retainedLost = false
      ∧ (after .backupSupplyLoss demo).backupLost = true
      ∧ (after (.resetOrPowerLoss .vddLost) demo).retainedLost = false
      ∧ (after .backupSupplyLoss (after (.resetOrPowerLoss .vddLost) demo)).retainedLost = true := by
  decide

/-- R183: a power-up while RSTn is low leaves the part inactive; the rising edge is the hard start. -/
theorem test_power_up_while_reset_is_low :
    let down := after (.resetOrPowerLoss .resetLow) (after (.resetOrPowerLoss .vddLost) demo)
    let up := after (.hardStart .powerUp ⟨63, 2⟩) down
    down.power = .noVddInReset ∧ up.power = .heldInReset ∧ up.node = 4
      ∧ (after (.hardStart .resetRises ⟨63, 2⟩) down).power = .noVdd
      ∧ (after (.hardStart .resetRises ⟨63, 2⟩) up).power = .running
      ∧ (after (.hardStart .resetRises ⟨63, 2⟩) up).node = 62 := by decide

/-- R162: 0xA5 has four ones and so a set parity bit, 0x01 one and a clear one. -/
theorem test_line_character :
    lineChar 0xA5 = ⟨0xA5, true, true⟩ ∧ lineChar 0x01 = ⟨0x01, false, true⟩ := by decide

/-- The error counters of R164 after the characters `chars` from an idle line: FRAMING, PARITY, LENGTH, GAP,
CHECK. -/
def errorsAfter (chars : List LineChar) : List Nat :=
  let c := (after (.receiveError chars) demo).counters
  [c.framing, c.parity, c.length, c.gap, c.check]

/-- R164: the receiver finds each error: a start character that is not 0xA5, a missing stop bit, a wrong
parity bit, byte 4 of 65, a character after the last check byte, an idle line before it, a wrong check word. -/
theorem test_receiver_finds_each_error :
    let frame := charsOf ⟨63, 11, 0x50, []⟩
    errorsAfter [lineChar 0xA6] = [1, 0, 0, 0, 0]
      ∧ errorsAfter [⟨0xA5, true, false⟩] = [1, 0, 0, 0, 0]
      ∧ errorsAfter [lineChar 0xA5, ⟨0x01, true, true⟩] = [0, 1, 0, 0, 0]
      ∧ errorsAfter ([0xA5, 63, 11, 0x50, 65].map lineChar) = [0, 0, 1, 0, 0]
      ∧ errorsAfter (frame ++ [lineChar 0]) = [0, 0, 1, 0, 0]
      ∧ errorsAfter (frame.take 6) = [0, 0, 0, 1, 0]
      ∧ errorsAfter ([0xA5, 63, 11, 0x50, 0, 0, 0].map lineChar) = [0, 0, 0, 0, 1] := by decide

/-- R164, R167: the receiver and the transmitter. -/
theorem test_line_events :
    (after .huntingEnd State.reset).receiver = .idle
      ∧ (after .frameReceptionBegin demo).receiver = .receiving
      ∧ (after .transmitterFree demo).transmitter = .free
      ∧ (after .frameSent { demo with transmitter := .sending [] .forwardBuffer }).counters.forwarded
          = 1 := by decide

/-! ### States and operands that meet the hypotheses of the obligations -/

/-- A reply frame as it stands in the outbound queue. -/
def reply0 : OutFrame := { kind := .reply, dest := 9, level := 7, source := 0, payload := [1, 2, 0] }

/-- A notice frame of a condition kind at a level. -/
def notice0 (level : Nat) : OutFrame :=
  { kind := .notice, dest := 63, level, source := 16, payload := [] }

def frame0 : Frame := ⟨5, 6, 0x33, List.replicate 64 0⟩

theorem witness_StepRunsTheFrontCommand :
    ({ demo with pending := [.frameSent, .huntingEnd] } : State).pending
      = .frameSent :: [.huntingEnd] := rfl

theorem witness_EmptyQueueTakesABufferedCommandOrOnePeriod :
    (let s : State := { demo with commands := [frameOf 9 1 0x09 []] }
     s.pending = [] ∧ s.commands = frameOf 9 1 0x09 [] :: []
        ∧ (Instr.readStation 9 1 []).wellFormed = true
        ∧ (Instr.readStation 9 1 []).frame = some (frameOf 9 1 0x09 []))
    ∧ (let s : State := { demo with timer := some 2, inputDivider := 2 }
       s.pending = [] ∧ s.commands = [] ∧ s.Runs ∧ (∀ n, s.timer = some n → 1 < n)
          ∧ 1 < s.inputDivider ∧ s.det1.deadRunning = false ∧ s.det2.deadRunning = false
          ∧ s.session.items.timeoutRunning = false)
    ∧ (let s : State := { demo with power := .heldInReset }
       s.pending = [] ∧ s.commands = [] ∧ s.power ≠ .running) :=
  ⟨⟨rfl, rfl, rfl, rfl⟩,
    ⟨rfl, rfl, ⟨rfl, rfl⟩, fun n h => by cases h; decide, by decide, rfl, rfl, rfl⟩,
    rfl, rfl, by decide⟩

/-- A 10 ms count and an expiry that are due at the end of a period, and those due before it. -/
theorem witness_EmptyQueueTakesWhatIsDue :
    let idle : State → Prop := fun s =>
      s.pending = [] ∧ s.commands = [] ∧ s.Runs ∧ s.det1.deadRunning = false
        ∧ s.det2.deadRunning = false ∧ s.session.items.timeoutRunning = false
    let count := fun n : Nat => { demo with inputDivider := n }
    let timer := fun n : Nat => { demo with timer := some n }
    (∀ n, idle (count n)) ∧ (∀ n, idle (timer n)) ∧ (∀ n, (count n).timer = some 5000000)
      ∧ (∀ n, 1 < (timer n).inputDivider)
      ∧ exec .input10msCount (count 0) = .next (after .input10msCount (count 0))
      ∧ exec .intervalExpiry (timer 0) = .next (after .intervalExpiry (timer 0))
      ∧ (after .intervalExpiry (timer 0)).timer = some 5000000 :=
  ⟨fun _ => ⟨rfl, rfl, ⟨rfl, rfl⟩, rfl, rfl, rfl⟩, fun _ => ⟨rfl, rfl, ⟨rfl, rfl⟩, rfl, rfl, rfl⟩,
    fun _ => rfl, fun _ => by show 1 < 100000; decide, rfl, rfl, by decide⟩

theorem witness_CommandFramesSpellTheirRows :
    (Instr.loadLevels 9 1 (List.replicate 62 7)).wellFormed = true
      ∧ (Instr.loadLevels 9 1 (List.replicate 62 7)).frame
          = some (frameOf 9 1 0x38 (List.replicate 62 7))
      ∧ (List.replicate 64 (7 : Byte)).length ≤ 64 := by decide

theorem witness_RefusedCommandChangesNothing :
    (Instr.openRun 9 1 [4]).parts = some (9, 1, 0x19, [4])
      ∧ demo.Takes (frameOf 9 1 0x19 [4]) demo := ⟨rfl, takes_now rfl rfl rfl⟩

theorem witness_PendingRestartRefusesEveryCommand :
    let s : State := { ready with restartPending := true, commands := [frameOf 9 1 0x09 []] }
    (Instr.readStation 9 1 []).parts = some (9, 1, 0x09, []) ∧ s.power = .running
      ∧ s.restartPending = true
      ∧ takeCommand (frameOf 9 1 0x09 []) s = some { s with commands := [] } :=
  ⟨rfl, rfl, rfl, rfl⟩

theorem witness_UnknownAndWrongLengthCommandsAreRefused :
    (commandOfCode 9 1 (0x3C : Byte).toNat [] = none
        ∧ demo.Takes { source := 9, payload := [1, 0x3C] } demo)
      ∧ demo.Takes { source := 9, payload := [1] } demo
      ∧ demo.Takes { source := 9, payload := [] } demo
      ∧ (Instr.readStation 9 1 [0]).parts = some (9, 1, 0x09, [0]) ∧ fixedLength 0x09 = some 0
      ∧ [(0 : Byte)].length ≠ 0 ∧ demo.Takes (frameOf 9 1 0x09 [0]) demo :=
  ⟨⟨rfl, takes_now rfl rfl rfl⟩, takes_now rfl rfl rfl, takes_now rfl rfl rfl, rfl, rfl, by decide,
    takes_now rfl rfl rfl⟩

theorem witness_InactivePartHandlesNothing :
    (let s : State := { demo with power := .heldInReset }
     s.power ≠ .running ∧ (∀ c x, Instr.frameSent ≠ .hardStart c x)
        ∧ (∀ c, Instr.frameSent ≠ .resetOrPowerLoss c) ∧ Instr.frameSent ≠ .backupSupplyLoss
        ∧ ¬(s.power = .noVdd ∨ s.power = .noVddInReset) ∧ s.backupLost = false)
    ∧ ({ demo with power := .noVdd } : State).power = .noVdd
    ∧ ({ demo with power := .noVddInReset } : State).power = .noVddInReset
    ∧ (let s : State := { demo with backupLost := true }
       ¬(s.power = .noVdd ∨ s.power = .noVddInReset) ∧ s.backupLost = true) := by
  refine ⟨⟨by decide, ?_, ?_, by decide, by decide, rfl⟩, rfl, rfl, by decide, rfl⟩ <;> intros <;>
    intro h <;> cases h

theorem witness_LoopCountsAreReadAndCleared :
    demo.Takes (frameOf 9 1 0x01 []) demo ∧ demo.Takes (frameOf 9 1 0x02 []) demo :=
  ⟨takes_now rfl rfl rfl, takes_now rfl rfl rfl⟩

/-- A station whose curve and product have a pending copy, with one ticket, a prove run and a pass. -/
def reading0 : State :=
  { demo with
    retained :=
      { retained0 with
        products :=
          ((Vector.replicate 8 {}).set 7 { pending := some product0 }).set 2
            { inService := some product0 }
        curves := (Vector.replicate 32 {}).set 27 { pending := some curve0 }
        batch := { batch0 with tickets := [ticket0 8] } }
    session :=
      { sessionOf .armed with
        proveRuns := [formRun 1 0 []]
        passes := [formPass demo prover0 0 1 2 3 4 100] } }

theorem witness_ReadsAnswerOkAndChangeNothing :
    reading0.Takes (frameOf 9 1 0x09 []) reading0
      ∧ (reading0.Takes (frameOf 9 1 0x11 [BitVec.ofNat 8 (15 : Fin 16).val, 1]) reading0
          ∧ reading0.retained.bindings[(15 : Fin 16)] = none
          ∧ reading0.Takes (frameOf 9 1 0x11 [BitVec.ofNat 8 (3 : Fin 16).val, 0]) reading0
          ∧ reading0.retained.bindings[(3 : Fin 16)] = some (binding0 .temperature 3 2000)
          ∧ (1 : Byte).toNat < 2)
      ∧ (reading0.Takes (frameOf 9 1 0x1C [BitVec.ofNat 8 (3 : Fin 4).val, 0]) reading0
          ∧ reading0.Takes (frameOf 9 1 0x1C [BitVec.ofNat 8 (3 : Fin 4).val, 3]) reading0)
      ∧ reading0.Takes (frameOf 9 1 0x1D [BitVec.ofNat 8 (3 : Fin 4).val]) reading0
      ∧ (reading0.Takes (frameOf 9 1 0x23 [3, 3, 1, 2]) reading0
          ∧ reading0.retained.station = some record0 ∧ record0.layout.allows 3 3 = true
          ∧ (2 : Byte).toNat < 3 ∧ record0.layout.pointsPerCurve = 12
          ∧ (reading0.curve 3 3).pending = some curve0 ∧ (reading0.curve 3 3).inService = none)
      ∧ (reading0.Takes (frameOf 9 1 0x24 [7, 1, 2]) reading0
          ∧ reading0.retained.products[(7 : Fin 8)].pending = some product0
          ∧ reading0.retained.products[(7 : Fin 8)].inService = none)
      ∧ (reading0.Takes (frameOf 9 1 0x2B [0]) reading0
          ∧ reading0.Takes (frameOf 9 1 0x2B [12]) reading0
          ∧ reading0.Takes (frameOf 9 1 0x2B [13]) reading0
          ∧ (12 : Byte).toNat = 9 + (3 : Fin 4).val ∧ reading0.retained.batch.queue ≠ [])
      ∧ (reading0.Takes (frameOf 9 1 0x2C (encU 4 8 ++ [10])) reading0
          ∧ reading0.retained.batch.tickets.find? (fun x => x.id == 8) = some (ticket0 8)
          ∧ (10 : Byte).toNat = 7 + (3 : Fin 4).val
          ∧ (ticket0 8).runs.find? (fun e => e.1 == 3) = some (3, entry0)) :=
  ⟨takes_now rfl rfl rfl,
    ⟨takes_now rfl rfl rfl, rfl, takes_now rfl rfl rfl, rfl, by decide⟩,
    ⟨takes_now rfl rfl rfl, takes_now rfl rfl rfl⟩, takes_now rfl rfl rfl,
    ⟨takes_now rfl rfl rfl, rfl, rfl, by decide, rfl, rfl, rfl⟩,
    ⟨takes_now rfl rfl rfl, rfl, rfl⟩,
    ⟨takes_now rfl rfl rfl, takes_now rfl rfl rfl, takes_now rfl rfl rfl, rfl, by decide⟩,
    takes_now rfl rfl rfl, rfl, rfl, rfl⟩

/-- A binding in each of its states, an empty slot, and a station record without the two slots. -/
theorem witness_ReadsAnswerOkAndChangeNothing_values :
    let live := fun l : LiveInput => { demo with live := demo.live.set 3 l }
    let bare : StationRecord := { record0 with densitySlot := none, waterSlot := none }
    let standard : ProductCopy := { product0 with defaultDensity := some 85000 }
    let light : State :=
      { demo with
        retained :=
          { retained0 with
            station := some bare
            products := retained0.products.set 2 { inService := some standard } } }
    let empty : State := { demo with retained := { retained0 with bindings := .replicate 16 none } }
    demo.retained.bindings[(3 : Fin 16)] = some (binding0 .temperature 3 2000)
      ∧ (live { state := .live, held := some 5 }).live[(3 : Fin 16)] = { state := .live, held := some 5 }
      ∧ (live { state := .live, held := some 5, uncertain := true }).live[(3 : Fin 16)]
          = { state := .live, held := some 5, uncertain := true }
      ∧ (live { state := .held, held := some 5 }).live[(3 : Fin 16)] = { state := .held, held := some 5 }
      ∧ (live { state := .substituted }).live[(3 : Fin 16)].state = .substituted
      ∧ demo.live[(3 : Fin 16)].state = .noData
      ∧ empty.retained.station = some record0 ∧ empty.retained.bindings[(5 : Fin 16)] = none
      ∧ empty.retained.bindings[(6 : Fin 16)] = none
      ∧ demo.retained.bindings[(5 : Fin 16)].isSome = true
      ∧ demo.retained.bindings[(6 : Fin 16)].isSome = true
      ∧ light.retained.station = some bare
      ∧ (light.retained.products[light.retained.batch.product].inService).bind (·.defaultDensity)
          = some 85000
      ∧ (demo.retained.products[demo.retained.batch.product].inService).bind (·.defaultDensity)
          = none := by
  decide

theorem witness_ReadsOfTheProveAndTheConditions :
    (reading0.Takes (frameOf 9 1 0x36 [0]) reading0 ∧ reading0.Takes (frameOf 9 1 0x36 [1]) reading0
        ∧ reading0.session.state = .armed ∧ (proving .timing).session.state = .timing
        ∧ (proving .failed).session.state.active = false
        ∧ reading0.Takes (frameOf 9 1 0x36 [4]) reading0
        ∧ reading0.session.passes[0]? = some (formPass demo prover0 0 1 2 3 4 100)
        ∧ reading0.Takes (frameOf 9 1 0x36 [24]) reading0
        ∧ reading0.session.proveRuns[0]? = some (formRun 1 0 []) ∧ (24 : Byte).toNat = 24 + 0)
      ∧ reading0.Takes (frameOf 9 1 0x3B [0]) reading0
      ∧ reading0.Takes (frameOf 9 1 0x3B [1, 114]) reading0 ∧ (114 : Byte).toNat ≤ 114
      ∧ [2, BitVec.ofNat 8 (CondId.inputClamped 15).kindCode,
            BitVec.ofNat 8 (CondId.inputClamped 15).unit] = [(2 : Byte), 8, 15] :=
  ⟨⟨takes_now rfl rfl rfl, takes_now rfl rfl rfl, rfl, rfl, rfl, takes_now rfl rfl rfl, rfl,
      takes_now rfl rfl rfl, rfl, rfl⟩,
    takes_now rfl rfl rfl, takes_now rfl rfl rfl, by decide, by decide⟩

/-- From an idle line the characters of a frame are heard as that frame. -/
theorem hears_idle {s : State} {f : Frame} (hr : s.receiver = .idle) (hp : f.payload.length ≤ 64) :
    s.Hears (charsOf f) f :=
  ⟨by rw [hr]; decide, hp, rfl⟩

theorem witness_FramesForThePartAreTakenOffTheRing :
    let s3 : State := { demo with commands := List.replicate 3 ⟨9, []⟩ }
    let s4 : State := { demo with commands := List.replicate 4 ⟨9, []⟩ }
    let own : Frame := { frame0 with source := 4 }
    let command : Frame := { frame0 with dest := 4, kind := 0x20 }
    s3.Runs ∧ s4.Runs ∧ s3.Hears (charsOf own) own ∧ s3.Hears (charsOf command) command
      ∧ s4.Hears (charsOf command) command ∧ own.source.toNat = s3.node
      ∧ (command.source.toNat ≠ s3.node ∧ command.kind = 0x20 ∧ command.dest.toNat = s3.node)
      ∧ s3.commands.length < 4 ∧ 4 ≤ s4.commands.length :=
  ⟨⟨rfl, rfl⟩, ⟨rfl, rfl⟩, hears_idle rfl (by decide), hears_idle rfl (by decide),
    hears_idle rfl (by decide), by decide, by decide, by decide, by decide⟩

/-- The longest frame, and a frame whose reception has begun. -/
theorem witness_Hears :
    let longest : Frame := { frame0 with payload := List.replicate 64 0 }
    demo.Hears (charsOf longest) longest
      ∧ ({ demo with receiver := .receiving } : State).Hears (charsOf frame0) frame0 :=
  ⟨hears_idle rfl (by decide), by decide, by decide, rfl⟩

/-- Frames that go on round the ring: one of another kind, and a SAMPLE that matches no binding; the
condition of a dropped frame is unlatched, then latched. -/
theorem witness_SampleReachesItsBinding_forwarding :
    let busy : State := { demo with forward := [frame0] }
    let free : State := { demo with forward := [frame0], transmitter := .free }
    let full : State := { demo with forward := [frame0, frame0] }
    let again : State := full.setCond .forwardOverrun { latched := true }
    let sample : Frame := ⟨63, 12, 0x10, [3, 0, 0, 0, 1, 0]⟩
    busy.Runs ∧ free.Runs ∧ full.Runs ∧ again.Runs
      ∧ (∀ s ∈ [busy, free, full, again], s.Hears (charsOf frame0) frame0)
      ∧ busy.Hears (charsOf sample) sample ∧ frame0.source.toNat ≠ busy.node ∧ frame0.kind ≠ 0x10
      ∧ ¬(frame0.kind = 0x20 ∧ frame0.dest.toNat = busy.node)
      ∧ (sample.source.toNat ≠ busy.node ∧ sample.kind = 0x10 ∧ sample.payload.length = 6
          ∧ ∀ slot : Fin 16,
              (busy.retained.bindings[slot]).all (fun b => decide (b.node ≠ sample.source.toNat))
                = true)
      ∧ (busy.forward.length < 2 ∧ busy.transmitter ≠ .free)
      ∧ (free.forward.length < 2 ∧ free.transmitter = .free
          ∧ free.forward ++ [frame0] = frame0 :: [frame0])
      ∧ 2 ≤ full.forward.length ∧ (full.cond .forwardOverrun).latched = false
      ∧ (again.cond .forwardOverrun).latched = true :=
  ⟨⟨rfl, rfl⟩, ⟨rfl, rfl⟩, ⟨rfl, rfl⟩, ⟨rfl, rfl⟩,
    fun s hs =>
      hears_idle
        (by
          simp only [List.mem_cons, List.not_mem_nil, or_false] at hs
          rcases hs with rfl | rfl | rfl | rfl <;> rfl)
        (by decide),
    hears_idle rfl (by decide), by decide, by decide, by decide, by decide, by decide, by decide,
    by decide, rfl, rfl⟩

/-- No other slot of the tests' station holds the tag of slot 3. -/
theorem only_slot3 (j : Fin 16) (c : Binding) (hj : j ≠ 3) (h : demo.retained.bindings[j] = some c) :
    c.tag ≠ 3 := by
  have key : ∀ j : Fin 16, j ≠ 3 →
      (demo.retained.bindings[j]).all (fun c => decide (c.tag ≠ 3)) = true := by decide
  simpa using of_all (key j hj) h

theorem witness_SampleReachesItsBinding :
    let f : Nat → Frame := fun q => ⟨63, 11, 0x10, [3, 0, 0, 0x27, 0x11, BitVec.ofNat 8 q]⟩
    let b := binding0 .temperature 3 2000
    demo.Runs ∧ demo.Hears (charsOf (f 1)) (f 1) ∧ demo.Hears (charsOf (f 2)) (f 2)
      ∧ ({ demo with forward := [frame0, frame0] } : State).Hears (charsOf (f 1)) (f 1)
      ∧ (f 1).source.toNat ≠ demo.node ∧ (f 1).kind = 0x10
      ∧ demo.retained.bindings[(3 : Fin 16)] = some b ∧ b.node = (f 1).source.toNat
      ∧ b.tag = (3 : Byte).toNat
      ∧ (∀ (j : Fin 16) (c : Binding), j ≠ 3 → demo.retained.bindings[j] = some c →
          ¬(c.node = b.node ∧ c.tag = b.tag))
      ∧ (BitVec.ofNat 8 1).toNat ≤ 1 ∧ 2 ≤ (BitVec.ofNat 8 2).toNat
      ∧ CondId.inputClamped 15 ≠ .inputClamped 3 ∧ CondId.inputClamped 15 ≠ .sampleRejectedBad 3
      ∧ demo.transmitter ≠ .free ∧ demo.forward.length < 2
      ∧ 2 ≤ ({ demo with forward := [frame0, frame0] } : State).forward.length :=
  ⟨⟨rfl, rfl⟩, hears_idle rfl (by decide), hears_idle rfl (by decide), hears_idle rfl (by decide), by decide,
    rfl, rfl, rfl, rfl, fun j c hj h k => only_slot3 j c hj h k.2,
    by decide, by decide, by decide, by decide, by decide, by decide, by decide⟩

/-- The first characters of a list that show no error, as a check to run. -/
theorem faultless_of_all {l : List LineChar} {n : Nat}
    (h : ((List.range n).all fun i =>
      l[i]?.all fun c => [.framing, .parity, .gap, .length, .check].all fun e => !showsFault l i c e) = true) :
    FaultlessUpTo l n := by
  intro i c e hi hc
  have := List.all_eq_true.1 h i (List.mem_range.2 hi)
  rw [hc, Option.all_some] at this
  simpa using List.all_eq_true.1 this e (by cases e <;> simp)

/-- The states of the receiver, and an error of the first character; byte 4 of 65, and a character after the
last check byte. -/
theorem witness_ReceiverFollowsTheLine :
    let tooLong := [0xA5, 63, 11, 0x50, 65].map lineChar
    let further := charsOf ⟨63, 11, 0x50, []⟩ ++ [lineChar 0]
    demo.Runs ∧ demo.receiver = .idle ∧ demo.receiver ≠ .hunting ∧ State.reset.Runs
      ∧ State.reset.receiver = .hunting ∧ State.reset.receiver ≠ .idle
      ∧ (FaultlessUpTo [lineChar 0] 0 ∧ showsFault [lineChar 0] 0 (lineChar 0) .framing = true)
      ∧ (tooLong[4]? = some (lineChar 65) ∧ FaultlessUpTo tooLong 4
          ∧ showsFault tooLong 4 (lineChar 65) .length = true)
      ∧ (further[7]? = some (lineChar 0) ∧ FaultlessUpTo further 7
          ∧ showsFault further 7 (lineChar 0) .length = true) :=
  ⟨⟨rfl, rfl⟩, rfl, by decide, ⟨rfl, rfl⟩, rfl, by decide,
    ⟨faultless_of_all (by decide), by decide⟩,
    ⟨by decide, faultless_of_all (by decide), by decide⟩,
    ⟨by decide, faultless_of_all (by decide), by decide⟩⟩

/-- A line that goes idle after the first character and before the last, and a wrong check word. -/
theorem witness_ReceiverFollowsTheLine_idle :
    let one := [lineChar 0xA5]
    let six := (charsOf ⟨63, 11, 0x50, []⟩).take 6
    let wrong := [0xA5, 63, 11, 0x50, 0, 0, 0].map lineChar
    (FaultlessUpTo one one.length ∧ one ≠ [] ∧ (one.map (·.data))[4]? = none)
      ∧ (FaultlessUpTo six six.length ∧ (six.map (·.data))[4]? = some 0
          ∧ six.length < 7 + (0 : Byte).toNat)
      ∧ (FaultlessUpTo wrong wrong.length ∧ (wrong.map (·.data))[4]? = some 0
          ∧ 7 + (0 : Byte).toNat ≤ wrong.length
          ∧ (wrong.map (·.data)).drop 5
              ≠ natBytes 2 (crc (((wrong.map (·.data)).drop 1).take 4)).toNat) :=
  ⟨⟨faultless_of_all (by decide), by decide, by decide⟩,
    ⟨faultless_of_all (by decide), by decide, by decide⟩,
    ⟨faultless_of_all (by decide), by decide, by decide, by decide⟩⟩

theorem witness_FreeTransmitterBeginsTheNextFrame :
    demo.Runs ∧ demo.transmitter = .gap ∧ demo.forward = [] ∧ demo.outbound = []
      ∧ ({ demo with forward := [frame0] } : State).forward = frame0 :: []
      ∧ highest [notice0 2, reply0, notice0 7] = some (notice0 7, [notice0 2, reply0])
      ∧ ({ demo with transmitter := .free } : State).transmitter ≠ .gap :=
  ⟨⟨rfl, rfl⟩, rfl, rfl, rfl, rfl, by decide, by decide⟩

theorem witness_QueueIsRankedByLevelSourceAndAge :
    highest [notice0 2, reply0, reply0] = some (reply0, [notice0 2, reply0])
      ∧ lowest [notice0 2, reply0, notice0 2] = some (notice0 2, [notice0 2, reply0]) := by decide

theorem witness_FullOutboundQueueDisplacesOrDrops :
    let room : State := { demo with outbound := List.replicate 15 (notice0 1) }
    let full : State := { demo with outbound := List.replicate 16 (notice0 1) }
    let again : State := full.setCond .outboundDiscard { latched := true }
    let shut : State := { full with retained := { retained0 with gate := 0 } }
    room.transmitter ≠ .free ∧ room.outbound.length < 16 ∧ full.transmitter ≠ .free
      ∧ full.outbound.length = 16
      ∧ lowest full.outbound = some (notice0 1, List.replicate 15 (notice0 1))
      ∧ outranks reply0 (notice0 1) = true ∧ outranks (notice0 1) (notice0 1) = false
      ∧ (again.cond .outboundDiscard).latched = true ∧ (full.cond .outboundDiscard).latched = false
      ∧ shut.retained.levels = some (.replicate 25 2) ∧ shut.retained.gate.getLsbD 2 = false
      ∧ full.retained.levels = some (.replicate 25 2) ∧ full.retained.gate.getLsbD 2 = true
      ∧ lowest (List.replicate 15 (notice0 1) ++ [reply0])
          = some (notice0 1, List.replicate 14 (notice0 1) ++ [reply0]) := by
  decide

/-- A free transmitter with an empty queue, with one that holds a lower frame, and with a frame to forward. -/
theorem witness_FullOutboundQueueDisplacesOrDrops_free :
    let free : State := { demo with transmitter := .free }
    let queued : State := { free with outbound := [notice0 1] }
    let passing : State := { queued with forward := [frame0] }
    free.transmitter = .free ∧ free.outbound = [] ∧ free.forward = [] ∧ queued.outbound.length < 16
      ∧ highest (queued.outbound ++ [reply0]) = some (reply0, [notice0 1])
      ∧ passing.forward = frame0 :: [] := by
  decide

theorem witness_SentFrameIsCountedAndTakesTheRestart :
    let f : State := { demo with transmitter := .sending [1] .forwardBuffer }
    let q : State := { demo with transmitter := .sending [1] (.outboundQueue false) }
    let r : State :=
      { ready with
        transmitter := .sending [1] (.outboundQueue true), restartPending := true
        outbound := [notice0 2] }
    f.power = .running ∧ f.restartPending = false ∧ f.transmitter = .sending [1] .forwardBuffer
      ∧ q.power = .running ∧ q.restartPending = false
      ∧ q.transmitter = .sending [1] (.outboundQueue false)
      ∧ r.power = .running ∧ r.restartPending = true
      ∧ r.transmitter = .sending [1] (.outboundQueue true)
      ∧ (∀ g ∈ r.outbound, g.marked = false) ∧ demo.restartPending = false
      ∧ demo.transmitter = .gap := by
  decide

def stationArgs (layout : Byte) : List Byte := [50, layout, 4, 3, 3, 3, 1, 5, 1, 6]

theorem witness_LoadStationInstallsTheRecord :
    let s : State :=
      { ready with station := .configuring, buffer := { target := some (.curve 0 2) } }
    s.Takes (frameOf 9 1 0x08 (stationArgs 0)) s ∧ (stationArgs 0).length = 10
      ∧ readStationRecord (stationArgs 0) = some record0
      ∧ readStationRecord (stationArgs 2) = some { record0 with layout := .l4R8P }
      ∧ s.station ≠ .metering ∧ s.retained.station.map (·.layout) = some record0.layout
      ∧ s.buffer.target = some (.curve 0 2) :=
  ⟨takes_now rfl rfl rfl, rfl, by decide, by decide, by decide, rfl, rfl⟩

theorem witness_StartMeteringStartsTheTimer :
    let awaiting : State :=
      { ready with retained := { retained0 with batch := { batch0 with progress := {} } } }
    ready.Takes (frameOf 9 1 0x0A []) ready ∧ ready.retained.station = some record0
      ∧ ready.station = .ready
      ∧ (∀ h rest, ready.retained.batch.queue = h :: rest → h.state = .active →
          ready.retained.batch.progress.opening.isSome = true)
      ∧ awaiting.Takes (frameOf 9 1 0x0A []) awaiting ∧ awaiting.station = .ready
      ∧ awaiting.retained.batch.queue = head0 :: [] ∧ head0.state = .active
      ∧ awaiting.retained.batch.progress.opening = none :=
  ⟨takes_now rfl rfl rfl, rfl, rfl, fun _ _ _ _ => rfl, takes_now rfl rfl rfl, rfl, rfl, rfl, rfl⟩

/-- A batch unit whose head is CLOSING, with tickets. -/
def closing0 (tickets : List Ticket) : BatchUnit :=
  { batch0 with
    queue := [{ head0 with state := .closing }, { head0 with id := 8, state := .queued }]
    progress := { batch0.progress with closeCause := some .command }
    tickets }

theorem witness_StopMeteringStopsTheTimer :
    let s : State :=
      { demo with
        runs := .replicate 4 {}
        retained := { retained0 with batch := closing0 [ticket0 1, ticket0 2, ticket0 3] } }
    s.Takes (frameOf 9 1 0x0B []) s ∧ s.station = .metering
      ∧ (∀ r : Fin 4, s.runs[r].state = .closed) ∧ s.retained.batch.HeadCloses
      ∧ s.retained.batch.tickets.length < 4
      ∧ s.retained.batch.queue
          = { head0 with state := .closing } :: [{ head0 with id := 8, state := .queued }]
      ∧ (s.retained.station = some record0 ∧ s.transmitter ≠ .free ∧ s.outbound.length ≤ 10)
      ∧ ¬batch0.HeadCloses ∧ demo.Takes (frameOf 9 1 0x0B []) demo
      ∧ demo.station = .metering ∧ demo.runs[(0 : Fin 4)].state ≠ .closed :=
  ⟨takes_now rfl rfl rfl, rfl, by decide, ⟨_, _, rfl, rfl⟩, by decide, rfl,
    ⟨rfl, by decide, by decide⟩, (fun ⟨_, _, e, h⟩ => by cases e; cases h), takes_now rfl rfl rfl, rfl,
    by decide⟩

theorem witness_RestartWaitsForItsReply :
    let s : State := { ready with outbound := List.replicate 15 (notice0 2) }
    s.Takes (frameOf 9 1 0x0C []) s ∧ (∀ r : Fin 4, s.runs[r].state = .closed)
      ∧ s.session.state = .idle ∧ s.transmitter ≠ .free ∧ s.outbound.length < 16
      ∧ demo.Takes (frameOf 9 1 0x0C []) demo
      ∧ ¬((∀ r : Fin 4, demo.runs[r].state = .closed) ∧ demo.session.state = .idle) :=
  ⟨takes_now rfl rfl rfl, by decide, rfl, by decide, by decide, takes_now rfl rfl rfl, by decide⟩

/-- The three ways to a hard start; of a lost area, one of the two cases of the check-word test holds. -/
theorem witness_StartsAndLostAreas :
    demo.Starts .powerUp ∧ ({ demo with power := .noVdd } : State).Starts .powerUp
      ∧ ({ demo with power := .heldInReset } : State).Starts .resetRises ∧ demo.retainedLost = false
      ∧ (let s : State := { demo with retainedLost := true, power := .noVdd }
         s.Starts .powerUp ∧ s.retainedLost = true
          ∧ (crc (Config.retainedBytes (Config.lostArea s.openCount).1)
                ≠ (Config.lostArea s.openCount).2
              ∨ crc (Config.retainedBytes (Config.lostArea s.openCount).1)
                = (Config.lostArea s.openCount).2)) :=
  ⟨.inl rfl, .inr (.inl ⟨rfl, rfl⟩), .inr (.inr ⟨rfl, rfl⟩), rfl, .inr (.inl ⟨rfl, rfl⟩), rfl,
    ne_or_eq _ _⟩

/-- A LOAD_BINDING of a temperature at slot 15, from node 12 with tag 255. -/
def bindingArgs : List Byte :=
  [15, 0, 12, 255, 0xFF, 0xFF, 0xF0, 0x60, 0, 0, 0x27, 0x10, 0, 10, 0xFF, 0xFF, 0xF0, 0x60]

theorem witness_LoadBindingStartsFromNoData :
    demo.Takes (frameOf 9 1 0x10 bindingArgs) demo ∧ bindingArgs.length = 18
      ∧ readBinding demo.node bindingArgs
          = some (15, { kind := .temperature, node := 12, tag := 255, low := -4000, high := 10000,
                        stale := 10, substitute := -4000 })
      ∧ (∀ (j : Fin 16) (c : Binding), j ≠ 15 → demo.retained.bindings[j] = some c →
          ¬(c.node = 12 ∧ c.tag = 255))
      ∧ (∀ (r : Fin 4) (x : RunSettings), demo.runs[r].state ≠ .closed →
          demo.retained.runs[r].settings = some x → x.tSlot ≠ 15 ∧ x.pSlot ≠ 15)
      ∧ (∀ x : StationRecord, demo.station = .metering → demo.retained.station = some x →
          x.densitySlot ≠ some 15 ∧ x.waterSlot ≠ some 15)
      ∧ demo.session.state.active = false := by
  refine ⟨takes_now rfl rfl rfl, rfl, by decide, ?_, ?_, ?_, rfl⟩
  · intro j c _ h
    have key : ∀ j : Fin 16,
        (demo.retained.bindings[j]).all (fun c => decide (¬(c.node = 12 ∧ c.tag = 255))) = true := by
      decide
    have := of_all (key j) h
    exact of_decide_eq_true this
  · intro r x _ h
    have key : ∀ r : Fin 4,
        (demo.retained.runs[r].settings).all
          (fun x => decide (x.tSlot ≠ 15 ∧ x.pSlot ≠ 15)) = true := by decide
    simpa using of_all (key r) h
  · intro x _ h
    cases h
    decide

theorem witness_TenMsCountAgesEveryBinding :
    let s : State := { demo with live := demo.live.set 3 { state := .held, age := some 200 } }
    s.Runs ∧ s.retained.bindings[(3 : Fin 16)] = some (binding0 .temperature 3 2000)
      ∧ s.live[(3 : Fin 16)].age = some 200
      ∧ ∀ slot : Fin 16, CondId.noActiveBatch ≠ .inputStale slot
          ∧ CondId.noActiveBatch ≠ .inputFailed slot ∧ CondId.noActiveBatch ≠ .inputClamped slot :=
  ⟨⟨rfl, rfl⟩, rfl, rfl, by decide⟩

/-- LOAD_RUN arguments for run 3 with K-factor 1,000 or with the one held. -/
def runArgs (k : List Byte) : List Byte :=
  3 :: k ++ [1, 0, 0x0F, 0x42, 0x40, 3, 4, 0, 0x0C, 0x35, 0, 0, 1, 0x86, 0xA0]

theorem witness_LoadRunReplacesTheSettings :
    demo.Takes (frameOf 9 1 0x18 (runArgs [0, 0, 3, 0xE8])) demo
      ∧ (runArgs [0, 0, 3, 0xE8]).length = 20
      ∧ readRunSettings (runArgs [0, 0, 3, 0xE8]) = some (3, { settings with kFactor := 1000 })
      ∧ readRunSettings (runArgs [0, 0x24, 0x9F, 0]) = some (3, settings)
      ∧ demo.retained.runs[(3 : Fin 4)].settings = some settings
      ∧ demo.runs[(3 : Fin 4)].state = .closed ∧ demo.runs[(1 : Fin 4)].state ≠ .closed :=
  ⟨takes_now rfl rfl rfl, rfl, by decide, by decide, rfl, rfl, by decide⟩

theorem witness_RunsOpenAndClose :
    demo.Takes (frameOf 9 1 0x19 [BitVec.ofNat 8 (3 : Fin 4).val]) demo ∧ demo.station = .metering
      ∧ demo.runs[(3 : Fin 4)].state = .closed ∧ demo.retained.station = some record0
      ∧ record0.layout.allowsRun 3 = true
      ∧ demo.retained.runs[(3 : Fin 4)].settings = some settings
      ∧ (demo.retained.bindings[settings.tSlot]).isSome = true
      ∧ (demo.retained.bindings[settings.pSlot]).isSome = true
      ∧ demo.Takes (frameOf 9 1 0x1A [BitVec.ofNat 8 (0 : Fin 4).val]) demo
      ∧ demo.runs[(0 : Fin 4)].state = .opened ∧ demo.proving 0 = false
      ∧ demo.runs[(1 : Fin 4)].state = .opening ∧ demo.runs[(2 : Fin 4)].state = .closing
      ∧ (proving .held).Takes (frameOf 9 1 0x1A [BitVec.ofNat 8 (0 : Fin 4).val]) (proving .held)
      ∧ (proving .held).runs[(0 : Fin 4)].state = .opened ∧ (proving .held).proving 0 = true
      ∧ CondId.channelLost 0 ∈ pulseConds 0 ∧ CondId.channelLost 3 ∉ pulseConds 0
      ∧ CondId.channelLost 3 ≠ .outboundDiscard :=
  ⟨takes_now rfl rfl rfl, rfl, rfl, rfl, rfl, rfl, rfl, rfl, takes_now rfl rfl rfl, rfl, rfl, rfl, rfl,
    takes_now rfl rfl rfl, rfl, rfl, by decide, by decide, by decide⟩

/-- A run that no prove is attached to, and the run of a timed pass, whose session then changes. -/
theorem witness_SelectChannelSetsThePendingChange :
    (proving .timing).Takes (frameOf 9 1 0x1B [BitVec.ofNat 8 (3 : Fin 4).val, 1]) (proving .timing)
      ∧ [BitVec.ofNat 8 (channelCode .b)] = [(1 : Byte)]
      ∧ (proving .timing).retained.runs[(3 : Fin 4)].settings = some settings
      ∧ settings.mode = .dual ∧ (proving .timing).pulses[(3 : Fin 4)].status.get .b = .normal
      ∧ (proving .timing).sessionTold 3 .channel = (proving .timing).session
      ∧ (proving .timing).Takes (frameOf 9 1 0x1B [BitVec.ofNat 8 (0 : Fin 4).val, 1]) (proving .timing)
      ∧ (proving .timing).pulses[(0 : Fin 4)].status.get .b = .normal
      ∧ (proving .timing).pulses[(0 : Fin 4)].change = none
      ∧ (proving .timing).sessionTold 0 .channel ≠ (proving .timing).session :=
  ⟨takes_now rfl rfl rfl, rfl, rfl, rfl, rfl, by decide, takes_now rfl rfl rfl, rfl, rfl, by decide⟩

theorem witness_PulsesAreCountedByRunState :
    let s : State := demo.setPulse 3 { idle := 99 }
    let full : State := demo.setPulse 0 { counts := ⟨20000, 19999⟩ }
    s.Runs ∧ full.Runs ∧ full.runs[(0 : Fin 4)].state ≠ .closed
      ∧ s.runs[(3 : Fin 4)].state = .closed ∧ Channel.a = s.primary 3 ∧ s.pulses[(3 : Fin 4)].idle = 99
      ∧ demo.pulses[(3 : Fin 4)].idle ≠ 99 ∧ Channel.b ≠ s.primary 3 :=
  ⟨⟨rfl, rfl⟩, ⟨rfl, rfl⟩, by decide, rfl, rfl, rfl, by decide, by decide⟩

/-- A pulse state whose channel A leads by `a` pulses to `b`. -/
def leading (a b : Nat) : PulseState := { windows := ⟨a, b⟩ }

/-- Run 0 of the tests' station with channel A and channel B at given window counts. -/
def counting (a b : Nat) : State := demo.setPulse 0 (leading a b)

theorem witness_CheckpointOutcomes_pulses :
    (counting 15 3).Runs ∧ (counting 15 3).runs[(0 : Fin 4)].state ≠ .closed
      ∧ (counting 15 3).retained.runs[(0 : Fin 4)].settings = some settings
      ∧ settings.mode = .dual ∧ ((counting 15 3).pulses[(0 : Fin 4)]).windows.get .a + 1 = 16
      ∧ ((counting 15 3).pulses[(0 : Fin 4)]).windows.get Channel.a.other < 16
      ∧ ¬(((counting 15 16).pulses[(0 : Fin 4)]).windows.get Channel.a.other < 16)
      ∧ ({ settings with mode := .single } : RunSettings).mode = .single :=
  ⟨⟨rfl, rfl⟩, by decide, rfl, rfl, rfl, by decide, by decide, rfl⟩

/-- A timed pass of run 0 at a checkpoint that clears Fine, at one that makes a change pending alone, and
at one that does neither. -/
theorem witness_CheckpointOutcomes_reports :
    let fine : PulseState := { leading 16 3 with coarse := true, fine := true }
    let silent : PulseState := { leading 16 0 with totalizing := .b }
    (proving .timing).session.attached = some 0 ∧ (proving .timing).session.state = .timing
      ∧ fine.fine = true ∧ (fine.checkpoint .a).fine = false
      ∧ silent.fine = false ∧ silent.change = none ∧ (silent.checkpoint .a).change ≠ none
      ∧ ({ leading 16 14 with totalizing := .b } : PulseState).fine = false
      ∧ (({ leading 16 14 with totalizing := .b } : PulseState).checkpoint .a).change = none
      ∧ (({ leading 16 14 with totalizing := .b } : PulseState).checkpoint .a).totalizing ≠ .a
      ∧ (proving .armed).session.state ≠ .timing ∧ (proving .armed).session.state ≠ .finishing := by
  decide

theorem witness_CheckpointOutcomes :
    (leading 16 1).status = ⟨.normal, .normal⟩
      ∧ (1 ≤ (leading 16 13).windows.b ∧ 2 ≤ (leading 16 13).windows.a - (leading 16 13).windows.b - 1)
      ∧ ((leading 16 14).windows.a - (leading 16 14).windows.b - 1 ≤ 1
          ∧ (leading 16 14).windows.a = 16)
      ∧ ((leading 32 31).windows.a - (leading 32 31).windows.b - 1 ≤ 1
          ∧ (leading 32 31).windows.a = 32)
      ∧ ((leading 64 63).windows.a - (leading 64 63).windows.b - 1 = 0
          ∧ (leading 64 63).windows.a = 64)
      ∧ ((leading 64 62).windows.a - (leading 64 62).windows.b - 1 = 1
          ∧ (leading 64 62).windows.a = 64)
      ∧ ¬({ leading 64 63 with status := ⟨.normal, .lost⟩ } : PulseState).status
          = ⟨.normal, .normal⟩
      ∧ (leading 16 0).windows.get Channel.a.other = 0
      ∧ (leading 16 0).status.get Channel.a.other = .normal
      ∧ (leading 16 0).change = none ∧ (leading 16 0).totalizing = Channel.a
      ∧ ({ leading 16 0 with totalizing := .b } : PulseState).totalizing = Channel.a.other
      ∧ ({ leading 16 0 with change := some .b } : PulseState).change = some Channel.a.other
      ∧ ({ leading 16 0 with status := ⟨.normal, .lost⟩ } : PulseState).status.get Channel.a.other
          = .lost := by
  decide

theorem witness_Stages :
    0 ≤ (computeStages case1).ccf ∧ 0 ≤ (10000 : Int) ∧ (10000 : Int) ≤ 10000
      ∧ ({ case1 with sw := 0 } : IntervalInput).sw = 0 ∧ case1.residues.rNSV < 10000
      ∧ case1.product = some product0 ∧ 2 ≤ product0.points.length
      ∧ (∀ p ∈ product0.points, 950000 ≤ p.factor ∧ p.factor ≤ 1050000)
      ∧ (product0.points.map (·.x)).Pairwise (· < ·) ∧ case1.kFactor ≠ 0 ∧ case1.length ≠ 0
      ∧ ({ case1 with rho := 0 } : IntervalInput).rho = 0 ∧ case1.residues.rM < 100000000000
      ∧ case1.curve = some curve0.points
      ∧ curve0.points.head? = some ⟨200000, 1002900, .loaded⟩
      ∧ curve0.points.getLast? = some ⟨800000, 1000900, .loaded⟩
      ∧ product0.points.head? = some ⟨2000, 995300⟩ ∧ product0.points.getLast? = some ⟨4000, 978900⟩
      ∧ ({ case1 with curve := none, product := none } : IntervalInput).curve = none
      ∧ ({ case1 with curve := none, product := none } : IntervalInput).product = none := by
  decide

theorem witness_InterpolationStaysWithinTheFactors :
    let points : List (Int × Int) := [(60000, 1001400), (100000, 1001000)]
    points ≠ [] ∧ (points.map (·.1)).Pairwise (· < ·)
      ∧ (∀ p ∈ points, 1001000 ≤ p.2 ∧ p.2 ≤ 1001400)
      ∧ points.head? = some (60000, 1001400) ∧ points.getLast? = some (100000, 1001000)
      ∧ points[0]? = some (60000, 1001400) ∧ points[0 + 1]? = some (100000, 1001000)
      ∧ (60000 : Int) ≤ 99999 ∧ (99999 : Int) < 100000 := by
  decide

/-- R17: the increment of a falling curve is rounded half away from zero. -/
theorem test_interpolation_rounds_away_from_zero :
    interpolate [(0, 1000000), (2, 999999)] 1 = 999999
      ∧ interpolate [(0, 1000000), (2, 1000001)] 1 = 1000001 := by decide

theorem witness_IntervalExpiry :
    demo.Runs ∧ demo.timer = some 5000000 ∧ demo.runs[(3 : Fin 4)].state = .closed
      ∧ demo.runs[(1 : Fin 4)].state = .opening ∧ demo.runs[(0 : Fin 4)].state = .opened
      ∧ demo.runs[(2 : Fin 4)].state = .closing
      ∧ demo.retained.runs[(0 : Fin 4)].settings = some settings
      ∧ demo.retained.station = some record0 := ⟨⟨rfl, rfl⟩, rfl, rfl, rfl, rfl, rfl, rfl, rfl⟩

/-- The Batch Unit of `s` once the records of the expiry have gone to their accumulators. -/
def takenAtExpiry (s : State) : BatchUnit :=
  ((List.finRange 4).filterMap fun r =>
      if (s.runs[r].state == .opened || s.runs[r].state == .closing)
          && s.retained.runs[r].settings.isSome then
        (after .intervalExpiry s).runs[r].last.map fun x => (x, s.pulses[r].batchDisagree)
      else none).foldl (fun b x => b.taking x.1 x.2) s.retained.batch

/-- The Batch Unit at an expiry: a head that goes on, one that awaits, one that closes with a batch
behind it or alone; a result frame is due, at interval 40,116. -/
theorem witness_ExpiryAccumulatesClosesAndOpensBatches :
    let of : BatchUnit → State := fun b => { proving .armed with retained := { retained0 with batch := b } }
    let alone : BatchUnit := { closing0 [] with queue := [{ head0 with state := .closing }] }
    let quiet : State :=
      { demo with retained := { retained0 with levels := some (.replicate 25 0) } }
    let shut : State := { demo with retained := { retained0 with gate := 0 } }
    let changing := { proving .timing with pulses := demo.pulses.set 0 { change := some .b } }
    (of batch0).Runs ∧ (of batch0).timer = some 5000000 ∧ (of batch0).retained.station = some record0
      ∧ (takenAtExpiry (of batch0)).queue = head0 :: []
      ∧ (takenAtExpiry (of batch0)).progress.opening = some 40115
      ∧ (takenAtExpiry (of { batch0 with progress := {} })).queue = head0 :: []
      ∧ (takenAtExpiry (of { batch0 with progress := {} })).progress.opening = none
      ∧ (takenAtExpiry (of (closing0 []))).queue
          = { head0 with state := .closing } :: [{ head0 with id := 8, state := .queued }]
      ∧ (takenAtExpiry (of alone)).queue = { head0 with state := .closing } :: []
      ∧ (takenAtExpiry (of (closing0 []))).tickets.length < 4
      ∧ 4 ≤ (takenAtExpiry (of (closing0 (List.replicate 4 (ticket0 1))))).tickets.length
      ∧ (of batch0).session.state.active = true
      ∧ (∀ r : Fin 4, (of batch0).pulses[r].change = none)
      ∧ (changing.session.attached = some 0 ∧ changing.pulses[(0 : Fin 4)].change ≠ none
          ∧ changing.sessionTold 0 .channel ≠ changing.session)
      ∧ (quiet.timer = some 5000000 ∧ quiet.station = .metering ∧ quiet.transmitter ≠ .free
          ∧ quiet.outbound.length ≤ 8)
      ∧ (40116 : Word32).toNat % record0.spacing = 0 ∧ quiet.NoticesQuiet
      ∧ shut.NoticesQuiet := by
  have zero : ∀ i : Fin 25, (Vector.replicate 25 0)[i] = 0 := by decide
  have closed : ∀ i : Fin 25, ((Vector.replicate 25 2)[i] != 0
      && !(0#8).getLsbD (Vector.replicate 25 2)[i]) = true := by decide
  refine ⟨⟨rfl, rfl⟩, by decide, by decide, by decide, by decide, by decide, by decide, by decide,
    by decide, by decide, by decide, by decide, by decide, by decide, by decide, by decide,
    fun c => .inr (.inr ⟨_, rfl, zero c.kindIndex⟩), fun c => .inr (.inl (closed c.kindIndex))⟩

/-- A batch whose net volume stands at its target of 1 L before the next record. -/
def reaching : State :=
  { proving .armed with
    retained :=
      { retained0 with
        batch :=
          { batch0 with
            queue := [{ head0 with target := some 1, endMode := .onTarget }]
            acc := { station := { totals := { nsv := 1000 } } } } } }

/-- An expiry at which the target ends the batch, and a record that no expiry touches. -/
theorem witness_ExpiryAccumulatesClosesAndOpensBatches_target :
    (takenAtExpiry reaching).progress.targetReached = true
      ∧ reaching.retained.batch.progress.targetReached = false
      ∧ reaching.retained.batch.queue.head?.map (·.state) = some .active
      ∧ (takenAtExpiry reaching).queue.head?.map (·.state) = some .closing
      ∧ reaching.session.state.active = true
      ∧ CondId.powerRestored ∉ [.targetReached, .provePassSpoiled, .proveFailed, .noActiveBatch,
          .ticketStoreFull, .outboundDiscard]
      ∧ ∀ r : Fin 4, CondId.powerRestored ∉ pulseConds r ++ [.rateHigh r, .rateLow r,
          .rateOutsideCurve r, .noCurve r, .tempOutsideTable r, .densityOutsideProduct r] := by
  decide

/-- R102, R104, R112, R142: the batch closes at the expiry that reaches its target. -/
theorem test_expiry_reaches_the_target :
    let t := after .intervalExpiry reaching
    (t.cond .targetReached).occurrences = 1 ∧ (t.cond .noActiveBatch).active = true
      ∧ (t.cond .proveFailed).last = some 40116 ∧ t.retained.batch.queue = []
      ∧ t.retained.batch.tickets.map (·.cause) = [.target] := by
  decide

/-- A table for each way to fail, after points that pass. -/
theorem witness_CurveCheckAcceptsExactlyValidCurves :
    let good : List TablePoint := [⟨1, 900000⟩, ⟨10000000, 920000⟩]
    curveError 2 12 good = none ∧ expansionError 2 [⟨-4000, 950000⟩, ⟨10000, 1050000⟩] = none
      ∧ curveError 13 12 (List.replicate 13 ⟨1, 900000⟩) = some (.count, 12)
      ∧ curveError 3 12 good = some (.count, 2)
      ∧ curveError 3 12 (good ++ [⟨10000001, 900000⟩]) = some (.range, 2)
      ∧ curveError 3 12 (good ++ [⟨10000000, 900000⟩]) = some (.order, 2)
      ∧ curveError 2 12 [⟨1, 900000⟩, ⟨2, 920001⟩] = some (.step, 1) := by
  decide

/-- LOAD_POINTS of one point at a start index, and of eight points of an expansion table. -/
def curvePointArgs : List Byte := [3, 3, 11, 0, 0, 0, 1, 0x0F, 0x42, 0x40]

def expansionPointArgs : List Byte := [0, 7, 8] ++ List.replicate 40 0

theorem witness_LoadPointsWritesTheBuffer :
    let s : State :=
      { demo with buffer := ⟨some (.curve 3 3), List.replicate 11 ⟨1, 1000000⟩⟩ }
    let e : State := { demo with buffer := ⟨some (.expansion 7), List.replicate 8 ⟨1, 1000000⟩⟩ }
    s.Takes (frameOf 9 1 0x20 (0 :: curvePointArgs)) s
      ∧ pointsLengthOk true (0 :: curvePointArgs).length = true
      ∧ readTarget (0 :: curvePointArgs) = some (.curve 3 3)
      ∧ argU (0 :: curvePointArgs) 3 1 = 11 ∧ s.buffer.points.length = 11
      ∧ s.retained.station = some record0 ∧ record0.layout.allows 3 3 = true
      ∧ 11 + (readPoints true (0 :: curvePointArgs)).length ≤ record0.layout.pointsPerCurve
      ∧ e.Takes (frameOf 9 1 0x20 (1 :: expansionPointArgs)) e
      ∧ pointsLengthOk false (1 :: expansionPointArgs).length = true
      ∧ readTarget (1 :: expansionPointArgs) = some (.expansion 7)
      ∧ argU (1 :: expansionPointArgs) 3 1 = 8 ∧ e.buffer.points.length = 8
      ∧ 8 + (readPoints false (1 :: expansionPointArgs)).length ≤ 16 :=
  ⟨takes_now rfl rfl rfl, rfl, rfl, by decide, rfl, rfl, rfl, by decide, takes_now rfl rfl rfl, rfl, rfl,
    by decide, rfl, by decide⟩

/-- COMMIT_PRODUCT of slot 2 with two points. -/
def productArgs0 (slot : Byte) : List Byte :=
  [slot, 0, 77, 0, 3, 0x20, 1, 0x38, 0x80, 1, 0x5F, 0x90, 0, 0, 0, 0, 2]

def productRead (slot : Fin 8) : ProductArgs :=
  { slot, code := 77, compressibility := 800, densityLow := 80000, densityHigh := 90000
    defaultDensity := none, count := 2 }

theorem witness_CommitsInstallInServiceOrPending :
    let c : Fin 8 → State := fun p =>
      { demo with
        buffer :=
          ⟨some (.curve 0 p), [⟨200000, 1000000⟩, ⟨10000000, 1020000⟩]⟩ }
    let e : Fin 8 → State := fun p =>
      { demo with buffer := ⟨some (.expansion p), [⟨-4000, 950000⟩, ⟨10000, 1050000⟩]⟩ }
    (c 2).Takes (frameOf 9 1 0x21 [0, 2, 2]) (c 2) ∧ (c 2).retained.station = some record0
      ∧ record0.layout.allows 0 2 = true ∧ record0.layout.allows 0 3 = true
      ∧ (c 2).buffer.target = some (.curve 0 2)
      ∧ curveError 2 record0.layout.pointsPerCurve (c 2).buffer.points = none
      ∧ (c 2).runs[(0 : Fin 4)].state ≠ .closed ∧ (2 : Fin 8) = (c 2).retained.batch.product
      ∧ (c 3).Takes (frameOf 9 1 0x21 [0, 3, 2]) (c 3)
      ∧ ¬(((c 3).runs[(0 : Fin 4)].state ≠ .closed ∧ (3 : Fin 8) = (c 3).retained.batch.product)
          ∨ ((c 3).curve 0 3).pending ≠ none)
      ∧ (e 2).Takes (frameOf 9 1 0x22 (productArgs0 2)) (e 2) ∧ (productArgs0 2).length = 17
      ∧ readProductArgs (productArgs0 2) = some (productRead 2)
      ∧ (e 2).buffer.target = some (.expansion 2) ∧ expansionError 2 (e 2).buffer.points = none
      ∧ (e 2).station = .metering
      ∧ (e 7).Takes (frameOf 9 1 0x22 (productArgs0 7)) (e 7)
      ∧ readProductArgs (productArgs0 7) = some (productRead 7)
      ∧ (7 : Fin 8) ≠ (e 7).retained.batch.product ∧ (7 : Fin 8) ≠ head0.product
      ∧ (e 7).retained.products[(7 : Fin 8)].pending = none :=
  ⟨takes_now rfl rfl rfl, rfl, rfl, rfl, rfl, by decide, by decide, rfl, takes_now rfl rfl rfl,
    by decide, takes_now rfl rfl rfl, rfl, by decide, rfl, by decide, rfl, takes_now rfl rfl rfl,
    by decide, by decide, by decide, rfl⟩

def batchArgs0 : List Byte := [0, 0, 0, 8, 2, 1, 0, 0, 0, 1, 0]

theorem witness_BatchesAreQueuedAndCancelled :
    let none0 : State := { ready with retained := { retained0 with batch := {} } }
    let seven : State :=
      { demo with
        retained := { retained0 with batch := { batch0 with queue := List.replicate 7 head0 } } }
    let two : State := { demo with retained := { retained0 with batch := closing0 [] } }
    none0.Takes (frameOf 9 1 0x28 batchArgs0) none0 ∧ batchArgs0.length = 11
      ∧ readBatchArgs batchArgs0
          = some { id := 8, product := 2, target := some 1, endMode := .onTarget }
      ∧ none0.retained.batch.queue = [] ∧ none0.retained.batch.tickets = []
      ∧ (none0.retained.products[(2 : Fin 8)]).inService.isSome = true
      ∧ seven.Takes (frameOf 9 1 0x28 batchArgs0) seven
      ∧ (∀ e ∈ seven.retained.batch.queue, e.id ≠ 8) ∧ seven.retained.batch.queue.length < 8
      ∧ two.Takes (frameOf 9 1 0x29 (encU 4 8)) two
      ∧ two.retained.batch.queue
          = { head0 with state := .closing } :: [] ++ { head0 with id := 8, state := .queued } :: []
      ∧ head0.id ≠ 8 :=
  ⟨takes_now rfl rfl rfl, rfl, by decide, rfl, rfl, rfl, takes_now rfl rfl rfl, by decide, by decide,
    takes_now rfl rfl rfl, rfl, by decide⟩

theorem witness_BatchesEndAndTicketsAreTaken :
    let closing : State := { demo with retained := { retained0 with batch := closing0 [] } }
    let full : State :=
      { ready with
        retained :=
          { retained0 with
            batch := closing0 [ticket0 1, ticket0 2, ticket0 3, ticket0 4] } }
    demo.Takes (frameOf 9 1 0x2A (encU 4 7)) demo ∧ demo.retained.batch.queue = head0 :: []
      ∧ head0.state = .active ∧ demo.station = .metering
      ∧ closing.Takes (frameOf 9 1 0x2A (encU 4 7)) closing
      ∧ closing.retained.batch.HeadCloses ∧ ready.Takes (frameOf 9 1 0x2A (encU 4 7)) ready
      ∧ ready.station ≠ .metering ∧ ready.retained.batch.tickets.length < 4
      ∧ (ready.retained.station = some record0 ∧ ready.transmitter ≠ .free
          ∧ ready.outbound.length ≤ 10)
      ∧ full.Takes (frameOf 9 1 0x2D (encU 4 3)) full
      ∧ full.retained.batch.tickets = [ticket0 1, ticket0 2] ++ ticket0 3 :: [ticket0 4]
      ∧ full.retained.batch.tickets.length ≤ 4
      ∧ (∀ x ∈ [ticket0 1, ticket0 2], x.id ≠ (ticket0 3).id) ∧ full.station ≠ .metering
      ∧ full.retained.batch.HeadCloses
      ∧ full.retained.batch.queue
          = { head0 with state := .closing } :: [{ head0 with id := 8, state := .queued }] :=
  ⟨takes_now rfl rfl rfl, rfl, rfl, rfl, takes_now rfl rfl rfl, ⟨_, _, rfl, rfl⟩,
    takes_now rfl rfl rfl, by decide, by decide, ⟨rfl, by decide, by decide⟩,
    takes_now rfl rfl rfl, rfl, by decide, by decide, by decide, ⟨_, _, rfl, rfl⟩, rfl⟩

/-- R101: a negative average rounds away from zero, and an entry without volume has none. -/
theorem test_averages :
    let e : AccEntry := { totals := { iv := 2 }, sums := { t := -5, pres := 5, rho := 4, mf := 3 } }
    e.toTicket.averages = some { t := -3, pres := 3, rho := 2, mf := 2 }
      ∧ (AccEntry.toTicket {}).averages = none := by
  decide

/-- LOAD_PROVER of the tests' prover record. -/
def proverArgs : List Byte :=
  encU 4 150000 ++ encU 3 1120 ++ encU 3 90 ++ [3, 4, 1, 0, 0, 0] ++ encU 2 5 ++ encU 2 250
    ++ encU 2 1000 ++ encU 2 100 ++ [3, 2, 5] ++ encU 2 50 ++ encU 2 250 ++ [1]

theorem witness_ProverIsLoadedAndAttachesAnOpenRun :
    demo.Takes (frameOf 9 1 0x30 proverArgs) demo ∧ proverArgs.length = 32
      ∧ readProverRecord proverArgs = some prover0 ∧ demo.session.state.active = false
      ∧ (proving .finishing).session.state.active = true
      ∧ (proving .finishing).Takes (frameOf 9 1 0x31 [0]) (proving .finishing)
      ∧ demo.Takes (frameOf 9 1 0x31 [BitVec.ofNat 8 (0 : Fin 4).val]) demo
      ∧ demo.station = .metering ∧ demo.runs[(0 : Fin 4)].state = .opened
      ∧ demo.retained.prover = some prover0
      ∧ (demo.retained.bindings[prover0.tSlot]).isSome = true
      ∧ (demo.retained.bindings[prover0.pSlot]).isSome = true :=
  ⟨takes_now rfl rfl rfl, rfl, by decide, rfl, rfl, takes_now rfl rfl rfl, takes_now rfl rfl rfl, rfl,
    rfl, rfl, rfl, rfl⟩

theorem witness_ProveCommandsByState :
    (∀ x : SessionState, (proving x).session.state = x)
      ∧ (∀ x : SessionState, (proving x).Takes (frameOf 9 1 0x32 []) (proving x))
      ∧ (∀ x : SessionState, (proving x).Takes (frameOf 9 1 0x33 []) (proving x))
      ∧ (∀ x : SessionState, (proving x).Takes (frameOf 9 1 0x34 []) (proving x))
      ∧ SessionState.active .complete = false ∧ SessionState.active .finishing = true :=
  ⟨fun _ => rfl, fun _ => takes_now rfl rfl rfl, fun _ => takes_now rfl rfl rfl,
    fun _ => takes_now rfl rfl rfl, rfl, rfl⟩

/-- Chapter 7's curve before acceptance, and its results. -/
def curve7 : List CurvePoint :=
  [⟨60000, 1001400, .loaded⟩, ⟨100000, 1001000, .loaded⟩, ⟨200000, 1000400, .loaded⟩]

def results7 (q : Int) : Results :=
  { formResults prover0 (some product0) 2400000 [] with qProve := q, mfNew := 1000755 }

def complete7 (points : List CurvePoint) (q : Int) : State :=
  { demo with
    retained :=
      { retained0 with
        curves := (Vector.replicate 32 {}).set 2 { inService := some ⟨points, 40000⟩ } }
    session := { sessionOf .complete with results := some (results7 q) } }

/-- Whether the premises on the edit hold: the deviation test, and the nearest point `i`. -/
def nearest (points : List CurvePoint) (q : Int) (i : Nat) (near : CurvePoint) : Bool :=
  let away := fun y : CurvePoint => (q - (y.rate : Int)).natAbs
  let mf := interpolate (points.map fun y => ((y.rate : Int), (y.factor : Int))) q
  decide (((1000755 - mf).natAbs : Int) * 100000 ≤ prover0.acceptLimit * mf)
    && decide (points[i]? = some near) && points.all (fun y => decide (away near ≤ away y))
    && (points.take i).all fun y => decide (away near < away y)

theorem witness_AcceptedProveEditsThePendingCurve :
    let s := complete7 curve7 107700
    let q : State := complete7 curve7 150000
    let full : List CurvePoint := (List.range 12).map fun k => ⟨100 * (k + 1), 1000755, .loaded⟩
    s.Takes (frameOf 9 1 0x35 []) s ∧ s.session.state = .complete ∧ s.session.attached = some 0
      ∧ s.session.product = some 2 ∧ s.session.results = some (results7 107700)
      ∧ s.retained.prover = some prover0 ∧ s.retained.station = some record0
      ∧ record0.layout.allows 0 2 = true
      ∧ ((s.curve 0 2).pending.or (s.curve 0 2).inService) = some ⟨curve7, 40000⟩
      ∧ nearest curve7 107700 1 ⟨100000, 1001000, .loaded⟩ = true ∧ 7700 * 10 ≤ 100000
      ∧ curveError 3 12
          [⟨60000, 1001400⟩, ⟨100000, 1000755⟩, ⟨200000, 1000400⟩] = none
      ∧ q.Takes (frameOf 9 1 0x35 []) q
      ∧ nearest curve7 150000 1 ⟨100000, 1001000, .loaded⟩ = true ∧ 100000 < 50000 * 10
      ∧ curve7.length < record0.layout.pointsPerCurve
      ∧ curveError 4 12
          [⟨60000, 1001400⟩, ⟨100000, 1001000⟩, ⟨150000, 1000755⟩, ⟨200000, 1000400⟩] = none
      ∧ (complete7 full 5000).Takes (frameOf 9 1 0x35 []) (complete7 full 5000)
      ∧ nearest full 5000 11 ⟨1200, 1000755, .loaded⟩ = true ∧ 1200 < 3800 * 10
      ∧ record0.layout.pointsPerCurve ≤ full.length :=
  ⟨takes_now rfl rfl rfl, rfl, rfl, rfl, rfl, rfl, rfl, rfl, rfl, by decide, by decide, by decide,
    takes_now rfl rfl rfl, by decide, by decide, by decide, by decide, takes_now rfl rfl rfl, by decide,
    by decide, by decide⟩

theorem witness_DetectorEventsAndDeadTimes :
    let armed := proving .armed
    let both : ProverRecord :=
      { prover0 with det2 := { enabled := true, polarity := .falling, deadTime := 5 } }
    let timing : Option Word32 → State := fun p =>
      { demo with
        retained := { retained0 with prover := some both }
        session := { sessionOf .timing with items := { tD1 := some 5, tP1 := p } } }
    let dead : State := { armed with det1 := { lastEvent := some 5, deadRunning := true } }
    let bare : State := { demo with retained := { retained0 with prover := none } }
    armed.Runs ∧ armed.retained.prover = some prover0 ∧ (prover0.setup .det1).enabled = true
      ∧ (prover0.setup .det1).polarity = .rising ∧ (armed.det .det1).deadRunning = false
      ∧ armed.session.state = .armed ∧ (proving .held).session.state = .held
      ∧ (proving .finishing).session.state = .finishing ∧ (timing none).Runs
      ∧ (timing none).retained.prover = some both ∧ (both.setup .det2).enabled = true
      ∧ (both.setup .det2).polarity = .falling ∧ ((timing none).det .det2).deadRunning = false
      ∧ (timing none).session.state = .timing ∧ (timing none).session.items.tP1 = none
      ∧ (timing (some 6)).session.items.tP1.isSome = true ∧ dead.Runs
      ∧ dead.retained.prover = some prover0 ∧ (dead.det .det1).deadRunning = true
      ∧ (dead.det .det1).lastEvent = some 5 ∧ (prover0.setup .det2).enabled = false
      ∧ (prover0.setup .det1).polarity ≠ .falling ∧ bare.Runs ∧ bare.retained.prover = none :=
  ⟨⟨rfl, rfl⟩, rfl, rfl, rfl, rfl, rfl, rfl, rfl, ⟨rfl, rfl⟩, rfl, rfl, rfl, rfl, rfl, rfl, rfl,
    ⟨rfl, rfl⟩, rfl, rfl, rfl, rfl, by decide, ⟨rfl, rfl⟩, rfl⟩

/-- A prove on run 0 in FINISHING, with a pass of 360 whole pulses and of 3. -/
def finishing (running : Nat) : State :=
  { demo with
    session :=
      { sessionOf .finishing with
        items := { tD1 := some 5, tP1 := some 6, tD2 := some 5000005, running } } }

/-- A prover record and a session with `n` prove runs, a pass short of the next. -/
def repeating (n required most : Nat) : State :=
  { demo with
    retained :=
      { retained0 with
        prover :=
          some { prover0 with passesPerRun := 1, runsRequired := required, maxRuns := most } }
    session := { sessionOf .finishing with proveRuns := List.replicate n (formRun 1 0 []) } }

theorem witness_PulsesTimePassesAndProveRuns :
    (finishing 359).Runs ∧ (finishing 359).runs[(0 : Fin 4)].state ≠ .closed
      ∧ (finishing 359).retained.runs[(0 : Fin 4)].settings = some settings
      ∧ (finishing 359).session.attached = some 0 ∧ (finishing 359).session.state.active = true
      ∧ (finishing 359).pulses[(0 : Fin 4)].totalizing = .a ∧ settings.mode = .dual
      ∧ ((finishing 359).pulses[(0 : Fin 4)]).windows.get .a + 1 = 1
      ∧ (finishing 359).session.state = .finishing ∧ (finishing 359).retained.prover = some prover0
      ∧ (finishing 359).session.items.tD1 = some 5 ∧ (finishing 359).session.items.tP1 = some 6
      ∧ (finishing 359).session.items.tD2 = some 5000005
      ∧ prover0.minPulses ≤ (finishing 359).session.items.running + 1
      ∧ (finishing 2).session.items.running + 1 < prover0.minPulses
      ∧ (proving .held).session.state = .held ∧ (proving .armed).session.state = .armed
      ∧ (proving .timing).session.state = .timing ∧ (proving .timing).session.items.tP1 = none :=
  ⟨⟨rfl, rfl⟩, by decide, rfl, rfl, rfl, rfl, rfl, rfl, rfl, rfl, rfl, rfl, rfl, by decide, by decide,
    rfl, rfl, rfl, rfl⟩

/-- What a recorded pass leads to: no prove run yet, a prove run without a test, a test. -/
theorem witness_PulsesTimePassesAndProveRuns_recording :
    let pass := formPass demo prover0 0 1 2 3 4 100
    (finishing 359).session.passes.length + 1 < prover0.passesPerRun
      ∧ (repeating 0 2 5).retained.prover
          = some { prover0 with passesPerRun := 1, runsRequired := 2, maxRuns := 5 }
      ∧ 1 ≤ ((repeating 0 2 5).session.passes ++ [pass]).length
      ∧ (repeating 0 2 5).session.proveRuns.length + 1 < 2
      ∧ 2 ≤ (repeating 1 2 5).session.proveRuns.length + 1
      ∧ (repeating 1 2 5).session.proveRuns.length + 1 < 5
      ∧ 5 ≤ (repeating 4 2 5).session.proveRuns.length + 1
      ∧ (359886 - 359885 : Int) * 100000 ≤ prover0.repeatLimit * 359885
      ∧ ¬(360102 - 359885 : Int) * 100000 ≤ prover0.repeatLimit * 359885
      ∧ (repeating 1 2 5).retained.station = some record0 ∧ (repeating 1 2 5).transmitter ≠ .free
      ∧ (repeating 1 2 5).outbound.length ≤ 13 := by
  decide

theorem witness_PassTimeoutSpoilsThePass :
    let s : Nat → State := fun n =>
      { demo with
        session :=
          { sessionOf .timing with
            consecutive := n, items := { tD1 := some 5, timeoutRunning := true } } }
    (s 2).Runs ∧ (s 2).retained.prover = some prover0 ∧ (s 2).session.items.tD1 = some 5
      ∧ (s 2).session.items.timeoutRunning = true ∧ (s 2).session.consecutive = 2
      ∧ (s 1).Runs ∧ (s 1).session.consecutive < 3 ∧ (s 2).retained.station = some record0
      ∧ (s 2).transmitter ≠ .free ∧ (s 2).outbound.length ≤ 13 :=
  ⟨⟨rfl, rfl⟩, rfl, rfl, rfl, rfl, ⟨rfl, rfl⟩, by decide, rfl, by decide, by decide⟩

theorem witness_ReportsLatchCountAndDate :
    let c := CondId.inputFailed 15
    let quiet : State := { demo with retained := { retained0 with levels := none } }
    let zero : State := { demo with retained := { retained0 with levels := some (.replicate 25 0) } }
    let shut : State := { demo with retained := { retained0 with gate := 0 } }
    c ≠ .outboundDiscard ∧ (demo.cond c).active = false ∧ (demo.cond c).latched = false
      ∧ ((demo.setCond c { active := true, latched := true }).cond c).active = true
      ∧ ((demo.setCond c { latched := true }).cond c).latched = true
      ∧ CondId.loopReceiveError ≠ c ∧ quiet.retained.levels = none
      ∧ zero.retained.levels = some (.replicate 25 0)
      ∧ (Vector.replicate 25 0)[c.kindIndex] = 0
      ∧ demo.retained.levels = some (.replicate 25 2)
      ∧ (Vector.replicate 25 2)[c.kindIndex] ≠ 0
      ∧ shut.retained.gate.getLsbD 2 = false ∧ demo.retained.gate.getLsbD 2 = true := by
  decide

/-- A withheld notice, with the gate closed and room in the outbound queue. -/
theorem witness_LevelsAndGateAreReplaced :
    let s : State :=
      ({ demo with retained := { retained0 with gate := 0 } } : State).setCond .proveComplete
        { latched := true, withheld := true }
    s.Takes (frameOf 9 1 0x38 (List.replicate 25 7)) s
      ∧ (List.replicate 25 (7 : Byte)).length = 25
      ∧ (∀ i : Fin 25, (Vector.replicate 25 7)[i] = argU (List.replicate 25 7) i.val 1
          ∧ (Vector.replicate 25 7)[i] ≤ 7)
      ∧ s.Takes (frameOf 9 1 0x39 [0xFE]) s ∧ (0xFE : Byte).getLsbD 0 = false
      ∧ ((0xFE : Byte).getLsbD 2 = true ∧ s.retained.gate.getLsbD 2 = false)
      ∧ s.Takes (frameOf 9 1 0x39 [0]) s ∧ (∀ i : Fin 8, (0 : Byte).getLsbD i = false)
      ∧ (s.cond .proveComplete).withheld = true ∧ s.retained.levels = some (.replicate 25 2)
      ∧ s.transmitter ≠ .free ∧ s.outbound.length + 1 ≤ 16 :=
  ⟨takes_now rfl rfl rfl, rfl, by decide, takes_now rfl rfl rfl, by decide, by decide,
    takes_now rfl rfl rfl, by decide, by decide, rfl, by decide, by decide⟩

theorem witness_ClearConditionUnlatchesWhatHasGone :
    let s : State :=
      (demo.setCond (.inputClamped 15) { active := true, latched := true }).setCond .proveComplete
        { latched := true }
    s.Takes (frameOf 9 1 0x3A [0, 8, 15]) s
      ∧ [0, BitVec.ofNat 8 (CondId.inputClamped 15).kindCode,
            BitVec.ofNat 8 (CondId.inputClamped 15).unit] = [(0 : Byte), 8, 15]
      ∧ s.Takes (frameOf 9 1 0x3A [1, 25]) s ∧ 1 ≤ (25 : Byte).toNat ∧ (25 : Byte).toNat ≤ 25
      ∧ s.Takes (frameOf 9 1 0x3A [2]) s ∧ CondId.proveComplete ∈ allConds
      ∧ CondId.proveComplete ∉ [CondId.inputClamped 15]
      ∧ CondId.outboundDiscard ∉ [CondId.inputClamped 15]
      ∧ (s.cond .proveComplete).latched = true ∧ (s.cond .proveComplete).active = false
      ∧ (s.cond (.inputClamped 15)).latched = true ∧ (s.cond (.inputClamped 15)).active = true
      ∧ (s.cond .proveFailed).latched = false
      ∧ (s.transmitter ≠ .free ∧ s.outbound.length + 1 ≤ 16
          ∧ s.retained.levels = some (.replicate 25 2) ∧ s.retained.gate.getLsbD 2 = true) :=
  ⟨takes_now rfl rfl rfl, by decide, takes_now rfl rfl rfl, by decide, by decide,
    takes_now rfl rfl rfl, by decide, by decide, by decide, by decide, by decide, by decide, by decide,
    by decide, by decide⟩

/-- R159: the notice of a record still active, with its occurrences and the current interval number. -/
theorem test_clear_condition_offers_afresh :
    let s := demo.setCond (.inputClamped 15) { active := true, latched := true, occurrences := 3 }
    ((after (.clearCondition 9 1 [2]) s).outbound.map fun f =>
        (f.source, f.payload.map (·.toNat))).head?
      = some (143, [8, 15, 1, 0, 3, 0, 0, 156, 179]) := by
  decide

/-- The invariants hold of the reset state and of a metering one, and both step on. -/
theorem witness_invariants :
    demo.BuffersFit ∧ demo.StoresFit ∧ demo.retained.batch.Shaped ∧ demo.FineCoarse
      ∧ demo.MeteringRules ∧ (proving .armed).SessionHoldsRun ∧ demo.TotalsFit
      ∧ ({ demo with retained := { retained0 with batch := closing0 [ticket0 1, ticket0 2] } }
          : State).BatchIdsDiffer
      ∧ demo.ResiduesFit
      ∧ (∃ t, step { demo with pending := [.intervalExpiry] } = .next t)
      ∧ ({ demo with pending := [.intervalExpiry] } : State).NoLostAreaPasses
      ∧ ({ demo with pending := [.hardStart .powerUp ⟨1, 1⟩] } : State).NoLostAreaPasses
      ∧ ∀ c x rest, ({ demo with pending := [.intervalExpiry] } : State).pending
          = .hardStart c x :: rest → demo.retainedLost = false := by
  refine ⟨⟨by decide, by decide, by decide⟩, ⟨by decide, by decide⟩, ⟨by decide, by decide, by decide⟩,
    ?_, ⟨by decide, by decide⟩, ⟨fun _ => ⟨0, rfl, rfl⟩, fun h => by cases h⟩, ?_, ?_, ?_,
    ⟨_, rfl⟩, ?_, ?_, fun _ _ _ _ => rfl⟩
  · unfold State.FineCoarse; decide
  · unfold State.TotalsFit Totals.Fit; decide
  · unfold State.BatchIdsDiffer; decide
  · intro r
    have key : ∀ r : Fin 4, demo.retained.runs[r] = { settings := some settings } := by decide
    rw [key r]
    exact ⟨by decide, by decide, by decide, fun y h => by cases h; decide, fun h => by cases h⟩
  · intro _ _ _ h; cases h
  · intro _ _ _ _ h; cases h

theorem witness_active_condition_latched :
    let s := demo.setCond .noActiveBatch { active := true, latched := true }
    (s.cond .noActiveBatch).active = true ∧ s.ActiveLatched := by
  have key : ∀ c ∈ allConds,
      ((demo.setCond .noActiveBatch { active := true, latched := true }).cond c).active = true →
        ((demo.setCond .noActiveBatch { active := true, latched := true }).cond c).latched = true := by
    decide
  have all : ∀ c : CondId, c ∈ allConds := by
    intro c
    cases c with
    | inputStale b | inputFailed b | inputClamped b | sampleRejectedBad b => revert b; decide
    | channelDisagree r | channelLost r | channelSubstituted r | pulsesWhileClosed r | rateHigh r
    | rateLow r | rateOutsideCurve r | noCurve r | tempOutsideTable r | densityOutsideProduct r =>
      revert r; decide
    | _ => decide
  exact ⟨by decide, fun c => key c (all c)⟩

end Sys2Proof.Tests
end

