-- ==== Sys2Proof/Proofs/Stages.lean ====
section
/-! PROOFS. The interval computation of chapter 1: how the named roundings compare with an exact bound,
the range of the correction terms, and stages 6, 7, 8 and 10 (R20, R21, R22, R24). -/

namespace Sys2Proof.Machine

/-! ### Roundings against a bound (section 1.7) -/

/-- A quotient of 0 or more is rounded half up to a value of 0 or more. -/
theorem roundHalfUp_nonneg {n d : Int} (hd : 0 < d) (h : 0 ≤ n) : 0 ≤ roundHalfUp n d := by
  rw [roundHalfUp, if_neg hd.ne']
  exact Int.ediv_nonneg (by omega) (by omega)

/-- A dividend of 0 is rounded half up to 0, since half of 1 is not reached. -/
theorem roundHalfUp_zero {d : Int} (hd : 0 < d) : roundHalfUp 0 d = 0 := by
  rw [roundHalfUp, if_neg hd.ne']
  exact Int.ediv_eq_zero_of_lt (by omega) (by omega)

/-- Rounding half away from zero does not pass an integer that the exact quotient does not pass. -/
theorem roundHalfAway_le {n d m : Int} (hd : 0 < d) (h : n ≤ m * d) : roundHalfAway n d ≤ m := by
  unfold roundHalfAway
  rw [if_neg hd.ne']
  split
  · have : -m ≤ (2 * -n + d) / (2 * d) := Int.le_ediv_of_mul_le (by omega) (by linarith)
    omega
  · exact Int.le_of_lt_add_one (Int.ediv_lt_of_lt_mul (by omega) (by linarith))

/-- From below, an integer that the exact quotient reaches is reached after rounding too. -/
theorem le_roundHalfAway {n d m : Int} (hd : 0 < d) (h : m * d ≤ n) : m ≤ roundHalfAway n d := by
  unfold roundHalfAway
  rw [if_neg hd.ne']
  split
  · have : (2 * -n + d) / (2 * d) < -m + 1 := Int.ediv_lt_of_lt_mul (by omega) (by linarith)
    omega
  · exact Int.le_ediv_of_mul_le (by omega) (by linarith)

/-! ### The range of the correction terms (R17 to R19) -/

/-- Between two points the rounded increment keeps the factor within any bounds of the two factors. -/
theorem segment_between {p q : Int × Int} {x low high : Int} (hpx : p.1 ≤ x) (hxq : x < q.1)
    (hp : low ≤ p.2 ∧ p.2 ≤ high) (hq : low ≤ q.2 ∧ q.2 ≤ high) :
    low ≤ p.2 + roundHalfAway ((q.2 - p.2) * (x - p.1)) (q.1 - p.1)
      ∧ p.2 + roundHalfAway ((q.2 - p.2) * (x - p.1)) (q.1 - p.1) ≤ high := by
  obtain ⟨hlp, hph⟩ := hp
  obtain ⟨hlq, hqh⟩ := hq
  have below : (low - p.2) * (q.1 - p.1) ≤ (q.2 - p.2) * (x - p.1) := by
    calc (low - p.2) * (q.1 - p.1)
        ≤ (low - p.2) * (x - p.1) := Int.mul_le_mul_of_nonpos_left (by omega) (by omega)
      _ ≤ (q.2 - p.2) * (x - p.1) := Int.mul_le_mul_of_nonneg_right (by omega) (by omega)
  have above : (q.2 - p.2) * (x - p.1) ≤ (high - p.2) * (q.1 - p.1) := by
    calc (q.2 - p.2) * (x - p.1)
        ≤ (high - p.2) * (x - p.1) := Int.mul_le_mul_of_nonneg_right (by omega) (by omega)
      _ ≤ (high - p.2) * (q.1 - p.1) := Int.mul_le_mul_of_nonneg_left (by omega) (by omega)
  have := le_roundHalfAway (by omega) below
  have := roundHalfAway_le (by omega) above
  omega

/-- R17, R18: the interpolated factor lies within any bounds of the factors of the points. -/
theorem interpolate_between {low high : Int} (points : List (Int × Int)) (x : Int)
    (hne : points ≠ []) (h : ∀ p ∈ points, low ≤ p.2 ∧ p.2 ≤ high) :
    low ≤ interpolate points x ∧ interpolate points x ≤ high := by
  fun_induction interpolate points x with
  | case1 => contradiction
  | case2 p x => exact h p (by simp)
  | case3 p q rest x hle => exact h p (by simp)
  | case4 p q rest x hle hlt =>
    exact segment_between (by omega) hlt (h p (by simp)) (h q (by simp))
  | case5 p q rest x hle hlt ih =>
    exact ih (by simp) fun y hy => h y (List.mem_cons_of_mem _ hy)

/-- R18: CTL is at least 950,000 with an EMPTY product, or with points whose factors all are. -/
theorem ctlAt_lower {product : Option ProductCopy} (t : Int)
    (h : ∀ c, product = some c → 2 ≤ c.points.length
      ∧ ∀ p ∈ c.points, 950000 ≤ p.factor ∧ p.factor ≤ 1050000) :
    950000 ≤ (ctlAt product t).1 := by
  cases product with
  | none => exact (by decide : (950000 : Int) ≤ 1000000)
  | some c =>
    obtain ⟨hlen, hfactors⟩ := h c rfl
    refine (interpolate_between (low := 950000) (high := 1050000) (expansionPairs c.points) t ?_ ?_).1
    · intro hnil
      simp [List.map_eq_nil_iff.mp hnil] at hlen
    · intro y hy
      obtain ⟨p, hp, rfl⟩ := List.mem_map.mp hy
      obtain ⟨hlow, hhigh⟩ := hfactors p hp
      exact ⟨Int.ofNat_le.mpr hlow, Int.ofNat_le.mpr hhigh⟩

/-- R19: a negative pressure is taken as 0 and the cap lies above 1,000,000, so CPL never falls below. -/
theorem cplAt_lower (product : Option ProductCopy) (pres : Int) :
    1000000 ≤ (cplAt product pres).1 := by
  have increment : ∀ f : Nat, 0 ≤ roundHalfUp (f * max pres 0) 10000 := fun f =>
    roundHalfUp_nonneg (by decide) (Int.mul_nonneg (Int.natCast_nonneg f) (Int.le_max_right _ _))
  have := increment ((product.map (·.compressibility)).getD 0)
  unfold cplAt
  simp only
  split <;> simp only <;> omega

/-! ### The outputs of stages 4 to 8 and 10 -/

section
variable (x : IntervalInput)

theorem computeStages_ctl : (computeStages x).ctl = (ctlAt x.product x.t).1 := rfl

theorem computeStages_cpl : (computeStages x).cpl = (cplAt x.product x.pres).1 := rfl

theorem computeStages_ccf : (computeStages x).ccf
    = mulFactor (mulFactor (computeStages x).mf (computeStages x).ctl) (computeStages x).cpl := rfl

theorem computeStages_gsv : (computeStages x).gsv
    = ((((computeStages x).iv : Int) * (computeStages x).ccf + x.residues.rGSV) / 1000000).toNat := rfl

theorem computeStages_rGSV : (computeStages x).residues.rGSV
    = ((((computeStages x).iv : Int) * (computeStages x).ccf + x.residues.rGSV) % 1000000).toNat := rfl

theorem computeStages_nsv : (computeStages x).nsv
    = (((computeStages x).gsv : Int) * (10000 - x.sw) + x.residues.rNSV) / 10000 := rfl

theorem computeStages_rNSV : (computeStages x).residues.rNSV
    = ((((computeStages x).gsv : Int) * (10000 - x.sw) + x.residues.rNSV) % 10000).toNat := rfl

theorem computeStages_rhoStd : (computeStages x).rhoStd
    = roundHalfUp (x.rho * 1000000000000) ((computeStages x).ctl * (computeStages x).cpl) := rfl

end

/-! ### Stages 6, 7, 8 and 10 -/

/-- Settles O32: the first product is the inner `mulFactor`, and each step is one rounding by 10⁶. -/
theorem stageSixCombinesTheFactors : Obligations.StageSixCombinesTheFactors := by
  intro x out
  have first := roundHalfUp_bounds (out.mf * out.ctl) (d := 1000000) (by decide)
  have second := roundHalfUp_bounds (mulFactor out.mf out.ctl * out.cpl) (d := 1000000) (by decide)
  have ccf : out.ccf = roundHalfUp (mulFactor out.mf out.ctl * out.cpl) 1000000 := computeStages_ccf x
  rw [← ccf] at second
  exact ⟨mulFactor out.mf out.ctl, first.1, first.2, second.1, second.2⟩

/-- Settles O33: with a CCF of 0 or more the numerator is not negative, so its floor and remainder are
the counts that stage 7 keeps. -/
theorem stageSevenComputesGrossVolume : Obligations.StageSevenComputesGrossVolume := by
  intro x out hccf
  have numerator : 0 ≤ (out.iv : Int) * out.ccf := Int.mul_nonneg (Int.natCast_nonneg _) hccf
  have gsv : out.gsv = (((out.iv : Int) * out.ccf + x.residues.rGSV) / 1000000).toNat :=
    computeStages_gsv x
  have rGSV : out.residues.rGSV = (((out.iv : Int) * out.ccf + x.residues.rGSV) % 1000000).toNat :=
    computeStages_rGSV x
  omega

/-- Settles O34: a water cut of at most 10,000 keeps the numerator at 0 or more; with none the division
undoes the factor 10,000. -/
theorem stageEightComputesNetVolume : Obligations.StageEightComputesNetVolume := by
  intro x out
  have nsv : out.nsv = ((out.gsv : Int) * (10000 - x.sw) + x.residues.rNSV) / 10000 :=
    computeStages_nsv x
  have rNSV : out.residues.rNSV
      = (((out.gsv : Int) * (10000 - x.sw) + x.residues.rNSV) % 10000).toNat := computeStages_rNSV x
  refine ⟨fun _ hsw => ?_, fun hsw hr => ?_, rfl⟩
  · have numerator : 0 ≤ (out.gsv : Int) * (10000 - x.sw) :=
      Int.mul_nonneg (Int.natCast_nonneg _) (by omega)
    omega
  · rw [hsw] at nsv rNSV
    omega

/-- Settles O35: the lower bounds of CTL and CPL make the divisor positive, and the quotient is then the
rounding of section 1.7. The totals do not look at the standard density. -/
theorem stageTenComputesStandardDensity : Obligations.StageTenComputesStandardDensity := by
  refine ⟨?_, fun _ _ _ => rfl, fun _ _ _ _ => rfl⟩
  intro x out d hfactors _
  have hctl : 950000 ≤ out.ctl :=
    (ctlAt_lower x.t hfactors).trans_eq (computeStages_ctl x).symm
  have hcpl : 1000000 ≤ out.cpl :=
    (cplAt_lower x.product x.pres).trans_eq (computeStages_cpl x).symm
  have hd : 0 < d := Int.mul_pos (by omega) (by omega)
  have hrho : out.rhoStd = roundHalfUp (x.rho * 1000000000000) d := computeStages_rhoStd x
  obtain ⟨hle, hlt⟩ := roundHalfUp_bounds (x.rho * 1000000000000) hd
  refine ⟨hctl, hcpl, hd.ne', hrho ▸ hle, hrho ▸ hlt, fun hzero => ?_⟩
  rw [hrho, hzero, zero_mul, roundHalfUp_zero hd]

end Sys2Proof.Machine
end

