-- ==== Sys2Proof/Proofs/Handling.lean ====
section
/-! PROOFS. A loop command as the model runs it: every row of the command table is `runCommand` with its code
and the handling of its owning rule. -/

namespace Sys2Proof.Machine

/-- The handling of a loop command by its owning rule, from the length check on; a row that is no command of
the table is refused. -/
def handling : Instr → State → State × Reply
  | .readLoopCounts _ _ args => readLoopCounts args
  | .clearLoopCounts _ _ args => clearLoopCounts args
  | .loadStation _ _ args => loadStation args
  | .readStation _ _ args => readStation args
  | .startMetering _ _ args => startMetering args
  | .stopMetering _ _ args => stopMetering args
  | .restart _ _ args => restart args
  | .loadBinding _ _ args => loadBinding args
  | .readInput _ _ args => readInput args
  | .loadRun _ _ args => loadRun args
  | .openRun _ _ args => openRun args
  | .closeRun _ _ args => closeRun args
  | .selectChannel _ _ args => selectChannel args
  | .readRun _ _ args => readRun args
  | .readPulses _ _ args => readPulses args
  | .loadPoints _ _ args => loadPoints args
  | .commitCurve _ _ args => commitCurve args
  | .commitProduct _ _ args => commitProduct args
  | .readCurve _ _ args => readCurve args
  | .readProduct _ _ args => readProduct args
  | .queueBatch _ _ args => queueBatch args
  | .cancelBatch _ _ args => cancelBatch args
  | .endBatch _ _ args => endBatch args
  | .readBatches _ _ args => readBatches args
  | .readTicket _ _ args => readTicket args
  | .takeTicket _ _ args => takeTicket args
  | .loadProver _ _ args => loadProver args
  | .proveStart _ _ args => proveStart args
  | .proveHold _ _ args => proveHold args
  | .proveRelease _ _ args => proveRelease args
  | .proveAbort _ _ args => proveAbort args
  | .acceptProve _ _ args => acceptProve args
  | .readProve _ _ args => readProve args
  | .loadLevels _ _ args => loadLevels args
  | .setLevelGate _ _ args => setLevelGate args
  | .clearCondition _ _ args => clearCondition args
  | .readConditions _ _ args => readConditions args
  | _ => refuse .unknownCommand

/-- R170, R171: a row of the command table is taken, handled and answered. -/
theorem exec_eq_runCommand {i : Instr} {src tag : Byte} {code : Nat} {args : List Byte}
    (h : i.parts = some (src, tag, code, args)) (s : State) :
    exec i s = runCommand code src tag args (handling i) s := by
  cases i with
  | _ => cases h <;> rfl

end Sys2Proof.Machine
end

