-- ==== Sys2Proof/Proofs/Keeps.lean ====
section
/-! PROOFS. What every step keeps (O55 to O59), in one pass over the model: `Keeps s t` says that a change
from `s` to `t` keeps each invariant, and each operation of the model is shown to be such a change. -/

namespace Sys2Proof.Machine

/-! ### Changes that keep every invariant -/

/-- A change from `s` to `t` keeps the queue of waiting rows and each of the invariants of O55 to O59. -/
structure Keeps (s t : State) : Prop where
  pending : t.pending = s.pending
  buffers : s.BuffersFit → t.BuffersFit
  shape : s.StoresFit → s.retained.batch.Shaped → t.StoresFit ∧ t.retained.batch.Shaped
  ids : s.BatchIdsDiffer → t.BatchIdsDiffer
  latched : s.ActiveLatched → t.ActiveLatched
  flags : s.FineCoarse → t.FineCoarse
  together : s.MeteringRules → s.SessionHoldsRun → t.MeteringRules ∧ t.SessionHoldsRun
  totals : s.TotalsFit →
    t.TotalsFit ∧ ∀ r : Fin 4, (t.retained.runs[r].totals).AtLeast (s.retained.runs[r].totals)
  residues : s.ResiduesFit → t.ResiduesFit

theorem Totals.AtLeast.refl (t : Totals) : t.AtLeast t :=
  ⟨le_rfl, le_rfl, le_rfl, le_rfl, le_rfl⟩

theorem Totals.AtLeast.trans {t u v : Totals} (h : t.AtLeast u) (k : u.AtLeast v) : t.AtLeast v := by
  obtain ⟨h1, h2, h3, h4, h5⟩ := h
  obtain ⟨k1, k2, k3, k4, k5⟩ := k
  exact ⟨k1.trans h1, k2.trans h2, k3.trans h3, k4.trans h4, k5.trans h5⟩

/-- What the invariants other than those of the loop's buffers and of the condition records read. -/
theorem Keeps.of_eq {s t : State} (hp : t.pending = s.pending) (hb : s.BuffersFit → t.BuffersFit)
    (hl : s.ActiveLatched → t.ActiveLatched) (hbatch : t.retained.batch = s.retained.batch)
    (hruns : t.retained.runs = s.retained.runs) (hpulses : t.pulses = s.pulses)
    (hstation : t.station = s.station) (htimer : t.timer.isSome = s.timer.isSome)
    (hrun : t.runs = s.runs) (hsession : t.session = s.session) : Keeps s t where
  pending := hp
  buffers := hb
  shape h k := by unfold State.StoresFit at *; rw [hbatch]; exact ⟨h, k⟩
  ids h := by unfold State.BatchIdsDiffer at *; rw [hbatch]; exact h
  latched := hl
  flags h := by unfold State.FineCoarse at *; rw [hpulses]; exact h
  together h k := by
    unfold State.MeteringRules State.SessionHoldsRun at *
    rw [hstation, htimer, hrun, hsession]
    exact ⟨h, k⟩
  totals h := by
    unfold State.TotalsFit at *
    rw [hruns]
    exact ⟨h, fun r => Totals.AtLeast.refl _⟩
  residues h := by unfold State.ResiduesFit at *; rw [hruns]; exact h

/-- `t` differs from `s` in nothing that an invariant reads. -/
def Quiet (s t : State) : Prop :=
  t =
    { s with
      power := t.power
      retained := { t.retained with batch := s.retained.batch, runs := s.retained.runs }
      retainedLost := t.retainedLost
      backupLost := t.backupLost
      node := t.node
      rateCode := t.rateCode
      lastStart := t.lastStart
      timebase := t.timebase
      inputDivider := t.inputDivider
      live := t.live
      buffer := t.buffer
      det1 := t.det1
      det2 := t.det2
      receiver := t.receiver
      transmitter := t.transmitter
      restartPending := t.restartPending
      counters := t.counters
      openCount := t.openCount }

theorem Quiet.keeps {s t : State} (h : Quiet s t) : Keeps s t := by
  unfold Quiet at h
  refine Keeps.of_eq ?_ (fun k => ?_) (fun k => ?_) ?_ ?_ ?_ ?_ ?_ ?_ ?_ <;> rw [h] <;> exact k

theorem Keeps.refl (s : State) : Keeps s s := Quiet.keeps rfl

theorem Keeps.trans {s t u : State} (h : Keeps s t) (k : Keeps t u) : Keeps s u where
  pending := k.pending.trans h.pending
  buffers x := k.buffers (h.buffers x)
  shape x y := k.shape (h.shape x y).1 (h.shape x y).2
  ids x := k.ids (h.ids x)
  latched x := k.latched (h.latched x)
  flags x := k.flags (h.flags x)
  together x y := k.together (h.together x y).1 (h.together x y).2
  totals x := ⟨(k.totals (h.totals x).1).1,
    fun r => ((k.totals (h.totals x).1).2 r).trans ((h.totals x).2 r)⟩
  residues x := k.residues (h.residues x)

/-- The same, with the later change given first. -/
theorem Keeps.after {s t u : State} (k : Keeps t u) (h : Keeps s t) : Keeps s u := h.trans k

/-- A choice between two changes. -/
theorem Keeps.ite {s t u : State} {c : Prop} [Decidable c] (h : Keeps s t) (k : Keeps s u) :
    Keeps s (if c then t else u) := by
  split
  · exact h
  · exact k

/-- A fold of changes that keep every invariant is one. -/
theorem Keeps.foldl {α : Type} {f : State → α → State} (h : ∀ s a, Keeps s (f s a)) (l : List α)
    (s : State) : Keeps s (l.foldl f s) := by
  induction l generalizing s with
  | nil => exact Keeps.refl s
  | cons a l ih => exact (h s a).trans (ih _)

/-! ### The writers of the state -/

theorem setPulse_keeps (s : State) (r : Fin 4) {p : PulseState}
    (h : (s.pulses[r].fine = true → s.pulses[r].coarse = true) → p.fine = true → p.coarse = true) :
    Keeps s (s.setPulse r p) := by
  refine { Keeps.refl s with flags := fun k i => ?_ }
  by_cases e : r.val = i.val
  · obtain rfl : r = i := Fin.ext e
    simpa using h (k r)
  · simpa [Vector.getElem_set, e] using k i

/-- A pulse state written with the agreement flags as they were. -/
theorem setPulse_keeps_of_eq (s : State) (r : Fin 4) {p : PulseState}
    (hf : p.fine = s.pulses[r].fine := by rfl) (hc : p.coarse = s.pulses[r].coarse := by rfl) : Keeps s (s.setPulse r p) :=
  setPulse_keeps s r (by rw [hf, hc]; exact id)

/-- A condition record written that is latched if it is active, provided the old one was. -/
theorem setCond_keeps (s : State) (c : CondId) {x : Condition}
    (h : ((s.cond c).active = true → (s.cond c).latched = true) → x.active = true → x.latched = true) :
    Keeps s (s.setCond c x) := by
  refine { Keeps.refl s with latched := fun k e => ?_ }
  by_cases hc : e = c
  · subst hc
    rw [State.cond_setCond]
    exact h (k e)
  · rw [State.cond_setCond_ne s c e x hc]
    exact k e

/-- A session written that, where the old one held its run, holds its own. -/
theorem setSession_keeps (s : State) {x : Session}
    (h : s.SessionHoldsRun → (s.setSession x).SessionHoldsRun) : Keeps s (s.setSession x) :=
  { Keeps.refl s with together := fun k l => ⟨k, h l⟩ }

/-- A batch unit written that keeps the queue's shape and its ids. -/
theorem setBatch_keeps (s : State) {b : BatchUnit}
    (hs : s.StoresFit → s.retained.batch.Shaped → (s.setBatch b).StoresFit ∧ b.Shaped)
    (hi : s.BatchIdsDiffer → (s.setBatch b).BatchIdsDiffer) : Keeps s (s.setBatch b) :=
  { Keeps.refl s with shape := hs, ids := hi }

/-- The retained items of a run written: totals that do not fall, residues below their divisors. -/
theorem setRunRetained_keeps (s : State) (r : Fin 4) {v : RunRetained}
    (ht : s.retained.runs[r].totals.Fit →
      v.totals.Fit ∧ v.totals.AtLeast s.retained.runs[r].totals)
    (hr : s.retained.runs[r].ResiduesFit → v.ResiduesFit) : Keeps s (s.setRunRetained r v) := by
  have same : (s.setRunRetained r v).retained.runs[r] = v := by simp
  have other : ∀ i : Fin 4, r ≠ i → (s.setRunRetained r v).retained.runs[i] = s.retained.runs[i] := by
    intro i e
    have e : r.val ≠ i.val := fun h => e (Fin.ext h)
    simp [e]
  have either (i : Fin 4) : r = i ∧ (s.setRunRetained r v).retained.runs[i] = v
      ∨ (s.setRunRetained r v).retained.runs[i] = s.retained.runs[i] := by
    by_cases e : r = i
    · subst e
      exact .inl ⟨rfl, same⟩
    · exact .inr (other i e)
  refine { Keeps.refl s with totals := fun k => ⟨fun i => ?_, fun i => ?_⟩, residues := fun k i => ?_ }
  · obtain ⟨rfl, new⟩ | old := either i
    · rw [new]
      exact (ht (k r)).1
    · rw [old]
      exact k i
  · obtain ⟨rfl, new⟩ | old := either i
    · rw [new]
      exact (ht (k r)).2
    · rw [old]
      exact Totals.AtLeast.refl _
  · obtain ⟨rfl, new⟩ | old := either i
    · rw [new]
      exact hr (k r)
    · rw [old]
      exact k i

/-- A run's volatile items written: a CLOSED run opens while METERING only, and an OPEN run leaves OPEN only
when no prove session holds it. -/
theorem setRun_keeps (s : State) (r : Fin 4) {v : RunVolatile}
    (hc : s.runs[r].state = .closed → v.state = .closed ∨ s.station = .metering)
    (ho : s.runs[r].state = .opened → v.state = .opened ∨ s.proving r = false) :
    Keeps s (s.setRun r v) := by
  have same : (s.setRun r v).runs[r] = v := by simp
  have other : ∀ i : Fin 4, r ≠ i → (s.setRun r v).runs[i] = s.runs[i] := by
    intro i e
    have e : r.val ≠ i.val := fun h => e (Fin.ext h)
    simp [e]
  refine { Keeps.refl s with together := fun h k => ⟨⟨h.1, fun hm i => ?_⟩, ⟨fun ha => ?_, k.2⟩⟩ }
  · by_cases e : r = i
    · subst e
      rw [same]
      exact (hc (h.2 hm r)).resolve_right hm
    · rw [other i e]
      exact h.2 hm i
  · obtain ⟨i, hat, hopen⟩ := k.1 ha
    refine ⟨i, hat, ?_⟩
    by_cases e : r = i
    · subst e
      have held : s.proving r = true := by
        simp only [State.setRun_session] at ha hat
        simp [State.proving, ha, hat]
      rw [same]
      exact (ho hopen).resolve_right (by simp [held])
    · rw [other i e]
      exact hopen

/-- A run's volatile items written with its state as it was. -/
theorem setRun_keeps_of_eq (s : State) (r : Fin 4) {v : RunVolatile}
    (h : v.state = s.runs[r].state := by rfl) :
    Keeps s (s.setRun r v) :=
  setRun_keeps s r (fun k => .inl (h.trans k)) (fun k => .inl (h.trans k))

end Sys2Proof.Machine
end

