-- ==== Sys2Proof/Proofs/KeepsShared.lean ====
section
/-! PROOFS. The operations that the blocks share, from the outbound queue to the prove session, keep every
invariant. -/

namespace Sys2Proof.Machine

/-! ### The outbound queue and the transmitter (R166 to R169) -/

/-- A change of the loop's buffers alone, within their sizes. -/
theorem keeps_of_buffers {s t : State} (h : LoopOnly s t) (hc : t.conds = s.conds)
    (hb : s.BuffersFit → t.BuffersFit) : Keeps s t :=
  Keeps.of_eq h.pending hb (fun k c => by unfold State.cond; rw [hc]; exact k c)
    (by rw [h.retained]) (by rw [h.retained]) h.pulses h.station (by rw [h.timer]) h.runs h.session

theorem length_highest {l : List OutFrame} {f : OutFrame} {others : List OutFrame}
    (h : highest l = some (f, others)) : others.length + 1 = l.length := by
  induction l generalizing f others with
  | nil => cases h
  | cons a l ih =>
    unfold highest at h
    split at h
    · cases h
      cases l with
      | nil => rfl
      | cons b l =>
        rename_i hn
        unfold highest at hn
        split at hn
        · cases hn
        · split at hn <;> cases hn
    · rename_i g rest hg
      split at h <;> cases h
      · simp [ih hg]
      · rfl

theorem length_lowest {l : List OutFrame} {f : OutFrame} {others : List OutFrame}
    (h : lowest l = some (f, others)) : others.length + 1 = l.length := by
  induction l generalizing f others with
  | nil => cases h
  | cons a l ih =>
    unfold lowest at h
    split at h
    · cases h
      cases l with
      | nil => rfl
      | cons b l =>
        rename_i hn
        unfold lowest at hn
        split at hn
        · cases hn
        · split at hn <;> cases hn
    · rename_i g rest hg
      split at h <;> cases h
      · rfl
      · simp [ih hg]

theorem beginNext_fits {s : State} (h : s.BuffersFit) : (beginNext s).BuffersFit := by
  obtain ⟨hf, ho, hc⟩ := h
  unfold beginNext
  split
  · split
    · rename_i f rest hq
      rw [hq] at hf
      exact ⟨by simp at hf ⊢; omega, ho, hc⟩
    · split
      · rename_i g others hq
        have := length_highest hq
        exact ⟨hf, by simp; omega, hc⟩
      · exact ⟨hf, ho, hc⟩
  · exact ⟨hf, ho, hc⟩

theorem beginNext_keeps (s : State) : Keeps s (beginNext s) :=
  keeps_of_buffers (beginNext_loopOnly s) (beginNext_conds s) beginNext_fits

theorem enqueue_keeps (f : OutFrame) (s : State) : Keeps s (enqueue f s).1 := by
  refine keeps_of_buffers (enqueue_loopOnly f s) (enqueue_conds f s) fun ⟨hf, ho, hc⟩ => ?_
  rcases enqueue_cases f s with ⟨hroom, h⟩ | ⟨g, others, _, hl, _, h⟩ | ⟨_, h⟩ <;> rw [h]
  · exact beginNext_fits ⟨hf, by simp; omega, hc⟩
  · have := length_lowest hl
    exact beginNext_fits ⟨hf, by simp; omega, hc⟩
  · exact ⟨hf, ho, hc⟩

/-! ### Notices and reports (R152, R155, R169) -/

theorem offerNoticeOnce_keeps (c : CondId) (s : State) : Keeps s (offerNoticeOnce c s).1 := by
  unfold offerNoticeOnce
  split
  · exact setCond_keeps s c id
  · exact setCond_keeps s c id
  · exact (setCond_keeps s c (x := { s.cond c with withheld := false }) id).trans (enqueue_keeps _ _)

theorem recordOccurrence_keeps (c : CondId) (s : State) : Keeps s (recordOccurrence c s) :=
  setCond_keeps s c fun _ _ => rfl

theorem countDiscard_keeps (k : OutKind) (s : State) : Keeps s (countDiscard k s) := Quiet.keeps rfl

theorem loseFrame_keeps (g : OutFrame) (s : State) : Keeps s (loseFrame g s) := by
  have counted := (countDiscard_keeps g.kind s).trans (recordOccurrence_keeps .outboundDiscard _)
  unfold loseFrame
  simp only
  split
  · exact counted
  · have offered := counted.trans (offerNoticeOnce_keeps .outboundDiscard _)
    split
    · exact offered
    · exact (offered.trans (countDiscard_keeps _ _)).trans (recordOccurrence_keeps _ _)

theorem afterOffer_keeps {s : State} {r : State × Option OutFrame} (h : Keeps s r.1) :
    Keeps s (afterOffer r) := by
  unfold afterOffer
  split
  · exact h
  · exact h.trans (loseFrame_keeps _ _)

theorem offer_keeps (f : OutFrame) (s : State) : Keeps s (offer f s) :=
  afterOffer_keeps (enqueue_keeps f s)

theorem offerNotice_keeps (c : CondId) (s : State) : Keeps s (offerNotice c s) :=
  afterOffer_keeps (offerNoticeOnce_keeps c s)

theorem latchAndNotify_keeps (c : CondId) (s : State) : Keeps s (latchAndNotify c s) := by
  unfold latchAndNotify
  split
  · exact recordOccurrence_keeps c s
  · exact (recordOccurrence_keeps c s).trans (offerNotice_keeps c _)

theorem occur_keeps (c : CondId) (s : State) : Keeps s (occur c s) := latchAndNotify_keeps c s

/-- The record of a condition is written twice in a row: only the second write stands. -/
theorem State.setCond_setCond (s : State) (c : CondId) (x y : Condition) :
    (s.setCond c x).setCond c y = s.setCond c y := by
  unfold State.setCond
  simp

/-- An occurrence of a record just written: the record is written latched. -/
theorem recordOccurrence_setCond_keeps (c : CondId) (x : Condition) (s : State) :
    Keeps s (recordOccurrence c (s.setCond c x)) := by
  unfold recordOccurrence
  rw [State.setCond_setCond]
  exact setCond_keeps s c fun _ _ => rfl

theorem reportActive_keeps (c : CondId) (s : State) : Keeps s (reportActive c s) := by
  unfold reportActive
  split
  · exact Keeps.refl s
  · unfold latchAndNotify
    split
    · exact recordOccurrence_setCond_keeps c _ s
    · exact (recordOccurrence_setCond_keeps c _ s).trans (offerNotice_keeps c _)

theorem reportInactive_keeps (c : CondId) (s : State) : Keeps s (reportInactive c s) := by
  unfold reportInactive
  split
  · exact setCond_keeps s c fun _ h => nomatch h
  · exact Keeps.refl s

theorem report_keeps (c : CondId) (b : Bool) (s : State) : Keeps s (report c b s) := by
  unfold report
  split
  · exact reportActive_keeps c s
  · exact reportInactive_keeps c s

theorem releaseNotices_keeps (s : State) : Keeps s (releaseNotices s) := by
  refine Keeps.foldl (fun s c => ?_) _ s
  split
  · exact offerNotice_keeps c s
  · exact Keeps.refl s

theorem evalPulseConds_keeps (r : Fin 4) (s : State) : Keeps s (evalPulseConds r s) :=
  ((report_keeps _ _ s).trans (report_keeps _ _ _)).trans (report_keeps _ _ _)

theorem evalBatchConds_keeps (s : State) : Keeps s (evalBatchConds s) :=
  (report_keeps _ _ s).trans (report_keeps _ _ _)

theorem evalInputConds_keeps (b : Fin 16) (s : State) : Keeps s (evalInputConds b s) :=
  ((report_keeps _ _ s).trans (report_keeps _ _ _)).trans (report_keeps _ _ _)

theorem evalFlowConds_keeps (r : Fin 4) (x : RunSettings) (d : Sampled) (out : IntervalOutput)
    (s : State) : Keeps s (evalFlowConds r x d out s) :=
  (((((report_keeps _ _ s).trans (report_keeps _ _ _)).trans (report_keeps _ _ _)).trans
    (report_keeps _ _ _)).trans (report_keeps _ _ _)).trans (report_keeps _ _ _)

theorem quietFlowConds_keeps (r : Fin 4) (s : State) : Keeps s (quietFlowConds r s) :=
  (((((reportInactive_keeps _ s).trans (reportInactive_keeps _ _)).trans
    (reportInactive_keeps _ _)).trans (reportInactive_keeps _ _)).trans
      (reportInactive_keeps _ _)).trans (reportInactive_keeps _ _)

theorem failInputs_keeps (s : State) : Keeps s (failInputs s) := by
  refine Keeps.foldl (fun s b => ?_) _ s
  split
  · exact reportActive_keeps _ s
  · exact Keeps.refl s

theorem offerResult_keeps (r : IntervalRecord) (closing : Bool) (s : State) :
    Keeps s (offerResult r closing s) := by
  unfold offerResult
  split
  · exact Keeps.refl s
  · split
    · exact offer_keeps _ s
    · exact Keeps.refl s

theorem offerTicket_keeps (t : Ticket) (s : State) : Keeps s (offerTicket t s) := by
  unfold offerTicket
  split
  · exact Keeps.refl s
  · exact offer_keeps _ s

theorem offerReport_keeps (s : State) : Keeps s (offerReport s) := by
  unfold offerReport
  split
  · exact Keeps.refl s
  · exact offer_keeps _ s

theorem offerReply_keeps (src tag : Byte) (code : Nat) (r : Reply) (s : State) :
    Keeps s (offerReply src tag code r s) := offer_keeps _ s

theorem forwardFrame_keeps (f : Frame) (s : State) : Keeps s (forwardFrame f s) := by
  unfold forwardFrame
  split
  · refine Keeps.trans (keeps_of_buffers (t := { s with forward := s.forward ++ [f] }) rfl rfl ?_)
      (beginNext_keeps _)
    exact fun ⟨_, ho, hc⟩ => ⟨by simp; omega, ho, hc⟩
  · exact (occur_keeps _ _).after (Quiet.keeps rfl)

theorem takeCommand_keeps {f : CommandFrame} {s s1 : State} (h : takeCommand f s = some s1) :
    Keeps s s1 := by
  unfold takeCommand at h
  split at h
  · cases h; exact Keeps.refl s
  · rename_i g rest hq
    split at h <;> cases h
    refine Keeps.of_eq rfl (fun ⟨hf, ho, hc⟩ => ⟨hf, ho, ?_⟩) id rfl rfl rfl rfl rfl rfl rfl
    rw [hq] at hc
    simp at hc ⊢
    omega

theorem bufferCommand_keeps (f : CommandFrame) (s : State) : Keeps s (bufferCommand f s) := by
  unfold bufferCommand
  split
  · refine Keeps.of_eq rfl (fun ⟨hf, ho, hc⟩ => ⟨hf, ho, ?_⟩) id rfl rfl rfl rfl rfl rfl rfl
    simp
    omega
  · exact Quiet.keeps rfl

/-! ### The clock -/

theorem advanceClock_keeps (n : Nat) (s : State) : Keeps s (advanceClock n s) :=
  Keeps.of_eq rfl id id rfl rfl rfl rfl (by simp) rfl rfl

theorem advanceTo_keeps (stamp : Word32) (s : State) : Keeps s (advanceTo stamp s) :=
  advanceClock_keeps _ s

/-! ### The prove session (R125, R128, R135) -/

/-- A session that is not active, and whose timeout is stopped, holds no run. -/
theorem setSession_keeps_of_inactive (s : State) {x : Session} (ha : x.state.active = false)
    (ht : x.items.timeoutRunning = false) : Keeps s (s.setSession x) :=
  setSession_keeps s fun _ => ⟨fun h => by simp [ha] at h, fun h => by simp [ht] at h⟩

/-- An active session goes on with its run. -/
theorem setSession_keeps_of_active (s : State) {x : Session}
    (hs : s.SessionHoldsRun → s.session.state.active = true) (ha : x.state.active = true)
    (hat : x.attached = s.session.attached) : Keeps s (s.setSession x) :=
  setSession_keeps s fun h =>
    ⟨fun _ => by
      obtain ⟨r, hr, ho⟩ := h.1 (hs h)
      exact ⟨r, hat.trans hr, ho⟩, fun _ => ha⟩

/-- A session keeps its state and its run, and its timeout does not start. -/
theorem setSession_keeps_of_same (s : State) {x : Session} (hs : x.state = s.session.state)
    (hat : x.attached = s.session.attached)
    (ht : x.items.timeoutRunning = true → s.session.items.timeoutRunning = true) :
    Keeps s (s.setSession x) :=
  setSession_keeps s fun h =>
    ⟨fun ha => by
      simp only [State.setSession_session] at ha ⊢
      rw [hs] at ha
      rw [hat]
      exact h.1 ha, fun k => by
      simp only [State.setSession_session] at k ⊢
      rw [hs]
      exact h.2 (ht k)⟩

theorem nextPassState_active (s : State) : s.nextPassState.active = true := by
  unfold State.nextPassState
  split
  · split <;> rfl
  · rfl

theorem failSession_keeps (cause : EndCause) (s : State) : Keeps s (failSession cause s) :=
  ((setSession_keeps_of_inactive s (x := s.session.leave .failed cause) rfl rfl).trans
    (offerReport_keeps _)).trans (occur_keeps _ _)

theorem completeSession_keeps (rec : ProverRecord) (window : List ProveRun) (s : State) :
    Keeps s (completeSession rec window s) :=
  ((occur_keeps _ _).after (offerReport_keeps _)).after (setSession_keeps_of_inactive s rfl rfl)

theorem batchReport_keeps (s : State) : Keeps s (batchReport s) := by
  unfold batchReport
  split
  · exact failSession_keeps _ s
  · exact Keeps.refl s

/-- An active session goes to the pass state between passes. -/
theorem setNextPassState_keeps (s : State) {x : Session}
    (hs : s.SessionHoldsRun → s.session.state.active = true) (hat : x.attached = s.session.attached) :
    Keeps s (s.setSession { x with state := s.nextPassState }) :=
  setSession_keeps_of_active s hs (nextPassState_active s) hat

/-- R128: the session items once a pass has been spoiled, before the state that follows. -/
theorem spoilPass_keeps (cause : SpoilCause) (s : State)
    (hs : s.SessionHoldsRun → s.session.state.active = true) : Keeps s (spoilPass cause s) := by
  let x : Session :=
    { s.session with
      items := {}
      lastOutcome := .spoiled cause
      spoiledTotal := count1 cap16 s.session.spoiledTotal
      spoiledForRun := count1 cap16 s.session.spoiledForRun
      consecutive := count1 3 s.session.consecutive }
  have written : Keeps s (s.setSession x) := setSession_keeps_of_same s rfl rfl fun h => nomatch h
  have occurred := written.trans (occur_keeps .provePassSpoiled _)
  unfold spoilPass
  simp only
  split
  · exact occurred.trans (failSession_keeps _ _)
  · have active : s.SessionHoldsRun →
        (occur .provePassSpoiled (s.setSession x)).session.state.active = true := by simpa using hs
    refine { occurred with together := fun h k => ?_ }
    have held := occurred.together h k
    refine ⟨held.1, ⟨fun _ => ?_, fun h => ?_⟩⟩
    · exact held.2.1 (active k)
    · simp at h

theorem pulseUnitReport_keeps (cause : SpoilCause) (r : Fin 4) (s : State) :
    Keeps s (pulseUnitReport cause r s) := by
  unfold pulseUnitReport
  split
  · rename_i h
    refine spoilPass_keeps cause s fun _ => ?_
    simp [State.proving] at h
    exact h.1.1
  · exact Keeps.refl s

theorem testRepeatability_keeps (rec : ProverRecord) (s : State)
    (hs : s.SessionHoldsRun → s.session.state.active = true) :
    Keeps s (testRepeatability rec s) := by
  unfold testRepeatability
  simp only
  split
  · exact setNextPassState_keeps s hs rfl
  · have tested : ∀ w : TestWindow, Keeps s (s.setSession { s.session with lastWindow := some w }) :=
      fun w => setSession_keeps_of_same s rfl rfl id
    split
    · exact (tested _).trans (completeSession_keeps _ _ _)
    · split
      · exact (tested _).trans (failSession_keeps _ _)
      · exact setNextPassState_keeps s hs (x := { s.session with lastWindow := some _ }) rfl

theorem recordPass_keeps (rec : ProverRecord) (pass : PassRecord) (s : State)
    (hs : s.session.state.active = true) : Keeps s (recordPass rec pass s) := by
  unfold recordPass
  simp only
  split
  · exact setSession_keeps_of_active s (fun _ => hs) (nextPassState_active s) rfl
  · refine (testRepeatability_keeps rec _ ?_).after
      (setSession_keeps_of_same s rfl rfl fun h => nomatch h)
    exact fun _ => hs

theorem completePass_keeps (r : Fin 4) (stamp : Word32) (s : State)
    (hs : s.session.state.active = true) : Keeps s (completePass r stamp s) := by
  unfold completePass
  simp only
  split
  · split
    · exact spoilPass_keeps _ s fun _ => hs
    · exact recordPass_keeps _ _ s hs
  · exact Keeps.refl s

theorem deliverPulse_keeps (r : Fin 4) (stamp : Word32) (s : State) :
    Keeps s (deliverPulse r stamp s) := by
  unfold deliverPulse
  simp only
  split
  · split <;> exact setSession_keeps_of_same s rfl rfl id
  · rename_i h
    exact completePass_keeps r stamp s (by rw [h]; rfl)
  · exact Keeps.refl s

theorem strayEvent_keeps (s : State) : Keeps s (strayEvent s) :=
  setSession_keeps_of_same s rfl rfl id

theorem passDet1_keeps (stamp : Word32) (s : State) : Keeps s (passDet1 stamp s) := by
  unfold passDet1
  split
  · rename_i h
    exact setSession_keeps_of_active s (fun _ => by rw [h]; rfl) rfl rfl
  · exact strayEvent_keeps s
  · exact strayEvent_keeps s
  · exact Keeps.refl s

theorem passDet2_keeps (stamp : Word32) (s : State) : Keeps s (passDet2 stamp s) := by
  unfold passDet2
  split
  · exact strayEvent_keeps s
  · exact strayEvent_keeps s
  · rename_i h
    have active : s.session.state.active = true := by rw [h]; rfl
    split
    · exact setSession_keeps_of_active s (fun _ => active) rfl rfl
    · exact spoilPass_keeps _ s fun _ => active
  · exact Keeps.refl s

end Sys2Proof.Machine
end

