-- ==== Sys2Proof/Proofs/KeepsUnits.lean ====
section
/-! PROOFS. The Pulse Unit, the Batch Unit, the expiry and the Input Unit keep every invariant. -/

namespace Sys2Proof.Machine

/-! ### The Pulse Unit (R36 to R47) -/

/-- R39: Fine is set only while Coarse is set. -/
def PulseState.FineUnder (p : PulseState) : Prop := p.fine = true → p.coarse = true

theorem PulseState.fineUnder_of_clear {p : PulseState} (h : p.fine = false) : p.FineUnder :=
  fun k => by rw [h] at k; cases k

theorem PulseState.substitute_flags (p : PulseState) (lost : Channel) :
    (p.substitute lost).fine = p.fine ∧ (p.substitute lost).coarse = p.coarse := by
  unfold PulseState.substitute
  split
  · split <;> exact ⟨rfl, rfl⟩
  · split <;> exact ⟨rfl, rfl⟩

theorem PulseState.lose_fine (p : PulseState) (ch : Channel) : (p.lose ch).fine = false := by
  unfold PulseState.lose
  simp only
  split
  · rfl
  · exact (PulseState.substitute_flags _ ch).1

theorem PulseState.checkNormal_fineUnder {p : PulseState} (lead d : Nat) (h : p.FineUnder) :
    (p.checkNormal lead d).FineUnder := by
  unfold PulseState.checkNormal
  split
  · exact PulseState.fineUnder_of_clear rfl
  · split
    · exact h
    · split
      · exact fun _ => rfl
      · split
        · exact fun _ => rfl
        · exact PulseState.fineUnder_of_clear rfl

theorem PulseState.checkLost_fineUnder {p : PulseState} (lead d : Nat) (h : p.FineUnder) :
    (p.checkLost lead d).FineUnder := by
  unfold PulseState.checkLost
  split
  · exact PulseState.fineUnder_of_clear rfl
  · simp only
    split
    · by_cases hd : d = 1
      · exact PulseState.fineUnder_of_clear (by simp [PulseState.restartWindow, hd])
      · intro k
        simp only [PulseState.restartWindow, hd, if_false] at k
        exact h k
    · exact h

theorem PulseState.checkpoint_fineUnder {p : PulseState} (ch : Channel) (h : p.FineUnder) :
    (p.checkpoint ch).FineUnder := by
  unfold PulseState.checkpoint
  simp only
  split
  · exact PulseState.fineUnder_of_clear (PulseState.lose_fine _ _)
  · split
    · exact PulseState.checkNormal_fineUnder _ _ h
    · exact PulseState.checkLost_fineUnder _ _ h

theorem PulseState.applyChange_flags (p : PulseState) :
    p.applyChange.fine = p.fine ∧ p.applyChange.coarse = p.coarse := by
  unfold PulseState.applyChange
  split <;> exact ⟨rfl, rfl⟩

theorem reportPulseUnit_keeps (r : Fin 4) (before after : PulseState) (s : State) :
    Keeps s (reportPulseUnit r before after s) := by
  have first : Keeps s (if before.fine && !after.fine then pulseUnitReport .agreement r s else s) := by
    split
    · exact pulseUnitReport_keeps _ r s
    · exact Keeps.refl s
  unfold reportPulseUnit
  simp only
  split
  · exact first.trans (pulseUnitReport_keeps _ r _)
  · exact first

theorem windowPulse_keeps (r : Fin 4) (ch : Channel) (s : State) : Keeps s (windowPulse r ch s) := by
  unfold windowPulse
  simp only
  split
  · exact ((reportPulseUnit_keeps _ _ _ _).after (evalPulseConds_keeps _ _)).after
      (setPulse_keeps s r fun h => PulseState.checkpoint_fineUnder ch h)
  · exact setPulse_keeps_of_eq s r

theorem idlePulse_keeps (r : Fin 4) (s : State) : Keeps s (idlePulse r s) := by
  have counted (n : Nat) : Keeps s (s.setPulse r { s.pulses[r] with idle := n }) :=
    setPulse_keeps_of_eq s r
  unfold idlePulse
  simp only
  split
  · exact (counted _).trans (occur_keeps _ _)
  · exact counted _

theorem runPulse_keeps (r : Fin 4) (ch : Channel) (stamp : Word32) (s : State) :
    Keeps s (runPulse r ch stamp s) := by
  have counted : Keeps s (s.setPulse r (s.pulses[r].countInterval ch)) :=
    setPulse_keeps_of_eq s r
  have compared := Keeps.ite (c := (s.setPulse r (s.pulses[r].countInterval ch)).dual r = true)
    (counted.trans (windowPulse_keeps r ch _)) counted
  exact Keeps.ite (compared.trans (deliverPulse_keeps r stamp _)) compared

theorem pulseEvent_keeps (r : Fin 4) (ch : Channel) (stamp : Word32) (s : State) :
    Keeps s (pulseEvent r ch stamp s) := by
  unfold pulseEvent
  split
  · split
    · exact idlePulse_keeps r s
    · exact Keeps.refl s
  · exact runPulse_keeps r ch stamp s

theorem applyChannelChange_keeps (r : Fin 4) (s : State) : Keeps s (applyChannelChange r s) := by
  unfold applyChannelChange
  simp only
  split
  · exact Keeps.refl s
  · exact (pulseUnitReport_keeps _ r _).after
      (setPulse_keeps_of_eq s r (PulseState.applyChange_flags _).1 (PulseState.applyChange_flags _).2)

/-! ### The Batch Unit (R88 to R108) -/

/-- A batch unit written with the queue, the progress and the tickets as they were. -/
theorem setBatch_keeps_of_eq (s : State) {b : BatchUnit} (hq : b.queue = s.retained.batch.queue)
    (hp : b.progress = s.retained.batch.progress) (ht : b.tickets = s.retained.batch.tickets) :
    Keeps s (s.setBatch b) := by
  refine setBatch_keeps s (fun h k => ⟨?_, ?_⟩) fun h => ?_
  · unfold State.StoresFit at *
    simpa [hq, ht] using h
  · unfold BatchUnit.Shaped at *
    rwa [hq, hp]
  · unfold State.BatchIdsDiffer at *
    simpa [hq, ht] using h

/-- The progress of a head written with its close cause as it was. -/
theorem setBatch_keeps_of_cause (s : State) {b : BatchUnit} (hq : b.queue = s.retained.batch.queue)
    (hne : b.queue ≠ []) (hp : b.progress.closeCause = s.retained.batch.progress.closeCause)
    (ht : b.tickets = s.retained.batch.tickets) : Keeps s (s.setBatch b) := by
  refine setBatch_keeps s (fun h k => ⟨?_, ?_⟩) fun h => ?_
  · unfold State.StoresFit at *
    simpa [hq, ht] using h
  · unfold BatchUnit.Shaped at *
    rw [← hq] at k
    split at k
    · contradiction
    · rw [hp]
      exact k
  · unfold State.BatchIdsDiffer at *
    simpa [hq, ht] using h

theorem startClosing_keeps (cause : CloseCause) (s : State) :
    Keeps s (s.setBatch (s.retained.batch.startClosing cause)) := by
  unfold BatchUnit.startClosing
  split
  · exact setBatch_keeps_of_eq s rfl rfl rfl
  · rename_i h rest hq
    refine setBatch_keeps s (fun k l => ⟨?_, ?_⟩) fun k => ?_
    · unfold State.StoresFit at *
      simpa [hq] using k
    · unfold BatchUnit.Shaped at *
      rw [hq] at l
      exact ⟨by simp, l.2.1, by simp⟩
    · unfold State.BatchIdsDiffer at *
      simpa [hq] using k

theorem reachesTarget_queue {b : BatchUnit} (h : b.reachesTarget = true) : b.queue ≠ [] := by
  intro e
  unfold BatchUnit.reachesTarget at h
  simp [e] at h

theorem checkTarget_keeps (s : State) : Keeps s (checkTarget s) := by
  unfold checkTarget
  simp only
  split
  · rename_i h
    have marked := setBatch_keeps_of_cause s
      (b := { s.retained.batch with
        progress := { s.retained.batch.progress with targetReached := true } })
      rfl (reachesTarget_queue (b := s.retained.batch) h) rfl rfl
    have occurred := marked.trans (occur_keeps .targetReached _)
    split
    · refine occurred.trans ((evalBatchConds_keeps _).after ?_)
      have := startClosing_keeps .target (occur .targetReached (s.setBatch
        { s.retained.batch with
          progress := { s.retained.batch.progress with targetReached := true } }))
      simpa using this
    · exact occurred
  · exact Keeps.refl s

theorem accumulate_keeps (rec : IntervalRecord) (d : Nat) (s : State) :
    Keeps s (accumulate rec d s) := by
  unfold accumulate
  simp only
  split
  · exact (checkTarget_keeps _).after (setBatch_keeps_of_eq s rfl rfl rfl)
  · exact setBatch_keeps_of_eq s rfl rfl rfl

theorem openHead_keeps (w : Word32) (s : State) : Keeps s (openHead w s) := by
  unfold openHead
  simp only
  split
  · exact Keeps.refl s
  · rename_i h rest hq
    exact setBatch_keeps_of_cause s rfl (by simp [hq]) rfl rfl

theorem productFollows_keeps (s : State) : Keeps s (productFollows s) := by
  unfold productFollows
  simp only
  split
  · exact Keeps.refl s
  · exact setBatch_keeps_of_eq s rfl rfl rfl

/-- R106: the head's id goes from the queue to the ticket list, and the entry behind it leads. -/
theorem dropHead_keeps (s : State) (h : BatchEntry) (rest : List BatchEntry) (t : Ticket)
    (hq : s.retained.batch.queue = h :: rest) (hid : t.id = h.id)
    (hroom : s.retained.batch.tickets.length < 4) :
    Keeps s (s.setBatch (s.retained.batch.dropHead t)) := by
  unfold BatchUnit.dropHead
  refine setBatch_keeps s (fun k l => ⟨?_, ?_⟩) fun k => ?_
  · unfold State.StoresFit at *
    rw [hq] at k
    cases rest <;> simp [hq] at k ⊢ <;> omega
  · unfold BatchUnit.Shaped at *
    rw [hq] at l
    simp only [hq, List.tail_cons]
    cases rest with
    | nil => trivial
    | cons n rest => exact ⟨by simp, fun e he => l.2.1 e (List.mem_cons_of_mem _ he), by simp⟩
  · unfold State.BatchIdsDiffer at *
    rw [hq] at k
    have moved : (rest.map (·.id) ++ (s.retained.batch.tickets.map (·.id) ++ [h.id])).Nodup := by
      rw [← List.append_assoc]
      exact (List.perm_append_singleton h.id _).nodup_iff.mpr k
    cases rest <;> simpa [hq, hid] using moved

theorem canClose_iff (b : BatchUnit) : b.canClose = true ↔ b.HeadCloses ∧ b.tickets.length < 4 := by
  unfold BatchUnit.canClose BatchUnit.HeadCloses
  split <;> rename_i hq <;> simp [hq]

theorem closeHead_keeps (atExpiry : Bool) (s : State) (hroom : s.retained.batch.tickets.length < 4) :
    Keeps s (closeHead atExpiry s) := by
  unfold closeHead
  split
  · exact Keeps.refl s
  · rename_i h rest hq
    have dropped := (offerTicket_keeps (formTicket s h) s).trans
      (dropHead_keeps _ h rest (formTicket s h) (by simpa using hq) rfl (by simpa using hroom))
    cases atExpiry with
    | false => exact (dropped.trans (productFollows_keeps _)).trans (evalBatchConds_keeps _)
    | true =>
      exact ((dropped.trans (openHead_keeps _ _)).trans (evalBatchConds_keeps _)).trans
        (batchReport_keeps _)

theorem closeIfIdle_keeps (s : State) : Keeps s (closeIfIdle s) := by
  unfold closeIfIdle
  split
  · rename_i h
    simp only [Bool.and_eq_true] at h
    exact closeHead_keeps _ s ((canClose_iff _).mp h.2).2
  · exact Keeps.refl s

theorem batchExpiry_keeps (s : State) : Keeps s (batchExpiry s) := by
  unfold batchExpiry
  simp only
  split
  · rename_i h
    exact closeHead_keeps _ s ((canClose_iff _).mp h).2
  · split
    · exact (openHead_keeps _ s).trans (batchReport_keeps _)
    · exact Keeps.refl s

/-! ### The expiry (R3) -/

theorem Totals.add_fit {t : Totals} (h : t.Fit) (rec : IntervalRecord) : (t.add rec).Fit := by
  obtain ⟨h1, h2, h3, h4, h5⟩ := h
  exact ⟨addTotal_le h1 rec.iv, addTotal_le h2 rec.gsv, addTotal_le h3 rec.nsv, addTotal_le h4 rec.mass,
    addTotal_le h5 rec.p⟩

theorem Totals.add_atLeast {t : Totals} (h : t.Fit) (rec : IntervalRecord) : (t.add rec).AtLeast t := by
  obtain ⟨h1, h2, h3, h4, h5⟩ := h
  exact ⟨le_addTotal h1 rec.iv, le_addTotal h2 rec.gsv, le_addTotal h3 rec.nsv, le_addTotal h4 rec.mass,
    le_addTotal h5 rec.p⟩

/-- R25: the residues a computation leaves lie below their divisors. -/
theorem computeStages_residues_fit (x : IntervalInput) (hk : 0 < x.kFactor) :
    (computeStages x).residues.rIV < x.kFactor ∧ (computeStages x).residues.rGSV < 1000000
      ∧ (computeStages x).residues.rNSV < 10000
      ∧ (computeStages x).residues.rM < 100000000000 := by
  refine ⟨Nat.mod_lt _ hk, ?_, ?_, ?_⟩ <;>
  · simp only [computeStages]
    omega

theorem recordRun_keeps (r : Fin 4) (x : RunSettings) (rec : IntervalRecord) (s : State)
    (input : IntervalInput) (hx : s.settings r = some x) (hk : input.kFactor = x.kFactor) :
    Keeps s (recordRun r rec (computeStages input) s) := by
  have settings : s.retained.runs[r].settings = some x := hx
  have written : Keeps s
      (s.setRunRetained r (s.retained.runs[r].take rec (computeStages input))) := by
    refine setRunRetained_keeps s r (fun h => ⟨Totals.add_fit h _, Totals.add_atLeast h _⟩) fun h => ?_
    obtain ⟨_, _, _, hiv, _⟩ := h
    have pos : 0 < input.kFactor := by
      have := hiv x settings
      omega
    obtain ⟨h1, h2, h3, h4⟩ := computeStages_residues_fit input pos
    refine ⟨h2, h3, h4, fun y hy => ?_, fun hn => ?_⟩
    · cases settings.symm.trans hy
      exact hk ▸ h1
    · cases settings.symm.trans hn
  unfold recordRun
  simp only
  exact written.trans ((setPulse_keeps_of_eq _ r).after (setRun_keeps_of_eq _ r))

theorem computeRun_keeps (r : Fin 4) (x : RunSettings) (closing : Bool) (s : State)
    (hx : s.settings r = some x) : Keeps s (computeRun r x closing s) := by
  unfold computeRun
  simp only
  exact (((recordRun_keeps r x _ s (sampleRun r x s).input hx rfl).trans
    (evalFlowConds_keeps _ _ _ _ _)).trans (accumulate_keeps _ _ _)).trans (offerResult_keeps _ _ _)

theorem computeIfLoaded_keeps (r : Fin 4) (closing : Bool) (s : State) :
    Keeps s (computeIfLoaded r closing s) := by
  unfold computeIfLoaded
  split
  · exact computeRun_keeps r _ closing s (by assumption)
  · exact Keeps.refl s

theorem checkTarget_runs (s : State) : (checkTarget s).runs = s.runs := by
  unfold checkTarget
  simp only
  split
  · split <;> simp
  · rfl

theorem accumulate_runs (rec : IntervalRecord) (d : Nat) (s : State) :
    (accumulate rec d s).runs = s.runs := by
  unfold accumulate
  simp only
  split
  · simp [checkTarget_runs]
  · simp

/-- A computation leaves the run states as they are. -/
theorem computeIfLoaded_state (r : Fin 4) (closing : Bool) (s : State) (i : Fin 4) :
    (computeIfLoaded r closing s).runs[i].state = s.runs[i].state := by
  unfold computeIfLoaded
  split
  · by_cases e : r.val = i.val
    · obtain rfl : r = i := Fin.ext e
      simp [computeRun, accumulate_runs, recordRun]
    · simp [computeRun, accumulate_runs, recordRun, e]
  · rfl

theorem closeAtExpiry_keeps (r : Fin 4) (s : State) (h : s.runs[r].state ≠ .opened) :
    Keeps s (closeAtExpiry r s) := by
  unfold closeAtExpiry
  refine (quietFlowConds_keeps _ _).after ((setPulse_keeps_of_eq _ r).after
    (setRun_keeps s r (fun _ => .inl ?_) fun k => absurd k h))
  rfl

theorem openAtExpiry_keeps (r : Fin 4) (s : State) (h : s.runs[r].state = .opening) :
    Keeps s (openAtExpiry r s) := by
  unfold openAtExpiry
  refine (setPulse_keeps_of_eq _ r).after (setRun_keeps s r (fun k => ?_) fun k => ?_) <;>
  · rw [h] at k
    cases k

theorem expireRun_keeps (s : State) (r : Fin 4) : Keeps s (expireRun s r) := by
  unfold expireRun
  split
  · exact Keeps.refl s
  · exact openAtExpiry_keeps r s (by assumption)
  · exact computeIfLoaded_keeps r _ s
  · rename_i h
    refine (computeIfLoaded_keeps r true s).trans (closeAtExpiry_keeps r _ ?_)
    rw [computeIfLoaded_state, h]
    exact fun e => nomatch e

theorem promoteAll_keeps (s : State) : Keeps s (promoteAll s) := Quiet.keeps rfl

/-- R1: a timer that runs is reloaded. -/
theorem nextInterval_keeps (s : State) (h : s.timer.isSome = true) : Keeps s (nextInterval s) :=
  Keeps.of_eq rfl id id rfl rfl rfl rfl h.symm rfl rfl

theorem expiry_keeps (s : State) (h : s.timer.isSome = true) : Keeps s (expiry s) := by
  unfold expiry forRuns
  exact ((((nextInterval_keeps s h).trans (Keeps.foldl (fun s r => applyChannelChange_keeps r s) _ _)).trans
    (Keeps.foldl expireRun_keeps _ _)).trans
      (Keeps.foldl (fun s r => evalPulseConds_keeps r s) _ _)).trans
        ((promoteAll_keeps _).trans (batchExpiry_keeps _))

/-! ### The Input Unit (R53 to R60) -/

theorem setLive_keeps (s : State) (b : Fin 16) (l : LiveInput) : Keeps s (s.setLive b l) :=
  Quiet.keeps rfl

theorem ageSlot_keeps (s : State) (b : Fin 16) : Keeps s (ageSlot s b) := by
  unfold ageSlot
  split
  · exact (setLive_keeps _ _ _).trans (evalInputConds_keeps _ _)
  · exact Keeps.refl s

theorem inputCount_keeps (s : State) : Keeps s (inputCount s) :=
  Keeps.after (Keeps.foldl ageSlot_keeps _ _) (Quiet.keeps rfl)

theorem sampleArrival_keeps (f : Frame) (s : State) : Keeps s (sampleArrival f s) := by
  have taken : ∀ slot b v q, Keeps s (takeSample slot b v q s) := by
    intro slot b v q
    unfold takeSample
    split
    · exact (setLive_keeps _ _ _).trans (evalInputConds_keeps _ _)
    · exact occur_keeps _ _
  unfold sampleArrival
  split
  · split
    · exact Keeps.refl s
    · split
      · exact Keeps.refl s
      · exact taken _ _ _ _
  · exact Keeps.refl s

end Sys2Proof.Machine
end

