-- ==== Sys2Proof/Proofs/Steps.lean ====
section
/-! PROOFS. Every command, every event and the idle step keep every invariant: O4 and O55 to O59. -/

namespace Sys2Proof.Machine

/-! ### The handling of each loop command, from its length check on -/

@[simp] theorem accept_fst (data : List Byte) (s : State) : (accept data s).1 = s := rfl

theorem withLength_keeps {n : Nat} {args : List Byte} {body : State → State × Reply} {s : State}
    (h : Keeps s (body s).1) : Keeps s (withLength n args body s).1 := by
  unfold withLength
  split
  · exact h
  · exact Keeps.refl s

theorem checkReady_keeps (s : State) : Keeps s (checkReady s) := by
  unfold checkReady
  split
  · rename_i h
    simp only [Bool.and_eq_true, decide_eq_true_eq] at h
    refine { Keeps.refl s with together := fun k l => ⟨⟨?_, fun _ => ?_⟩, l⟩ }
    · have := k.1
      rw [h.1.1] at this
      simpa using this
    · exact k.2 (by rw [h.1.1]; exact fun e => nomatch e)
  · exact Keeps.refl s

theorem loadStation_keeps (args : List Byte) (s : State) : Keeps s (loadStation args s).1 := by
  have layout (old : Option StationRecord) (new : StationRecord) (t : State) :
      Keeps t (applyLayout old new t) := by
    unfold applyLayout
    split
    · exact Keeps.refl t
    · exact Quiet.keeps rfl
  refine withLength_keeps ?_
  split
  · exact Keeps.refl s
  · split
    · exact Keeps.refl s
    · exact (checkReady_keeps _).after ((layout _ _ _).after (Quiet.keeps rfl))

theorem startMetering_keeps (args : List Byte) (s : State) : Keeps s (startMetering args s).1 := by
  refine withLength_keeps ?_
  split
  · refine Keeps.trans (t := { s with station := .metering, timer := some s.intervalPeriods }) ?_ ?_
    · exact { Keeps.refl s with
        together := fun _ l => ⟨⟨iff_of_true rfl rfl, fun h => absurd rfl h⟩, l⟩ }
    · unfold beginMetering
      simp only
      split
      · exact openHead_keeps _ _
      · exact Keeps.refl _
  · exact Keeps.refl s

theorem allClosed_iff (s : State) : s.allClosed = true ↔ ∀ r : Fin 4, s.runs[r].state = .closed := by
  simp [State.allClosed, List.all_eq_true]

theorem stopMetering_keeps (args : List Byte) (s : State) : Keeps s (stopMetering args s).1 := by
  refine withLength_keeps ?_
  split
  · exact Keeps.refl s
  · split
    · rename_i h
      refine Keeps.trans (t := { s with station := .ready, timer := none }) ?_
        ((closeIfIdle_keeps _).after (productFollows_keeps _))
      exact { Keeps.refl s with
        together := fun _ l =>
          ⟨⟨by simp, fun _ => (allClosed_iff s).mp h⟩, l⟩ }
    · exact Keeps.refl s

theorem restart_keeps (args : List Byte) (s : State) : Keeps s (restart args s).1 := by
  refine withLength_keeps ?_
  split
  · exact Quiet.keeps rfl
  · exact Keeps.refl s

theorem loadBinding_keeps (args : List Byte) (s : State) : Keeps s (loadBinding args s).1 := by
  refine withLength_keeps ?_
  split
  · exact Keeps.refl s
  · split
    · exact Keeps.refl s
    · split
      · exact Keeps.refl s
      · exact (evalInputConds_keeps _ _).after (Quiet.keeps rfl)

theorem readInput_keeps (args : List Byte) (s : State) : Keeps s (readInput args s).1 := by
  refine withLength_keeps ?_
  split
  · exact Keeps.refl s
  · split
    · exact Keeps.refl s
    · split <;> exact Keeps.refl s

/-- R9: the settings of LOAD_RUN have a K-factor above 0. -/
theorem readRunSettings_kFactor {args : List Byte} {r : Fin 4} {x : RunSettings}
    (h : readRunSettings args = some (r, x)) : 0 < x.kFactor := by
  simp only [readRunSettings, Option.bind_eq_bind, Option.bind_eq_some_iff] at h
  obtain ⟨_, _, _, hk, h⟩ := h
  obtain ⟨_, _, _, _, _, _, _, _, _, _, _, _, _, _, _, _, h⟩ := h
  cases h
  simp [check] at hk
  show 0 < argU args 1 4
  omega

/-- R10: the residues that LOAD_RUN leaves suit the new settings. -/
theorem residuesAfterLoad_fit {old : RunRetained} {x : RunSettings} (h : old.ResiduesFit)
    (hk : 0 < x.kFactor) :
    ({ old with settings := some x, residues := residuesAfterLoad old x } : RunRetained).ResiduesFit := by
  obtain ⟨h1, h2, h3, hsome, hnone⟩ := h
  unfold residuesAfterLoad
  cases hs : old.settings with
  | none =>
    exact ⟨h1, h2, h3, fun y hy => by cases hy; simpa [hnone hs] using hk, fun e => nomatch e⟩
  | some z =>
    simp only
    split
    · rename_i e
      exact ⟨h1, h2, h3, fun y hy => by cases hy; exact e ▸ hsome z hs, fun e => nomatch e⟩
    · exact ⟨h1, h2, h3, fun y hy => by cases hy; exact hk, fun e => nomatch e⟩

theorem loadRun_keeps (args : List Byte) (s : State) : Keeps s (loadRun args s).1 := by
  refine withLength_keeps ?_
  split
  · exact Keeps.refl s
  · rename_i r x h
    split
    · refine (evalPulseConds_keeps _ _).after ((setPulse_keeps _ r ?_).after
        (setRunRetained_keeps s r ?_ ?_))
      · exact fun _ k => nomatch k
      · exact fun h => ⟨h, Totals.AtLeast.refl _⟩
      · exact fun k => residuesAfterLoad_fit k (readRunSettings_kFactor h)
    · exact Keeps.refl s

theorem openRun_keeps (args : List Byte) (s : State) : Keeps s (openRun args s).1 := by
  refine withLength_keeps ?_
  split
  · exact Keeps.refl s
  · rename_i r _
    split
    · exact Keeps.refl s
    · rename_i h
      split
      · refine (evalPulseConds_keeps _ _).after ((setPulse_keeps _ r ?_).after
          (setRun_keeps s r (fun _ => .inr ?_) fun k => ?_))
        · exact fun _ k => nomatch k
        · by_contra hm
          exact h (.inl hm)
        · exact absurd (.inr (by rw [k]; exact fun e => nomatch e)) h
      · exact Keeps.refl s

theorem closeRun_keeps (args : List Byte) (s : State) : Keeps s (closeRun args s).1 := by
  refine withLength_keeps ?_
  split
  · exact Keeps.refl s
  · rename_i r _
    split
    · exact Keeps.refl s
    · rename_i h
      refine (evalPulseConds_keeps _ _).after ((setPulse_keeps_of_eq _ r).after
        (setRun_keeps s r (fun _ => .inl ?_) fun k => ?_))
      · rfl
      · rw [h] at k; cases k
    · rename_i h
      split
      · exact Keeps.refl s
      · rename_i hp
        refine (evalPulseConds_keeps _ _).after (setRun_keeps s r (fun k => ?_) fun _ => .inr ?_)
        · rw [h] at k; cases k
        · simpa using hp
    · exact Keeps.refl s

theorem selectChannel_keeps (args : List Byte) (s : State) : Keeps s (selectChannel args s).1 := by
  refine withLength_keeps ?_
  split
  · split
    · exact ((reportPulseUnit_keeps _ _ _ _).after (evalPulseConds_keeps _ _)).after
        (setPulse_keeps_of_eq s _)
    · exact Keeps.refl s
  · exact Keeps.refl s

theorem readRun_keeps (args : List Byte) (s : State) : Keeps s (readRun args s).1 := by
  refine withLength_keeps ?_
  split
  · exact Keeps.refl s
  · split <;> exact Keeps.refl s

theorem readPulses_keeps (args : List Byte) (s : State) : Keeps s (readPulses args s).1 := by
  refine withLength_keeps ?_
  split <;> exact Keeps.refl s

theorem loadPoints_keeps (args : List Byte) (s : State) : Keeps s (loadPoints args s).1 := by
  have into (t : Target) (cap start : Nat) (points : List TablePoint) :
      Keeps s (loadInto t cap start points s).1 := by
    unfold loadInto
    split
    · exact Quiet.keeps rfl
    · exact Keeps.refl s
  have target : Keeps s (loadTarget args s).1 := by
    unfold loadTarget
    split
    · exact Keeps.refl s
    · split
      · exact Keeps.refl s
      · split
        · exact into _ _ _ _
        · exact Keeps.refl s
    · exact into _ _ _ _
  unfold loadPoints
  split
  · exact Keeps.refl s
  · split
    · exact Keeps.refl s
    · split
      · exact target
      · exact Keeps.refl s

theorem commitCurve_keeps (args : List Byte) (s : State) : Keeps s (commitCurve args s).1 := by
  refine withLength_keeps ?_
  split
  · unfold commitCurveAt
    split
    · exact Keeps.refl s
    · split
      · exact Keeps.refl s
      · split
        · exact Keeps.refl s
        · split
          · exact Keeps.refl s
          · exact Quiet.keeps rfl
  · exact Keeps.refl s

theorem commitProduct_keeps (args : List Byte) (s : State) : Keeps s (commitProduct args s).1 := by
  refine withLength_keeps ?_
  split
  · exact Keeps.refl s
  · split
    · exact Keeps.refl s
    · split
      · exact Keeps.refl s
      · exact Quiet.keeps rfl

theorem drawOpen_keeps (s : State) : Keeps s (drawOpen s).1 := Quiet.keeps rfl

theorem readCurve_keeps (args : List Byte) (s : State) : Keeps s (readCurve args s).1 := by
  have drawn (x : Option Word32) : Keeps s (installedAtOf x s).1 := by
    unfold installedAtOf
    split
    · exact Keeps.refl s
    · exact drawOpen_keeps s
  refine withLength_keeps ?_
  split
  · split
    · exact Keeps.refl s
    · unfold readCurveAt
      split
      · exact Keeps.refl s
      · split
        · exact Keeps.refl s
        · split
          · exact Keeps.refl s
          · split
            · exact Keeps.refl s
            · exact drawn _
  · exact Keeps.refl s

theorem readProduct_keeps (args : List Byte) (s : State) : Keeps s (readProduct args s).1 := by
  refine withLength_keeps ?_
  split
  · split
    · exact Keeps.refl s
    · unfold readProductAt
      split
      · split
        · exact Keeps.refl s
        · split
          · exact Keeps.refl s
          · exact drawOpen_keeps s
      · exact Keeps.refl s
  · exact Keeps.refl s

/-- R89: an id that neither the queue nor the ticket list knows. -/
theorem knows_eq_false {b : BatchUnit} {id : Nat} (h : b.knows id = false) :
    id ∉ b.queue.map (·.id) ++ b.tickets.map (·.id) := by
  simp only [BatchUnit.knows, Bool.or_eq_false_iff, List.any_eq_false, beq_iff_eq] at h
  simp only [List.mem_append, List.mem_map, not_or, not_exists, not_and]
  exact h

theorem append_keeps (s : State) (x : BatchArgs) (hid : s.retained.batch.knows x.id = false)
    (hroom : s.retained.batch.queue.length < 8) :
    Keeps s (s.setBatch (s.retained.batch.append x)) := by
  have fresh := knows_eq_false hid
  unfold BatchUnit.append
  cases hq : s.retained.batch.queue with
  | nil =>
    refine setBatch_keeps s (fun k _ => ⟨?_, ?_⟩) fun k => ?_
    · exact ⟨by simp, k.2⟩
    · simp [BatchUnit.Shaped, BatchArgs.entry]
    · unfold State.BatchIdsDiffer at *
      rw [hq] at k fresh
      simpa [BatchArgs.entry] using ⟨by simpa using fresh, k⟩
  | cons h rest =>
    refine setBatch_keeps s (fun k l => ⟨?_, ?_⟩) fun k => ?_
    · rw [hq] at hroom
      exact ⟨by simp at hroom ⊢; omega, k.2⟩
    · unfold BatchUnit.Shaped at *
      rw [hq] at l
      refine ⟨l.1, fun e he => ?_, l.2.2⟩
      rcases List.mem_append.mp he with he | he
      · exact l.2.1 e he
      · cases List.mem_singleton.mp he
        rfl
    · unfold State.BatchIdsDiffer at *
      rw [hq] at k fresh
      have moved : ((h :: rest).map (·.id) ++ x.id :: s.retained.batch.tickets.map (·.id)).Nodup := by
        rw [List.perm_middle.nodup_iff, List.nodup_cons]
        exact ⟨fresh, k⟩
      simpa [BatchArgs.entry] using moved

theorem queueBatch_keeps (args : List Byte) (s : State) : Keeps s (queueBatch args s).1 := by
  refine withLength_keeps ?_
  split
  · exact Keeps.refl s
  · rename_i x _
    simp only
    split
    · exact Keeps.refl s
    · rename_i hk
      split
      · exact Keeps.refl s
      · rename_i hroom
        simp only [Bool.or_eq_true, not_or, Bool.not_eq_true] at hk
        have appended := append_keeps s x hk.1 (by omega)
        exact (evalBatchConds_keeps _).after
          (Keeps.ite (appended.trans (productFollows_keeps _)) appended)

/-- R90: the entry removed leaves a sublist of the queue. -/
theorem dropEntry_sublist {id : Nat} {l l1 : List BatchEntry} (h : dropEntry id l = some l1) :
    l1.Sublist l := by
  induction l generalizing l1 with
  | nil => cases h
  | cons e l ih =>
    unfold dropEntry at h
    split at h
    · cases h
      exact List.sublist_cons_self e _
    · obtain ⟨l2, h2, rfl⟩ := Option.map_eq_some_iff.mp h
      exact (ih h2).cons_cons e

theorem cancelBatch_keeps (args : List Byte) (s : State) : Keeps s (cancelBatch args s).1 := by
  refine withLength_keeps ?_
  unfold cancelId
  simp only
  split
  · exact Keeps.refl s
  · rename_i h rest hq
    split
    · exact Keeps.refl s
    · split
      · rename_i rest1 hd
        have sub := dropEntry_sublist hd
        refine setBatch_keeps s (fun k l => ⟨?_, ?_⟩) fun k => ?_
        · have := sub.length_le
          unfold State.StoresFit at *
          rw [hq] at k
          simp at k ⊢
          omega
        · unfold BatchUnit.Shaped at *
          rw [hq] at l
          exact ⟨l.1, fun e he => l.2.1 e (sub.subset he), l.2.2⟩
        · unfold State.BatchIdsDiffer at *
          rw [hq] at k
          exact k.sublist ((List.Sublist.map _ (sub.cons_cons h)).append_right _)
      · exact Keeps.refl s

theorem endBatch_keeps (args : List Byte) (s : State) : Keeps s (endBatch args s).1 := by
  have ended (h : BatchEntry) : Keeps s (endHead h s) :=
    (closeIfIdle_keeps _).after
      (Keeps.ite ((startClosing_keeps .command s).trans (evalBatchConds_keeps _)) (Keeps.refl s))
  have read (t : State) : Keeps t (headStateData t).1 := by
    unfold headStateData
    split
    · exact Keeps.refl t
    · exact drawOpen_keeps t
  refine withLength_keeps ?_
  split
  · exact Keeps.refl s
  · split
    · exact (ended _).trans (read _)
    · exact Keeps.refl s

theorem readBatches_keeps (args : List Byte) (s : State) : Keeps s (readBatches args s).1 := by
  refine withLength_keeps ?_
  simp only
  split
  · exact Keeps.refl s
  · split <;> exact Keeps.refl s

theorem readTicket_keeps (args : List Byte) (s : State) : Keeps s (readTicket args s).1 := by
  refine withLength_keeps ?_
  split
  · exact Keeps.refl s
  · split <;> exact Keeps.refl s

theorem dropTicket_sublist (id : Nat) (l : List Ticket) : (dropTicket id l).Sublist l := by
  induction l with
  | nil => exact List.Sublist.refl _
  | cons t l ih =>
    unfold dropTicket
    split
    · exact List.sublist_cons_self t _
    · exact ih.cons_cons t

theorem takeTicket_keeps (args : List Byte) (s : State) : Keeps s (takeTicket args s).1 := by
  refine withLength_keeps ?_
  split
  · exact Keeps.refl s
  · have sub := dropTicket_sublist (argU args 0 4) s.retained.batch.tickets
    refine (closeIfIdle_keeps _).after ((evalBatchConds_keeps _).after
      (setBatch_keeps s (fun k l => ⟨⟨k.1, ?_⟩, l⟩) fun k => ?_))
    · exact sub.length_le.trans k.2
    · exact k.sublist ((sub.map _).append_left _)

theorem loadProver_keeps (args : List Byte) (s : State) : Keeps s (loadProver args s).1 := by
  refine withLength_keeps ?_
  split
  · exact Keeps.refl s
  · split
    · exact Keeps.refl s
    · exact Quiet.keeps rfl

theorem proveStart_keeps (args : List Byte) (s : State) : Keeps s (proveStart args s).1 := by
  refine withLength_keeps ?_
  split
  · exact Keeps.refl s
  · rename_i r _
    split
    · exact Keeps.refl s
    · split
      · exact Keeps.refl s
      · rename_i h
        split
        · refine setSession_keeps s fun _ => ⟨fun _ => ⟨r, rfl, ?_⟩, fun e => nomatch e⟩
          by_contra ho
          exact h (.inr ho)
        · exact Keeps.refl s

theorem Session.hold_state (x : Session) : x.hold.state = .held := by
  unfold Session.hold
  split <;> rfl

theorem Session.hold_attached (x : Session) : x.hold.attached = x.attached := by
  unfold Session.hold
  split <;> rfl

theorem proveHold_keeps (args : List Byte) (s : State) : Keeps s (proveHold args s).1 := by
  refine withLength_keeps ?_
  split
  · rename_i h
    have active : s.session.hold.state.active = true := by
      rw [Session.hold_state]
      rfl
    exact setSession_keeps_of_active s (fun _ => h) active (Session.hold_attached _)
  · exact Keeps.refl s

theorem Session.release_active {x : Session} (h : x.state.active = true) :
    x.release.state.active = true := by
  unfold Session.release
  split
  · rfl
  · exact h

theorem Session.release_attached (x : Session) : x.release.attached = x.attached := by
  unfold Session.release
  split <;> rfl

theorem proveRelease_keeps (args : List Byte) (s : State) : Keeps s (proveRelease args s).1 := by
  refine withLength_keeps ?_
  split
  · rename_i h
    exact setSession_keeps_of_active s (fun _ => h) (Session.release_active h)
      (Session.release_attached _)
  · exact Keeps.refl s

theorem proveAbort_keeps (args : List Byte) (s : State) : Keeps s (proveAbort args s).1 := by
  refine withLength_keeps (Keeps.trans ?_ (Keeps.refl _))
  cases h : s.session.state with
  | idle =>
    have same : s.session.abort = s.session := by simp [Session.abort, h]
    exact setSession_keeps_of_same s (by rw [same]) (by rw [same]) (by rw [same]; exact id)
  | held | armed | timing | finishing | complete | failed =>
    exact setSession_keeps_of_inactive s (by simp [Session.abort, h, Session.leave, SessionState.active])
      (by simp [Session.abort, h, Session.leave])

theorem acceptProve_keeps (args : List Byte) (s : State) : Keeps s (acceptProve args s).1 := by
  have marked (r : Fin 4) (t : State) : Keeps t (t.setBatch (t.retained.batch.markProve r)) := by
    unfold BatchUnit.markProve
    split
    · exact setBatch_keeps_of_eq t rfl rfl rfl
    · exact setBatch_keeps_of_eq t rfl rfl rfl
  refine withLength_keeps ?_
  split
  · exact Keeps.refl s
  · rename_i hc
    have complete : s.session.state = .complete := by
      by_contra e
      exact hc e
    split
    · split
      · exact Keeps.refl s
      · unfold acceptOn
        simp only
        split
        · exact Keeps.refl s
        · split
          · exact Keeps.refl s
          · split
            · exact Keeps.refl s
            · refine Keeps.after (setSession_keeps _ fun h => ⟨nofun, fun e => ?_⟩)
                ((marked _ _).after (Quiet.keeps rfl))
              have := h.2 e
              simp [complete, SessionState.active] at this
    · exact Keeps.refl s

theorem readProve_keeps (args : List Byte) (s : State) : Keeps s (readProve args s).1 := by
  refine withLength_keeps ?_
  split
  · exact Keeps.refl s
  · split <;> exact Keeps.refl s

theorem installLevels_keeps (levels : Vector Nat 25) (s : State) : Keeps s (installLevels levels s) := by
  have loaded : Keeps s (s.setRetained { s.retained with levels := some levels }) := Quiet.keeps rfl
  exact (loaded.trans (releaseNotices_keeps _)).trans (checkReady_keeps _)

theorem loadLevels_keeps (args : List Byte) (s : State) : Keeps s (loadLevels args s).1 := by
  refine withLength_keeps ?_
  split
  · exact Keeps.refl s
  · rw [accept_fst]
    exact installLevels_keeps _ s

theorem setLevelGate_keeps (args : List Byte) (s : State) : Keeps s (setLevelGate args s).1 := by
  refine withLength_keeps ?_
  simp only
  split
  · exact Keeps.refl s
  · exact Keeps.ite (Quiet.keeps rfl) ((releaseNotices_keeps _).after (Quiet.keeps rfl))

theorem clearOne_keeps (acc : State × ClearCounts) (c : CondId) : Keeps acc.1 (clearOne acc c).1 := by
  unfold clearOne
  simp only
  split
  · split
    · exact (offerNotice_keeps _ _).after (setCond_keeps _ _ fun _ _ => rfl)
    · rename_i h
      exact setCond_keeps _ _ fun _ k => absurd k h
  · exact Keeps.refl _

theorem clearFold_keeps (l : List CondId) (acc : State × ClearCounts) :
    Keeps acc.1 (l.foldl clearOne acc).1 := by
  induction l generalizing acc with
  | nil => exact Keeps.refl _
  | cons c l ih => exact (clearOne_keeps acc c).trans (ih _)

theorem clearCondition_keeps (args : List Byte) (s : State) : Keeps s (clearCondition args s).1 := by
  unfold clearCondition
  split
  · exact Keeps.refl s
  · split
    · exact Keeps.refl s
    · refine withLength_keeps ?_
      split
      · exact Keeps.refl s
      · exact clearFold_keeps _ (s, {})

theorem readConditions_keeps (args : List Byte) (s : State) : Keeps s (readConditions args s).1 := by
  unfold readConditions
  split
  · exact Keeps.refl s
  · split
    · exact Keeps.refl s
    · refine withLength_keeps ?_
      split <;> exact Keeps.refl s

/-! ### Starts (R181 to R183) -/

theorem clearVolatile_keeps (s : State) : Keeps s (clearVolatile s) where
  pending := rfl
  buffers _ := by simp [State.BuffersFit, clearVolatile]
  shape h k := ⟨h, k⟩
  ids := id
  latched _ c h := by simp [clearVolatile, State.cond] at h
  flags _ r h := by simp [clearVolatile, PulseState.afterStart] at h
  together _ _ := by
    have station : (clearVolatile s).station ≠ .metering := by
      simp only [clearVolatile, Retained.stationAfterStart]
      split <;> exact fun e => nomatch e
    refine ⟨⟨⟨fun h => (nomatch h), fun h => absurd h station⟩, fun _ r => ?_⟩, ⟨nofun, nofun⟩⟩
    simp [clearVolatile]
  totals h := ⟨h, fun _ => Totals.AtLeast.refl _⟩
  residues := id

theorem endOfStart_keeps (s : State) : Keeps s (endOfStart s) :=
  ((productFollows_keeps s).trans (evalBatchConds_keeps _)).trans (failInputs_keeps _)

theorem softRestart_keeps (s : State) : Keeps s (softRestart s) :=
  (endOfStart_keeps _).after ((clearVolatile_keeps s).trans (Quiet.keeps rfl))

theorem settle_keeps (s : State) : Keeps s (settle s) :=
  Keeps.ite (softRestart_keeps s) (Keeps.refl s)

/-- A hard start over an area: the invariants are those of the area that the check-word test has found. -/
theorem hardStart_keeps (straps : Straps) (s : State) :
    Keeps { s with retained := (goodArea s).getD {} } (hardStart straps s) := by
  refine (endOfStart_keeps _).after ((occur_keeps _ _).after ?_)
  exact (clearVolatile_keeps { s with retained := (goodArea s).getD {} }).trans (Quiet.keeps rfl)

/-! ### The step -/

/-- A result that goes on, with every invariant kept. -/
def GoesOn (s : State) (r : Result) : Prop := ∃ t, r = .next t ∧ Keeps s t

theorem whenRunning_goesOn {f : State → State} (s : State) (h : Keeps s (f s)) :
    GoesOn s (whenRunning f s) := by
  unfold whenRunning
  split
  · exact ⟨_, rfl, h.trans (settle_keeps _)⟩
  · exact ⟨s, rfl, Keeps.refl s⟩

/-- The frame is taken and answered, or buffered behind others. -/
theorem takeOrBuffer_keeps (f : CommandFrame) {g : State → State} (s : State)
    (h : ∀ s1, Keeps s1 (g s1)) :
    Keeps s (match takeCommand f s with
      | some s1 => g s1
      | none => bufferCommand f s) := by
  cases ht : takeCommand f s with
  | none => exact bufferCommand_keeps f s
  | some s1 => exact (takeCommand_keeps ht).trans (h s1)

theorem answer_keeps {body : State → State × Reply} (src tag : Byte) (code : Nat) (s : State)
    (h : Keeps s (body s).1) : Keeps s (answer src tag code body s) := by
  unfold answer
  simp only
  split
  · exact offerReply_keeps _ _ _ _ _
  · exact h.trans (offerReply_keeps _ _ _ _ _)

theorem runCommand_goesOn {body : State → State × Reply} (code : Nat) (src tag : Byte)
    (args : List Byte) (s : State) (h : ∀ s1, Keeps s1 (body s1).1) :
    GoesOn s (runCommand code src tag args body s) :=
  whenRunning_goesOn s
    (takeOrBuffer_keeps _ s fun s1 => answer_keeps src tag code s1 (h s1))

theorem execUnknownCommand_goesOn (src : Byte) (payload : List Byte) (s : State) :
    GoesOn s (execUnknownCommand src payload s) := by
  refine whenRunning_goesOn s (takeOrBuffer_keeps _ s fun s1 => ?_)
  unfold answerUnknown
  split
  · exact answer_keeps _ _ _ _ (Keeps.refl s1)
  · exact offerReply_keeps _ _ _ _ _
  · exact offerReply_keeps _ _ _ _ _

theorem takeVerdict_keeps (v : Verdict) (s : State) : Keeps s (takeVerdict v s) := by
  unfold takeVerdict
  split
  · rename_i f
    have counted : Keeps s (countGood s) := Quiet.keeps rfl
    refine counted.trans ?_
    unfold classify
    split
    · exact Quiet.keeps rfl
    · split
      · exact bufferCommand_keeps _ _
      · split
        · exact (sampleArrival_keeps f _).trans (forwardFrame_keeps f _)
        · exact forwardFrame_keeps f _
  · exact (occur_keeps _ _).after (Quiet.keeps rfl)

theorem endReception_keeps (chars : List LineChar) (s : State) : Keeps s (endReception chars s) :=
  Keeps.ite (Keeps.refl s) (takeVerdict_keeps _ s)

/-- A pass timeout that has an end runs, so the session is active. -/
theorem active_of_timeoutLeft {s : State} {n : Nat} (h : s.timeoutLeft = some n)
    (k : s.SessionHoldsRun) : s.session.state.active = true := by
  refine k.2 ?_
  by_contra e
  rw [timeoutLeft_of_stopped (by simpa using e)] at h
  cases h

theorem detectorEdge_keeps (d : Detector) (e : Edge) (stamp : Word32) (s : State) :
    Keeps s (detectorEdge d e stamp s) := by
  have written (x : DetectorState) : Keeps s (s.setDet d x) := by
    cases d <;> exact Quiet.keeps rfl
  have handed (t : State) : Keeps t (passEvent d stamp t) := by
    cases d
    · exact passDet1_keeps stamp t
    · exact passDet2_keeps stamp t
  exact Keeps.ite (Keeps.ite (written _) ((written _).trans (handed _))) (Keeps.refl s)

theorem endDeadTime_keeps (d : Detector) (s : State) : Keeps s (endDeadTime d s) := by
  cases d <;> exact Quiet.keeps rfl

theorem execIntervalExpiry_goesOn (s : State) : GoesOn s (execIntervalExpiry s) := by
  refine whenRunning_goesOn s ?_
  split
  · rename_i n hn
    exact (advanceClock_keeps n s).trans (expiry_keeps _ (by simp [hn]))
  · exact Keeps.refl s

theorem execInput10msCount_goesOn (s : State) : GoesOn s (execInput10msCount s) :=
  whenRunning_goesOn s ((advanceClock_keeps _ s).trans (inputCount_keeps _))

theorem execPulse_goesOn (r : Fin 4) (ch : Channel) (stamp : Word32) (s : State) :
    GoesOn s (execPulse r ch stamp s) :=
  whenRunning_goesOn s ((advanceTo_keeps stamp s).trans (pulseEvent_keeps r ch stamp _))

theorem execDetectorEvent_goesOn (d : Detector) (e : Edge) (stamp : Word32) (s : State) :
    GoesOn s (execDetectorEvent d e stamp s) :=
  whenRunning_goesOn s ((advanceTo_keeps stamp s).trans (detectorEdge_keeps d e stamp _))

theorem execDeadTimeEnd_goesOn (d : Detector) (s : State) : GoesOn s (execDeadTimeEnd d s) := by
  refine whenRunning_goesOn s ?_
  split
  · exact (advanceClock_keeps _ s).trans (endDeadTime_keeps d _)
  · exact Keeps.refl s

theorem execPassTimeout_goesOn (s : State) : GoesOn s (execPassTimeout s) := by
  refine whenRunning_goesOn s ?_
  split
  · rename_i n hn
    exact (advanceClock_keeps n s).trans (spoilPass_keeps .timeout (advanceClock n s) fun k =>
      active_of_timeoutLeft (s := s) hn k)
  · exact Keeps.refl s

theorem execHuntingEnd_goesOn (s : State) : GoesOn s (execHuntingEnd s) :=
  whenRunning_goesOn s (Keeps.ite (Quiet.keeps rfl) (Keeps.refl s))

theorem execFrameReceptionBegin_goesOn (s : State) : GoesOn s (execFrameReceptionBegin s) :=
  whenRunning_goesOn s (Keeps.ite (Quiet.keeps rfl) (Keeps.refl s))

theorem execTransmitterFree_goesOn (s : State) : GoesOn s (execTransmitterFree s) :=
  whenRunning_goesOn s (Keeps.ite ((beginNext_keeps _).after (Quiet.keeps rfl)) (Keeps.refl s))

theorem execFrameSent_goesOn (s : State) : GoesOn s (execFrameSent s) := by
  refine whenRunning_goesOn s ?_
  split
  · exact Quiet.keeps rfl
  · exact Keeps.refl s

theorem execResetOrPowerLoss_goesOn (cause : DownCause) (s : State) :
    GoesOn s (execResetOrPowerLoss cause s) := by
  have area : Keeps s (areaAtPowerDown cause s) := Keeps.ite (Quiet.keeps rfl) (Keeps.refl s)
  exact ⟨_, rfl, area.trans (Quiet.keeps rfl)⟩

/-- Every owning rule keeps every invariant. -/
theorem handling_keeps (i : Instr) (s : State) : Keeps s (handling i s).1 := by
  cases i with
  | readLoopCounts src tag args => exact withLength_keeps (Keeps.refl s)
  | clearLoopCounts src tag args => exact withLength_keeps (Quiet.keeps rfl)
  | loadStation src tag args => exact loadStation_keeps args s
  | readStation src tag args => exact withLength_keeps (Keeps.refl s)
  | startMetering src tag args => exact startMetering_keeps args s
  | stopMetering src tag args => exact stopMetering_keeps args s
  | restart src tag args => exact restart_keeps args s
  | loadBinding src tag args => exact loadBinding_keeps args s
  | readInput src tag args => exact readInput_keeps args s
  | loadRun src tag args => exact loadRun_keeps args s
  | openRun src tag args => exact openRun_keeps args s
  | closeRun src tag args => exact closeRun_keeps args s
  | selectChannel src tag args => exact selectChannel_keeps args s
  | readRun src tag args => exact readRun_keeps args s
  | readPulses src tag args => exact readPulses_keeps args s
  | loadPoints src tag args => exact loadPoints_keeps args s
  | commitCurve src tag args => exact commitCurve_keeps args s
  | commitProduct src tag args => exact commitProduct_keeps args s
  | readCurve src tag args => exact readCurve_keeps args s
  | readProduct src tag args => exact readProduct_keeps args s
  | queueBatch src tag args => exact queueBatch_keeps args s
  | cancelBatch src tag args => exact cancelBatch_keeps args s
  | endBatch src tag args => exact endBatch_keeps args s
  | readBatches src tag args => exact readBatches_keeps args s
  | readTicket src tag args => exact readTicket_keeps args s
  | takeTicket src tag args => exact takeTicket_keeps args s
  | loadProver src tag args => exact loadProver_keeps args s
  | proveStart src tag args => exact proveStart_keeps args s
  | proveHold src tag args => exact proveHold_keeps args s
  | proveRelease src tag args => exact proveRelease_keeps args s
  | proveAbort src tag args => exact proveAbort_keeps args s
  | acceptProve src tag args => exact acceptProve_keeps args s
  | readProve src tag args => exact readProve_keeps args s
  | loadLevels src tag args => exact loadLevels_keeps args s
  | setLevelGate src tag args => exact setLevelGate_keeps args s
  | clearCondition src tag args => exact clearCondition_keeps args s
  | readConditions src tag args => exact readConditions_keeps args s
  | _ => exact Keeps.refl s

/-- Every event but HARD_START goes on and keeps every invariant. -/
theorem exec_event_goesOn {i : Instr} (hp : i.parts = none) (s : State)
    (h : ∀ c x, i ≠ .hardStart c x) : GoesOn s (exec i s) := by
  cases i with
  | unknownCommand src payload => exact execUnknownCommand_goesOn src payload s
  | intervalExpiry => exact execIntervalExpiry_goesOn s
  | input10msCount => exact execInput10msCount_goesOn s
  | pulse run ch stamp => exact execPulse_goesOn run ch stamp s
  | detectorEvent det edge stamp => exact execDetectorEvent_goesOn det edge stamp s
  | deadTimeEnd det => exact execDeadTimeEnd_goesOn det s
  | passTimeout => exact execPassTimeout_goesOn s
  | goodFrameArrival chars => exact whenRunning_goesOn (f := endReception chars) s (endReception_keeps chars s)
  | receiveError chars => exact whenRunning_goesOn (f := endReception chars) s (endReception_keeps chars s)
  | huntingEnd => exact execHuntingEnd_goesOn s
  | frameReceptionBegin => exact execFrameReceptionBegin_goesOn s
  | transmitterFree => exact execTransmitterFree_goesOn s
  | frameSent => exact execFrameSent_goesOn s
  | hardStart cause straps => exact absurd rfl (h cause straps)
  | resetOrPowerLoss cause => exact execResetOrPowerLoss_goesOn cause s
  | backupSupplyLoss => exact ⟨_, rfl, Quiet.keeps rfl⟩
  | _ => cases hp

/-- Every row but HARD_START goes on and keeps every invariant. -/
theorem exec_goesOn (i : Instr) (s : State) (h : ∀ c x, i ≠ .hardStart c x) : GoesOn s (exec i s) := by
  cases hp : i.parts with
  | none => exact exec_event_goesOn hp s h
  | some p =>
    rw [exec_eq_runCommand hp]
    exact runCommand_goesOn _ _ _ _ s (handling_keeps i)

/-- R171: no COMMAND frame spells a hard start. -/
theorem decodeCommand_ne_hardStart (src : Byte) (payload : List Byte) (c : StartCause) (x : Straps) :
    decodeCommand src payload ≠ .hardStart c x := by
  unfold decodeCommand
  split
  · unfold commandOfCode
    split <;> exact fun e => nomatch e
  · exact fun e => nomatch e

theorem takeDue_keeps (s : State) : Keeps s (takeDue s) := by
  have deadTime (d : Detector) (t : State) : Keeps t (dueDeadTime d t) :=
    Keeps.ite (endDeadTime_keeps d t) (Keeps.refl t)
  have timeout (t : State) : Keeps t (dueTimeout t) := by
    unfold dueTimeout
    split
    · rename_i h
      exact spoilPass_keeps _ t fun k => active_of_timeoutLeft h k
    · exact Keeps.refl t
  have expired (t : State) : Keeps t (dueExpiry t) := by
    unfold dueExpiry
    split
    · rename_i h
      exact expiry_keeps t (by simp [h])
    · exact Keeps.refl t
  exact ((((deadTime .det1 s).trans (deadTime .det2 _)).trans (timeout _)).trans
    (Keeps.ite (inputCount_keeps _) (Keeps.refl _))).trans (expired _)

theorem idle_goesOn (s : State) : GoesOn s (idle s) := by
  unfold idle
  split
  · exact exec_goesOn _ s (decodeCommand_ne_hardStart _ _)
  · exact whenRunning_goesOn s
      (((takeDue_keeps s).trans (advanceClock_keeps 1 _)).trans (takeDue_keeps _))

/-- What a step can do: the invariants are those of the state before, with the retained area that a hard
start at the front of the queue finds in place of a lost one. -/
theorem step_keeps {s t : State} (h : step s = .next t) :
    ∃ (q : List Instr) (area : Retained), Keeps { s with pending := q, retained := area } t
      ∧ (area = s.retained
        ∨ ∃ c x, s.pending = .hardStart c x :: q ∧ s.retainedLost = true
          ∧ area = (goodArea s).getD {}) := by
  unfold step at h
  split at h
  · obtain ⟨u, hu, hk⟩ := idle_goesOn s
    obtain rfl := Host.Outcome.next.inj (hu.symm.trans h)
    exact ⟨s.pending, s.retained, hk, .inl rfl⟩
  · rename_i i rest hp
    by_cases hi : ∃ c x, i = .hardStart c x
    · obtain ⟨c, x, rfl⟩ := hi
      rcases execHardStart_cases c x { s with pending := rest } with ⟨_, hx⟩ | ⟨_, hx⟩
      · obtain rfl := Host.Outcome.next.inj (hx.symm.trans h)
        refine ⟨rest, (goodArea s).getD {}, hardStart_keeps x { s with pending := rest }, ?_⟩
        rcases goodArea_cases s with ⟨_, hg⟩ | ⟨hl, _⟩ | ⟨hl, _⟩
        · exact .inl (by rw [hg]; rfl)
        · exact .inr ⟨c, x, hp, hl, rfl⟩
        · exact .inr ⟨c, x, hp, hl, rfl⟩
      · obtain rfl := Host.Outcome.next.inj (hx.symm.trans h)
        exact ⟨rest, s.retained, Quiet.keeps rfl, .inl rfl⟩
    · obtain ⟨u, hu, hk⟩ := exec_goesOn i { s with pending := rest } (by simpa using hi)
      obtain rfl := Host.Outcome.next.inj (hu.symm.trans h)
      exact ⟨rest, s.retained, hk, .inl rfl⟩

/-- With no lost area that passes by chance, a hard start at the front finds the area whole or empties it. -/
theorem step_keeps_of_noLostAreaPasses {s t : State} (hn : s.NoLostAreaPasses) (h : step s = .next t) :
    ∃ (q : List Instr) (area : Retained), Keeps { s with pending := q, retained := area } t
      ∧ (area = s.retained
        ∨ area = {} ∧ ∃ c x, s.pending = .hardStart c x :: q ∧ s.retainedLost = true) := by
  obtain ⟨q, area, hk, ha⟩ := step_keeps h
  refine ⟨q, area, hk, ha.imp id fun ⟨c, x, hp, hl, e⟩ => ⟨?_, c, x, hp, hl⟩⟩
  rcases goodArea_cases s with ⟨hw, _⟩ | ⟨_, hpass, _⟩ | ⟨_, _, hg⟩
  · rw [hl] at hw
    cases hw
  · exact absurd hpass (hn c x q hp hl)
  · rw [e, hg]
    rfl

/-! ### The statements -/

/-- Settles O4: HARD_START goes on by `execHardStart_cases`, every other row by `exec_goesOn`. -/
theorem everyCommandGoesOnAndKeepsTheQueue : Obligations.EveryCommandGoesOnAndKeepsTheQueue := by
  intro i s
  by_cases hi : ∃ c x, i = .hardStart c x
  · obtain ⟨c, x, rfl⟩ := hi
    rcases execHardStart_cases c x s with ⟨_, h⟩ | ⟨_, h⟩
    · exact ⟨_, h, (hardStart_keeps x s).pending⟩
    · exact ⟨_, h, rfl⟩
  · obtain ⟨t, ht, hk⟩ := exec_goesOn i s (by simpa using hi)
    exact ⟨t, ht, hk.pending⟩

/-- Settles O55. -/
theorem stepsKeepTheLoopBuffersInSize : Obligations.StepsKeepTheLoopBuffersInSize := by
  intro s t hs h
  obtain ⟨q, area, hk, _⟩ := step_keeps h
  exact hk.buffers hs

/-- Settles O56: an emptied area has an empty queue and no ticket. -/
theorem stepsKeepTheBatchQueueInShape : Obligations.StepsKeepTheBatchQueueInShape := by
  refine ⟨fun s t hn hf hs h => ?_, fun s t hn hi h => ?_⟩
  · obtain ⟨q, area, hk, rfl | ⟨rfl, _⟩⟩ := step_keeps_of_noLostAreaPasses hn h
    · exact hk.shape hf hs
    · exact hk.shape ⟨by simp, by simp⟩ rfl
  · obtain ⟨q, area, hk, rfl | ⟨rfl, _⟩⟩ := step_keeps_of_noLostAreaPasses hn h
    · exact hk.ids hi
    · exact hk.ids List.nodup_nil

/-- Settles O57. -/
theorem stepsKeepTheConditionAndAgreementMarks : Obligations.StepsKeepTheConditionAndAgreementMarks := by
  refine ⟨fun s t hs h => ?_, fun s t hs h => ?_⟩
  · obtain ⟨q, area, hk, _⟩ := step_keeps h
    exact hk.latched hs
  · obtain ⟨q, area, hk, _⟩ := step_keeps h
    exact hk.flags hs

/-- Settles O58. -/
theorem stepsKeepMeteringAndProvingTogether : Obligations.StepsKeepMeteringAndProvingTogether := by
  intro s t hm hp h
  obtain ⟨q, area, hk, _⟩ := step_keeps h
  exact hk.together hm hp

theorem RunRetained.empty_residuesFit : ({} : RunRetained).ResiduesFit :=
  ⟨by decide, by decide, by decide, fun _ h => (nomatch h), fun _ => rfl⟩

theorem emptyArea_residuesFit (s : State) (q : List Instr) :
    ({ s with pending := q, retained := {} } : State).ResiduesFit := by
  intro r
  simpa using RunRetained.empty_residuesFit

theorem emptyArea_totalsFit (s : State) (q : List Instr) :
    ({ s with pending := q, retained := {} } : State).TotalsFit := by
  intro r
  simp [Totals.Fit]

/-- Settles O59: an emptied area has zero totals, and only a hard start over a lost area empties it. -/
theorem cumulativeTotalsNeverDecrease : Obligations.CumulativeTotalsNeverDecrease := by
  refine ⟨fun s t hn hf h => ?_, fun s t hn hr h => ?_⟩
  · obtain ⟨q, area, hk, rfl | ⟨rfl, c, x, hp, hl⟩⟩ := step_keeps_of_noLostAreaPasses hn h
    · exact ⟨(hk.totals hf).1, fun _ => (hk.totals hf).2⟩
    · refine ⟨(hk.totals (emptyArea_totalsFit s q)).1, fun hlost => ?_⟩
      rw [hlost c x q hp] at hl
      cases hl
  · obtain ⟨q, area, hk, rfl | ⟨rfl, _⟩⟩ := step_keeps_of_noLostAreaPasses hn h
    · exact hk.residues hr
    · exact hk.residues (emptyArea_residuesFit s q)

end Sys2Proof.Machine
end

