-- ==== Sys2Proof/Proofs/Decoder.lean ====
section
/-! PROOFS. The Command Decoder: the frames of the rows (O3), the answer to a command (O5 to O7) and the loop
counts (O9). -/

namespace Sys2Proof.Machine

/-! ### Frames and rows (R170, R171) -/

/-- R171: the code of a row of the command table spells that row. -/
theorem commandOfCode_of_parts {i : Instr} {src tag : Byte} {code : Nat} {args : List Byte}
    (h : i.parts = some (src, tag, code, args)) : commandOfCode src tag code args = some i := by
  cases i with
  | _ => cases h <;> rfl

/-- The row that a code spells has that code and those arguments. -/
theorem parts_of_commandOfCode {i : Instr} {src tag : Byte} {code : Nat} {args : List Byte}
    (h : commandOfCode src tag code args = some i) : i.parts = some (src, tag, code, args) := by
  unfold commandOfCode at h
  split at h <;> cases h <;> rfl

/-- Whether a code is in the command table does not depend on the source and the tag. -/
theorem commandOfCode_isNone (src tag src1 tag1 : Byte) (code : Nat) (args : List Byte) :
    (commandOfCode src tag code args).isNone = (commandOfCode src1 tag1 code args).isNone := by
  unfold commandOfCode
  split <;> rfl

/-- The codes of the command table fit a byte. -/
theorem code_lt_of_parts {i : Instr} {src tag : Byte} {code : Nat} {args : List Byte}
    (h : i.parts = some (src, tag, code, args)) : code < 256 := by
  cases i with
  | _ => cases h <;> decide

/-- A row that is no command of the table is carried by a frame only if it is UNKNOWN_COMMAND. -/
theorem frame_of_parts_none {i : Instr} {f : CommandFrame} (hp : i.parts = none)
    (h : i.frame = some f) : i = .unknownCommand f.source f.payload := by
  cases i with
  | unknownCommand src payload => cases h; rfl
  | _ => cases hp <;> cases h

theorem frame_of_parts {i : Instr} {src tag : Byte} {code : Nat} {args : List Byte}
    (h : i.parts = some (src, tag, code, args)) :
    i.frame = some (frameOf src tag code args) := by
  cases i with
  | _ => cases h <;> rfl

theorem wellFormed_of_parts {i : Instr} {src tag : Byte} {code : Nat} {args : List Byte}
    (h : i.parts = some (src, tag, code, args)) : i.wellFormed = argsFit args := by
  cases i with
  | _ => cases h <;> rfl

theorem decodeCommand_of_unknown {src : Byte} {payload : List Byte} (h : unknownPayload payload = true) :
    decodeCommand src payload = .unknownCommand src payload := by
  unfold decodeCommand
  split
  · rename_i tag code args
    have none : (commandOfCode src tag code.toNat args).isNone = true := by
      rw [commandOfCode_isNone src tag 0 tag]
      exact h
    rw [Option.isNone_iff_eq_none.mp none]
    rfl
  · rfl

/-- R171: the frame of a well-formed row spells the row. -/
theorem decodeCommand_frame {i : Instr} {f : CommandFrame} (hw : i.wellFormed = true)
    (h : i.frame = some f) : decodeCommand f.source f.payload = i := by
  cases hp : i.parts with
  | none =>
    obtain rfl := frame_of_parts_none hp h
    simp only [Instr.wellFormed, Bool.and_eq_true] at hw
    exact decodeCommand_of_unknown hw.2
  | some p =>
    obtain ⟨src, tag, code, args⟩ := p
    rw [frame_of_parts hp] at h
    cases h
    have code_eq := byte_toNat (code_lt_of_parts hp)
    simp only [frameOf, commandPayload, decodeCommand, code_eq, commandOfCode_of_parts hp,
      Option.getD_some]

/-- Settles O3: a payload spells the row of its code, or UNKNOWN_COMMAND where there is none. -/
theorem commandFramesSpellTheirRows : Obligations.CommandFramesSpellTheirRows := by
  refine ⟨fun i f hw h => decodeCommand_frame hw h, fun src payload hlen => ?_⟩
  have unknown (hu : unknownPayload payload = true) :
      (decodeCommand src payload).wellFormed = true
        ∧ (decodeCommand src payload).frame = some { source := src, payload } := by
    rw [decodeCommand_of_unknown hu]
    exact ⟨by simp [Instr.wellFormed, payloadFits, hlen, hu], rfl⟩
  match payload with
  | [] => exact unknown rfl
  | [tag] => exact unknown rfl
  | tag :: code :: args =>
    cases hc : commandOfCode src tag code.toNat args with
    | none =>
      refine unknown ?_
      show (commandOfCode 0 tag code.toNat args).isNone = true
      rw [commandOfCode_isNone 0 tag src tag, hc]
      rfl
    | some i =>
      have hp := parts_of_commandOfCode hc
      have decoded : decodeCommand src (tag :: code :: args) = i := by simp [decodeCommand, hc]
      rw [decoded, wellFormed_of_parts hp, frame_of_parts hp]
      refine ⟨?_, ?_⟩
      · simp at hlen
        simp [argsFit]
        omega
      · simp [frameOf, commandPayload]

/-! ### The answer (R170 to R172) -/

/-- A reply with any result but OK leaves the state as it was. -/
def RefusalKeeps (s : State) (x : State × Reply) : Prop := x.2.result ≠ .ok → x.1 = s

@[simp] theorem refuse_refusalKeeps (c : ResultCode) (s : State) : RefusalKeeps s (refuse c s) :=
  fun _ => rfl

@[simp] theorem refuseTable_refusalKeeps (e : TableCause × Nat) (s : State) :
    RefusalKeeps s (refuseTable e s) := fun _ => rfl

@[simp] theorem accept_refusalKeeps (data : List Byte) (s t : State) :
    RefusalKeeps s (accept data t) := fun h => absurd rfl h

@[simp] theorem same_refusalKeeps (s : State) (r : Reply) : RefusalKeeps s (s, r) := fun _ => rfl

theorem withLength_refusalKeeps {n : Nat} {args : List Byte} {body : State → State × Reply} {s : State}
    (h : RefusalKeeps s (body s)) : RefusalKeeps s (withLength n args body s) := by
  unfold withLength
  split
  · exact h
  · exact refuse_refusalKeeps _ s

theorem loadInto_refusalKeeps (t : Target) (cap start : Nat) (points : List TablePoint) (s : State) :
    RefusalKeeps s (loadInto t cap start points s) := by
  unfold loadInto
  split <;> simp

theorem loadPoints_refusalKeeps (args : List Byte) (s : State) : RefusalKeeps s (loadPoints args s) := by
  have target : RefusalKeeps s (loadTarget args s) := by
    unfold loadTarget
    repeat' split
    all_goals simp [loadInto_refusalKeeps]
  unfold loadPoints
  repeat' split
  all_goals simp [target]

theorem commitCurveAt_refusalKeeps (r : Fin 4) (p : Fin 8) (count : Nat) (s : State) :
    RefusalKeeps s (commitCurveAt r p count s) := by
  unfold commitCurveAt
  repeat' split
  all_goals simp

theorem readCurveAt_refusalKeeps (r : Fin 4) (p : Fin 8) (pending : Bool) (part : Nat) (s : State) :
    RefusalKeeps s (readCurveAt r p pending part s) := by
  unfold readCurveAt
  repeat' split
  all_goals simp

theorem readProductAt_refusalKeeps (p : Fin 8) (pending : Bool) (part : Nat) (s : State) :
    RefusalKeeps s (readProductAt p pending part s) := by
  unfold readProductAt
  repeat' split
  all_goals simp

theorem cancelId_refusalKeeps (id : Nat) (s : State) : RefusalKeeps s (cancelId id s) := by
  unfold cancelId
  simp only
  repeat' split
  all_goals simp

theorem acceptOn_refusalKeeps (r : Fin 4) (p : Fin 8) (x : Results) (points : List CurvePoint)
    (cap : Nat) (s : State) : RefusalKeeps s (acceptOn r p x points cap s) := by
  unfold acceptOn
  simp only
  repeat' split
  all_goals simp

theorem clearCondition_refusalKeeps (args : List Byte) (s : State) :
    RefusalKeeps s (clearCondition args s) := by
  unfold clearCondition clearAll
  split
  · simp
  · split
    · simp
    · refine withLength_refusalKeeps ?_
      split <;> simp

theorem readConditions_refusalKeeps (args : List Byte) (s : State) :
    RefusalKeeps s (readConditions args s) := by
  unfold readConditions
  split
  · simp
  · split
    · simp
    · refine withLength_refusalKeeps ?_
      split <;> simp

/-- R171: every owning rule refuses without a change. -/
theorem handling_refusalKeeps (i : Instr) (s : State) : RefusalKeeps s (handling i s) := by
  cases i with
  | loadPoints src tag args => exact loadPoints_refusalKeeps args s
  | clearCondition src tag args => exact clearCondition_refusalKeeps args s
  | readConditions src tag args => exact readConditions_refusalKeeps args s
  | queueBatch src tag args =>
    refine withLength_refusalKeeps ?_
    simp only
    repeat' split
    all_goals simp
  | readBatches src tag args =>
    refine withLength_refusalKeeps ?_
    simp only
    repeat' split
    all_goals simp
  | setLevelGate src tag args =>
    refine withLength_refusalKeeps ?_
    simp only
    split <;> simp
  | restart src tag args =>
    refine withLength_refusalKeeps ?_
    split
    · exact fun h => absurd rfl h
    · simp
  | unknownCommand _ _ | intervalExpiry | input10msCount | pulse _ _ _ | detectorEvent _ _ _ | deadTimeEnd _
  | passTimeout | goodFrameArrival _ | receiveError _ | huntingEnd | transmitterFree | frameSent | hardStart _ _
  | resetOrPowerLoss _ | frameReceptionBegin | backupSupplyLoss => exact refuse_refusalKeeps _ s
  | _ =>
    refine withLength_refusalKeeps ?_
    repeat' split
    all_goals
      simp [commitCurveAt_refusalKeeps, readCurveAt_refusalKeeps, readProductAt_refusalKeeps,
        cancelId_refusalKeeps, acceptOn_refusalKeeps]

/-- R171, R172: the step of a command that the Decoder takes: BUSY while a RESTART is pending, and otherwise
the reply of its owning rule. -/
theorem exec_of_taken {i : Instr} {src tag : Byte} {code : Nat} {args : List Byte} {s s1 : State}
    (hp : i.parts = some (src, tag, code, args)) (hrun : s.power = .running)
    (ht : takeCommand (frameOf src tag code args) s = some s1) :
    exec i s = .next (settle (offerReply src tag code
      (if s.restartPending then refuse .busy s1 else handling i s1).2
      (if s.restartPending then refuse .busy s1 else handling i s1).1)) := by
  have pending : s1.restartPending = s.restartPending := by rw [takeCommand_eq ht]
  unfold frameOf at ht
  rw [exec_eq_runCommand hp]
  simp [runCommand, whenRunning, hrun, ht, answer, pending]

/-- Settles O5: the reply and its state are those of the owning rule. -/
theorem refusedCommandChangesNothing : Obligations.RefusedCommandChangesNothing := by
  intro i src tag code args s s1 hp ⟨hrun, hpend, ht⟩
  refine ⟨(handling i s1).2, (handling i s1).1, ?_, handling_refusalKeeps i s1⟩
  simpa [hpend] using exec_of_taken hp hrun ht

/-- Settles O6. -/
theorem pendingRestartRefusesEveryCommand : Obligations.PendingRestartRefusesEveryCommand := by
  intro i src tag code args s s1 hp hrun hpend ht
  simpa [hpend, refuse] using exec_of_taken hp hrun ht

/-- R175: a command of fixed argument length refuses every other length. -/
theorem handling_of_wrong_length {i : Instr} {src tag : Byte} {code n : Nat} {args : List Byte}
    (hp : i.parts = some (src, tag, code, args)) (hf : fixedLength code = some n)
    (hne : args.length ≠ n) (s : State) : handling i s = refuse .badLength s := by
  cases i with
  | _ =>
    cases hp <;>
    · cases hf <;> exact if_neg hne

/-- The step of a payload that spells no command of the table. -/
theorem execUnknownCommand_taken {src : Byte} {payload : List Byte} {s s1 t : State}
    (h : s.Takes { source := src, payload } s1) (ht : answerUnknown src payload s1 = t)
    (hp : t.restartPending = s1.restartPending) :
    exec (.unknownCommand src payload) s = .next t := by
  obtain ⟨hrun, hpend, htake⟩ := h
  have idle : t.restartPending = false := by rw [hp, takeCommand_eq htake]; exact hpend
  show execUnknownCommand src payload s = .next t
  simp [execUnknownCommand, whenRunning, hrun, htake, ht, idle]

/-- Settles O7. -/
theorem unknownAndWrongLengthCommandsAreRefused :
    Obligations.UnknownAndWrongLengthCommandsAreRefused := by
  refine ⟨fun src tag code args s s1 _ h => ?_, fun src tag s s1 h => ?_, fun src s s1 h => ?_,
    fun i src tag code args n s s1 hp hf hne h => ?_⟩
  · have pending : s1.restartPending = false := by rw [takeCommand_eq h.2.2]; exact h.2.1
    refine execUnknownCommand_taken h ?_ (by simp)
    simp [answerUnknown, answer, pending, refuse]
  · exact execUnknownCommand_taken h rfl (by simp)
  · exact execUnknownCommand_taken h rfl (by simp)
  · rw [exec_eq_runCommand hp]
    exact runCommand_result h (handling_of_wrong_length hp hf hne s1) rfl

/-- Settles O9. -/
theorem loopCountsAreReadAndCleared : Obligations.LoopCountsAreReadAndCleared := by
  intro src tag s s1 counts
  exact ⟨fun h => runCommand_result h rfl rfl, fun h => runCommand_result h rfl rfl⟩

end Sys2Proof.Machine
end

