-- ==== Sys2Proof/Proofs/StepAndSupply.lean ====
section
/-! PROOFS. The step and the idle period (O1, O2), the supplies (O8), and the state after reset (O60). -/

namespace Sys2Proof.Machine

/-! ### The step (O1, O2) -/

/-- Settles O1. -/
theorem stepRunsTheFrontCommand : Obligations.StepRunsTheFrontCommand := by
  intro s c rest h
  unfold step
  rw [h]

theorem step_of_no_pending {s : State} (h : s.pending = []) : step s = idle s := by
  unfold step
  rw [h]

theorem idle_of_no_commands {s : State} (h : s.commands = []) : idle s = whenRunning clockPeriod s := by
  unfold idle
  rw [h]

/-- A part that runs with no RESTART pending ends its step where its event ends. -/
theorem whenRunning_of_runs {f : State → State} {s : State} (h : s.Runs)
    (hf : (f s).restartPending = false) : whenRunning f s = .next (f s) := by
  simp [whenRunning, h.1, hf]

/-- Neither a dead time nor the pass timeout runs. -/
structure State.Untimed (s : State) : Prop where
  det1 : s.det1.deadRunning = false
  det2 : s.det2.deadRunning = false
  timeout : s.session.items.timeoutRunning = false

/-- With no dead time and no timeout, what is due is the 10 ms count and then the expiry. -/
theorem takeDue_of_untimed {s : State} (h : s.Untimed) : takeDue s = dueExpiry (dueInputCount s) := by
  have h1 : dueDeadTime .det1 s = s := by
    simp [dueDeadTime, deadTimeLeft_of_stopped (s := s) (d := .det1) h.det1]
  have h2 : dueDeadTime .det2 s = s := by
    simp [dueDeadTime, deadTimeLeft_of_stopped (s := s) (d := .det2) h.det2]
  have h3 : dueTimeout s = s := by simp [dueTimeout, timeoutLeft_of_stopped h.timeout]
  unfold takeDue
  rw [h1, h2, h3]

theorem dueInputCount_of_later {s : State} (h : s.inputDivider ≠ 0) : dueInputCount s = s :=
  if_neg h

theorem dueInputCount_of_due {s : State} (h : s.inputDivider = 0) : dueInputCount s = inputCount s :=
  if_pos h

theorem dueExpiry_of_later {s : State} (h : s.timer ≠ some 0) : dueExpiry s = s := if_neg h

theorem dueExpiry_of_due {s : State} (h : s.timer = some 0) : dueExpiry s = expiry s := if_pos h

theorem State.Untimed.advance {s : State} (h : s.Untimed) (n : Nat) : (advanceClock n s).Untimed :=
  ⟨h.det1, h.det2, h.timeout⟩

/-! What the 10 ms count leaves unchanged. -/

/-- `t` is `s` after reports to the Condition Unit and changes of live inputs. -/
def InputOnly (s t : State) : Prop :=
  t =
    { s with
      inputDivider := t.inputDivider
      live := t.live
      conds := t.conds
      forward := t.forward
      outbound := t.outbound
      transmitter := t.transmitter
      counters := t.counters }

theorem InputOnly.trans {s t u : State} (h : InputOnly s t) (k : InputOnly t u) : InputOnly s u := by
  unfold InputOnly at *
  rw [k, h]

theorem LoopOnly.inputOnly {s t : State} (h : LoopOnly s t) : InputOnly s t := by
  unfold LoopOnly at h
  unfold InputOnly
  rw [h]

theorem ageSlot_inputOnly (s : State) (b : Fin 16) : InputOnly s (ageSlot s b) := by
  unfold ageSlot
  split
  · exact InputOnly.trans (t := s.setLive b _) rfl (evalInputConds_loopOnly b _).inputOnly
  · rfl

theorem inputCount_inputOnly (s : State) : InputOnly s (inputCount s) := by
  have folded (l : List (Fin 16)) (t : State) : InputOnly t (l.foldl ageSlot t) := by
    induction l generalizing t with
    | nil => rfl
    | cons b l ih => exact (ageSlot_inputOnly t b).trans (ih _)
  exact InputOnly.trans (t := { s with inputDivider := periodsPer10ms }) rfl (folded _ _)

theorem ageSlot_inputDivider (s : State) (b : Fin 16) : (ageSlot s b).inputDivider = s.inputDivider := by
  unfold ageSlot
  split <;> simp

/-- R60: the 10 ms count starts again. -/
theorem inputCount_inputDivider (s : State) : (inputCount s).inputDivider = 100000 := by
  have folded (l : List (Fin 16)) (t : State) : (l.foldl ageSlot t).inputDivider = t.inputDivider := by
    induction l generalizing t with
    | nil => rfl
    | cons b l ih => exact (ih _).trans (ageSlot_inputDivider t b)
  exact folded _ _

section
variable {s t : State} (h : InputOnly s t)
include h

theorem InputOnly.restartPending : t.restartPending = s.restartPending := by rw [h]
theorem InputOnly.timer : t.timer = s.timer := by rw [h]
theorem InputOnly.power : t.power = s.power := by rw [h]
theorem InputOnly.untimed (k : s.Untimed) : t.Untimed := by
  rw [h]
  exact ⟨k.det1, k.det2, k.timeout⟩

end

/-- One period in which nothing is due before or at its end. -/
theorem clockPeriod_of_later {s : State} (hu : s.Untimed) (ht : s.timer ≠ some 0)
    (ht1 : s.timer ≠ some 1) (hi : 1 < s.inputDivider) : clockPeriod s = advanceClock 1 s := by
  have before : takeDue s = s := by
    rw [takeDue_of_untimed hu, dueInputCount_of_later (by omega), dueExpiry_of_later ht]
  have timer : (advanceClock 1 s).timer ≠ some 0 := by
    rw [advanceClock_timer]
    cases e : s.timer with
    | none => simp
    | some n =>
      have : n ≠ 0 := fun k => ht (by rw [e, k])
      have : n ≠ 1 := fun k => ht1 (by rw [e, k])
      simp
      omega
  have input : (advanceClock 1 s).inputDivider ≠ 0 := by
    rw [advanceClock_inputDivider]
    omega
  unfold clockPeriod
  rw [before, takeDue_of_untimed (hu.advance 1), dueInputCount_of_later input, dueExpiry_of_later timer]

/-! What an expiry leaves unchanged. -/

/-- `t` is `s` after changes of the retained area, the timer, the runs, the pulse states, the session and the
loop, in which no pass timeout starts. -/
structure ExpiryOnly (s t : State) : Prop where
  frame :
    t =
      { s with
        retained := t.retained
        timer := t.timer
        runs := t.runs
        pulses := t.pulses
        session := t.session
        conds := t.conds
        forward := t.forward
        outbound := t.outbound
        transmitter := t.transmitter
        counters := t.counters }
  still : s.session.items.timeoutRunning = false → t.session.items.timeoutRunning = false

theorem ExpiryOnly.refl (s : State) : ExpiryOnly s s := ⟨rfl, id⟩

theorem ExpiryOnly.trans {s t u : State} (h : ExpiryOnly s t) (k : ExpiryOnly t u) : ExpiryOnly s u :=
  ⟨by rw [k.frame, h.frame], fun e => k.still (h.still e)⟩

theorem ExpiryOnly.after {s t u : State} (k : ExpiryOnly t u) (h : ExpiryOnly s t) : ExpiryOnly s u :=
  h.trans k

theorem ExpiryOnly.ite {s t u : State} {c : Prop} [Decidable c] (h : ExpiryOnly s t)
    (k : ExpiryOnly s u) : ExpiryOnly s (if c then t else u) := by
  split
  · exact h
  · exact k

theorem ExpiryOnly.foldl {α : Type} {f : State → α → State} (h : ∀ s a, ExpiryOnly s (f s a))
    (l : List α) (s : State) : ExpiryOnly s (l.foldl f s) := by
  induction l generalizing s with
  | nil => exact ExpiryOnly.refl s
  | cons a l ih => exact (h s a).trans (ih _)

theorem LoopOnly.expiryOnly {s t : State} (h : LoopOnly s t) : ExpiryOnly s t :=
  ⟨by unfold LoopOnly at h; rw [h], fun e => by rw [h.session]; exact e⟩

theorem setBatch_expiryOnly (s : State) (b : BatchUnit) : ExpiryOnly s (s.setBatch b) := ⟨rfl, id⟩

theorem setPulse_expiryOnly (s : State) (r : Fin 4) (p : PulseState) : ExpiryOnly s (s.setPulse r p) :=
  ⟨rfl, id⟩

theorem setRun_expiryOnly (s : State) (r : Fin 4) (v : RunVolatile) : ExpiryOnly s (s.setRun r v) :=
  ⟨rfl, id⟩

theorem setSession_expiryOnly (s : State) {x : Session}
    (h : s.session.items.timeoutRunning = false → x.items.timeoutRunning = false) :
    ExpiryOnly s (s.setSession x) := ⟨rfl, h⟩

theorem failSession_expiryOnly (cause : EndCause) (s : State) : ExpiryOnly s (failSession cause s) :=
  ((occur_loopOnly _ _).expiryOnly.after (offerReport_loopOnly _).expiryOnly).after
    (setSession_expiryOnly s fun _ => rfl)

theorem batchReport_expiryOnly (s : State) : ExpiryOnly s (batchReport s) :=
  ExpiryOnly.ite (failSession_expiryOnly _ s) (ExpiryOnly.refl s)

theorem spoilPass_expiryOnly (cause : SpoilCause) (s : State) : ExpiryOnly s (spoilPass cause s) := by
  have occurred : ∀ x : Session, x.items = {} →
      ExpiryOnly s (occur .provePassSpoiled (s.setSession x)) := fun x hx =>
    (occur_loopOnly _ _).expiryOnly.after (setSession_expiryOnly s fun _ => by rw [hx])
  refine ExpiryOnly.ite ((failSession_expiryOnly _ _).after (occurred _ ?_))
    (ExpiryOnly.after (setSession_expiryOnly _ ?_) (occurred _ ?_))
  · rfl
  · exact id
  · rfl

theorem applyChannelChange_expiryOnly (s : State) (r : Fin 4) : ExpiryOnly s (applyChannelChange r s) := by
  unfold applyChannelChange
  simp only
  split
  · exact ExpiryOnly.refl s
  · exact (setPulse_expiryOnly s r _).trans
      (ExpiryOnly.ite (spoilPass_expiryOnly _ _) (ExpiryOnly.refl _))

theorem checkTarget_expiryOnly (s : State) : ExpiryOnly s (checkTarget s) := by
  have occurred (b : BatchUnit) := (setBatch_expiryOnly s b).trans
    (occur_loopOnly .targetReached _).expiryOnly
  exact ExpiryOnly.ite
    (ExpiryOnly.ite
      (((evalBatchConds_loopOnly _).expiryOnly.after (setBatch_expiryOnly _ _)).after (occurred _))
      (occurred _))
    (ExpiryOnly.refl s)

theorem accumulate_expiryOnly (rec : IntervalRecord) (d : Nat) (s : State) :
    ExpiryOnly s (accumulate rec d s) :=
  ExpiryOnly.ite ((checkTarget_expiryOnly _).after (setBatch_expiryOnly s _)) (setBatch_expiryOnly s _)

theorem expireRun_expiryOnly (s : State) (r : Fin 4) : ExpiryOnly s (expireRun s r) := by
  have computed (closing : Bool) : ExpiryOnly s (computeIfLoaded r closing s) := by
    unfold computeIfLoaded
    split
    · exact (((offerResult_loopOnly _ _ _).expiryOnly.after (accumulate_expiryOnly _ _ _)).after
        (evalFlowConds_loopOnly _ _ _ _ _).expiryOnly).after ⟨rfl, id⟩
    · exact ExpiryOnly.refl s
  unfold expireRun
  split
  · exact ExpiryOnly.refl s
  · exact ⟨rfl, id⟩
  · exact computed _
  · exact (computed _).trans ((quietFlowConds_loopOnly _ _).expiryOnly.after ⟨rfl, id⟩)

theorem openHead_expiryOnly (w : Word32) (s : State) : ExpiryOnly s (openHead w s) := by
  unfold openHead
  simp only
  split
  · exact ExpiryOnly.refl s
  · exact setBatch_expiryOnly s _

theorem productFollows_expiryOnly (s : State) : ExpiryOnly s (productFollows s) := by
  unfold productFollows
  simp only
  split
  · exact ExpiryOnly.refl s
  · exact setBatch_expiryOnly s _

theorem closeHead_expiryOnly (atExpiry : Bool) (s : State) : ExpiryOnly s (closeHead atExpiry s) := by
  unfold closeHead
  split
  · exact ExpiryOnly.refl s
  · rename_i h rest hq
    have dropped := (offerTicket_loopOnly (formTicket s h) s).expiryOnly.trans
      (setBatch_expiryOnly _ ((offerTicket (formTicket s h) s).retained.batch.dropHead (formTicket s h)))
    cases atExpiry with
    | false =>
      exact (dropped.trans (productFollows_expiryOnly _)).trans (evalBatchConds_loopOnly _).expiryOnly
    | true =>
      exact ((dropped.trans (openHead_expiryOnly _ _)).trans
        (evalBatchConds_loopOnly _).expiryOnly).trans (batchReport_expiryOnly _)

theorem batchExpiry_expiryOnly (s : State) : ExpiryOnly s (batchExpiry s) :=
  ExpiryOnly.ite (closeHead_expiryOnly _ s)
    (ExpiryOnly.ite ((batchReport_expiryOnly _).after (openHead_expiryOnly _ s)) (ExpiryOnly.refl s))

theorem expiry_expiryOnly (s : State) : ExpiryOnly s (expiry s) := by
  have next : ExpiryOnly s (nextInterval s) := ⟨rfl, id⟩
  have promoted (t : State) : ExpiryOnly t (promoteAll t) := ⟨rfl, id⟩
  unfold expiry forRuns
  exact (((next.trans (ExpiryOnly.foldl applyChannelChange_expiryOnly _ _)).trans
    (ExpiryOnly.foldl expireRun_expiryOnly _ _)).trans
      (ExpiryOnly.foldl (fun s r => (evalPulseConds_loopOnly r s).expiryOnly) _ _)).trans
        ((promoted _).trans (batchExpiry_expiryOnly _))

section
variable {s t : State} (h : ExpiryOnly s t)
include h

theorem ExpiryOnly.restartPending : t.restartPending = s.restartPending := by rw [h.frame]
theorem ExpiryOnly.power : t.power = s.power := by rw [h.frame]
theorem ExpiryOnly.inputDivider : t.inputDivider = s.inputDivider := by rw [h.frame]
theorem ExpiryOnly.untimed (k : s.Untimed) : t.Untimed :=
  ⟨by rw [h.frame]; exact k.det1, by rw [h.frame]; exact k.det2, h.still k.timeout⟩

end

/-! O2 in its parts. -/

/-- No period passes. -/
theorem advanceClock_zero (s : State) : advanceClock 0 s = s := by
  cases s
  simp [advanceClock]

theorem exec_input10msCount {s : State} (h : s.Runs) :
    exec .input10msCount s = .next (inputCount (advanceClock s.inputDivider s)) := by
  refine whenRunning_of_runs (f := fun s => inputCount (advanceClock s.inputDivider s)) h ?_
  rw [(inputCount_inputOnly _).restartPending]
  exact h.2

theorem exec_intervalExpiry {s : State} {n : Nat} (h : s.Runs) (ht : s.timer = some n) :
    exec .intervalExpiry s = .next (expiry (advanceClock n s)) := by
  show execIntervalExpiry s = _
  unfold execIntervalExpiry
  rw [whenRunning_of_runs h]
  · simp only [ht]
  · simp only [ht]
    rw [(expiry_expiryOnly _).restartPending]
    exact h.2

section
variable {s : State} (hp : s.pending = []) (hc : s.commands = []) (hr : s.Runs) (hu : s.Untimed)
include hp hc hr

/-- With nothing waiting, the step is the period. -/
theorem step_period {t : State} (h : clockPeriod s = t) (ht : t.restartPending = false) :
    step s = .next t := by
  rw [step_of_no_pending hp, idle_of_no_commands hc, whenRunning_of_runs hr (by rw [h]; exact ht), h]

/-- What is still due before the period, and leaves nothing due, comes first. -/
theorem step_after_due {t : State} (hd : takeDue s = t) (hut : t.Untimed)
    (hpt : t.restartPending = false) (ht : ∀ n, t.timer = some n → 1 < n) (hi : 1 < t.inputDivider) :
    step s = .next (advanceClock 1 t) := by
  refine step_period hp hc hr ?_ hpt
  have later : clockPeriod t = advanceClock 1 t :=
    clockPeriod_of_later hut (fun e => absurd (ht 0 e) (by decide)) (fun e => absurd (ht 1 e) (by decide)) hi
  have again : takeDue t = t := by
    rw [takeDue_of_untimed hut, dueInputCount_of_later (by omega),
      dueExpiry_of_later fun e => absurd (ht 0 e) (by decide)]
  unfold clockPeriod at later ⊢
  rw [again] at later
  rw [hd, later]

include hu

/-- An input count that falls due at the end of the period is the row of the 10 ms count. -/
theorem step_inputCount_due (ht : ∀ n, s.timer = some n → 1 < n) (hi : s.inputDivider = 1) :
    step s = exec .input10msCount s := by
  have ht0 : s.timer ≠ some 0 := fun e => absurd (ht 0 e) (by decide)
  have before : takeDue s = s := by
    rw [takeDue_of_untimed hu, dueInputCount_of_later (by omega), dueExpiry_of_later ht0]
  have timer : (inputCount (advanceClock 1 s)).timer ≠ some 0 := by
    rw [(inputCount_inputOnly _).timer, advanceClock_timer]
    cases e : s.timer with
    | none => simp
    | some n =>
      have := ht n e
      simp
      omega
  rw [exec_input10msCount hr, hi]
  refine step_period hp hc hr ?_ ?_
  · unfold clockPeriod
    rw [before, takeDue_of_untimed (hu.advance 1), dueInputCount_of_due (by simp [hi]),
      dueExpiry_of_later timer]
  · rw [(inputCount_inputOnly _).restartPending]
    exact hr.2

/-- An expiry that falls due at the end of the period is its row. -/
theorem step_expiry_due (ht : s.timer = some 1) (hi : 1 < s.inputDivider) :
    step s = exec .intervalExpiry s := by
  have before : takeDue s = s := by
    rw [takeDue_of_untimed hu, dueInputCount_of_later (by omega), dueExpiry_of_later (by simp [ht])]
  have input : (advanceClock 1 s).inputDivider ≠ 0 := by
    rw [advanceClock_inputDivider]
    omega
  rw [exec_intervalExpiry hr ht]
  refine step_period hp hc hr ?_ ?_
  · unfold clockPeriod
    rw [before, takeDue_of_untimed (hu.advance 1), dueInputCount_of_later input,
      dueExpiry_of_due (by simp [ht])]
  · rw [(expiry_expiryOnly _).restartPending]
    exact hr.2

end

/-- Settles O2: the Decoder takes the oldest frame, or one period passes with what is due before it and at its
end. -/
theorem emptyQueueTakesABufferedCommandOrOnePeriod :
    Obligations.EmptyQueueTakesABufferedCommandOrOnePeriod := by
  refine ⟨fun s i f rest hp hc hw hf => ?_, fun s hp hc hr h1 h2 h3 => ?_, fun s hp hc hr => ?_⟩
  · rw [step_of_no_pending hp]
    unfold idle
    rw [hc]
    simp only
    rw [decodeCommand_frame hw hf]
  · have hu : s.Untimed := ⟨h1, h2, h3⟩
    refine ⟨fun hl hi => ?_, fun hl hi => step_inputCount_due hp hc hr hu hl hi, fun t hl hi hx => ?_,
      fun ht hi => step_expiry_due hp hc hr hu ht hi, fun t ht hi hx hl => ?_⟩
    · have ht0 : s.timer ≠ some 0 := fun e => absurd (hl 0 e) (by decide)
      have ht1 : s.timer ≠ some 1 := fun e => absurd (hl 1 e) (by decide)
      exact step_period hp hc hr (clockPeriod_of_later hu ht0 ht1 hi) hr.2
    · rw [exec_input10msCount hr, hi, advanceClock_zero] at hx
      obtain rfl := Host.Outcome.next.inj hx
      have only := inputCount_inputOnly s
      have later : ∀ n, (inputCount s).timer = some n → 1 < n := by rwa [only.timer]
      refine step_after_due hp hc hr ?_ (only.untimed hu) (only.restartPending.trans hr.2) later
        (by rw [inputCount_inputDivider]; decide)
      rw [takeDue_of_untimed hu, dueInputCount_of_due hi,
        dueExpiry_of_later fun e => absurd (later 0 e) (by decide)]
    · rw [exec_intervalExpiry hr ht, advanceClock_zero] at hx
      obtain rfl := Host.Outcome.next.inj hx
      have only := expiry_expiryOnly s
      refine step_after_due hp hc hr ?_ (only.untimed hu) (only.restartPending.trans hr.2) hl
        (by rwa [only.inputDivider])
      rw [takeDue_of_untimed hu, dueInputCount_of_later (by omega), dueExpiry_of_due ht]
  · rw [step_of_no_pending hp, idle_of_no_commands hc]
    exact if_neg hr

/-! ### The supplies (O8) -/

/-- R183: an inactive part handles no row but the supply events. -/
theorem exec_of_inactive {i : Instr} {s : State} (hr : s.power ≠ .running)
    (hs : ∀ c x, i ≠ .hardStart c x) (hd : ∀ c, i ≠ .resetOrPowerLoss c)
    (hb : i ≠ .backupSupplyLoss) : exec i s = .next s := by
  have still (f : State → State) : whenRunning f s = .next s := if_neg hr
  cases hp : i.parts with
  | some p =>
    rw [exec_eq_runCommand hp]
    exact still _
  | none =>
    cases i with
    | hardStart c x => exact absurd rfl (hs c x)
    | resetOrPowerLoss c => exact absurd rfl (hd c)
    | backupSupplyLoss => exact absurd rfl hb
    | _ =>
      cases hp <;>
      · simp only [exec, execUnknownCommand, execIntervalExpiry, execInput10msCount, execPulse,
          execDetectorEvent, execDeadTimeEnd, execPassTimeout, execGoodFrameArrival, execReceiveError,
          execHuntingEnd, execTransmitterFree, execFrameSent, execFrameReceptionBegin, still]

/-- Settles O8. -/
theorem inactivePartHandlesNothing : Obligations.InactivePartHandlesNothing := by
  refine ⟨fun i s hr hs hd hb => exec_of_inactive hr hs hd hb, fun s => ?_⟩
  intro absent low without
  have absent_iff : absent ↔ s.power.hasVdd = false := by
    show (s.power = .noVdd ∨ s.power = .noVddInReset) ↔ _
    cases s.power <;> decide
  have without_eq : without = s.power.loseVdd := by
    show (if s.power = .heldInReset ∨ s.power = .noVddInReset then _ else _) = _
    cases s.power <;> rfl
  refine ⟨fun h => ?_, fun ha hb => ?_, ?_, fun ha => ?_, fun ha => ?_, fun straps => ⟨fun hl => ?_, fun ha => ?_⟩⟩
  · have kept : areaAtPowerDown .vddLost s = s := by
      refine if_neg fun ⟨_, hv, hb⟩ => ?_
      rcases h with h | h
      · rw [absent_iff.mp h] at hv
        cases hv
      · rw [h] at hb
        cases hb
    show Host.Outcome.next (powerDown .vddLost (areaAtPowerDown .vddLost s)) = _
    rw [kept, without_eq]
    rfl
  · have lost : areaAtPowerDown .vddLost s = loseBothSupplies s :=
      if_pos ⟨rfl, by simpa using fun e => ha (absent_iff.mpr e), hb⟩
    refine ⟨Config.backupReturned s.openCount, ?_⟩
    show Host.Outcome.next (powerDown .vddLost (areaAtPowerDown .vddLost s)) = _
    rw [lost, without_eq]
    rfl
  · have kept : areaAtPowerDown .resetLow s = s := if_neg fun h => nomatch h.1
    have fallen : s.power.resetFalls = if absent then .noVddInReset else .heldInReset := by
      show _ = if s.power = .noVdd ∨ s.power = .noVddInReset then _ else _
      cases s.power <;> rfl
    show Host.Outcome.next (powerDown .resetLow (areaAtPowerDown .resetLow s)) = _
    rw [kept, ← fallen]
    rfl
  · show Host.Outcome.next { s with backupLost := true, retainedLost := _ } = _
    rw [absent_iff.mp ha]
    simp
  · have present : s.power.hasVdd = true := by simpa using fun e => ha (absent_iff.mpr e)
    show Host.Outcome.next { s with backupLost := true, retainedLost := _ } = _
    rw [present]
    simp
  · have risen : s.power.rise .powerUp = .heldInReset := by
      rcases hl with h | h <;> rw [h] <;> rfl
    show execHardStart _ _ s = _
    simp [execHardStart, risen]
  · have risen : s.power.rise .resetRises = .noVdd := by
      rcases ha with h | h <;> rw [h] <;> rfl
    show execHardStart _ _ s = _
    simp [execHardStart, risen]

/-! ### The state after reset (O60) -/

theorem reset_cond (c : CondId) :
    State.reset.cond c
      = if c.index = 2 then Condition.atReset true
        else if c.index = 0 then Condition.atReset false else {} := by
  unfold State.cond State.reset
  simp only [Vector.getElem_set, Vector.getElem_replicate, Fin.getElem_fin]
  have two : (c.index = 2) ↔ 2 = c.index.val := by
    rw [eq_comm, Fin.ext_iff]
    rfl
  have zero : (c.index = 0) ↔ 0 = c.index.val := by
    rw [eq_comm, Fin.ext_iff]
    rfl
  simp only [two, zero]

/-- Settles O60. -/
theorem resetStateIsSound : Obligations.ResetStateIsSound where
  buffers := ⟨by decide, by decide, by decide⟩
  stores := ⟨by decide, by decide⟩
  queue := rfl
  latched c h := by
    rw [reset_cond] at h ⊢
    split
    · rfl
    · split
      · rfl
      · rename_i h2 h0
        rw [if_neg h2, if_neg h0] at h
        cases h
  flags r h := by simp [State.reset] at h
  metering := by
    refine ⟨by decide, fun _ r => ?_⟩
    simp [State.reset]
  session := ⟨nofun, nofun⟩
  totals := emptyArea_totalsFit State.reset []
  ids := List.nodup_nil
  residues := emptyArea_residuesFit State.reset []

end Sys2Proof.Machine
end

