-- ==== Sys2Proof/Proofs/Outbound.lean ====
section
/-! PROOFS. The outbound queue and the transmitter (O14 to O17). -/

namespace Sys2Proof.Machine

/-! ### What a free transmitter begins (R167) -/

theorem beginNext_of_forward {s : State} {f : Frame} {rest : List Frame} (ht : s.transmitter = .free)
    (hf : s.forward = f :: rest) :
    beginNext s = { s with forward := rest, transmitter := .sending (frameBytes f) .forwardBuffer } := by
  unfold beginNext
  rw [ht, hf]

theorem beginNext_of_outbound {s : State} {f : OutFrame} {others : List OutFrame}
    (ht : s.transmitter = .free) (hf : s.forward = []) (ho : highest s.outbound = some (f, others)) :
    beginNext s =
      { s with
        outbound := others
        transmitter := .sending (frameBytes (f.toFrame s.node)) (.outboundQueue f.marked) } := by
  unfold beginNext
  rw [ht, hf]
  simp only
  rw [ho]

theorem beginNext_of_empty {s : State} (hf : s.forward = []) (ho : s.outbound = []) :
    beginNext s = s := by
  unfold beginNext
  split
  · rw [hf]
    simp only
    rw [ho]
    rfl
  · rfl

/-! ### The ranking (R168) -/

theorem outranks_iff {f g : OutFrame} :
    outranks f g = true ↔ g.level < f.level ∨ f.level = g.level ∧ g.source < f.source := by
  simp [outranks]

theorem not_outranks_iff {f g : OutFrame} :
    outranks f g = false ↔ f.level < g.level ∨ f.level = g.level ∧ f.source ≤ g.source := by
  rw [← Bool.not_eq_true, outranks_iff]
  omega

/-- Both ends of the ranking of a queue split it at the frame. -/
theorem highest_split {q others : List OutFrame} {f : OutFrame} (h : highest q = some (f, others)) :
    ∃ older younger, q = older ++ f :: younger ∧ others = older ++ younger
      ∧ (∀ g ∈ older, outranks f g = true) ∧ ∀ g ∈ younger, outranks g f = false := by
  induction q generalizing f others with
  | nil => cases h
  | cons a q ih =>
    unfold highest at h
    split at h
    · rename_i hn
      cases h
      have : q = [] := by
        cases q with
        | nil => rfl
        | cons b q =>
          unfold highest at hn
          repeat' split at hn
          all_goals cases hn
      exact ⟨[], [], by simp [this], rfl, by simp, by simp⟩
    · rename_i g rest hg
      obtain ⟨older, younger, hq, hr, hold, hyoung⟩ := ih hg
      split at h <;> rename_i ho <;> cases h
      · refine ⟨a :: older, younger, by simp [hq], by simp [hr], fun x hx => ?_, hyoung⟩
        rcases List.mem_cons.mp hx with rfl | hx
        · exact ho
        · exact hold x hx
      · refine ⟨[], q, rfl, rfl, by simp, fun x hx => ?_⟩
        rw [Bool.not_eq_true, not_outranks_iff] at ho
        rw [not_outranks_iff]
        rw [hq] at hx
        rcases List.mem_append.mp hx with hx | hx
        · have := outranks_iff.mp (hold x hx)
          omega
        · rcases List.mem_cons.mp hx with rfl | hx
          · exact ho
          · have := not_outranks_iff.mp (hyoung x hx)
            omega

theorem lowest_split {q others : List OutFrame} {f : OutFrame} (h : lowest q = some (f, others)) :
    ∃ older younger, q = older ++ f :: younger ∧ others = older ++ younger
      ∧ (∀ g ∈ older, outranks f g = false) ∧ ∀ g ∈ younger, outranks g f = true := by
  induction q generalizing f others with
  | nil => cases h
  | cons a q ih =>
    unfold lowest at h
    split at h
    · rename_i hn
      cases h
      have : q = [] := by
        cases q with
        | nil => rfl
        | cons b q =>
          unfold lowest at hn
          repeat' split at hn
          all_goals cases hn
      exact ⟨[], [], by simp [this], rfl, by simp, by simp⟩
    · rename_i g rest hg
      obtain ⟨older, younger, hq, hr, hold, hyoung⟩ := ih hg
      split at h <;> rename_i ho <;> cases h
      · refine ⟨[], q, rfl, rfl, by simp, fun x hx => ?_⟩
        rw [outranks_iff] at ho ⊢
        rw [hq] at hx
        rcases List.mem_append.mp hx with hx | hx
        · have := not_outranks_iff.mp (hold x hx)
          omega
        · rcases List.mem_cons.mp hx with rfl | hx
          · exact ho
          · have := outranks_iff.mp (hyoung x hx)
            omega
      · refine ⟨a :: older, younger, by simp [hq], by simp [hr], fun x hx => ?_, hyoung⟩
        rcases List.mem_cons.mp hx with rfl | hx
        · simpa using ho
        · exact hold x hx

theorem highest_isSome {q : List OutFrame} (h : q ≠ []) : (highest q).isSome = true := by
  cases q with
  | nil => contradiction
  | cons a q =>
    unfold highest
    repeat' split
    all_goals rfl

theorem lowest_isSome {q : List OutFrame} (h : q ≠ []) : (lowest q).isSome = true := by
  cases q with
  | nil => contradiction
  | cons a q =>
    unfold lowest
    repeat' split
    all_goals rfl

/-- Settles O15. -/
theorem queueIsRankedByLevelSourceAndAge : Obligations.QueueIsRankedByLevelSourceAndAge :=
  fun _ _ _ => ⟨highest_split, lowest_split, fun h => ⟨highest_isSome h, lowest_isSome h⟩⟩

/-! ### The end of the gap and of a frame (R167, R172) -/

/-- Settles O14. -/
theorem freeTransmitterBeginsTheNextFrame : Obligations.FreeTransmitterBeginsTheNextFrame := by
  intro s hr
  have begun (hg : s.transmitter = .gap) :
      exec .transmitterFree s = .next (beginNext { s with transmitter := .free }) := by
    show execTransmitterFree s = _
    unfold execTransmitterFree
    rw [whenRunning_of_runs hr] <;> simp [hg, hr.2]
  refine ⟨fun f rest hg hf => ?_, fun f others hg hf ho => ?_, fun hg hf ho => ?_, fun hg => ?_⟩
  · rw [begun hg, beginNext_of_forward (s := { s with transmitter := .free }) rfl hf]
  · rw [begun hg, beginNext_of_outbound (s := { s with transmitter := .free }) rfl hf ho]
  · rw [begun hg, beginNext_of_empty (s := { s with transmitter := .free }) hf ho]
  · show execTransmitterFree s = _
    unfold execTransmitterFree
    rw [whenRunning_of_runs hr] <;> simp [hg, hr.2]

/-- R167: the end of a frame in transmission, before the restart that its reply may start. -/
theorem exec_frameSent {s : State} {bytes : List Byte} {origin : SentFrom} (hp : s.power = .running)
    (ht : s.transmitter = .sending bytes origin) :
    exec .frameSent s = .next (settle (frameSentAt origin s)) := by
  show execFrameSent s = _
  simp [execFrameSent, whenRunning, hp, ht]

/-- R172: a pending restart is taken once no marked reply is left. -/
theorem settle_of_gone {s : State} (hp : s.restartPending = true) (hw : s.replyWaiting = false) :
    settle s = softRestart s := by
  simp [settle, hp, hw]

/-- Settles O17. -/
theorem sentFrameIsCountedAndTakesTheRestart : Obligations.SentFrameIsCountedAndTakesTheRestart := by
  intro s bytes marked hp
  refine ⟨fun hr ht => ?_, fun hr ht => ?_, fun hr ht hm => ?_, fun hr ht => ?_⟩
  · rw [exec_frameSent hp ht, settle_of_not_pending (by exact hr)]
    rfl
  · rw [exec_frameSent hp ht, settle_of_not_pending (by exact hr)]
    rfl
  · have gone : (frameSentAt (.outboundQueue true) s).replyWaiting = false := by
      simp [State.replyWaiting, frameSentAt, Transmitter.sendsMarked]
      exact hm
    rw [exec_frameSent hp ht, settle_of_gone (s := frameSentAt (.outboundQueue true) s) hr gone]
    rfl
  · show execFrameSent s = _
    rcases ht with ht | ht <;> simp [execFrameSent, whenRunning, hp, ht, hr]

/-! ### A frame offered (R169) -/

theorem enqueue_of_room {f : OutFrame} {s : State} (h : s.outbound.length < 16) :
    enqueue f s = (beginNext { s with outbound := s.outbound ++ [f] }, none) := if_pos h

/-- Behind a busy transmitter, with room, the frame waits. -/
theorem offer_of_busy {f : OutFrame} {s : State} (ht : s.transmitter ≠ .free)
    (h : s.outbound.length < 16) : offer f s = { s with outbound := s.outbound ++ [f] } := by
  unfold offer
  rw [enqueue_of_room h, beginNext_of_busy (by exact ht)]
  rfl

theorem offer_of_room {f : OutFrame} {s : State} (h : s.outbound.length < 16) :
    offer f s = beginNext { s with outbound := s.outbound ++ [f] } := by
  unfold offer
  rw [enqueue_of_room h]
  rfl

/-- Behind a busy transmitter, in a full queue, one frame is lost: the lowest-ranked one or the one offered. -/
theorem enqueue_of_full {f g : OutFrame} {others : List OutFrame} {s : State}
    (ht : s.transmitter ≠ .free) (hfull : ¬s.outbound.length < 16)
    (hl : lowest s.outbound = some (g, others)) :
    enqueue f s
      = if outranks f g then ({ s with outbound := others ++ [f] }, some g) else (s, some f) := by
  unfold enqueue
  rw [if_neg hfull, hl]
  simp only
  rw [beginNext_of_busy (by exact ht)]

/-- The queue and the frame lost by an offer to a full queue. -/
theorem enqueue_of_displaced {f g lost : OutFrame} {others queue : List OutFrame} {s : State}
    (ht : s.transmitter ≠ .free) (hfull : ¬s.outbound.length < 16)
    (hl : lowest s.outbound = some (g, others))
    (h : outranks f g = true ∧ queue = others ++ [f] ∧ lost = g
      ∨ outranks f g = false ∧ queue = s.outbound ∧ lost = f) :
    enqueue f s = ({ s with outbound := queue }, some lost) := by
  rw [enqueue_of_full ht hfull hl]
  rcases h with ⟨ho, rfl, rfl⟩ | ⟨ho, rfl, rfl⟩ <;> simp [ho]

theorem setCond_now (s : State) (c : CondId) (x : Condition) : (s.setCond c x).now = s.now := rfl

/-- An occurrence after the record has been written. -/
theorem recordOccurrence_setCond (c : CondId) (x : Condition) (s : State) :
    recordOccurrence c (s.setCond c x)
      = s.setCond c
          { x with
            latched := true
            occurrences := count1 cap16 x.occurrences
            first := if x.latched then x.first else some s.now
            last := some s.now } := by
  unfold recordOccurrence
  rw [State.setCond_setCond, State.cond_setCond, setCond_now]

/-- R155: the fate of a notice that is kept back or not sent. -/
theorem noticeFate_of_quiet {s : State} {c : CondId}
    (h : ∀ l, s.retained.levels = some l →
      l[c.kindIndex] = 0 ∨ s.retained.gate.getLsbD l[c.kindIndex] = false) :
    noticeFate s c = if s.retained.withholds c then .withheld else .notSent := by
  unfold noticeFate Retained.withholds
  cases hl : s.retained.levels with
  | none => rfl
  | some l =>
    simp only
    rcases h l hl with h | h
    · simp [h]
    · by_cases h0 : l[c.kindIndex] = 0
      · simp [h0]
      · have kept : (l[c.kindIndex] != 0 && !s.retained.gate.getLsbD l[c.kindIndex]) = true := by
          simp only [h, Bool.not_false, Bool.and_true, bne_iff_ne]
          exact h0
        rw [if_neg h0, if_pos kept, if_neg (by simp only [h]; decide)]

theorem noticeFate_of_open {s : State} {c : CondId} {l : Vector Nat 25} (hl : s.retained.levels = some l)
    (h0 : l[c.kindIndex] ≠ 0) (hg : s.retained.gate.getLsbD l[c.kindIndex] = true) :
    noticeFate s c = .queued l[c.kindIndex] := by
  unfold noticeFate
  rw [hl]
  simp only [if_neg h0, hg, if_true]

/-- A notice that is kept back or not sent: only its withheld mark is written. -/
theorem offerNoticeOnce_of_quiet {s : State} {c : CondId}
    (h : ∀ l, s.retained.levels = some l →
      l[c.kindIndex] = 0 ∨ s.retained.gate.getLsbD l[c.kindIndex] = false) :
    offerNoticeOnce c s
      = (s.setCond c { s.cond c with withheld := s.retained.withholds c }, none) := by
  unfold offerNoticeOnce
  rw [noticeFate_of_quiet h]
  cases s.retained.withholds c <;> rfl

/-- A notice whose level is open is offered to the queue. -/
theorem offerNoticeOnce_of_open {s : State} {c : CondId} {l : Vector Nat 25}
    (hl : s.retained.levels = some l) (h0 : l[c.kindIndex] ≠ 0)
    (hg : s.retained.gate.getLsbD l[c.kindIndex] = true) :
    offerNoticeOnce c s
      = enqueue (noticeFrame c (s.cond c) l[c.kindIndex])
          (s.setCond c { s.cond c with withheld := false }) := by
  unfold offerNoticeOnce
  rw [noticeFate_of_open hl h0 hg]

theorem countDiscard_setCond (k : OutKind) (c : CondId) (x : Condition) (s : State) :
    countDiscard k (s.setCond c x) = (countDiscard k s).setCond c x := rfl

theorem setCond_outbound_eq (c : CondId) (x : Condition) (q : List OutFrame) (s : State) :
    { s.setCond c x with outbound := q } = ({ s with outbound := q } : State).setCond c x := rfl

/-- A lost frame while OUTBOUND_DISCARD is latched. -/
theorem loseFrame_of_latched {g : OutFrame} {s : State} (h : (s.cond .outboundDiscard).latched = true) :
    loseFrame g s = recordOccurrence .outboundDiscard (countDiscard g.kind s) := by
  unfold loseFrame
  simp only [countDiscard_cond, h, if_true]

/-- A lost frame that latches OUTBOUND_DISCARD offers its notice. -/
theorem loseFrame_of_unlatched {g : OutFrame} {s t : State}
    (h : (s.cond .outboundDiscard).latched = false)
    (ho : offerNoticeOnce .outboundDiscard
        (recordOccurrence .outboundDiscard (countDiscard g.kind s)) = (t, none)) :
    loseFrame g s = t := by
  unfold loseFrame
  simp only [countDiscard_cond, h, Bool.false_eq_true, if_false, ho]

/-- A lost frame that latches OUTBOUND_DISCARD, whose notice loses a frame in its turn. -/
theorem loseFrame_twice {g h : OutFrame} {s t : State}
    (hl : (s.cond .outboundDiscard).latched = false)
    (ho : offerNoticeOnce .outboundDiscard
        (recordOccurrence .outboundDiscard (countDiscard g.kind s)) = (t, some h)) :
    loseFrame g s = recordOccurrence .outboundDiscard (countDiscard h.kind t) := by
  unfold loseFrame
  simp only [countDiscard_cond, hl, Bool.false_eq_true, if_false, ho]

/-- The queue that a full one becomes is a full one. -/
theorem length_displaced {f g : OutFrame} {others queue q : List OutFrame}
    (hl : lowest q = some (g, others)) (h : queue = others ++ [f] ∨ queue = q) :
    queue.length = q.length := by
  have := length_lowest hl
  rcases h with rfl | rfl
  · simp; omega
  · rfl

/-- A frame lost by a full queue that latches OUTBOUND_DISCARD, whose notice is offered to that queue. -/
theorem loseFrame_of_open {lost h : OutFrame} {rest : List OutFrame} {l : Vector Nat 25} {s : State}
    (ht : s.transmitter ≠ .free) (hfull : s.outbound.length = 16)
    {once : Condition} (hc : (s.cond .outboundDiscard).latched = false)
    (honce : recordOccurrence .outboundDiscard s = s.setCond .outboundDiscard once)
    (latched : once.latched = true) (hlv : s.retained.levels = some l)
    (h0 : l[CondId.outboundDiscard.kindIndex] ≠ 0)
    (hg : s.retained.gate.getLsbD l[CondId.outboundDiscard.kindIndex] = true)
    (hlow : lowest s.outbound = some (h, rest)) :
    let n := noticeFrame .outboundDiscard once l[CondId.outboundDiscard.kindIndex]
    let s1 := countDiscard lost.kind s
    let twice : Condition :=
      { once with
        latched := true, withheld := false
        occurrences := count1 cap16 once.occurrences
        first := once.first
        last := some s.now }
    loseFrame lost s
      = (if outranks n h then countDiscard h.kind { s1 with outbound := rest ++ [n] }
          else countDiscard .notice s1).setCond .outboundDiscard twice := by
  intro n s1 twice
  have once_after : recordOccurrence .outboundDiscard s1 = s1.setCond .outboundDiscard once :=
    congrArg (countDiscard lost.kind) honce
  have offered : offerNoticeOnce .outboundDiscard (recordOccurrence .outboundDiscard s1)
      = enqueue n (s1.setCond .outboundDiscard { once with withheld := false }) := by
    rw [once_after, offerNoticeOnce_of_open (c := .outboundDiscard) (s := s1.setCond .outboundDiscard once)
      hlv h0 hg, State.cond_setCond, State.setCond_setCond]
  have full := enqueue_of_full (f := n) (s := s1.setCond .outboundDiscard { once with withheld := false })
    ht (by show ¬s.outbound.length < 16; omega) hlow
  by_cases ho : outranks n h = true
  · rw [if_pos ho] at full ⊢
    rw [loseFrame_twice hc (offered.trans full), setCond_outbound_eq, countDiscard_setCond,
      recordOccurrence_setCond]
    simp only [latched, if_true]
    rfl
  · rw [if_neg ho] at full ⊢
    rw [loseFrame_twice hc (offered.trans full), countDiscard_setCond, recordOccurrence_setCond]
    simp only [latched, if_true]
    rfl

/-- Settles O16. -/
theorem fullOutboundQueueDisplacesOrDrops : Obligations.FullOutboundQueueDisplacesOrDrops := by
  refine ⟨fun f s ht hl => offer_of_busy ht hl, fun f s ht hl => ⟨fun hf ho => ?_, fun g others hf hh => ?_,
    fun g rest hf => ?_⟩, fun f g lost others queue s => ?_, fun k s => ?_⟩
  · rw [offer_of_room hl, beginNext_of_outbound (s := { s with outbound := s.outbound ++ [f] }) (f := f) (others := [])
      ht hf (by simp [ho, highest])]
    rfl
  · rw [offer_of_room hl, beginNext_of_outbound (s := { s with outbound := s.outbound ++ [f] }) ht hf hh]
    rfl
  · rw [offer_of_room hl, beginNext_of_forward (s := { s with outbound := s.outbound ++ [f] }) ht hf]
  · intro c up cond s1 ht hfull hl hq
    have entered : offer f s = loseFrame lost { s with outbound := queue } := by
      unfold offer
      rw [enqueue_of_displaced ht (by omega) hl hq]
      rfl
    have hlen : queue.length = 16 := by
      rw [← hfull]
      exact length_displaced hl (hq.imp (·.2.1) (·.2.1))
    have counted : recordOccurrence .outboundDiscard s1
        = s1.setCond .outboundDiscard (cond c.withheld (up c.occurrences)) := rfl
    rw [entered]
    refine ⟨fun hc => loseFrame_of_latched hc, fun hc quiet => ?_, fun l h rest => ?_⟩
    · refine loseFrame_of_unlatched hc ?_
      rw [counted, offerNoticeOnce_of_quiet quiet, State.cond_setCond, State.setCond_setCond]
      rfl
    · intro level n hc hlv h0 hg hlow
      exact loseFrame_of_open (once := cond c.withheld (up c.occurrences))
        (s := { s with outbound := queue }) ht hlen hc (by rfl) rfl hlv h0 hg hlow
  · cases k <;> rfl

end Sys2Proof.Machine
end

