-- ==== Sys2Proof/Proofs/Conditions.lean ====
section
/-! PROOFS. The Condition Unit: what a report or an occurrence does to the record it names and to its notice,
and the commands that release or clear notices (O52 to O54). -/

namespace Sys2Proof.Machine

/-! ### The fate of a notice (R155) -/

@[simp] theorem State.setCond_cond (s : State) (c : CondId) : s.setCond c (s.cond c) = s := by
  have h : s.conds.set c.index s.conds[c.index] = s.conds := Vector.set_getElem_self c.index.isLt
  unfold State.setCond State.cond
  rw [h]

/-- Two condition records are written in either order. -/
theorem State.setCond_comm (s : State) {c e : CondId} (h : c ≠ e) (x y : Condition) :
    (s.setCond c x).setCond e y = (s.setCond e y).setCond c x := by
  have hne : c.index.val ≠ e.index.val := fun k => h (CondId.index_injective (Fin.ext k))
  unfold State.setCond
  simp only [State.mk.injEq, true_and, and_true]
  exact Vector.set_comm _ _ hne

/-- A notice is kept back exactly where the levels and the gate of the area withhold it. -/
theorem noticeFate_withheld (s : State) (c : CondId) :
    decide (noticeFate s c = .withheld) = s.retained.withholds c := by
  unfold noticeFate Retained.withholds
  cases s.retained.levels with
  | none => rfl
  | some l =>
    simp only
    by_cases h0 : l[c.kindIndex] = 0
    · simp [h0]
    · simp only [if_neg h0, bne_iff_ne.mpr h0, Bool.true_and]
      cases s.retained.gate.getLsbD l[c.kindIndex] <;> rfl

/-- R155: the NOTICE frame of a condition of `s` while its level is open. -/
def State.openNotice (s : State) (c : CondId) : Option OutFrame :=
  match s.retained.levels with
  | none => none
  | some l =>
    if l[c.kindIndex] != 0 && s.retained.gate.getLsbD l[c.kindIndex] then
      some (noticeFrame c (s.cond c) l[c.kindIndex])
    else none

theorem openNotice_congr {s t : State} {c : CondId} (hr : t.retained = s.retained)
    (hc : t.cond c = s.cond c) : t.openNotice c = s.openNotice c := by
  unfold State.openNotice
  rw [hr, hc]

section
variable {s : State} {c : CondId} {l : Vector Nat 25}

theorem openNotice_of_none (h : s.retained.levels = none) : s.openNotice c = none := by
  unfold State.openNotice
  rw [h]

theorem openNotice_of_zero (h : s.retained.levels = some l) (h0 : l[c.kindIndex] = 0) :
    s.openNotice c = none := by
  unfold State.openNotice
  rw [h]
  simp only [h0, bne_self_eq_false, Bool.false_and, Bool.false_eq_true, if_false]

theorem openNotice_of_closed (h : s.retained.levels = some l)
    (hg : s.retained.gate.getLsbD l[c.kindIndex] = false) : s.openNotice c = none := by
  unfold State.openNotice
  rw [h]
  simp only [hg, Bool.and_false, Bool.false_eq_true, if_false]

theorem openNotice_of_open (h : s.retained.levels = some l) (h0 : l[c.kindIndex] ≠ 0)
    (hg : s.retained.gate.getLsbD l[c.kindIndex] = true) :
    s.openNotice c = some (noticeFrame c (s.cond c) l[c.kindIndex]) := by
  unfold State.openNotice
  rw [h]
  simp only [hg, bne_iff_ne.mpr h0, Bool.and_self, if_true]

theorem withholds_of_none {r : Retained} (h : r.levels = none) : r.withholds c = true := by
  unfold Retained.withholds
  rw [h]

theorem withholds_of_zero {r : Retained} (h : r.levels = some l) (h0 : l[c.kindIndex] = 0) :
    r.withholds c = false := by
  unfold Retained.withholds
  rw [h]
  simp only [h0, bne_self_eq_false, Bool.false_and]

theorem withholds_of_closed {r : Retained} (h : r.levels = some l) (h0 : l[c.kindIndex] ≠ 0)
    (hg : r.gate.getLsbD l[c.kindIndex] = false) : r.withholds c = true := by
  unfold Retained.withholds
  rw [h]
  simp only [hg, bne_iff_ne.mpr h0, Bool.not_false, Bool.and_self]

theorem withholds_of_open {r : Retained} (h : r.levels = some l)
    (hg : r.gate.getLsbD l[c.kindIndex] = true) : r.withholds c = false := by
  unfold Retained.withholds
  rw [h]
  simp only [hg, Bool.not_true, Bool.and_false]

end

/-- A notice that is not open is withheld or not sent. -/
theorem offerNotice_of_closed {s : State} {c : CondId} (h : s.openNotice c = none) :
    offerNotice c s = s.setCond c { s.cond c with withheld := s.retained.withholds c } := by
  have quiet : ∀ l, s.retained.levels = some l →
      l[c.kindIndex] = 0 ∨ s.retained.gate.getLsbD l[c.kindIndex] = false := by
    intro l hl
    by_contra hno
    obtain ⟨h0, hg⟩ := not_or.mp hno
    rw [openNotice_of_open hl h0 (by simpa only [Bool.not_eq_false] using hg)] at h
    cases h
  unfold offerNotice
  rw [offerNoticeOnce_of_quiet quiet]
  rfl

/-- A notice that is open is offered to the outbound queue, and is not withheld. -/
theorem offerNotice_of_open {s : State} {c : CondId} {f : OutFrame} (h : s.openNotice c = some f) :
    offerNotice c s = offer f (s.setCond c { s.cond c with withheld := false })
      ∧ s.retained.withholds c = false := by
  unfold State.openNotice at h
  split at h
  · cases h
  · next l hl =>
    split at h
    · next ho =>
      cases h
      simp only [Bool.and_eq_true, bne_iff_ne] at ho
      refine ⟨?_, ?_⟩
      · unfold offerNotice
        rw [offerNoticeOnce_of_open hl ho.1 ho.2]
        rfl
      · exact withholds_of_open hl ho.2
    · cases h

/-- Behind a busy transmitter with room, an offered notice only writes its withheld mark and the queue. -/
theorem offerNotice_of_room {s : State} {c : CondId} (ht : s.transmitter ≠ .free)
    (h : s.outbound.length + (s.openNotice c).toList.length ≤ 16) :
    offerNotice c s
      = { s.setCond c { s.cond c with withheld := s.retained.withholds c } with
          outbound := s.outbound ++ (s.openNotice c).toList } := by
  cases ho : s.openNotice c with
  | none =>
    rw [offerNotice_of_closed ho]
    simp [State.setCond]
  | some f =>
    obtain ⟨offered, hw⟩ := offerNotice_of_open ho
    rw [ho] at h
    rw [offered, hw, offer_of_busy (by exact ht) (by simp at h; simp [State.setCond]; omega)]
    rfl

/-! ### Reports and occurrences (R152) -/

/-- R152: a condition of `s` once it has occurred, with its notice as `withheld` says. -/
theorem occur_of_latched {s : State} {c : CondId} (h : (s.cond c).latched = true) :
    occur c s = s.setCond c (s.occurred c) := by
  unfold occur latchAndNotify
  rw [if_pos h]
  unfold recordOccurrence State.occurred Condition.occurred
  simp only [h, if_true]
  rfl

theorem occur_of_unlatched {s : State} {c : CondId} (h : (s.cond c).latched = false) :
    occur c s = offerNotice c (recordOccurrence c s) := by
  unfold occur latchAndNotify
  rw [if_neg (by simp [h])]

theorem recordOccurrence_retained (c : CondId) (s : State) :
    (recordOccurrence c s).retained = s.retained := rfl

/-- R152: the record of an event-type condition once it has occurred. -/
theorem occur_cond_self {c : CondId} (h : c ≠ .outboundDiscard) (s : State) :
    (occur c s).cond c = s.occurred c := by
  cases hl : (s.cond c).latched with
  | true => rw [occur_of_latched hl, State.cond_setCond]
  | false =>
    rw [occur_of_unlatched hl, offerNotice_cond_self h, noticeFate_withheld]
    unfold recordOccurrence State.occurred Condition.occurred
    simp only [State.cond_setCond, hl, Bool.false_eq_true, if_false]
    rfl

theorem reportActive_of_inactive {s : State} {c : CondId} (h : (s.cond c).active = false) :
    report c true s = occur c (s.setCond c { s.cond c with active := true }) := by
  unfold report reportActive occur
  simp [h]

theorem report_of_active {s : State} {c : CondId} (h : (s.cond c).active = true) :
    report c true s = s := by
  unfold report reportActive
  simp [h]

theorem report_false (c : CondId) (s : State) :
    report c false s = s.setCond c { s.cond c with active := false } := by
  unfold report reportInactive
  simp only [Bool.false_eq_true, if_false]
  split
  · rfl
  · next h =>
    simp only [Bool.not_eq_true] at h
    rw [← h, State.setCond_cond]

/-- R152: the record of a condition once it has been evaluated. -/
theorem report_cond_self {c : CondId} (h : c ≠ .outboundDiscard) (b : Bool) (s : State) :
    (report c b s).cond c = s.told c b := by
  cases b with
  | false =>
    rw [report_false, State.cond_setCond]
    simp [State.told, Condition.told]
  | true =>
    cases ha : (s.cond c).active with
    | true =>
      rw [report_of_active ha]
      simp [State.told, Condition.told, ← ha]
    | false =>
      rw [reportActive_of_inactive ha, occur_cond_self h]
      simp only [State.occurred, Condition.occurred, State.told, Condition.told, State.cond_setCond, ha,
        and_self, if_true]
      rfl

/-- A record told again depends on the record, the area and the interval number alone. -/
theorem State.told_congr {s t : State} {c : CondId} (hc : t.cond c = s.cond c)
    (hr : t.retained = s.retained) (b : Bool) : t.told c b = s.told c b := by
  unfold State.told State.now
  rw [hc, hr]

theorem State.occurred_congr {s t : State} {c : CondId} (hc : t.cond c = s.cond c)
    (hr : t.retained = s.retained) : t.occurred c = s.occurred c := by
  unfold State.occurred State.now
  rw [hc, hr]

/-- Settles O52. -/
theorem reportsLatchCountAndDate : Obligations.ReportsLatchCountAndDate := by
  constructor
  · intro c s hc r first withheld
    refine ⟨report_of_active, fun ha => ?_, report_false c s, ?_, fun e he hd => ?_⟩
    · rw [report_cond_self hc]
      simp only [State.told, Condition.told]
      rw [if_pos ⟨trivial, ha⟩]
    · exact occur_cond_self hc s
    · exact ⟨report_cond_ne hd he true s, occur_cond_ne hd he s⟩
  · intro c active s r raised new hact
    have raised_eq : raised = occur c (s.setCond c { r with active := active || r.active }) := by
      cases active with
      | false => exact congrArg (occur c) (State.setCond_cond s c).symm
      | true =>
        simp only [raised, if_true, Bool.true_or]
        exact reportActive_of_inactive (hact rfl)
    have recorded : recordOccurrence c (s.setCond c { r with active := active || r.active })
        = s.setCond c new := recordOccurrence_setCond _ _ _
    have closed (hl : r.latched = false) (ho : (s.setCond c new).openNotice c = none) :
        raised = s.setCond c { new with withheld := s.retained.withholds c } := by
      rw [raised_eq, occur_of_unlatched (by simpa using hl), recorded, offerNotice_of_closed ho,
        State.cond_setCond, State.setCond_setCond]
      rfl
    refine ⟨fun hl => ?_, fun hl hlv => ?_, fun l hlv hl => ⟨fun h0 => ?_, fun h0 hg => ?_, fun h0 hg => ?_⟩⟩
    · rw [raised_eq, occur_of_latched (by simpa using hl), ← recorded, State.setCond_setCond]
      simp [State.occurred, Condition.occurred, recordOccurrence_setCond, hl]
      rfl
    · rw [closed hl (openNotice_of_none hlv), withholds_of_none hlv]
    · rw [closed hl (openNotice_of_zero hlv h0), withholds_of_zero hlv h0]
    · rw [closed hl (openNotice_of_closed hlv hg), withholds_of_closed hlv h0 hg]
    · have ho : (s.setCond c new).openNotice c = some (noticeFrame c new l[c.kindIndex]) := by
        rw [openNotice_of_open (s := s.setCond c new) hlv h0 hg, State.cond_setCond]
      rw [raised_eq, occur_of_unlatched (by simpa using hl), recorded, (offerNotice_of_open ho).1,
        State.cond_setCond, State.setCond_setCond]
      rfl

end Sys2Proof.Machine
end

