-- ==== Sys2Proof/Proofs/ConditionCommands.lean ====
section
/-! PROOFS. The commands that go through the condition records in order: LOAD_LEVELS and SET_LEVEL_GATE
release notices, CLEAR_CONDITION clears records (O53, O54). -/

namespace Sys2Proof.Machine

/-- The records stand in `allConds` in the order of their places. -/
theorem allConds_index : allConds.map CondId.index = List.finRange 115 := by decide

theorem allConds_nodup : allConds.Nodup := by
  refine List.Nodup.of_map CondId.index ?_
  rw [allConds_index]
  exact List.nodup_finRange 115

theorem mem_allConds (c : CondId) : c ∈ allConds := by
  have h : c.index ∈ allConds.map CondId.index := by
    rw [allConds_index]
    exact List.mem_finRange _
  obtain ⟨e, he, hi⟩ := List.mem_map.mp h
  rwa [← CondId.index_injective hi]

/-! ### One record visited -/

/-- A record visited: while `again` holds of it, it is rewritten by `g` and its notice offered; otherwise it is
rewritten by `k`. -/
def visitCond (again : Condition → Bool) (g k : Condition → Condition) (s : State) (c : CondId) : State :=
  if again (s.cond c) then offerNotice c (s.setCond c (g (s.cond c))) else s.setCond c (k (s.cond c))

/-- What a visit makes of a record, and the notice that it sends. -/
def visitedCond (again : Condition → Bool) (g k : Condition → Condition) (r : Retained) (c : CondId)
    (x : Condition) : Condition :=
  if again x then { g x with withheld := r.withholds c } else k x

def visitNotice (again : Condition → Bool) (g : Condition → Condition) (s : State) (c : CondId) :
    Option OutFrame :=
  if again (s.cond c) then (s.setCond c (g (s.cond c))).openNotice c else none

section
variable (again : Condition → Bool) (g k : Condition → Condition)

/-- The notice of a visit, by the level table and the gate. -/
theorem visitNotice_eq (s : State) (c : CondId) :
    visitNotice again g s c
      = match s.retained.levels with
        | none => none
        | some l =>
          if again (s.cond c) && l[c.kindIndex] != 0 && s.retained.gate.getLsbD l[c.kindIndex] then
            some (noticeFrame c (g (s.cond c)) l[c.kindIndex])
          else none := by
  unfold visitNotice State.openNotice
  rw [State.cond_setCond]
  show (if again (s.cond c) = true then (match s.retained.levels with
    | none => none
    | some l => if l[c.kindIndex] != 0 && s.retained.gate.getLsbD l[c.kindIndex] then
        some (noticeFrame c (g (s.cond c)) l[c.kindIndex]) else none) else none) = _
  cases again (s.cond c) <;> cases s.retained.levels <;> rfl

theorem visitCond_loopOnly (s : State) (c : CondId) : LoopOnly s (visitCond again g k s c) := by
  unfold visitCond
  split
  · exact (setCond_loopOnly c _ s).trans (offerNotice_loopOnly _ _)
  · exact setCond_loopOnly c _ s

theorem visitCond_cond_ne {e c : CondId} (h : e ≠ .outboundDiscard) (hc : e ≠ c) (s : State) :
    (visitCond again g k s c).cond e = s.cond e := by
  unfold visitCond
  split
  · rw [offerNotice_cond_ne h hc, State.cond_setCond_ne s c e _ hc]
  · exact State.cond_setCond_ne s c e _ hc

theorem visitCond_cond_self {c : CondId} (h : c ≠ .outboundDiscard) (s : State) :
    (visitCond again g k s c).cond c = visitedCond again g k s.retained c (s.cond c) := by
  unfold visitCond visitedCond
  split
  · rw [offerNotice_cond_self h, noticeFate_withheld, State.cond_setCond]
    rfl
  · rw [State.cond_setCond]

/-- Records visited in turn: each of the list is rewritten by its own visit, every other stays. -/
theorem foldl_visitCond_cond {l : List CondId} (hl : l.Nodup) {c : CondId} (h : c ≠ .outboundDiscard)
    (s : State) :
    (l.foldl (visitCond again g k) s).cond c
      = if c ∈ l then visitedCond again g k s.retained c (s.cond c) else s.cond c := by
  induction l generalizing s with
  | nil => simp
  | cons e l ih =>
    obtain ⟨he, hl⟩ := List.nodup_cons.mp hl
    rw [List.foldl_cons, ih hl, (visitCond_loopOnly again g k s e).retained]
    by_cases hc : c = e
    · subst hc
      simp [he, visitCond_cond_self again g k h]
    · simp [hc, visitCond_cond_ne again g k h hc]

theorem foldl_visitCond_loopOnly (l : List CondId) (s : State) :
    LoopOnly s (l.foldl (visitCond again g k) s) :=
  foldl_loopOnly _ (visitCond_loopOnly again g k) l s

/-- Behind a busy transmitter with room, a visit writes its record and the queue alone. -/
theorem visitCond_of_room {s : State} {c : CondId} (ht : s.transmitter ≠ .free)
    (h : s.outbound.length + (visitNotice again g s c).toList.length ≤ 16) :
    visitCond again g k s c
      = { s.setCond c (visitedCond again g k s.retained c (s.cond c)) with
          outbound := s.outbound ++ (visitNotice again g s c).toList } := by
  unfold visitCond visitedCond
  unfold visitNotice at h ⊢
  split
  · next ha =>
    simp only [ha, if_true] at h
    rw [offerNotice_of_room (by exact ht) (by exact h), State.cond_setCond, State.setCond_setCond]
    rfl
  · simp [State.setCond]

/-- Behind a busy transmitter with room, the notices of the records visited enter the queue in their order. -/
theorem foldl_visitCond_of_room {l : List CondId} (hl : l.Nodup) {s : State} (ht : s.transmitter ≠ .free)
    (h : s.outbound.length + (l.filterMap (visitNotice again g s)).length ≤ 16) :
    (l.foldl (visitCond again g k) s).outbound
      = s.outbound ++ l.filterMap (visitNotice again g s) := by
  induction l generalizing s with
  | nil => simp
  | cons e l ih =>
    obtain ⟨he, hl⟩ := List.nodup_cons.mp hl
    have split_notices : (e :: l).filterMap (visitNotice again g s)
        = (visitNotice again g s e).toList ++ l.filterMap (visitNotice again g s) := by
      rw [List.filterMap_cons]
      cases visitNotice again g s e <;> rfl
    rw [split_notices, List.length_append] at h
    have head := visitCond_of_room again g k (c := e) ht (by omega)
    have tail : l.filterMap (visitNotice again g (visitCond again g k s e))
        = l.filterMap (visitNotice again g s) := by
      refine List.filterMap_congr fun c hc => ?_
      have hne : c ≠ e := fun hce => he (hce ▸ hc)
      have same : (visitCond again g k s e).cond c = s.cond c := by
        rw [head]
        exact State.cond_setCond_ne s e c _ hne
      unfold visitNotice
      rw [same, openNotice_congr (t := (visitCond again g k s e).setCond c (g (s.cond c)))
        (s := s.setCond c (g (s.cond c))) (visitCond_loopOnly again g k s e).retained
        (by rw [State.cond_setCond, State.cond_setCond])]
    rw [List.foldl_cons, ih hl (by rw [head]; exact ht) (by rw [tail, head]; simp; omega), tail, head,
      split_notices]
    simp

end

/-! ### LOAD_LEVELS and SET_LEVEL_GATE (R156 to R158) -/

/-- R156: the release visits every record, and offers the notices that are withheld. -/
theorem releaseNotices_eq (s : State) :
    releaseNotices s = allConds.foldl (visitCond (·.withheld) id id) s := by
  unfold releaseNotices
  congr 1
  funext s c
  unfold visitCond
  simp only [id, State.setCond_cond]

theorem releaseNotices_cond {c : CondId} (h : c ≠ .outboundDiscard) (s : State) :
    (releaseNotices s).cond c
      = { s.cond c with withheld := (s.cond c).withheld && s.retained.withholds c } := by
  rw [releaseNotices_eq, foldl_visitCond_cond _ _ _ allConds_nodup h, if_pos (mem_allConds c)]
  unfold visitedCond
  generalize s.cond c = x
  obtain ⟨_, _, w, _, _, _⟩ := x
  cases w <;> rfl

theorem releaseNotices_of_room {s : State} (ht : s.transmitter ≠ .free)
    (h : s.outbound.length + (allConds.filterMap (visitNotice (·.withheld) id s)).length ≤ 16) :
    (releaseNotices s).outbound = s.outbound ++ allConds.filterMap (visitNotice (·.withheld) id s) := by
  rw [releaseNotices_eq, foldl_visitCond_of_room _ _ _ allConds_nodup ht h]

/-- R175: an argument of one byte is the byte at its offset. -/
theorem argU_one {args : List Byte} {i : Nat} (h : i < args.length) : argU args i 1 = args[i].toNat := by
  unfold argU
  rw [List.drop_eq_getElem_cons h, List.take_succ_cons, List.take_zero]
  exact Nat.zero_add _

/-- R157: 25 levels from 0 to 7 are read as they stand. -/
theorem readLevels_of_fits {args : List Byte} {levels : Vector Nat 25} (hlen : args.length = 25)
    (h : ∀ i : Fin 25, levels[i] = argU args i.val 1 ∧ levels[i] ≤ 7) :
    readLevels args = some levels := by
  have fits : args.all (·.toNat ≤ 7) = true := by
    refine List.all_eq_true.mpr fun b hb => ?_
    obtain ⟨i, hi, rfl⟩ := List.getElem_of_mem hb
    have hle := h ⟨i, hlen ▸ hi⟩
    rw [hle.1, argU_one hi] at hle
    exact decide_eq_true hle.2
  unfold readLevels
  rw [if_pos fits]
  refine congrArg some (Vector.ext fun i hi => ?_)
  rw [Vector.getElem_ofFn]
  exact ((h ⟨i, hi⟩).1).symm

@[simp] theorem checkReady_restartPending (s : State) :
    (checkReady s).restartPending = s.restartPending := by
  unfold checkReady
  split <;> rfl

@[simp] theorem checkReady_cond (s : State) (c : CondId) : (checkReady s).cond c = s.cond c := by
  unfold checkReady
  split <;> rfl

@[simp] theorem checkReady_outbound (s : State) : (checkReady s).outbound = s.outbound := by
  unfold checkReady
  split <;> rfl

theorem LoopOnly.setStation {s t : State} (h : LoopOnly s t) (a : StationState) :
    LoopOnly { s with station := a } { t with station := a } := by
  unfold LoopOnly at *
  rw [h]

/-- R178: where CONFIGURING goes when the level table has just been loaded. -/
theorem checkReady_of_levels {s : State} (h : s.retained.levels.isSome = true) :
    checkReady s
      = { s with
          station :=
            if s.station = .configuring ∧ s.retained.station.isSome = true then .ready
            else s.station } := by
  unfold checkReady
  by_cases hc : s.station = .configuring ∧ s.retained.station.isSome = true
  · simp [hc.1, hc.2, h]
  · rw [if_neg hc, if_neg]
    simpa [h] using hc

/-- R171: the step of a command that the Decoder takes, from what its handling gives. -/
theorem exec_of_handling {i : Instr} {src tag : Byte} {code : Nat} {args : List Byte} {s s1 s2 : State}
    {r : Reply} (hp : i.parts = some (src, tag, code, args)) (h : s.Takes (frameOf src tag code args) s1)
    (hb : handling i s1 = (s2, r)) (hr : s2.restartPending = s1.restartPending) :
    exec i s = .next (offerReply src tag code r s2) := by
  rw [exec_eq_runCommand hp]
  exact runCommand_result h hb hr

/-- R158: a gate opens a level when it holds one that the gate before does not. -/
theorem gate_opens_iff (new old : BitVec 8) :
    new &&& ~~~old ≠ 0 ↔ ∃ i : Nat, new.getLsbD i = true ∧ old.getLsbD i = false := by
  constructor
  · intro h
    by_contra hno
    refine h (BitVec.eq_of_getLsbD_eq fun i hi => ?_)
    have := not_exists.mp hno i
    simp only [BitVec.getLsbD_and, BitVec.getLsbD_not, hi, decide_true, Bool.true_and,
      BitVec.getLsbD_zero, BitVec.ofNat_eq_ofNat]
    cases h1 : new.getLsbD i <;> cases h2 : old.getLsbD i <;> simp_all
  · rintro ⟨i, h1, h2⟩ h0
    have hi : i < 8 := by
      by_contra hi
      rw [BitVec.getLsbD_of_ge _ _ (by omega)] at h1
      cases h1
    have := congrArg (·.getLsbD i) h0
    simp only [BitVec.getLsbD_and, BitVec.getLsbD_not, hi, h1, h2, decide_true, Bool.not_false,
      Bool.and_self] at this
    simp at this

/-- Settles O53. -/
theorem levelsAndGateAreReplaced : Obligations.LevelsAndGateAreReplaced := by
  unfold Obligations.LevelsAndGateAreReplaced
  intro released notices roomy
  have notices_eq (s : State) (r : Retained) :
      notices s r = allConds.filterMap (visitNotice (·.withheld) id { s with retained := r }) := by
    exact List.filterMap_congr fun c _ => (visitNotice_eq (·.withheld) id { s with retained := r } c).symm
  have released_eq (s : State) (r : Retained) {c : CondId} (h : c ≠ .outboundDiscard) :
      (releaseNotices { s with retained := r }).cond c = released (s.cond c) r c :=
    releaseNotices_cond h _
  have queued (s : State) (r : Retained) (h : roomy s (notices s r)) :
      (releaseNotices { s with retained := r }).outbound = s.outbound ++ notices s r := by
    rw [notices_eq] at h ⊢
    exact releaseNotices_of_room (s := { s with retained := r }) h.1 h.2
  refine ⟨fun src tag args levels s s1 ht hlen hlv => ?_, fun src tag gate s s1 ht h0 => ?_⟩
  · intro r
    have only := releaseNotices_loopOnly { s1 with retained := r }
    have handled : handling (.loadLevels src tag args) s1
        = (checkReady (releaseNotices { s1 with retained := r }), { result := .ok }) := by
      show loadLevels args s1 = _
      unfold loadLevels withLength
      rw [if_pos hlen, readLevels_of_fits hlen hlv]
      rfl
    have conds := fun c hc => released_eq s1 r (c := c) hc
    have queue := queued s1 r
    generalize releaseNotices { s1 with retained := r } = t at only handled conds queue
    refine ⟨checkReady t,
      exec_of_handling rfl ht handled ((checkReady_restartPending t).trans only.restartPending), ?_,
      fun c hc => (checkReady_cond t c).trans (conds c hc),
      fun hroom => (checkReady_outbound t).trans (queue hroom)⟩
    have loaded : t.retained.levels.isSome = true := by
      rw [only.retained]
      rfl
    have station : (if t.station = .configuring ∧ t.retained.station.isSome = true then .ready
        else t.station)
          = if s1.station = .configuring ∧ s1.retained.station.isSome = true then .ready
            else s1.station := by
      rw [only.station, only.retained]
    rw [checkReady_of_levels loaded, station]
    exact only.setStation _
  · intro r opens
    have handled : handling (.setLevelGate src tag [gate]) s1
        = (installGate gate s1, { result := .ok, data := [gate] }) := by
      show setLevelGate [gate] s1 = _
      unfold setLevelGate withLength
      rw [if_pos (by rfl)]
      simp only [argU_first, BitVec.ofNat_toNat, BitVec.setWidth_eq, h0, Bool.false_eq_true, if_false]
      rfl
    have closed (hno : ¬opens) : installGate gate s1 = { s1 with retained := r } := by
      unfold installGate
      rw [if_pos (Classical.not_not.mp fun h => hno ((gate_opens_iff _ _).mp h))]
      rfl
    have opened (hop : opens) : installGate gate s1 = releaseNotices { s1 with retained := r } := by
      unfold installGate
      rw [if_neg ((gate_opens_iff _ _).mpr hop)]
      rfl
    have only : LoopOnly { s1 with retained := r } (installGate gate s1) := by
      by_cases hop : opens
      · rw [opened hop]
        exact releaseNotices_loopOnly _
      · rw [closed hop]
        exact LoopOnly.refl _
    refine ⟨installGate gate s1, exec_of_handling rfl ht handled only.restartPending, only, closed,
      fun hop c hc => ?_, fun hop hroom => ?_⟩
    · rw [opened hop]
      exact released_eq s1 r hc
    · rw [opened hop]
      exact queued s1 r hroom

/-! ### CLEAR_CONDITION (R159) -/

/-- Whether a record is cleared by latching it again. -/
def Condition.clearsAgain (x : Condition) : Bool := x.latched && x.active

/-- A record that is not latched again is unlatched, if it is latched. -/
def Condition.cleared (x : Condition) : Condition := if x.latched then x.unlatch else x

/-- R159: the visit that clears a record at an interval number. -/
def clearVisit (now : Word32) : State → CondId → State :=
  visitCond Condition.clearsAgain (·.relatch now) Condition.cleared

/-- The counts of CLEAR_CONDITION once a record has been cleared. -/
def ClearCounts.counting (n : ClearCounts) (x : Condition) : ClearCounts :=
  if x.latched then
    if x.active then { n with again := n.again + 1 } else { n with unlatched := n.unlatched + 1 }
  else n

theorem clearOne_eq (s : State) (n : ClearCounts) (c : CondId) :
    clearOne (s, n) c = (clearVisit s.now s c, n.counting (s.cond c)) := by
  unfold clearOne clearVisit visitCond ClearCounts.counting Condition.clearsAgain Condition.cleared
  simp only
  cases hl : (s.cond c).latched <;> cases ha : (s.cond c).active <;> simp

theorem clearVisit_now (now : Word32) (s : State) (c : CondId) : (clearVisit now s c).now = s.now := by
  have := (visitCond_loopOnly Condition.clearsAgain (·.relatch now) Condition.cleared s c).retained
  exact congrArg Retained.intervalNumber this

/-- CLEAR_CONDITION visits the records of its list in order. -/
theorem foldl_clearOne_fst (l : List CondId) (s : State) (n : ClearCounts) :
    (l.foldl clearOne (s, n)).1 = l.foldl (clearVisit s.now) s := by
  induction l generalizing s n with
  | nil => rfl
  | cons c l ih =>
    rw [List.foldl_cons, List.foldl_cons, clearOne_eq, ih, clearVisit_now]

/-- A notice offered for another condition leaves OUTBOUND_DISCARD as active as it was, and latched if it
was. -/
theorem offerNotice_discard {c : CondId} (h : c ≠ .outboundDiscard) {s : State}
    (hl : (s.cond .outboundDiscard).latched = true) :
    ((offerNotice c s).cond .outboundDiscard).latched = true
      ∧ ((offerNotice c s).cond .outboundDiscard).active = (s.cond .outboundDiscard).active := by
  have kept (x : State × Option OutFrame)
      (hx : x.1.cond .outboundDiscard = s.cond .outboundDiscard) :
      ((afterOffer x).cond .outboundDiscard).latched = true
        ∧ ((afterOffer x).cond .outboundDiscard).active = (s.cond .outboundDiscard).active := by
    obtain ⟨t, lost⟩ := x
    cases lost with
    | none => exact ⟨hx ▸ hl, congrArg Condition.active hx⟩
    | some f =>
      show ((loseFrame f t).cond _).latched = true ∧ ((loseFrame f t).cond _).active = _
      rw [loseFrame_of_latched (by simpa [hx] using hl)]
      unfold recordOccurrence
      rw [State.cond_setCond, countDiscard_cond]
      have active := congrArg Condition.active hx
      exact ⟨rfl, active⟩
  exact kept _ (offerNoticeOnce_cond_ne (Ne.symm h) s)

theorem clearVisit_discard {c : CondId} (h : c ≠ .outboundDiscard) {now : Word32} {s : State}
    (hl : (s.cond .outboundDiscard).latched = true) :
    ((clearVisit now s c).cond .outboundDiscard).latched = true
      ∧ ((clearVisit now s c).cond .outboundDiscard).active = (s.cond .outboundDiscard).active := by
  have same (x : Condition) : (s.setCond c x).cond .outboundDiscard = s.cond .outboundDiscard :=
    State.cond_setCond_ne s c _ x (Ne.symm h)
  unfold clearVisit visitCond
  split
  · rw [← same ((s.cond c).relatch now)]
    exact offerNotice_discard h (by rw [same]; exact hl)
  · rw [same]
    exact ⟨hl, rfl⟩

/-- The counts that CLEAR_CONDITION makes of its list. -/
def ClearCounts.over (n : ClearCounts) (s : State) (l : List CondId) : ClearCounts :=
  { unlatched := n.unlatched + (l.filter fun c => (s.cond c).latched && (s.cond c).active == false).length
    again := n.again + (l.filter fun c => (s.cond c).latched && (s.cond c).active == true).length }

theorem counting_over (n : ClearCounts) (s : State) (c : CondId) (l : List CondId) :
    (n.counting (s.cond c)).over s l = n.over s (c :: l) := by
  unfold ClearCounts.counting ClearCounts.over
  cases hl : (s.cond c).latched <;> cases ha : (s.cond c).active <;> simp [hl, ha] <;> omega

/-- R159: the counts of the reply are those of the records as they stood. -/
theorem foldl_clearOne_snd {l : List CondId} (hn : l.Nodup) (s : State) (n : ClearCounts)
    (hd : CondId.outboundDiscard ∉ l ∨ (s.cond .outboundDiscard).latched = true) :
    (l.foldl clearOne (s, n)).2 = n.over s l := by
  induction l generalizing s n with
  | nil => rfl
  | cons c l ih =>
    obtain ⟨hc, hn⟩ := List.nodup_cons.mp hn
    have same : ∀ e ∈ l, ((clearVisit s.now s c).cond e).latched = (s.cond e).latched
        ∧ ((clearVisit s.now s c).cond e).active = (s.cond e).active := by
      intro e he
      have hne : e ≠ c := fun h => hc (h ▸ he)
      by_cases hed : e = .outboundDiscard
      · subst hed
        have hl := hd.resolve_left fun h => h (List.mem_cons_of_mem _ he)
        rw [hl]
        exact clearVisit_discard (Ne.symm hne) hl
      · unfold clearVisit
        rw [visitCond_cond_ne _ _ _ hed hne]
        exact ⟨rfl, rfl⟩
    have over_eq (m : ClearCounts) : m.over (clearVisit s.now s c) l = m.over s l := by
      unfold ClearCounts.over
      congr 2 <;>
      · congr 1
        exact List.filter_congr fun e he => by rw [(same e he).1, (same e he).2]
    have latched : CondId.outboundDiscard ∉ l
        ∨ ((clearVisit s.now s c).cond .outboundDiscard).latched = true := by
      by_cases hm : CondId.outboundDiscard ∈ l
      · rw [(same _ hm).1]
        exact .inr (hd.resolve_left fun h => h (List.mem_cons_of_mem _ hm))
      · exact .inl hm
    rw [List.foldl_cons, clearOne_eq, ih hn _ _ latched, over_eq, counting_over]

theorem condOf_kind_unit (c : CondId) : condOf c.kindCode c.unit = some c := by
  cases c with
  | _ =>
    simp [condOf, CondId.kindCode, CondId.kindIndex, CondId.unit, condsOfKind]

theorem kindCode_lt (c : CondId) : c.kindCode < 256 := by
  have := c.kindIndex.isLt
  unfold CondId.kindCode
  omega

theorem unit_lt (c : CondId) : c.unit < 256 := by
  cases c <;> simp only [CondId.unit] <;> omega

theorem condsOfKind_nodup (kind : Nat) : (condsOfKind kind).Nodup := by
  by_cases h : kind < 26
  · interval_cases kind <;> decide
  · have : condsOfKind kind = [] := by
      unfold condsOfKind
      split <;> first | omega | rfl
    rw [this]
    exact List.nodup_nil

theorem condsOfKind_ne_nil {kind : Nat} (h1 : 1 ≤ kind) (h2 : kind ≤ 25) :
    (condsOfKind kind).isEmpty = false := by
  interval_cases kind <;> rfl

/-- R159: the three forms of CLEAR_CONDITION, with the records they name. -/
theorem clearCondition_of_form {args : List Byte} {named : List CondId}
    (h : (∃ c : CondId, args = [0, BitVec.ofNat 8 c.kindCode, BitVec.ofNat 8 c.unit] ∧ named = [c])
      ∨ (∃ kind : Byte, 1 ≤ kind.toNat ∧ kind.toNat ≤ 25 ∧ args = [1, kind]
          ∧ named = condsOfKind kind.toNat)
      ∨ (args = [2] ∧ named = allConds)) (s : State) :
    clearCondition args s = clearAll named s ∧ named.Nodup := by
  rcases h with ⟨c, rfl, rfl⟩ | ⟨kind, h1, h2, rfl, rfl⟩ | ⟨rfl, rfl⟩
  · refine ⟨?_, List.nodup_singleton c⟩
    simp [clearCondition, formLength, withLength, clearTargets, byte_toNat (kindCode_lt c),
      byte_toNat (unit_lt c), condOf_kind_unit]
  · refine ⟨?_, condsOfKind_nodup _⟩
    simp [clearCondition, formLength, withLength, clearTargets, condsOfKind_ne_nil h1 h2]
  · refine ⟨?_, allConds_nodup⟩
    simp [clearCondition, formLength, withLength, clearTargets]

/-- Settles O54. -/
theorem clearConditionUnlatchesWhatHasGone : Obligations.ClearConditionUnlatchesWhatHasGone := by
  intro src tag args named s s1 ht hform count
  obtain ⟨form, hn⟩ := clearCondition_of_form hform s1
  have only := foldl_visitCond_loopOnly Condition.clearsAgain (·.relatch s1.now) Condition.cleared named s1
  have visited := fun c hc =>
    foldl_visitCond_cond Condition.clearsAgain (·.relatch s1.now) Condition.cleared hn (c := c) hc s1
  have queued := foldl_visitCond_of_room Condition.clearsAgain (·.relatch s1.now) Condition.cleared hn
    (s := s1)
  have handled : handling (.clearCondition src tag args) s1
      = (named.foldl (clearVisit s1.now) s1,
          { result := .ok
            data := encU 1 ((named.foldl clearOne (s1, {})).2.unlatched : Nat)
              ++ encU 1 ((named.foldl clearOne (s1, {})).2.again : Nat) }) := by
    show clearCondition args s1 = _
    rw [form, ← foldl_clearOne_fst named s1 {}]
    rfl
  refine ⟨_, _, exec_of_handling rfl ht handled only.restartPending, only, ?_, fun hd => ?_, fun c hc => ?_⟩
  · intro notices tx room
    have notices_eq : notices = named.filterMap
        (visitNotice Condition.clearsAgain (·.relatch s1.now) s1) := by
      refine List.filterMap_congr fun c _ => ?_
      rw [visitNotice_eq]
      cases s1.retained.levels with
      | none => rfl
      | some l =>
        simp only [Condition.clearsAgain]
        split <;> rename_i h
        · refine Eq.trans ?_ (if_pos h).symm
          simp only [Bool.and_eq_true] at h
          simp only [noticeFrame, Condition.relatch, h.1.1.2, encFlag, Option.getD_some, if_true]
        · exact (if_neg h).symm
    rw [notices_eq] at room ⊢
    exact queued tx room
  · rw [foldl_clearOne_snd hn s1 {} hd]
    simp [ClearCounts.over, count]
  · have cond := visited c hc
    refine ⟨fun hm => ?_, fun hm hl => ?_, fun hm hl ha => ?_, fun hm hl ha => ?_⟩
    · rwa [if_neg hm] at cond
    all_goals
      rw [if_pos hm] at cond
      refine cond.trans ?_
    · simp [visitedCond, Condition.clearsAgain, Condition.cleared, hl]
    · simp [visitedCond, Condition.clearsAgain, Condition.cleared, hl, ha, Condition.unlatch]
    · simp [visitedCond, Condition.clearsAgain, Condition.relatch, hl, ha]

end Sys2Proof.Machine
end

