-- ==== Sys2Proof/Proofs/CheckWord.lean ====
section
/-! PROOFS. The check word, the characters of a frame and the receiver's verdict on them (O18). -/

namespace Sys2Proof.Machine

/-! ### The check word over itself (R163) -/

/-- A register fed with its own top bit only shifts. -/
theorem crcBit_own (r : BitVec 16) {k : Nat} (h : k < 16) :
    crcBit (r <<< k) (r.getLsbD (15 - k)) = r <<< (k + 1) := by
  have hmsb : (r <<< k).msb = r.getLsbD (15 - k) := by
    rw [BitVec.msb_eq_getLsbD_last, BitVec.getLsbD_shiftLeft]
    simp [show ¬15 < k by omega]
  unfold crcBit
  simp only [hmsb, bne_self_eq_false, Bool.false_eq_true, if_false]
  rw [BitVec.shiftLeft_add]

/-- A register fed with a byte of its own top bits only shifts. -/
theorem crcByte_own (r : BitVec 16) {b : Byte} {k : Nat} (hk : k ≤ 8)
    (h : ∀ i < 8, b.getLsbD i = r.getLsbD (8 - k + i)) : crcByte (r <<< k) b = r <<< (k + 8) := by
  have bit (i j : Nat) (hij : i + j = 7) :
      crcBit (r <<< (k + j)) (b.getLsbD i) = r <<< (k + j + 1) := by
    rw [h i (by omega), ← crcBit_own r (k := k + j) (by omega), show 8 - k + i = 15 - (k + j) by omega]
  simp only [crcByte, List.foldl_cons, List.foldl_nil]
  rw [show r <<< k = r <<< (k + 0) from rfl, bit 7 0 rfl, bit 6 1 rfl, bit 5 2 rfl, bit 4 3 rfl,
    bit 3 4 rfl, bit 2 5 rfl, bit 1 6 rfl, bit 0 7 rfl]

/-- The two bytes of a word, high byte first. -/
theorem natBytes_two (n : Nat) : natBytes 2 n = [BitVec.ofNat 8 (n / 256), BitVec.ofNat 8 n] := rfl

/-- R163: the computation over a string and its check word arrives at 0. -/
theorem crc_append_crc (bytes : List Byte) : crc (bytes ++ natBytes 2 (crc bytes).toNat) = 0 := by
  have key (r : BitVec 16) :
      crcByte (crcByte r (BitVec.ofNat 8 (r.toNat / 256))) (BitVec.ofNat 8 r.toNat) = 0 := by
    have high : crcByte (r <<< 0) (BitVec.ofNat 8 (r.toNat / 256)) = r <<< (0 + 8) := by
      refine crcByte_own r (by omega) fun i hi => ?_
      rw [BitVec.getLsbD_ofNat, BitVec.getLsbD, Nat.testBit_div_two_pow (n := 8) (i := i) (x := r.toNat)]
      simp [hi, Nat.add_comm]
    have low : crcByte (r <<< 8) (BitVec.ofNat 8 r.toNat) = r <<< (8 + 8) := by
      refine crcByte_own r (by omega) fun i hi => ?_
      rw [BitVec.getLsbD_ofNat, BitVec.getLsbD]
      simp [hi]
    rw [BitVec.shiftLeft_zero] at high
    rw [high, low]
    exact BitVec.shiftLeft_eq_zero (by omega)
  show (bytes ++ _).foldl crcByte _ = 0
  rw [List.foldl_append, natBytes_two]
  exact key _

/-- R163: the worked value of the check word, the register byte by byte. -/
theorem crc_worked : crc [0x31, 0x32, 0x33, 0x34, 0x35, 0x36, 0x37, 0x38, 0x39] = 0x29B1#16 := by
  have b1 : crcByte 0xFFFF#16 0x31 = 0xC782#16 := by decide
  have b2 : crcByte 0xC782#16 0x32 = 0x3DBA#16 := by decide
  have b3 : crcByte 0x3DBA#16 0x33 = 0x5BCE#16 := by decide
  have b4 : crcByte 0x5BCE#16 0x34 = 0x5349#16 := by decide
  have b5 : crcByte 0x5349#16 0x35 = 0x4560#16 := by decide
  have b6 : crcByte 0x4560#16 0x36 = 0x2EF4#16 := by decide
  have b7 : crcByte 0x2EF4#16 0x37 = 0x7718#16 := by decide
  have b8 : crcByte 0x7718#16 0x38 = 0xA12B#16 := by decide
  have b9 : crcByte 0xA12B#16 0x39 = 0x29B1#16 := by decide
  simp only [crc, List.foldl_cons, List.foldl_nil, b1, b2, b3, b4, b5, b6, b7, b8, b9]

/-! ### Characters (R162) -/

/-- A running parity is the parity of the count. -/
theorem foldl_parity (p : Nat → Bool) (l : List Nat) (a : Bool) :
    l.foldl (fun odd i => odd != p i) a = (a != (l.countP p % 2 == 1)) := by
  induction l generalizing a with
  | nil => simp
  | cons i l ih =>
    rw [List.foldl_cons, ih, List.countP_cons]
    rcases Nat.mod_two_eq_zero_or_one (l.countP p) with h | h <;> cases hp : p i <;> cases a <;>
      simp [Nat.add_mod, h]

theorem oddOnes_eq (b : Byte) : oddOnes b = ((List.range 8).countP (b.getLsbD ·) % 2 == 1) := by
  unfold oddOnes
  exact (foldl_parity _ [0, 1, 2, 3, 4, 5, 6, 7] false).trans (by simp; rfl)

/-- R162: a character has its parity wrong when its ones are even in number. -/
theorem parityOdd_eq_false (c : LineChar) :
    (!parityOdd c) = (((List.range 8).countP (c.data.getLsbD ·) + c.parity.toNat) % 2 == 0) := by
  unfold parityOdd
  rw [oddOnes_eq]
  rcases Nat.mod_two_eq_zero_or_one ((List.range 8).countP (c.data.getLsbD ·)) with h | h <;>
    cases c.parity <;> simp [Nat.add_mod, h]

/-- A character without a framing or a parity fault carries its byte. -/
theorem eq_lineChar {c : LineChar} (hs : c.stop = true) (hp : parityOdd c = true) :
    c = lineChar c.data := by
  obtain ⟨d, p, st⟩ := c
  simp only [parityOdd] at hp hs
  subst hs
  unfold lineChar
  cases h : oddOnes d <;> simp_all

theorem parityOdd_lineChar (b : Byte) : parityOdd (lineChar b) = true := by
  unfold parityOdd lineChar
  cases oddOnes b <;> rfl

/-! ### The verdict on the characters of a frame (R164) -/

/-- R164: when a character shows no error. -/
theorem charFaults_eq_nil {before : List Byte} {c : LineChar} :
    charFaults before c = []
      ↔ (c.stop = true ∧ (before = [] → c.data = 0xA5#8)) ∧ parityOdd c = true
        ∧ (before.length = 4 → c.data.toNat ≤ 64) ∧ frameComplete before = false := by
  have nil_iff (b : Bool) (e : ReceiveFault) : (if b then [e] else []) = [] ↔ b = false := by
    cases b <;> simp
  unfold charFaults
  rw [List.append_eq_nil_iff, List.append_eq_nil_iff, nil_iff, nil_iff, nil_iff]
  simp [and_assoc]

/-- A frame judged good has shown no fault, and is good on the idle line. -/
theorem judge_good {f : Frame} {before : List Byte} {all : List LineChar} (h : judge before all = .good f) :
    (∀ i c, all[i]? = some c → charFaults (before ++ (all.take i).map (·.data)) c = [])
      ∧ judgeIdle (before ++ all.map (·.data)) = .good f := by
  induction all generalizing before with
  | nil => exact ⟨by simp, by simpa [judge] using h⟩
  | cons c rest ih =>
    unfold judge at h
    split at h
    · next h0 =>
      obtain ⟨faultless, idle⟩ := ih h
      refine ⟨fun i d hd => ?_, by simpa using idle⟩
      cases i with
      | zero =>
        cases hd
        simpa using h0
      | succ i => simpa using faultless i d hd
    · cases h

/-- R164: what the receiver takes as a good frame on the idle line. -/
theorem judgeIdle_good {bytes : List Byte} {f : Frame} (h : judgeIdle bytes = .good f) :
    ∃ start len tail, bytes = start :: f.dest :: f.source :: f.kind :: len :: tail
      ∧ len.toNat + 2 ≤ tail.length ∧ f.payload = tail.take len.toNat
      ∧ tail.drop len.toNat = crcBytes (frameBody f) := by
  unfold judgeIdle at h
  split at h
  · next start dest source kind len tail =>
    simp only at h
    split at h
    · cases h
    · next hlen =>
      split at h
      · next hcrc =>
        cases h
        exact ⟨start, len, tail, rfl, by omega, rfl, hcrc⟩
      · cases h
  · cases h

theorem length_frameBytes (f : Frame) : (frameBytes f).length = 7 + f.payload.length := by
  simp [frameBytes, frameBody, crcBytes]
  omega

/-- R163: a frame on the line, as the receiver reads it. -/
theorem frameBytes_eq (f : Frame) :
    frameBytes f
      = 0xA5#8 :: f.dest :: f.source :: f.kind :: BitVec.ofNat 8 f.payload.length
          :: (f.payload ++ crcBytes (frameBody f)) := rfl

/-- A character of a frame on the line shows no error. -/
theorem charFaults_frameBytes {f : Frame} (hlen : f.payload.length ≤ 64) {i : Nat} {b : Byte}
    (hb : (frameBytes f)[i]? = some b) : charFaults ((frameBytes f).take i) (lineChar b) = [] := by
  obtain ⟨hi, hget⟩ := List.getElem?_eq_some_iff.mp hb
  rw [length_frameBytes] at hi
  have taken : ((frameBytes f).take i).length = i := by
    rw [List.length_take, length_frameBytes]
    omega
  have len_eq : (BitVec.ofNat 8 f.payload.length).toNat = f.payload.length := byte_toNat (by omega)
  refine charFaults_eq_nil.mpr ⟨⟨rfl, fun h => ?_⟩, parityOdd_lineChar b, fun h => ?_, ?_⟩
  · rw [List.length_eq_zero_iff.mpr h] at taken
    subst taken
    exact hget.symm
  · obtain rfl : i = 4 := by omega
    have : b = BitVec.ofNat 8 f.payload.length := hget.symm
    show b.toNat ≤ 64
    rw [this, len_eq]
    exact hlen
  · unfold frameComplete
    rw [List.getElem?_take]
    by_cases h4 : 4 < i
    · rw [if_pos h4, frameBytes_eq]
      simp only [List.getElem?_cons_succ, List.getElem?_cons_zero]
      rw [len_eq, ← frameBytes_eq, taken]
      exact decide_eq_false (by omega)
    · rw [if_neg h4]

theorem judgeIdle_frameBytes {f : Frame} (hlen : f.payload.length ≤ 64) :
    judgeIdle (frameBytes f) = .good f := by
  have len_eq : (BitVec.ofNat 8 f.payload.length).toNat = f.payload.length := byte_toNat (by omega)
  rw [frameBytes_eq]
  unfold judgeIdle
  simp only [len_eq, List.take_left, List.drop_left, List.length_append]
  rw [if_neg (by simp [crcBytes]), if_pos trivial]

/-- R163, R164: the receiver takes characters as the good frame `f` exactly when they are those of `f`. -/
theorem judge_good_iff {f : Frame} {all : List LineChar} :
    judge [] all = .good f ↔ f.payload.length ≤ 64 ∧ all = (frameBytes f).map lineChar := by
  constructor
  · intro h
    obtain ⟨faultless, idle⟩ := judge_good h
    simp only [List.nil_append] at faultless idle
    obtain ⟨start, len, tail, hbytes, hlen, hpay, hcrc⟩ := judgeIdle_good idle
    have chars : all = (all.map (·.data)).map lineChar := by
      rw [List.map_map]
      refine ((List.map_congr_left fun c hc => ?_).trans (List.map_id all)).symm
      obtain ⟨i, hi, rfl⟩ := List.getElem_of_mem hc
      obtain ⟨⟨stop, -⟩, parity, -⟩ := charFaults_eq_nil.mp (faultless i _ (List.getElem?_eq_getElem hi))
      exact (eq_lineChar stop parity).symm
    have at0 (i : Nat) (b : Byte) (hb : (all.map (·.data))[i]? = some b) :
        ∃ c, all[i]? = some c ∧ c.data = b := by
      rw [List.getElem?_map] at hb
      exact Option.map_eq_some_iff.mp hb
    have hstart : start = 0xA5#8 := by
      obtain ⟨c, hc, rfl⟩ := at0 0 start (by rw [hbytes]; rfl)
      exact (charFaults_eq_nil.mp (faultless 0 c hc)).1.2 (by simp)
    have hle : len.toNat ≤ 64 := by
      obtain ⟨c, hc, rfl⟩ := at0 4 len (by rw [hbytes]; rfl)
      have : 4 < all.length := (List.getElem?_eq_some_iff.mp hc).1
      exact (charFaults_eq_nil.mp (faultless 4 c hc)).2.2.1 (by simp; omega)
    have paylen : f.payload.length = len.toNat := by
      rw [hpay, List.length_take]
      omega
    have bytes : all.map (·.data) = frameBytes f := by
      rw [hbytes, ← List.take_append_drop len.toNat tail, hcrc, ← hpay, hstart]
      simp [frameBytes, frameBody, paylen]
    exact ⟨by omega, bytes ▸ chars⟩
  · rintro ⟨hlen, rfl⟩
    have bytes_eq : ((frameBytes f).map lineChar).map (·.data) = frameBytes f := by
      rw [List.map_map]
      exact List.map_id' _
    have faultless : ∀ i c, ((frameBytes f).map lineChar)[i]? = some c →
        charFaults ([] ++ (((frameBytes f).map lineChar).take i).map (·.data)) c = [] := by
      intro i c hc
      rw [List.getElem?_map] at hc
      obtain ⟨b, hb, rfl⟩ := Option.map_eq_some_iff.mp hc
      rw [List.nil_append, List.map_take, bytes_eq]
      exact charFaults_frameBytes hlen hb
    have heard := judge_append [] ((frameBytes f).map lineChar) [] faultless
    rw [List.append_nil, List.nil_append, bytes_eq] at heard
    rw [heard]
    exact judgeIdle_frameBytes hlen

/-- Settles O18. -/
theorem checkWordOverItselfIsZero : Obligations.CheckWordOverItselfIsZero := by
  refine ⟨crc_append_crc, crc_worked, fun f => ⟨rfl, fun b => ⟨rfl, rfl, ?_⟩, fun all => judge_good_iff⟩⟩
  have odd := parityOdd_eq_false (lineChar b)
  rw [parityOdd_lineChar] at odd
  have ne : ¬((List.range 8).countP ((lineChar b).data.getLsbD ·) + (lineChar b).parity.toNat) % 2 = 0 :=
    fun h => by rw [h] at odd; cases odd
  exact (Nat.mod_two_eq_zero_or_one _).resolve_left ne

end Sys2Proof.Machine
end

