-- ==== Sys2Proof/Proofs/Ring.lean ====
section
/-! PROOFS. Frames taken off the ring, frames that go on round it, samples and receive errors (O11 to O13). -/

namespace Sys2Proof.Machine

/-! ### What an offer leaves of the loop -/

/-- What an offer to the outbound queue leaves of the loop: every counter but those of discards, and the frame
in transmission with the forward buffer; a free transmitter may begin the oldest frame to forward, or with none a
frame of the queue. -/
structure Offered (s t : State) : Prop where
  counters : t.counters
      = { s.counters with
          replyDiscard := t.counters.replyDiscard, resultDiscard := t.counters.resultDiscard
          ticketDiscard := t.counters.ticketDiscard
          proveReportDiscard := t.counters.proveReportDiscard
          noticeDiscard := t.counters.noticeDiscard }
  busy : s.transmitter ≠ .free → t.transmitter = s.transmitter ∧ t.forward = s.forward
  free : s.transmitter = .free →
    (t.transmitter = .free ∧ t.forward = s.forward)
      ∨ (t.transmitter ≠ .free ∧ t.forward = s.forward.tail)

theorem Offered.refl (s : State) : Offered s s := ⟨rfl, fun _ => ⟨rfl, rfl⟩, fun h => .inl ⟨h, rfl⟩⟩

theorem Offered.trans {s t u : State} (h : Offered s t) (k : Offered t u) : Offered s u where
  counters := by rw [k.counters, h.counters]
  busy hs := by
    obtain ⟨tx, fw⟩ := h.busy hs
    obtain ⟨tx', fw'⟩ := k.busy (by rw [tx]; exact hs)
    exact ⟨tx'.trans tx, fw'.trans fw⟩
  free hs := by
    rcases h.free hs with ⟨tx, fw⟩ | ⟨tx, fw⟩
    · rw [← fw]
      exact k.free tx
    · obtain ⟨tx', fw'⟩ := k.busy tx
      exact .inr ⟨by rw [tx']; exact tx, fw'.trans fw⟩

/-- An update of the condition records or of the outbound queue. -/
theorem offered_of_same {s t : State} (hc : t.counters = s.counters) (ht : t.transmitter = s.transmitter)
    (hf : t.forward = s.forward) : Offered s t :=
  ⟨by rw [hc], fun _ => ⟨ht, hf⟩, fun h => .inl ⟨ht.trans h, hf⟩⟩

theorem countDiscard_offered (k : OutKind) (s : State) : Offered s (countDiscard k s) where
  counters := by cases k <;> rfl
  busy _ := ⟨rfl, rfl⟩
  free h := .inl ⟨h, rfl⟩

theorem recordOccurrence_offered (c : CondId) (s : State) : Offered s (recordOccurrence c s) :=
  offered_of_same rfl rfl rfl

theorem beginNext_offered (s : State) : Offered s (beginNext s) where
  counters := by rw [beginNext_counters]
  busy h := by
    rw [beginNext_of_busy h]
    exact ⟨rfl, rfl⟩
  free h := by
    unfold beginNext
    rw [h]
    simp only
    split
    · next hf => exact .inr ⟨by simp, by rw [hf]; rfl⟩
    · next hf =>
      split
      · exact .inr ⟨by simp, by rw [hf]; rfl⟩
      · exact .inl ⟨h, rfl⟩

theorem enqueue_offered (f : OutFrame) (s : State) : Offered s (enqueue f s).1 := by
  have begun (q : List OutFrame) : Offered s (beginNext { s with outbound := q }) :=
    (offered_of_same (s := s) (t := { s with outbound := q }) rfl rfl rfl).trans (beginNext_offered _)
  unfold enqueue
  split
  · exact begun _
  · split
    · split
      · exact begun _
      · exact Offered.refl s
    · exact Offered.refl s

theorem offerNoticeOnce_offered (c : CondId) (s : State) : Offered s (offerNoticeOnce c s).1 := by
  have written (x : Condition) : Offered s (s.setCond c x) := offered_of_same rfl rfl rfl
  unfold offerNoticeOnce
  split
  · exact written _
  · exact written _
  · exact (written _).trans (enqueue_offered _ _)

theorem loseFrame_offered (g : OutFrame) (s : State) : Offered s (loseFrame g s) := by
  have once := (countDiscard_offered g.kind s).trans
    (recordOccurrence_offered .outboundDiscard (countDiscard g.kind s))
  unfold loseFrame
  simp only
  split
  · exact once
  · have noticed := once.trans (offerNoticeOnce_offered .outboundDiscard _)
    split
    · exact noticed
    · exact (noticed.trans (countDiscard_offered _ _)).trans (recordOccurrence_offered _ _)

theorem afterOffer_offered {s : State} {x : State × Option OutFrame} (h : Offered s x.1) :
    Offered s (afterOffer x) := by
  unfold afterOffer
  split
  · exact h
  · exact h.trans (loseFrame_offered _ _)

theorem offer_offered (f : OutFrame) (s : State) : Offered s (offer f s) :=
  afterOffer_offered (enqueue_offered f s)

theorem offerNotice_offered (c : CondId) (s : State) : Offered s (offerNotice c s) :=
  afterOffer_offered (offerNoticeOnce_offered c s)

theorem occur_offered (c : CondId) (s : State) : Offered s (occur c s) := by
  unfold occur latchAndNotify
  split
  · exact recordOccurrence_offered c s
  · exact (recordOccurrence_offered c s).trans (offerNotice_offered c _)

theorem report_offered (c : CondId) (b : Bool) (s : State) : Offered s (report c b s) := by
  cases b with
  | false =>
    rw [report_false]
    exact offered_of_same rfl rfl rfl
  | true =>
    cases h : (s.cond c).active with
    | true =>
      rw [report_of_active h]
      exact Offered.refl s
    | false =>
      rw [reportActive_of_inactive h]
      exact (offered_of_same (s := s) (t := s.setCond c _) rfl rfl rfl).trans (occur_offered c _)

/-! ### Receive errors (R164) -/

/-- R164: what a frame that ends with an error changes. -/
theorem receiveErrorAt_dropsFrame (e : ReceiveFault) (s : State) : s.DropsFrame (receiveErrorAt e s) e := by
  have offered := occur_offered .loopReceiveError
    { s with receiver := .hunting, counters := s.counters.countError e }
  unfold receiveErrorAt
  refine ⟨LoopOnly.trans (t := { s with receiver := .hunting, counters := s.counters.countError e }) rfl
    (occur_loopOnly _ _), ?_, ?_, occur_cond_self (by simp) _, fun c hc hd => occur_cond_ne hd hc _⟩
  · rw [offered.counters]
    cases e <;> rfl
  · rw [offered.counters]
    cases e <;> rfl

/-- A reception that ends outside HUNTING takes the verdict on its characters. -/
theorem exec_receiveError {chars : List LineChar} {s : State} {v : Verdict} (hr : s.Runs)
    (hh : s.receiver ≠ .hunting) (hc : chars ≠ []) (hv : judge [] chars = v)
    (hp : (takeVerdict v s).restartPending = false) :
    exec (.receiveError chars) s = .next (takeVerdict v s) := by
  show execReceiveError chars s = _
  unfold execReceiveError
  have ended : endReception chars s = takeVerdict v s := by
    unfold endReception
    rw [if_neg (by simp [hh, hc]), hv]
  rw [whenRunning_of_runs hr (by rw [ended]; exact hp), ended]

/-- A reception that ends with an error drops its frame. -/
theorem exec_receiveError_of_fault {chars : List LineChar} {s : State} {e : ReceiveFault} (hr : s.Runs)
    (hh : s.receiver ≠ .hunting) (hc : chars ≠ []) (hv : judge [] chars = .error e) :
    ∃ t, exec (.receiveError chars) s = .next t ∧ s.DropsFrame t e :=
  ⟨_, exec_receiveError hr hh hc hv ((receiveErrorAt_dropsFrame e s).1.restartPending.trans hr.2),
    receiveErrorAt_dropsFrame e s⟩

theorem mem_charFaults {before : List Byte} {c : LineChar} {e : ReceiveFault} :
    e ∈ charFaults before c
      ↔ (e = .framing ∧ (c.stop = false ∨ before = [] ∧ c.data ≠ 0xA5#8))
        ∨ (e = .parity ∧ parityOdd c = false)
        ∨ (e = .length ∧ (before.length = 4 ∧ 64 < c.data.toNat ∨ frameComplete before = true)) := by
  have mem_iff (b : Bool) (x : ReceiveFault) : e ∈ (if b then [x] else []) ↔ e = x ∧ b = true := by
    cases b <;> simp
  unfold charFaults
  rw [List.mem_append, List.mem_append, mem_iff, mem_iff, mem_iff]
  simp [or_assoc]

/-- R164: the errors that a character of a frame shows as it arrives. -/
theorem mem_charFaults_iff_showsFault {all : List LineChar} {i : Nat} {c : LineChar}
    (hc : all[i]? = some c) (e : ReceiveFault) :
    e ∈ charFaults ((all.take i).map (·.data)) c ↔ showsFault all i c e = true := by
  have hi : i < all.length := (List.getElem?_eq_some_iff.mp hc).1
  have heard : ((all.take i).map (·.data)).length = i := by simp; omega
  have begins : (all.take i).map (·.data) = [] ↔ i = 0 := by
    rw [← List.length_eq_zero_iff, heard]
  have complete : frameComplete ((all.take i).map (·.data)) = true
      ↔ all[4]?.any (fun d => decide (7 + d.data.toNat ≤ i)) = true := by
    unfold frameComplete
    rw [heard, List.getElem?_map, List.getElem?_take]
    by_cases h4 : 4 < i
    · rw [if_pos h4]
      cases all[4]? <;> simp
    · rw [if_neg h4]
      cases all[4]? with
      | none => simp
      | some d =>
        simp
        omega
  rw [mem_charFaults, begins, heard, complete]
  cases e with
  | framing => simp [showsFault]
  | parity =>
    have := parityOdd_eq_false c
    unfold showsFault
    rw [← this]
    simp
  | length => simp [showsFault]
  | gap => simp [showsFault]
  | check => simp [showsFault]

theorem charFaults_of_faultless {all : List LineChar} {n j : Nat} {d : LineChar} (h : FaultlessUpTo all n)
    (hj : j < n) (hd : all[j]? = some d) : charFaults ((all.take j).map (·.data)) d = [] := by
  refine List.eq_nil_iff_forall_not_mem.mpr fun e he => ?_
  have := h j d e hj hd
  rw [(mem_charFaults_iff_showsFault hd e).mp he] at this
  cases this

/-- The verdict on characters of which the first `n` show no error. -/
theorem judge_of_faultless {all : List LineChar} {n : Nat} (h : FaultlessUpTo all n) :
    judge [] all = judge ((all.take n).map (·.data)) (all.drop n) := by
  have heard := judge_append [] (all.take n) (all.drop n) fun j d hd => ?_
  · rwa [List.take_append_drop, List.nil_append] at heard
  · rw [List.getElem?_take] at hd
    by_cases hj : j < n
    · rw [if_pos hj] at hd
      rw [List.nil_append, List.take_take, Nat.min_eq_left (by omega)]
      exact charFaults_of_faultless h hj hd
    · rw [if_neg hj] at hd
      cases hd

theorem judge_of_faultless_all {all : List LineChar} (h : FaultlessUpTo all all.length) :
    judge [] all = judgeIdle (all.map (·.data)) := by
  rw [judge_of_faultless h, List.take_length, List.drop_length, judge]

/-- R164: a frame that is not complete on the idle line. -/
theorem judgeIdle_of_short {bytes : List Byte}
    (h : ∀ len, bytes[4]? = some len → bytes.length < 7 + len.toNat) : judgeIdle bytes = .error .gap := by
  unfold judgeIdle
  split
  · next start dest source kind len tail =>
    have := h len rfl
    simp only [List.length_cons] at this
    exact if_pos (by omega)
  · rfl

/-- R164: a complete frame whose check word does not match. -/
theorem judgeIdle_of_wrong_check {bytes : List Byte} {len : Byte} (h4 : bytes[4]? = some len)
    (hlen : 7 + len.toNat ≤ bytes.length)
    (hc : bytes.drop (5 + len.toNat)
      ≠ natBytes 2 (crc ((bytes.drop 1).take (4 + len.toNat))).toNat) :
    judgeIdle bytes = .error .check := by
  unfold judgeIdle
  split
  · next start dest source kind len' tail =>
    obtain rfl : len' = len := Option.some.inj h4
    simp only [List.length_cons] at hlen
    have payload : (tail.take len'.toNat).length = len'.toNat := by
      rw [List.length_take]
      omega
    simp only
    rw [if_neg (by omega), if_neg]
    intro hcrc
    refine hc ?_
    rw [Nat.add_comm 5, Nat.add_comm 4]
    show tail.drop len'.toNat
      = natBytes 2 (crc (dest :: source :: kind :: len' :: tail.take len'.toNat)).toNat
    rw [hcrc]
    simp only [crcBytes, frameBody, payload, BitVec.ofNat_toNat, BitVec.setWidth_eq]
  · next hno =>
    match bytes, h4 with
    | _ :: _ :: _ :: _ :: _ :: _, _ => exact absurd rfl (hno _ _ _ _ _ _)

/-- Settles O13. -/
theorem receiverFollowsTheLine : Obligations.ReceiverFollowsTheLine := by
  refine ⟨fun chars s hr hh => ⟨fun i c hc hf ⟨err, herr⟩ => ?_, fun hf hne hshort => ?_,
    fun len hf h4 hlen hcrc => ?_⟩, fun chars s => rfl, fun chars s hr hno => ?_, fun s hr hh => ?_,
    fun s hr hh => ?_, fun s hr hi => ?_, fun s hr hi => ?_⟩
  · have hne : chars ≠ [] := by
      rintro rfl
      simp at hc
    have rest : chars.drop i = c :: chars.drop (i + 1) := by
      obtain ⟨hi, hget⟩ := List.getElem?_eq_some_iff.mp hc
      rw [List.drop_eq_getElem_cons hi, hget]
    obtain ⟨e, he, hv⟩ := judge_fault (before := (chars.take i).map (·.data)) (c := c)
      (List.ne_nil_of_mem ((mem_charFaults_iff_showsFault hc err).mpr herr)) (chars.drop (i + 1))
    exact ⟨e, (mem_charFaults_iff_showsFault hc e).mp he, exec_receiveError_of_fault hr hh hne
      (by rw [judge_of_faultless hf, rest]; exact hv)⟩
  · exact exec_receiveError_of_fault hr hh hne
      (by rw [judge_of_faultless_all hf]; exact judgeIdle_of_short (by simpa using hshort))
  · have hne : chars ≠ [] := by
      rintro rfl
      simp at hlen
    exact exec_receiveError_of_fault hr hh hne
      (by rw [judge_of_faultless_all hf]; exact judgeIdle_of_wrong_check h4 (by simpa using hlen) hcrc)
  · show execReceiveError chars s = _
    have : endReception chars s = s := by
      unfold endReception
      rw [if_pos hno]
    unfold execReceiveError
    rw [whenRunning_of_runs hr (by rw [this]; exact hr.2), this]
  · show execHuntingEnd s = _
    simp [execHuntingEnd, whenRunning, hr.1, hr.2, hh]
  · show execHuntingEnd s = _
    simp [execHuntingEnd, whenRunning, hr.1, hr.2, hh]
  · show execFrameReceptionBegin s = _
    simp [execFrameReceptionBegin, whenRunning, hr.1, hr.2, hi]
  · show execFrameReceptionBegin s = _
    simp [execFrameReceptionBegin, whenRunning, hr.1, hr.2, hi]

/-! ### Good frames (R165, R166) -/

/-- R165: the step of a good frame. -/
theorem exec_goodFrame {chars : List LineChar} {f : Frame} {s : State} (hr : s.Runs) (hh : s.Hears chars f)
    (hp : (classify f (countGood s)).restartPending = false) :
    exec (.goodFrameArrival chars) s = .next (classify f (countGood s)) := by
  obtain ⟨hrec, hlen, hchars⟩ := hh
  have hne : chars ≠ [] := by
    rw [hchars, frameBytes_eq]
    simp
  exact exec_receiveError hr hrec hne (judge_good_iff.mpr ⟨hlen, hchars⟩) hp

/-- Settles O11. -/
theorem framesForThePartAreTakenOffTheRing : Obligations.FramesForThePartAreTakenOffTheRing := by
  intro chars f s hr hh good
  refine ⟨fun hs => ?_, fun hs hk hd hc => ?_, fun hs hk hd hc => ?_⟩
  · have : classify f (countGood s) = stripFrame (countGood s) := if_pos hs
    rw [exec_goodFrame hr hh (by rw [this]; exact hr.2), this]
    rfl
  · have : classify f (countGood s)
        = { countGood s with commands := s.commands ++ [{ source := f.source, payload := f.payload }] } := by
      unfold classify
      rw [if_neg (by exact hs), if_pos (by exact ⟨hk, hd⟩)]
      exact if_pos hc
    rw [exec_goodFrame hr hh (by rw [this]; exact hr.2), this]
    rfl
  · have : classify f (countGood s)
        = { countGood s with
            counters :=
              { (countGood s).counters with cmdOverflow := count1 cap16 s.counters.cmdOverflow } } := by
      unfold classify
      rw [if_neg (by exact hs), if_pos (by exact ⟨hk, hd⟩)]
      exact if_neg (by show ¬s.commands.length < 4; omega)
    rw [exec_goodFrame hr hh (by rw [this]; exact hr.2), this]
    rfl

/-! ### Frames that go on round the ring (R166) -/

theorem forwardFrame_of_room {f : Frame} {s : State} (h : s.forward.length < 2) :
    forwardFrame f s = beginNext { s with forward := s.forward ++ [f] } := if_pos h

/-- The state in which a frame dropped for want of room has been counted. -/
def State.overrun (s : State) : State :=
  { s with counters := { s.counters with forwardOverrun := count1 cap16 s.counters.forwardOverrun } }

theorem forwardFrame_of_full {f : Frame} {s : State} (h : 2 ≤ s.forward.length) :
    forwardFrame f s = occur .forwardOverrun s.overrun := if_neg (by omega)

theorem forwardFrame_cond_ne {f : Frame} {s : State} {e : CondId} (h : e ≠ .forwardOverrun)
    (hd : e ≠ .outboundDiscard) : (forwardFrame f s).cond e = s.cond e := by
  by_cases hl : s.forward.length < 2
  · rw [forwardFrame_of_room hl]
    unfold State.cond
    rw [beginNext_conds]
  · rw [forwardFrame_of_full (by omega), occur_cond_ne hd h]
    rfl

theorem forwardFrame_goodReceived (f : Frame) (s : State) :
    (forwardFrame f s).counters.goodReceived = s.counters.goodReceived := by
  by_cases hl : s.forward.length < 2
  · rw [forwardFrame_of_room hl, beginNext_counters]
  · rw [forwardFrame_of_full (by omega), (occur_offered _ _).counters]
    rfl

/-- Any other good frame goes on round the ring, a SAMPLE after it has reached the Input Unit. -/
theorem classify_of_passing {f : Frame} {s : State} (hs : f.source.toNat ≠ s.node)
    (hc : ¬(f.kind = 0x20 ∧ f.dest.toNat = s.node)) :
    classify f s
      = forwardFrame f (if f.kind = 0x10 then sampleArrival f s else s) := by
  unfold classify
  rw [if_neg hs, if_neg hc]
  split <;> rfl

/-- R57: a SAMPLE that matches no binding, or is not 6 bytes long, changes nothing. -/
theorem sampleArrival_of_unmatched {f : Frame} {s : State}
    (h : f.payload.length = 6 → ∀ (slot : Fin 16) (b : Binding), s.retained.bindings[slot] = some b →
      ¬(b.node = f.source.toNat ∧ some b.tag = f.payload.head?.map (·.toNat))) :
    sampleArrival f s = s := by
  unfold sampleArrival
  split
  · next tag b3 b2 b1 b0 quality hp =>
    rw [hp] at h
    have none_matches : matchSample f.source tag s = none := by
      refine List.find?_eq_none.mpr fun slot _ => ?_
      cases hb : s.retained.bindings[slot] with
      | none => simp
      | some b =>
        have := h rfl slot b hb
        simpa using this
    rw [none_matches]
  · rfl

/-! ### Samples (R57 to R59, R63) -/

/-- R63: the evaluation of a slot's conditions, record by record. -/
theorem evalInputConds_cond (slot : Fin 16) (s : State) :
    (evalInputConds slot s).cond (.inputStale slot)
        = s.told (.inputStale slot) (s.live[slot].state == .held)
      ∧ (evalInputConds slot s).cond (.inputFailed slot)
        = s.told (.inputFailed slot) (s.live[slot].state == .substituted || s.live[slot].state == .noData)
      ∧ (evalInputConds slot s).cond (.inputClamped slot)
        = s.told (.inputClamped slot) s.live[slot].clamped
      ∧ ∀ e : CondId, e ≠ .inputStale slot → e ≠ .inputFailed slot → e ≠ .inputClamped slot →
          e ≠ .outboundDiscard → (evalInputConds slot s).cond e = s.cond e := by
  unfold evalInputConds
  refine ⟨?_, ?_, ?_, fun e h1 h2 h3 h4 => ?_⟩
  · rw [report_cond_ne (by simp) (by simp), report_cond_ne (by simp) (by simp), report_cond_self (by simp)]
  · rw [report_cond_ne (by simp) (by simp), report_cond_self (by simp)]
    exact State.told_congr (report_cond_ne (by simp) (by simp) _ _) (report_retained _ _ _) _
  · rw [report_cond_self (by simp)]
    refine State.told_congr ?_ ?_ _
    · rw [report_cond_ne (by simp) (by simp), report_cond_ne (by simp) (by simp)]
    · rw [report_retained, report_retained]
  · rw [report_cond_ne h4 h3, report_cond_ne h4 h2, report_cond_ne h4 h1]

theorem evalInputConds_offered (slot : Fin 16) (s : State) : Offered s (evalInputConds slot s) :=
  ((report_offered _ _ _).trans (report_offered _ _ _)).trans (report_offered _ _ _)

/-- R57: the slot that a sample matches, when no other slot has its source and tag. -/
theorem matchSample_eq {source tag : Byte} {slot : Fin 16} {b : Binding} {s : State}
    (hb : s.retained.bindings[slot] = some b) (hn : b.node = source.toNat) (ht : b.tag = tag.toNat)
    (hu : ∀ (j : Fin 16) (c : Binding), j ≠ slot → s.retained.bindings[j] = some c →
      ¬(c.node = b.node ∧ c.tag = b.tag)) :
    matchSample source tag s = some slot := by
  cases hm : matchSample source tag s with
  | none =>
    have := List.find?_eq_none.mp hm slot (List.mem_finRange _)
    simp [hb, hn, ht] at this
  | some j =>
    have hj := List.find?_some hm
    by_cases hne : j = slot
    · rw [hne]
    · cases hc : s.retained.bindings[j] with
      | none => simp [hc] at hj
      | some c =>
        simp only [hc, Bool.and_eq_true, beq_iff_eq] at hj
        exact absurd ⟨hj.1.trans hn.symm, hj.2.trans ht.symm⟩ (hu j c hne hc)

theorem sampleArrival_of_matched {f : Frame} {tag b3 b2 b1 b0 quality : Byte} {slot : Fin 16} {b : Binding}
    {s : State} (hp : f.payload = [tag, b3, b2, b1, b0, quality])
    (hm : matchSample f.source tag s = some slot) (hb : s.retained.bindings[slot] = some b) :
    sampleArrival f s = takeSample slot b (argS [b3, b2, b1, b0] 0 4) quality.toNat s := by
  unfold sampleArrival
  rw [hp]
  simp only [hm, hb]

/-- The state in which a sample has reached its slot, before the slot's conditions are evaluated. -/
def State.sampled (s : State) (slot : Fin 16) (b : Binding) (value : Int) (quality : Nat) : State :=
  if quality ≤ 1 then s.setLive slot (s.live[slot].acceptSample b value (quality == 1)) else s

theorem takeSample_loopOnly (slot : Fin 16) (b : Binding) (value : Int) (quality : Nat) (s : State) :
    LoopOnly (s.sampled slot b value quality) (takeSample slot b value quality s) := by
  unfold takeSample State.sampled
  split
  · exact evalInputConds_loopOnly _ _
  · exact occur_loopOnly _ _

theorem takeSample_offered (slot : Fin 16) (b : Binding) (value : Int) (quality : Nat) (s : State) :
    Offered s (takeSample slot b value quality s) := by
  unfold takeSample
  split
  · exact (offered_of_same (s := s) (t := s.setLive slot _) rfl rfl rfl).trans
      (evalInputConds_offered _ _)
  · exact occur_offered _ _

theorem takeSample_cond_ne {slot : Fin 16} {e : CondId} (h1 : e ≠ .inputClamped slot)
    (h2 : e ≠ .inputStale slot) (h3 : e ≠ .inputFailed slot) (h4 : e ≠ .sampleRejectedBad slot)
    (h5 : e ≠ .outboundDiscard) (b : Binding) (value : Int) (quality : Nat) (s : State) :
    (takeSample slot b value quality s).cond e = s.cond e := by
  unfold takeSample
  split
  · exact (evalInputConds_cond slot _).2.2.2 e h2 h3 h1 h5
  · exact occur_cond_ne h5 h4 s

/-- R63: the conditions of a slot once a sample has been accepted. -/
theorem takeSample_cond_of_accepted {slot : Fin 16} {b : Binding} {value : Int} {quality : Nat}
    (hq : quality ≤ 1) (s : State) :
    let t := takeSample slot b value quality s
    t.cond (.inputClamped slot) = s.told (.inputClamped slot) (decide (value < b.low) || decide (b.high < value))
      ∧ t.cond (.inputStale slot) = s.told (.inputStale slot) false
      ∧ t.cond (.inputFailed slot) = s.told (.inputFailed slot) false
      ∧ t.cond (.sampleRejectedBad slot) = s.cond (.sampleRejectedBad slot) := by
  intro t
  have ht : t = evalInputConds slot
      (s.setLive slot (s.live[slot].acceptSample b value (quality == 1))) := if_pos hq
  obtain ⟨stale, failed, clamped, others⟩ := evalInputConds_cond slot
    (s.setLive slot (s.live[slot].acceptSample b value (quality == 1)))
  rw [ht]
  refine ⟨clamped.trans ?_, stale.trans ?_, failed.trans ?_,
    others _ (by simp) (by simp) (by simp) (by simp)⟩ <;>
  · simp only [State.setLive_live, Fin.getElem_fin, Vector.getElem_set_self]
    rfl

theorem takeSample_cond_of_rejected {slot : Fin 16} {b : Binding} {value : Int} {quality : Nat}
    (hq : 2 ≤ quality) (s : State) :
    let t := takeSample slot b value quality s
    t.cond (.sampleRejectedBad slot) = s.occurred (.sampleRejectedBad slot)
      ∧ t.cond (.inputClamped slot) = s.cond (.inputClamped slot)
      ∧ t.cond (.inputStale slot) = s.cond (.inputStale slot)
      ∧ t.cond (.inputFailed slot) = s.cond (.inputFailed slot) := by
  intro t
  have ht : t = occur (.sampleRejectedBad slot) s := if_neg (by omega)
  rw [ht]
  exact ⟨occur_cond_self (by simp) s, occur_cond_ne (by simp) (by simp) s,
    occur_cond_ne (by simp) (by simp) s, occur_cond_ne (by simp) (by simp) s⟩

/-- A frame that goes on behind a busy transmitter waits, or is dropped with the buffer as it was. -/
theorem forwardFrame_of_busy {f : Frame} {s : State} (ht : s.transmitter ≠ .free) :
    let t := forwardFrame f s
    t.transmitter = s.transmitter
      ∧ (s.forward.length < 2 →
          t.forward = s.forward ++ [f] ∧ t.cond .forwardOverrun = s.cond .forwardOverrun)
      ∧ (2 ≤ s.forward.length →
          t.forward = s.forward
            ∧ t.counters.forwardOverrun = min (s.counters.forwardOverrun + 1) 65535
            ∧ t.cond .forwardOverrun = s.occurred .forwardOverrun) := by
  intro t
  by_cases hl : s.forward.length < 2
  · have h : t = { s with forward := s.forward ++ [f] } :=
      (forwardFrame_of_room hl).trans (beginNext_of_busy (by exact ht))
    rw [h]
    exact ⟨rfl, fun _ => ⟨rfl, rfl⟩, fun h2 => by omega⟩
  · have h : t = occur .forwardOverrun s.overrun := forwardFrame_of_full (by omega)
    have offered := occur_offered .forwardOverrun s.overrun
    obtain ⟨tx, fw⟩ := offered.busy ht
    rw [h]
    exact ⟨tx, fun h2 => absurd h2 hl, fun _ =>
      ⟨fw, by rw [offered.counters]; rfl, occur_cond_self (by simp) _⟩⟩

/-- A frame that goes on with no other to forward waits alone, or begins at once. -/
theorem forwardFrame_of_empty {f : Frame} {s : State} (hf : s.forward = []) :
    (forwardFrame f s).forward = [f]
      ∨ (forwardFrame f s).forward = []
        ∧ (forwardFrame f s).transmitter = .sending (frameBytes f) .forwardBuffer := by
  rw [forwardFrame_of_room (by rw [hf]; simp), hf]
  by_cases ht : s.transmitter = .free
  · rw [beginNext_of_forward (s := { s with forward := [] ++ [f] }) ht rfl]
    exact .inr ⟨rfl, rfl⟩
  · rw [beginNext_of_busy (by exact ht)]
    exact .inl rfl

/-- A quality byte of 1 is the number 1. -/
theorem quality_eq_one (q : Byte) : (q.toNat == 1) = (q == 1) := by
  by_cases h : q = 1
  · subst h; rfl
  · have : q.toNat ≠ 1 := fun k => h (BitVec.eq_of_toNat_eq k)
    simpa [this] using h

/-- Settles O12. -/
theorem sampleReachesItsBinding : Obligations.SampleReachesItsBinding := by
  constructor
  · intro chars f tag b3 b2 b1 b0 quality slot b s hr hh hs hk hp hb hn ht hu value clamped taken
    have arrived : sampleArrival f (countGood s)
        = takeSample slot b value quality.toNat (countGood s) :=
      sampleArrival_of_matched hp (matchSample_eq (s := countGood s) hb hn ht hu) hb
    have passing : classify f (countGood s)
        = forwardFrame f (takeSample slot b value quality.toNat (countGood s)) := by
      rw [classify_of_passing (s := countGood s) hs (by rw [hk]; simp), if_pos hk, arrived]
    have reached := takeSample_loopOnly slot b value quality.toNat (countGood s)
    have offered := takeSample_offered slot b value quality.toNat (countGood s)
    have accepted := takeSample_cond_of_accepted (slot := slot) (b := b) (value := value)
      (quality := quality.toNat) (s := countGood s)
    have rejected := takeSample_cond_of_rejected (slot := slot) (b := b) (value := value)
      (quality := quality.toNat) (s := countGood s)
    have others := fun e h1 h2 h3 h4 h5 => takeSample_cond_ne (slot := slot) (e := e) h1 h2 h3 h4 h5 b
      value quality.toNat (countGood s)
    have base : LoopOnly
        { s with
          receiver := .idle
          live := if quality.toNat ≤ 1 then s.live.set slot taken else s.live }
        ((countGood s).sampled slot b value quality.toNat) := by
      unfold State.sampled
      rw [quality_eq_one]
      split <;> rfl
    generalize takeSample slot b value quality.toNat (countGood s) = t at *
    have only := (base.trans reached).trans (forwardFrame_loopOnly f t)
    have kept (e : CondId) (h1 : e ≠ .forwardOverrun) (h2 : e ≠ .outboundDiscard) :
        (forwardFrame f t).cond e = t.cond e := forwardFrame_cond_ne h1 h2
    have same : t.cond .forwardOverrun = s.cond .forwardOverrun :=
      others _ (by simp) (by simp) (by simp) (by simp) (by simp)
    have area : t.retained = s.retained := (base.trans reached).retained
    refine ⟨forwardFrame f t, ?_, only, fun hq => ?_, fun hq => ?_, fun c h1 h2 h3 h4 h5 h6 => ?_, ?_,
      fun htx => ?_, fun htx hf => ?_⟩
    · rw [← passing]
      exact exec_goodFrame hr hh (by rw [passing]; exact only.restartPending.trans hr.2)
    · simp only [kept _ (show CondId.inputClamped slot ≠ _ by simp) (by simp),
        kept _ (show CondId.inputStale slot ≠ _ by simp) (by simp),
        kept _ (show CondId.inputFailed slot ≠ _ by simp) (by simp),
        kept _ (show CondId.sampleRejectedBad slot ≠ _ by simp) (by simp)]
      exact accepted hq
    · simp only [kept _ (show CondId.inputClamped slot ≠ _ by simp) (by simp),
        kept _ (show CondId.inputStale slot ≠ _ by simp) (by simp),
        kept _ (show CondId.inputFailed slot ≠ _ by simp) (by simp),
        kept _ (show CondId.sampleRejectedBad slot ≠ _ by simp) (by simp)]
      exact rejected hq
    · rw [kept c h5 h6]
      exact others c h1 h2 h3 h4 h6
    · rw [forwardFrame_goodReceived, offered.counters]
      rfl
    · obtain ⟨tx, fw⟩ := offered.busy htx
      obtain ⟨btx, room, full⟩ := forwardFrame_of_busy (f := f) (s := t) (by rw [tx]; exact htx)
      rw [fw, same] at room
      rw [fw, State.occurred_congr same area, offered.counters] at full
      exact ⟨btx.trans tx, room, full⟩
    · have fw : t.forward = [] := by
        rcases offered.free htx with ⟨-, fw⟩ | ⟨-, fw⟩ <;> rw [fw] <;> show _ = [] <;>
          simp only [countGood, hf, List.tail_nil]
      exact forwardFrame_of_empty fw
  · intro chars f s hr hh hs hc hu good full lost again
    have passing : classify f (countGood s) = forwardFrame f (countGood s) := by
      rw [classify_of_passing (s := countGood s) hs hc]
      split
      · next hk => rw [sampleArrival_of_unmatched (s := countGood s) (hu hk)]
      · rfl
    have step (t : State) (h : forwardFrame f (countGood s) = t) :
        exec (.goodFrameArrival chars) s = .next t := by
      rw [← h, ← passing]
      refine exec_goodFrame hr hh ?_
      rw [passing, forwardFrame_restartPending]
      exact hr.2
    refine ⟨fun hl htx => ?_, fun g rest hl htx hg => ?_, fun hl hlat => ?_, fun hl hlat => ?_⟩
    · refine step _ ?_
      rw [forwardFrame_of_room (s := countGood s) hl, beginNext_of_busy (by exact htx)]
      rfl
    · refine step _ ?_
      rw [forwardFrame_of_room (s := countGood s) hl]
      exact beginNext_of_forward (s := { countGood s with forward := s.forward ++ [f] }) htx hg
    · refine step _ ?_
      rw [forwardFrame_of_full (s := countGood s) hl, occur_of_latched (by exact hlat)]
      have : (countGood s).overrun.occurred .forwardOverrun = again := by
        show lost.occurred (s.retained.withholds .forwardOverrun) s.now = again
        simp only [Condition.occurred, hlat, if_true]
        rfl
      rw [this]
      rfl
    · have offered := occur_offered .forwardOverrun (countGood s).overrun
      have dropped : forwardFrame f (countGood s) = _ := forwardFrame_of_full (s := countGood s) hl
      refine ⟨_, step _ dropped, ?_, ?_, ?_, ⟨s.retained.withholds .forwardOverrun, ?_⟩, fun htx => ?_,
        fun htx => ?_⟩
      · exact LoopOnly.trans (t := (countGood s).overrun) rfl (occur_loopOnly _ _)
      · rw [offered.counters]
        rfl
      · rw [offered.counters]
        rfl
      · rw [occur_cond_self (by simp)]
        show lost.occurred (s.retained.withholds .forwardOverrun) s.now = _
        simp only [Condition.occurred, hlat, Bool.false_eq_true, if_false]
        rfl
      · exact (offered.busy htx).symm
      · rcases offered.free htx with h | h
        · exact .inl h.2
        · exact .inr h.2

end Sys2Proof.Machine
end

