-- ==== Sys2Proof/Proofs/Inputs.lean ====
section
/-! PROOFS. The Input Unit: LOAD_BINDING and the 10 ms count (O25, O26). -/

namespace Sys2Proof.Machine

@[simp] theorem State.told_active (s : State) (c : CondId) (b : Bool) : (s.told c b).active = b := by
  unfold State.told Condition.told
  split
  · next h => exact h.1.symm
  · rfl

/-! ### LOAD_BINDING (R54 to R56) -/

theorem duplicateBinding_eq_false {slot : Fin 16} {b : Binding} {s : State}
    (h : ∀ (j : Fin 16) (c : Binding), j ≠ slot → s.retained.bindings[j] = some c →
      ¬(c.node = b.node ∧ c.tag = b.tag)) : duplicateBinding slot b s = false := by
  refine List.any_eq_false.mpr fun j _ => ?_
  by_cases hj : j = slot
  · simp [hj]
  · cases hc : s.retained.bindings[j] with
    | none => simp
    | some c =>
      have := h j c hj hc
      simpa [hj] using this

/-- R55: a slot is not in use when no run that is not CLOSED, no METERING station and no active session names
it. -/
theorem slotInUse_eq_false {slot : Fin 16} {s : State}
    (hruns : ∀ (r : Fin 4) (x : RunSettings), s.runs[r].state ≠ .closed →
      s.retained.runs[r].settings = some x → x.tSlot ≠ slot ∧ x.pSlot ≠ slot)
    (hstation : ∀ x : StationRecord, s.station = .metering → s.retained.station = some x →
      x.densitySlot ≠ some slot ∧ x.waterSlot ≠ some slot)
    (hprover : ∀ x : ProverRecord, s.session.state.active = true → s.retained.prover = some x →
      x.tSlot ≠ slot ∧ x.pSlot ≠ slot) : slotInUse slot s = false := by
  have runs (r : Fin 4) : (runUses slot s r).any (·.inUse) = false := by
    unfold runUses
    cases hx : s.settings r with
    | none => rfl
    | some x =>
      by_cases hc : s.runs[r].state = .closed
      · simp only [hc, bne_self_eq_false]
        split <;> split <;> rfl
      · obtain ⟨ht, hp⟩ := hruns r x hc hx
        simp [ht, hp]
  have station : (stationUses slot s).any (·.inUse) = false := by
    unfold stationUses
    cases hx : s.retained.station with
    | none => rfl
    | some x =>
      by_cases hm : s.station = .metering
      · obtain ⟨hd, hw⟩ := hstation x hm hx
        simp [hd, hw]
      · simp only [beq_eq_false_iff_ne.mpr hm]
        split <;> split <;> rfl
  have prover : (proverUses slot s).any (·.inUse) = false := by
    unfold proverUses
    cases hx : s.retained.prover with
    | none => rfl
    | some x =>
      cases ha : s.session.state.active
      · simp only
        split <;> split <;> rfl
      · obtain ⟨ht, hp⟩ := hprover x ha hx
        simp [ht, hp]
  unfold slotInUse slotUses
  rw [List.any_append, List.any_append, station, prover, List.any_flatMap]
  simp [runs]

/-- Settles O25. -/
theorem loadBindingStartsFromNoData : Obligations.LoadBindingStartsFromNoData := by
  intro src tag args slot b s s1 ht hlen hread hdup hruns hstation hprover
  have handled : handling (.loadBinding src tag args) s1
      = (installBinding slot b s1, { result := .ok }) := by
    show loadBinding args s1 = _
    unfold loadBinding withLength
    rw [if_pos hlen]
    simp only [hread, duplicateBinding_eq_false hdup, slotInUse_eq_false hruns hstation hprover,
      Bool.false_eq_true, if_false]
    rfl
  have only : LoopOnly _ (installBinding slot b s1) := evalInputConds_loopOnly slot _
  obtain ⟨stale, failed, clamped, -⟩ := evalInputConds_cond slot
    ((s1.setRetained { s1.retained with bindings := s1.retained.bindings.set slot (some b) }).setLive
      slot {})
  refine ⟨installBinding slot b s1, exec_of_handling rfl ht handled only.restartPending, only, ?_, ?_, ?_⟩
  · show ((evalInputConds slot _).cond _).active = true
    rw [failed, State.told_active]
    simp
  · show ((evalInputConds slot _).cond _).active = false
    rw [stale, State.told_active]
    simp
  · show ((evalInputConds slot _).cond _).active = false
    rw [clamped, State.told_active]
    simp

/-! ### The 10 ms count (R60, R63) -/

/-- Whether a slot and its three conditions are in `t` as in `s`. -/
def SlotStays (s t : State) (slot : Fin 16) : Prop :=
  t.live[slot] = s.live[slot]
    ∧ t.cond (.inputStale slot) = s.cond (.inputStale slot)
    ∧ t.cond (.inputFailed slot) = s.cond (.inputFailed slot)
    ∧ t.cond (.inputClamped slot) = s.cond (.inputClamped slot)

/-- Whether a slot has in `t` the live state `l`, and its three conditions have been evaluated by it. -/
def SlotBecomes (s t : State) (slot : Fin 16) (l : LiveInput) : Prop :=
  t.live[slot] = l
    ∧ t.cond (.inputStale slot) = s.told (.inputStale slot) (l.state == .held)
    ∧ t.cond (.inputFailed slot)
        = s.told (.inputFailed slot) (l.state == .substituted || l.state == .noData)
    ∧ t.cond (.inputClamped slot) = s.told (.inputClamped slot) l.clamped

/-- R60: whether a slot has in `t` gone through one 10 ms count. -/
def SlotAged (s t : State) (slot : Fin 16) : Prop :=
  match s.retained.bindings[slot], s.live[slot].age with
  | some b, some age => SlotBecomes s t slot (s.live[slot].grow b age)
  | _, _ => SlotStays s t slot

theorem SlotBecomes.stays {s t u : State} {slot : Fin 16} {l : LiveInput} (h : SlotBecomes s t slot l)
    (k : SlotStays t u slot) : SlotBecomes s u slot l := by
  obtain ⟨hl, h1, h2, h3⟩ := h
  obtain ⟨kl, k1, k2, k3⟩ := k
  exact ⟨kl.trans hl, k1.trans h1, k2.trans h2, k3.trans h3⟩

theorem SlotStays.trans {s t u : State} {slot : Fin 16} (h : SlotStays s t slot) (k : SlotStays t u slot) :
    SlotStays s u slot := by
  obtain ⟨hl, h1, h2, h3⟩ := h
  obtain ⟨kl, k1, k2, k3⟩ := k
  exact ⟨kl.trans hl, k1.trans h1, k2.trans h2, k3.trans h3⟩

theorem SlotAged.stays {s t u : State} {slot : Fin 16} (h : SlotAged s t slot) (k : SlotStays t u slot) :
    SlotAged s u slot := by
  unfold SlotAged at *
  split at h
  · exact h.stays k
  · exact SlotStays.trans h k

/-- A slot ages from a state in which it stands as in `s`. -/
theorem SlotStays.aged {s t u : State} {slot : Fin 16} (h : SlotStays s t slot)
    (hr : t.retained = s.retained) (k : SlotAged t u slot) : SlotAged s u slot := by
  obtain ⟨hl, h1, h2, h3⟩ := h
  unfold SlotAged at *
  rw [hr, hl] at k
  split at k
  · obtain ⟨kl, k1, k2, k3⟩ := k
    rw [State.told_congr h1 hr] at k1
    rw [State.told_congr h2 hr] at k2
    rw [State.told_congr h3 hr] at k3
    exact ⟨kl, k1, k2, k3⟩
  · exact SlotStays.trans ⟨hl, h1, h2, h3⟩ k

theorem ageSlot_aged (s : State) (slot : Fin 16) : SlotAged s (ageSlot s slot) slot := by
  unfold SlotAged
  split
  · next b age hb ha =>
    have counted : ageSlot s slot = evalInputConds slot (s.setLive slot (s.live[slot].grow b age)) := by
      unfold ageSlot
      simp only [hb, ha]
    obtain ⟨stale, failed, clamped, -⟩ := evalInputConds_cond slot
      (s.setLive slot (s.live[slot].grow b age))
    have live : (s.live.set slot (s.live[slot].grow b age))[slot] = s.live[slot].grow b age := by simp
    rw [State.setLive_live, live] at stale failed clamped
    rw [counted]
    refine ⟨?_, stale, failed, clamped⟩
    rw [evalInputConds_live, State.setLive_live, live]
  · next hno =>
    have same : ageSlot s slot = s := by
      unfold ageSlot
      split
      · next b age hb ha => exact absurd ha (hno b age hb)
      · rfl
    rw [same]
    exact ⟨rfl, rfl, rfl, rfl⟩

/-- One slot's count leaves every other condition but OUTBOUND_DISCARD. -/
theorem ageSlot_cond_ne {s : State} {slot : Fin 16} {e : CondId} (h1 : e ≠ .inputStale slot)
    (h2 : e ≠ .inputFailed slot) (h3 : e ≠ .inputClamped slot) (h4 : e ≠ .outboundDiscard) :
    (ageSlot s slot).cond e = s.cond e := by
  unfold ageSlot
  split
  · exact (evalInputConds_cond slot _).2.2.2 e h1 h2 h3 h4
  · rfl

theorem ageSlot_stays {s : State} {slot j : Fin 16} (h : j ≠ slot) : SlotStays s (ageSlot s slot) j := by
  refine ⟨?_, ageSlot_cond_ne (by simpa) (by simp) (by simp) (by simp),
    ageSlot_cond_ne (by simp) (by simpa) (by simp) (by simp),
    ageSlot_cond_ne (by simp) (by simp) (by simpa) (by simp)⟩
  unfold ageSlot
  split
  · rw [evalInputConds_live, State.setLive_live]
    exact Vector.getElem_set_ne _ _ fun hv => h (Fin.ext hv.symm)
  · rfl

theorem ageSlot_retained (s : State) (slot : Fin 16) : (ageSlot s slot).retained = s.retained := by
  rw [ageSlot_inputOnly s slot]

/-- Slots counted in turn: each of the list ages by itself, every other stays. -/
theorem foldl_ageSlot {l : List (Fin 16)} (hl : l.Nodup) (s : State) (slot : Fin 16) :
    (slot ∈ l → SlotAged s (l.foldl ageSlot s) slot) ∧ (slot ∉ l → SlotStays s (l.foldl ageSlot s) slot) := by
  induction l generalizing s with
  | nil => exact ⟨fun h => absurd h List.not_mem_nil, fun _ => ⟨rfl, rfl, rfl, rfl⟩⟩
  | cons j l ih =>
    obtain ⟨hj, hl⟩ := List.nodup_cons.mp hl
    obtain ⟨aged, stays⟩ := ih hl (ageSlot s j)
    rw [List.foldl_cons]
    by_cases h : slot = j
    · subst h
      exact ⟨fun _ => (ageSlot_aged s slot).stays (stays hj), fun hn => by simp at hn⟩
    · have head : SlotStays s (ageSlot s j) slot := ageSlot_stays h
      refine ⟨fun hm => head.aged (ageSlot_retained s j) (aged ?_), fun hn => head.trans (stays ?_)⟩
      · simpa [h] using hm
      · simpa [h] using hn

theorem foldl_ageSlot_cond_ne {l : List (Fin 16)} {e : CondId} (hd : e ≠ .outboundDiscard)
    (h : ∀ slot : Fin 16, e ≠ .inputStale slot ∧ e ≠ .inputFailed slot ∧ e ≠ .inputClamped slot) (s : State) :
    (l.foldl ageSlot s).cond e = s.cond e := by
  induction l generalizing s with
  | nil => rfl
  | cons j l ih =>
    rw [List.foldl_cons, ih]
    exact ageSlot_cond_ne (h j).1 (h j).2.1 (h j).2.2 hd

/-- R60: the state that an age gives, by its two limits. -/
theorem stateOfAge_eq (stale age : Nat) :
    stateOfAge stale age
      = if decide (2 * stale < age) then .substituted
        else if decide (stale < age) && decide (age ≤ 2 * stale) then .held else .live := by
  unfold stateOfAge
  by_cases h1 : age ≤ stale
  · simp [h1, show ¬2 * stale < age by omega, show ¬stale < age by omega]
  · by_cases h2 : age ≤ 2 * stale
    · simp [h1, h2, show ¬2 * stale < age by omega, show stale < age by omega]
    · simp [h1, h2, show 2 * stale < age by omega]

theorem stateOfAge_held (stale age : Nat) :
    (stateOfAge stale age == .held) = (decide (stale < age) && decide (age ≤ 2 * stale)) := by
  unfold stateOfAge
  by_cases h1 : age ≤ stale
  · simp [h1, show ¬stale < age by omega]
  · by_cases h2 : age ≤ 2 * stale <;> simp [h1, h2, show stale < age by omega]

theorem stateOfAge_gone (stale age : Nat) :
    (stateOfAge stale age == .substituted || stateOfAge stale age == .noData)
      = decide (2 * stale < age) := by
  unfold stateOfAge
  by_cases h1 : age ≤ stale
  · simp [h1, show ¬2 * stale < age by omega]
  · by_cases h2 : age ≤ 2 * stale
    · simp [h1, h2, show ¬2 * stale < age by omega]
    · simp [h1, h2, show 2 * stale < age by omega]

/-- Settles O26. -/
theorem tenMsCountAgesEveryBinding : Obligations.TenMsCountAgesEveryBinding := by
  intro s hr
  let base : State := { advanceClock s.inputDivider s with inputDivider := periodsPer10ms }
  have started (slot : Fin 16) : SlotStays s base slot := ⟨rfl, rfl, rfl, rfl⟩
  have aged := fun slot => (started slot).aged rfl
    ((foldl_ageSlot (List.nodup_finRange 16) base slot).1 (List.mem_finRange slot))
  have others := fun c hc hd => foldl_ageSlot_cond_ne (l := List.finRange 16) (e := c) hd hc base
  have only := inputCount_inputOnly (advanceClock s.inputDivider s)
  have full := inputCount_inputDivider (advanceClock s.inputDivider s)
  have step := exec_input10msCount hr
  have counted : inputCount (advanceClock s.inputDivider s) = (List.finRange 16).foldl ageSlot base := rfl
  rw [counted] at only full step
  generalize (List.finRange 16).foldl ageSlot base = t at *
  refine ⟨t, step, ?_, fun slot => ?_, others⟩
  · unfold InputOnly at only
    unfold LoopOnly
    rw [full] at only
    exact only
  · have := aged slot
    unfold SlotAged at this
    simp only
    split
    · next b age hb ha =>
      simp only [hb, ha] at this
      obtain ⟨live, stale, failed, clamped⟩ := this
      rw [show (s.live[slot].grow b age).state = stateOfAge b.stale (count1 cap16 age) from rfl] at stale failed
      rw [stateOfAge_held] at stale
      rw [stateOfAge_gone] at failed
      refine ⟨live.trans ?_, stale, failed, clamped⟩
      unfold LiveInput.grow
      rw [stateOfAge_eq]
      rfl
    · next hno =>
      split at this
      · next b age hb ha => exact absurd ha (hno b age hb)
      · exact this

end Sys2Proof.Machine
end

