-- ==== Sys2Proof/Proofs/Spoils.lean ====
section
/-! PROOFS. How the reports of a step enter a queue with room, and what spoils a pass or ends a session
(O51). -/

namespace Sys2Proof.Machine

/-! ### Notices that enter a queue with room -/

/-- Behind a busy transmitter with room for `n` frames, the queue of `t` is that of `s` with at most `n` notices
behind it. -/
def NoticesEnter (n : Nat) (s t : State) : Prop :=
  s.transmitter ≠ .free → s.outbound.length + n ≤ 16 →
    t.transmitter = s.transmitter
      ∧ ∃ l, t.outbound = s.outbound ++ l ∧ l.length ≤ n ∧ ∀ f ∈ l, f.kind = .notice

theorem NoticesEnter.refl (s : State) : NoticesEnter 0 s s :=
  fun _ _ => ⟨rfl, [], by simp, by simp, by simp⟩

theorem noticesEnter_of_same {n : Nat} {s t : State} (ht : t.transmitter = s.transmitter)
    (ho : t.outbound = s.outbound) : NoticesEnter n s t :=
  fun _ _ => ⟨ht, [], by simp [ho], by simp, by simp⟩

theorem NoticesEnter.trans {n m : Nat} {s t u : State} (h : NoticesEnter n s t) (k : NoticesEnter m t u) :
    NoticesEnter (n + m) s u := by
  intro ht hl
  obtain ⟨tx, l, hq, hn, hk⟩ := h ht (by omega)
  obtain ⟨tx', l', hq', hn', hk'⟩ := k (by rw [tx]; exact ht) (by rw [hq, List.length_append]; omega)
  refine ⟨tx'.trans tx, l ++ l', by rw [hq', hq, List.append_assoc], by rw [List.length_append]; omega,
    fun f hf => ?_⟩
  exact (List.mem_append.mp hf).elim (hk f) (hk' f)

theorem NoticesEnter.mono {n m : Nat} {s t : State} (h : NoticesEnter n s t) (hm : n ≤ m) :
    NoticesEnter m s t := by
  intro ht hl
  obtain ⟨tx, l, hq, hn, hk⟩ := h ht (by omega)
  exact ⟨tx, l, hq, by omega, hk⟩

theorem offerNotice_noticesEnter (c : CondId) (s : State) : NoticesEnter 1 s (offerNotice c s) := by
  intro ht hl
  have one : (s.openNotice c).toList.length ≤ 1 := by cases s.openNotice c <;> simp
  rw [offerNotice_of_room ht (by omega)]
  refine ⟨rfl, (s.openNotice c).toList, rfl, one, fun f hf => ?_⟩
  cases ho : s.openNotice c with
  | none => simp [ho] at hf
  | some g =>
    simp only [ho, Option.toList_some, List.mem_singleton] at hf
    subst hf
    unfold State.openNotice at ho
    split at ho
    · cases ho
    · split at ho
      · cases ho
        rfl
      · cases ho

theorem occur_noticesEnter (c : CondId) (s : State) : NoticesEnter 1 s (occur c s) := by
  cases h : (s.cond c).latched with
  | true =>
    rw [occur_of_latched h]
    exact noticesEnter_of_same rfl rfl
  | false =>
    rw [occur_of_unlatched h]
    exact offerNotice_noticesEnter c (recordOccurrence c s)

theorem report_noticesEnter (c : CondId) (b : Bool) (s : State) : NoticesEnter 1 s (report c b s) := by
  cases b with
  | false =>
    rw [report_false]
    exact noticesEnter_of_same rfl rfl
  | true =>
    cases h : (s.cond c).active with
    | true =>
      rw [report_of_active h]
      exact (NoticesEnter.refl s).mono (by omega)
    | false =>
      rw [reportActive_of_inactive h]
      exact occur_noticesEnter c (s.setCond c { s.cond c with active := true })

theorem filter_notices {k : OutKind} (hk : k ≠ .notice) {l : List OutFrame}
    (h : ∀ f ∈ l, f.kind = .notice) : l.filter (·.kind == k) = [] :=
  List.filter_eq_nil_iff.mpr fun f hf => by simp [h f hf, Ne.symm hk]

/-- Notices that enter leave the frames of every other kind as they are. -/
theorem NoticesEnter.filter {n : Nat} {s t : State} (h : NoticesEnter n s t) (ht : s.transmitter ≠ .free)
    (hl : s.outbound.length + n ≤ 16) {k : OutKind} (hk : k ≠ .notice) :
    t.outbound.filter (·.kind == k) = s.outbound.filter (·.kind == k) := by
  obtain ⟨-, l, hq, -, hn⟩ := h ht hl
  rw [hq, List.filter_append, filter_notices hk hn, List.append_nil]

/-- A frame that enters between notices stands alone of its kind behind those of the queue. -/
theorem filter_frame_between_notices {n m : Nat} {s t u : State} {f : OutFrame} (h : NoticesEnter n s t)
    (k : NoticesEnter m (offer f t) u) (ht : s.transmitter ≠ .free)
    (hl : s.outbound.length + n + 1 + m ≤ 16) (hf : f.kind ≠ .notice) :
    u.outbound.filter (·.kind == f.kind) = s.outbound.filter (·.kind == f.kind) ++ [f]
      ∧ u.transmitter = s.transmitter := by
  obtain ⟨tx, l, hq, hn, hk⟩ := h ht (by omega)
  have busy : t.transmitter ≠ .free := by rw [tx]; exact ht
  have entered := offer_of_busy (f := f) busy (by rw [hq, List.length_append]; omega)
  rw [entered] at k
  have room : (t.outbound ++ [f]).length + m ≤ 16 := by
    rw [List.length_append, hq, List.length_append]
    simp
    omega
  refine ⟨?_, (k busy room).1.trans tx⟩
  rw [k.filter busy room hf]
  show (t.outbound ++ [f]).filter _ = _
  rw [hq, List.filter_append, List.filter_append, filter_notices hf hk]
  simp

/-! ### The PROVE_REPORT frame (R144, R177) -/

/-- The byte of up to 7 marks is that of their bits. -/
theorem markByte_seven (a b c d e f g : Bool) :
    markByte [a, b, c, d, e, f, g] = packBits [a, b, c, d, e, f, g] := by
  cases a <;> cases b <;> cases c <;> cases d <;> cases e <;> cases f <;> cases g <;> rfl

theorem ProveRun.inputMark_eq (r : ProveRun) :
    r.inputMark = [r.proverT.code, r.proverP.code, r.meterT.code, r.meterP.code].any (2 ≤ ·) := by
  simp [ProveRun.inputMark, Bool.or_assoc]

theorem Session.inputMark_eq (x : Session) :
    x.inputMark
      = if x.state = .failed then
          x.proveRuns.any fun r => [r.proverT.code, r.proverP.code, r.meterT.code, r.meterP.code].any (2 ≤ ·)
        else
          x.windowRuns.any fun r =>
            [r.proverT.code, r.proverP.code, r.meterT.code, r.meterP.code].any (2 ≤ ·) := by
  unfold Session.inputMark
  simp only [ProveRun.inputMark_eq]

/-- R144: the causes with which a session ends by itself, and is reported. -/
def EndCause.reported : EndCause → Bool
  | .none | .aborted | .accepted => false
  | _ => true

/-- R144: the code of the cause in a report; the causes that are not reported have none. -/
def EndCause.reportCode : EndCause → Nat
  | .spoiledPasses => 1
  | .notRepeatable => 2
  | .productChanged => 3
  | _ => 0

/-- R144: the byte of run, mark and cause. -/
theorem reportByte_eq {c : EndCause} (h : c.reported = true) (run : Nat) (failed : Bool) :
    (run : Int) + 4 * ((if failed then 1 else 0 : Nat) : Int) + 8 * ((c.code : Int) - 1)
      = ((run + (if failed then 4 else 0)
          + 8 * c.reportCode : Nat) : Int) := by
  cases c <;> simp only [EndCause.reported, Bool.false_eq_true] at h <;> cases failed <;>
    simp [EndCause.code, EndCause.reportCode]

/-- R144: the frame that a session which has ended by itself reports. -/
theorem reportFrame_eq {x : Session} (h : x.endCause.reported = true) (level : Nat) :
    ({ kind := .proveReport, dest := allNodes, level, source := 0
       payload := reportPayload x } : OutFrame) = x.reportFrame level := by
  have byte := reportByte_eq h ((x.attached.map (·.val)).getD 0) (decide (x.state = .failed))
  simp only [decide_eq_true_eq] at byte
  unfold reportPayload Session.reportFrame
  simp only [byte, ← markByte_seven, Session.inputMark_eq, Session.rateMark, Option.isSome_map,
    OutFrame.mk.injEq, true_and, and_true]
  congr 1
  congr 1
  cases x.results <;> cases x.lastWindow <;>
    simp only [Option.map_none, Option.map_some, Option.getD_none, Option.getD_some, List.append_assoc] <;> rfl

/-- R144: the report of a session enters a queue with room. -/
theorem offerReport_eq {s : State} {st : StationRecord} (hst : s.retained.station = some st)
    (h : s.session.endCause.reported = true) :
    offerReport s = offer (s.session.reportFrame st.reportLevel) s := by
  unfold offerReport
  rw [hst]
  simp only [reportFrame_eq h]

/-! ### The end of a session (R135, R141, R142) -/

/-- R135: a session reported and an event of it: the state it leaves, its conditions, and the queue. -/
theorem endReported_loopOnly (c : CondId) (x : Session) (s : State) :
    LoopOnly (s.setSession x) (occur c (offerReport (s.setSession x))) :=
  (offerReport_loopOnly _).trans (occur_loopOnly _ _)

theorem offerReport_cond_ne {e : CondId} (h : e ≠ .outboundDiscard) (s : State) :
    (offerReport s).cond e = s.cond e := by
  unfold offerReport
  split
  · rfl
  · exact offer_cond_ne h _ _

theorem endReported_cond_self {c : CondId} (h : c ≠ .outboundDiscard) (x : Session) (s : State) :
    (occur c (offerReport (s.setSession x))).cond c = s.occurred c := by
  rw [occur_cond_self h]
  exact State.occurred_congr (offerReport_cond_ne h _) (offerReport_retained _)

theorem endReported_cond_ne {c e : CondId} (h : e ≠ .outboundDiscard) (hc : e ≠ c) (x : Session) (s : State) :
    (occur c (offerReport (s.setSession x))).cond e = s.cond e := by
  rw [occur_cond_ne h hc, offerReport_cond_ne h]
  rfl

/-- R144: a session that ends by itself queues its PROVE_REPORT frame behind the notices before it. -/
theorem endReported_filter {n : Nat} {s t : State} {x : Session} {st : StationRecord} {c : CondId}
    (h : NoticesEnter n s t) (hst : t.retained.station = some st)
    (hx : x.endCause.reported = true) (ht : s.transmitter ≠ .free)
    (hl : s.outbound.length + n + 2 ≤ 16) :
    (occur c (offerReport (t.setSession x))).outbound.filter (·.kind == .proveReport)
      = s.outbound.filter (·.kind == .proveReport) ++ [x.reportFrame st.reportLevel] := by
  have start : NoticesEnter n s (t.setSession x) := h
  have reported : offerReport (t.setSession x)
      = offer (x.reportFrame st.reportLevel) (t.setSession x) := offerReport_eq hst hx
  have enters := occur_noticesEnter c (offerReport (t.setSession x))
  rw [reported] at enters ⊢
  exact (filter_frame_between_notices (f := x.reportFrame st.reportLevel) start enters ht (by omega)
    (by show OutKind.proveReport ≠ _; simp)).1

/-! ### Spoiled passes (R125, R128) -/

/-- The auto-release of the prover record; off with no record loaded. -/
def State.autoRelease (s : State) : Bool := (s.retained.prover.map (·.autoRelease)).getD false

theorem nextPassState_eq (s : State) : s.nextPassState = if s.autoRelease then .armed else .held := by
  unfold State.nextPassState State.autoRelease
  cases s.retained.prover <;> rfl

/-- The session once a spoiled pass has been counted, before the session goes on or fails. -/
def Session.countSpoil (x : Session) (cause : SpoilCause) : Session :=
  { x with
    items := {}
    lastOutcome := .spoiled cause
    spoiledTotal := count1 cap16 x.spoiledTotal
    spoiledForRun := count1 cap16 x.spoiledForRun
    consecutive := count1 3 x.consecutive }

theorem countSpoil_leave {x : Session} {cause : SpoilCause} {auto : Bool} (h : 2 ≤ x.consecutive) :
    (x.countSpoil cause).leave .failed .spoiledPasses = x.afterSpoil cause auto := by
  unfold Session.leave Session.countSpoil Session.afterSpoil
  simp only [if_pos h]
  rfl

theorem countSpoil_next {x : Session} {cause : SpoilCause} {auto : Bool} (h : x.consecutive < 2) :
    { x.countSpoil cause with state := if auto then .armed else .held } = x.afterSpoil cause auto := by
  unfold Session.countSpoil Session.afterSpoil
  simp only [if_neg (show ¬2 ≤ x.consecutive by omega)]
  rfl

theorem spoilPass_eq (cause : SpoilCause) (s : State) :
    spoilPass cause s
      = if (s.session.countSpoil cause).consecutive = 3 then
          failSession .spoiledPasses (occur .provePassSpoiled (s.setSession (s.session.countSpoil cause)))
        else
          (occur .provePassSpoiled (s.setSession (s.session.countSpoil cause))).setSession
            { (occur .provePassSpoiled (s.setSession (s.session.countSpoil cause))).session with
              state := (occur .provePassSpoiled (s.setSession (s.session.countSpoil cause))).nextPassState } :=
  rfl

/-- R128: the third spoiled pass in a row fails the session. -/
theorem spoilPass_of_third {cause : SpoilCause} {s : State} (h : 2 ≤ s.session.consecutive) :
    spoilPass cause s
      = occur .proveFailed (offerReport
          ((occur .provePassSpoiled (s.setSession (s.session.countSpoil cause))).setSession
            (s.session.afterSpoil cause s.autoRelease))) := by
  have third : (s.session.countSpoil cause).consecutive = 3 := by
    show count1 3 s.session.consecutive = 3
    unfold count1
    omega
  rw [spoilPass_eq, if_pos third]
  unfold failSession
  rw [occur_session, State.setSession_session, countSpoil_leave h]

/-- R125: a spoiled pass that is not the third in a row. -/
theorem spoilPass_of_other {cause : SpoilCause} {s : State} (h : s.session.consecutive < 2) :
    spoilPass cause s
      = (occur .provePassSpoiled (s.setSession (s.session.countSpoil cause))).setSession
          (s.session.afterSpoil cause s.autoRelease) := by
  have other : (s.session.countSpoil cause).consecutive ≠ 3 := by
    show count1 3 s.session.consecutive ≠ 3
    unfold count1
    omega
  rw [spoilPass_eq, if_neg other, occur_session, State.setSession_session, nextPassState_eq,
    show (occur .provePassSpoiled (s.setSession (s.session.countSpoil cause))).autoRelease = s.autoRelease by
      unfold State.autoRelease
      rw [occur_retained]
      rfl,
    countSpoil_next h]

theorem LoopOnly.setSession {s t : State} (h : LoopOnly s t) (x : Session) :
    LoopOnly (s.setSession x) (t.setSession x) := by
  unfold LoopOnly State.setSession at *
  rw [h]

/-- R125, R128: what a spoiled pass changes: the session, two conditions, and the loop. -/
theorem spoilPass_loopOnly (cause : SpoilCause) (s : State) :
    LoopOnly (s.setSession (s.session.afterSpoil cause s.autoRelease)) (spoilPass cause s) := by
  have counted : LoopOnly (s.setSession (s.session.afterSpoil cause s.autoRelease))
      ((occur .provePassSpoiled (s.setSession (s.session.countSpoil cause))).setSession
        (s.session.afterSpoil cause s.autoRelease)) :=
    (occur_loopOnly .provePassSpoiled (s.setSession (s.session.countSpoil cause))).setSession _
  by_cases h : 2 ≤ s.session.consecutive
  · rw [spoilPass_of_third h]
    exact counted.trans (endReported_loopOnly _ _ _)
  · rw [spoilPass_of_other (by omega)]
    exact counted

theorem spoilPass_cond_ne {e : CondId} (h1 : e ≠ .provePassSpoiled) (h2 : e ≠ .proveFailed)
    (h3 : e ≠ .outboundDiscard) (cause : SpoilCause) (s : State) :
    (spoilPass cause s).cond e = s.cond e := by
  have counted := occur_cond_ne h3 h1 (s.setSession (s.session.countSpoil cause))
  by_cases h : 2 ≤ s.session.consecutive
  · rw [spoilPass_of_third h, endReported_cond_ne h3 h2]
    exact counted
  · rw [spoilPass_of_other (by omega)]
    exact counted

/-- R128: PROVE_PASS_SPOILED occurs with every spoiled pass. -/
theorem spoilPass_cond_spoiled (cause : SpoilCause) (s : State) :
    (spoilPass cause s).cond .provePassSpoiled = s.occurred .provePassSpoiled := by
  have counted := occur_cond_self (c := .provePassSpoiled) (by simp)
    (s.setSession (s.session.countSpoil cause))
  by_cases h : 2 ≤ s.session.consecutive
  · rw [spoilPass_of_third h, endReported_cond_ne (by simp) (by simp)]
    exact counted
  · rw [spoilPass_of_other (by omega)]
    exact counted

/-- R142: PROVE_FAILED occurs with the third spoiled pass in a row. -/
theorem spoilPass_cond_failed (cause : SpoilCause) (s : State) :
    (spoilPass cause s).cond .proveFailed
      = if 2 ≤ s.session.consecutive then s.occurred .proveFailed else s.cond .proveFailed := by
  have counted := occur_cond_ne (c := .provePassSpoiled) (e := .proveFailed) (by simp) (by simp)
    (s.setSession (s.session.countSpoil cause))
  split
  · next h =>
    rw [spoilPass_of_third h, endReported_cond_self (by simp)]
    exact State.occurred_congr counted (occur_retained _ _)
  · next h =>
    rw [spoilPass_of_other (by omega)]
    exact counted

/-- R144: the third spoiled pass in a row queues the session's report, and no other spoiled pass does. -/
theorem spoilPass_filter {cause : SpoilCause} {s : State} {st : StationRecord}
    (hst : s.retained.station = some st) (ht : s.transmitter ≠ .free) (hl : s.outbound.length ≤ 13) :
    (spoilPass cause s).outbound.filter (·.kind == .proveReport)
      = s.outbound.filter (·.kind == .proveReport)
        ++ if 2 ≤ s.session.consecutive then
            [(s.session.afterSpoil cause s.autoRelease).reportFrame st.reportLevel] else [] := by
  have counted : NoticesEnter 1 s (occur .provePassSpoiled (s.setSession (s.session.countSpoil cause))) :=
    occur_noticesEnter .provePassSpoiled (s.setSession (s.session.countSpoil cause))
  split
  · next h =>
    rw [spoilPass_of_third h]
    refine endReported_filter counted (by rw [occur_retained]; exact hst) ?_ ht (by omega)
    unfold Session.afterSpoil
    simp only [if_pos h]
    rfl
  · next h =>
    rw [spoilPass_of_other (by omega), List.append_nil]
    exact counted.filter ht (by omega) (by simp)

/-- R125, R128: a session with at most two spoiled passes in a row, as the statements spell what it becomes. -/
theorem afterSpoil_of_small {x : Session} (cause : SpoilCause) (auto : Bool) (h : x.consecutive < 3) :
    let spoiled :=
      { x with
        items := {}
        lastOutcome := .spoiled cause
        spoiledTotal := min (x.spoiledTotal + 1) 65535
        spoiledForRun := min (x.spoiledForRun + 1) 65535
        consecutive := x.consecutive + 1 }
    x.afterSpoil cause auto
      = if x.consecutive = 2 then { spoiled with state := .failed, endCause := .spoiledPasses }
        else { spoiled with state := if auto then .armed else .held } := by
  have counted : min (x.consecutive + 1) 3 = x.consecutive + 1 := by omega
  unfold Session.afterSpoil
  rw [counted]
  by_cases third : x.consecutive = 2
  · simp only [if_pos third, if_pos (show 2 ≤ x.consecutive by omega)]
  · simp only [if_neg third, if_neg (show ¬2 ≤ x.consecutive by omega)]

/-- Settles O51. -/
theorem passTimeoutSpoilsThePass : Obligations.PassTimeoutSpoilsThePass := by
  intro x start s hr hp h1 h2 hc old left spoiled
  have due : s.timeoutLeft = some left := by
    unfold State.timeoutLeft
    rw [hp, h1, h2]
    rfl
  have auto : (advanceClock left s).autoRelease = x.autoRelease := by
    show (s.retained.prover.map (·.autoRelease)).getD false = _
    rw [hp]
    rfl
  have session : (advanceClock left s).session.afterSpoil .timeout (advanceClock left s).autoRelease
      = if old.consecutive = 2 then { spoiled with state := .failed, endCause := .spoiledPasses }
        else { spoiled with state := if x.autoRelease then .armed else .held } := by
    rw [auto]
    exact afterSpoil_of_small .timeout x.autoRelease hc
  have third : (2 ≤ (advanceClock left s).session.consecutive) ↔ old.consecutive = 2 := by
    show 2 ≤ s.session.consecutive ↔ s.session.consecutive = 2
    omega
  have only := spoilPass_loopOnly .timeout (advanceClock left s)
  have step : exec .passTimeout s = .next (spoilPass .timeout (advanceClock left s)) := by
    show execPassTimeout s = _
    unfold execPassTimeout
    rw [whenRunning_of_runs hr (by simp only [due]; exact only.restartPending.trans hr.2)]
    simp only [due]
  have failed := spoilPass_cond_failed .timeout (advanceClock left s)
  have occurred := spoilPass_cond_spoiled .timeout (advanceClock left s)
  rw [session] at only
  refine ⟨_, step, only, ?_, ?_, fun h => ?_, fun st hst ht hl => ?_⟩
  · rw [occurred]
    rfl
  · rw [occurred]
    rfl
  · rw [failed, if_pos (third.mpr h)]
    rfl
  · rw [spoilPass_filter (s := advanceClock left s) hst ht hl, session, only.session]
    simp only [third]
    rfl

end Sys2Proof.Machine
end

