-- ==== Sys2Proof/Proofs/ProveCommands.lean ====
section
/-! PROOFS. The prover record, the commands of a prove session, and the detector events (O45 to O47, O50). -/

namespace Sys2Proof.Machine

theorem withLength_of_length {n : Nat} {args : List Byte} (h : args.length = n)
    (body : State → State × Reply) (s : State) : withLength n args body s = body s :=
  if_pos h

/-! ### LOAD_PROVER and PROVE_START -/

theorem loadProver_of_record {src tag : Byte} {args : List Byte} {x : ProverRecord} (h : args.length = 32)
    (hx : readProverRecord args = some x) (s : State) :
    handling (.loadProver src tag args) s
      = if s.session.state.active then refuse .busy s else accept [] (installProver x s) := by
  show loadProver args s = _
  unfold loadProver
  rw [withLength_of_length h, hx]

theorem proveStart_of_run {src tag : Byte} (r : Fin 4) (s : State) :
    handling (.proveStart src tag [BitVec.ofNat 8 r.val]) s
      = if s.session.state.active then refuse .busy s
        else if s.station ≠ .metering ∨ s.runs[r].state ≠ .opened then refuse .wrongState s
        else if proverReady s then
          accept (encCode s.nextPassState.code) (s.setSession (newSession r s))
        else refuse .badArgument s := by
  show proveStart _ s = _
  unfold proveStart
  rw [withLength_of_length (n := 1) (by rfl)]
  simp only [argU_first, byte_toNat (show r.val < 256 by omega), asRun_val]

theorem nextPassState_of_prover {s : State} {x : ProverRecord} (h : s.retained.prover = some x) :
    s.nextPassState = if x.autoRelease then .armed else .held := by
  rw [nextPassState_eq]
  unfold State.autoRelease
  rw [h]
  rfl

theorem proverReady_of_slots {s : State} {x : ProverRecord} (h : s.retained.prover = some x)
    (ht : (s.retained.bindings[x.tSlot]).isSome = true)
    (hp : (s.retained.bindings[x.pSlot]).isSome = true) : proverReady s = true := by
  unfold proverReady
  rw [h]
  exact Bool.and_eq_true_iff.mpr ⟨ht, hp⟩

/-- Settles O45. -/
theorem proverIsLoadedAndAttachesAnOpenRun : Obligations.ProverIsLoadedAndAttachesAnOpenRun := by
  refine ⟨fun src tag args x s s1 ht hlen hread => ⟨fun idle => ?_, fun active => ?_⟩, ?_⟩
  · exact exec_of_handling rfl ht (by rw [loadProver_of_record hlen hread, idle]; rfl) rfl
  · exact exec_of_handling rfl ht (by rw [loadProver_of_record hlen hread, active]; rfl) rfl
  · intro src tag r x s s1 args state ht
    refine ⟨fun active => ?_, fun idle hst hopen hp hT hP => ?_⟩
    · exact exec_of_handling rfl ht (by rw [proveStart_of_run, active]; rfl) rfl
    · have begun : handling (.proveStart src tag args) s1
          = accept (encCode s1.nextPassState.code) (s1.setSession (newSession r s1)) := by
        rw [proveStart_of_run, idle, hst, hopen, proverReady_of_slots hp hT hP]
        simp
      have next := nextPassState_of_prover hp
      have code : encCode s1.nextPassState.code = [if x.autoRelease then 2 else 1] := by
        rw [next]
        cases x.autoRelease <;> rfl
      have session : newSession r s1
          = { state := state
              attached := some r
              product := some s1.retained.batch.product
              kFactor := s1.retained.runs[r].settings.map (·.kFactor)
              startInterval := some s1.retained.intervalNumber } := by
        unfold newSession
        rw [next]
        rfl
      rw [code, session] at begun
      exact exec_of_handling rfl ht begun rfl

/-! ### PROVE_HOLD, PROVE_RELEASE, PROVE_ABORT -/

theorem proveHold_handling (src tag : Byte) (s : State) :
    handling (.proveHold src tag []) s
      = if s.session.state.active then
          accept (encCode SessionState.held.code) (s.setSession s.session.hold)
        else refuse .wrongState s := rfl

theorem proveRelease_handling (src tag : Byte) (s : State) :
    handling (.proveRelease src tag []) s
      = if s.session.state.active then
          accept (encCode s.session.release.state.code) (s.setSession s.session.release)
        else refuse .wrongState s := rfl

theorem proveAbort_handling (src tag : Byte) (s : State) :
    handling (.proveAbort src tag []) s = accept [] (s.setSession s.session.abort) := rfl

theorem Session.hold_of_timed {x : Session} (h : x.state = .timing ∨ x.state = .finishing) :
    x.hold = { x with state := .held, items := {}, abandoned := min (x.abandoned + 1) 65535 } := by
  unfold Session.hold
  obtain h | h := h <;> simp only [h] <;> rfl

theorem Session.hold_of_waiting {x : Session} (h : x.state = .held ∨ x.state = .armed) :
    x.hold = { x with state := .held } := by
  unfold Session.hold
  obtain h | h := h <;> simp only [h]

theorem Session.active_of_timed {x : Session} (h : x.state = .timing ∨ x.state = .finishing) :
    x.state.active = true := by
  obtain h | h := h <;> rw [h] <;> rfl

theorem Session.active_of_waiting {x : Session} (h : x.state = .held ∨ x.state = .armed) :
    x.state.active = true := by
  obtain h | h := h <;> rw [h] <;> rfl

theorem Session.abort_of_active {x : Session} (h : x.state.active = true) :
    x.abort = { x with state := .idle, endCause := .aborted, items := {} } := by
  unfold Session.abort
  cases hx : x.state <;> simp only [hx, SessionState.active, Bool.false_eq_true] at h <;> rfl

theorem Session.abort_of_ended {x : Session} (h : x.state = .complete ∨ x.state = .failed) :
    x.abort = { x with state := .idle, endCause := .aborted, items := {}, results := none } := by
  unfold Session.abort
  obtain h | h := h <;> rw [h] <;> rfl

theorem State.setSession_self (s : State) : s.setSession s.session = s := rfl

/-- Settles O46. -/
theorem holdAndAbortEndThePass : Obligations.HoldAndAbortEndThePass := by
  intro src tag s s1 x timed
  refine ⟨fun ht => ⟨fun h => ?_, fun h => ?_, fun h => ?_⟩, fun ht => ⟨fun h => ?_, fun h => ?_, fun h => ?_⟩⟩
  · refine exec_of_handling rfl ht ?_ rfl
    rw [proveHold_handling, if_pos (Session.active_of_timed h), Session.hold_of_timed h]
    rfl
  · refine exec_of_handling rfl ht ?_ rfl
    rw [proveHold_handling, if_pos (Session.active_of_waiting h), Session.hold_of_waiting h]
    rfl
  · refine exec_of_handling rfl ht ?_ rfl
    rw [proveHold_handling, if_neg (by rw [show s1.session.state.active = false from h]; simp)]
    rfl
  · refine exec_of_handling rfl ht ?_ rfl
    rw [proveAbort_handling, show s1.session.abort = s1.session by
      unfold Session.abort
      rw [show s1.session.state = .idle from h]]
    rfl
  · refine exec_of_handling rfl ht ?_ rfl
    rw [proveAbort_handling, Session.abort_of_active h]
    rfl
  · refine exec_of_handling rfl ht ?_ rfl
    rw [proveAbort_handling, Session.abort_of_ended h]
    rfl

/-- Settles O47. -/
theorem releaseArmsAHeldSession : Obligations.ReleaseArmsAHeldSession := by
  intro src tag s s1 ht x
  refine ⟨fun h => ?_, fun h => ?_, fun h => ?_⟩
  · have inactive : s1.session.state.active = false := by
      obtain h | h | h := h <;> rw [show s1.session.state = _ from h] <;> rfl
    refine exec_of_handling rfl ht ?_ rfl
    rw [proveRelease_handling, inactive]
    rfl
  · have armed : s1.session.release = { s1.session with state := .armed } := by
      unfold Session.release
      rw [show s1.session.state = _ from h]
    refine exec_of_handling rfl ht ?_ rfl
    rw [proveRelease_handling, armed, show s1.session.state = _ from h]
    rfl
  · have active : s1.session.state.active = true := by
      obtain h | h | h := h <;> rw [show s1.session.state = _ from h] <;> rfl
    have same : s1.session.release = s1.session := by
      unfold Session.release
      obtain h | h | h := h <;> rw [show s1.session.state = _ from h]
    refine exec_of_handling rfl ht ?_ rfl
    rw [proveRelease_handling, active, same]
    rfl

/-! ### Detector events (R115, R118, R119) -/

/-- A stray detector event is counted. -/
def Session.strayed (x : Session) : Session := { x with stray := count1 cap16 x.stray }

/-- R119: a DET2 event that ends the timing of a pass. -/
def Session.timed (x : Session) (stamp : Word32) : Session :=
  { x with state := .finishing, items := { x.items with tD2 := some stamp } }

/-- R118, R119: the session once a detector event has reached it, when it does not spoil the pass. -/
def Session.detected (x : Session) (d : Detector) (stamp : Word32) : Session :=
  match d, x.state with
  | .det1, .armed => { x with state := .timing, items := { tD1 := some stamp, timeoutRunning := true } }
  | .det2, .timing => x.timed stamp
  | .det1, .timing | .det1, .finishing | .det2, .armed | .det2, .finishing => x.strayed
  | _, _ => x

theorem Session.detected_det1_of_timed {x : Session} (h : x.state = .timing ∨ x.state = .finishing)
    (stamp : Word32) : x.detected .det1 stamp = x.strayed := by
  unfold Session.detected
  obtain h | h := h <;> rw [h]

theorem Session.detected_det2_of_untimed {x : Session} (h : x.state = .armed ∨ x.state = .finishing)
    (stamp : Word32) : x.detected .det2 stamp = x.strayed := by
  unfold Session.detected
  obtain h | h := h <;> rw [h]

theorem Session.detected_det2_of_timing {x : Session} (h : x.state = .timing) (stamp : Word32) :
    x.detected .det2 stamp = x.timed stamp := by
  unfold Session.detected
  rw [h]

/-- R119: the DET2 event that finds a timed pass without its first pulse. -/
def State.FewPulses (s : State) (d : Detector) : Prop :=
  d = .det2 ∧ s.session.state = .timing ∧ s.session.items.tP1 = none

theorem passEvent_of_few {d : Detector} {s : State} (h : s.FewPulses d) (stamp : Word32) :
    passEvent d stamp s = spoilPass .fewPulses s := by
  obtain ⟨rfl, hs, hp⟩ := h
  show passDet2 stamp s = _
  unfold passDet2
  simp only [hs, hp]

theorem passEvent_of_enough {d : Detector} {s : State} (h : ¬s.FewPulses d) (stamp : Word32) :
    passEvent d stamp s = s.setSession (s.session.detected d stamp) := by
  cases d with
  | det1 =>
    show passDet1 stamp s = _
    unfold passDet1 Session.detected
    cases hs : s.session.state <;> rfl
  | det2 =>
    show passDet2 stamp s = _
    unfold passDet2 Session.detected
    cases hs : s.session.state with
    | timing =>
      cases hp : s.session.items.tP1 with
      | none => exact absurd ⟨rfl, hs, hp⟩ h
      | some p => rfl
    | _ => rfl

/-- R118, R119: a detector event changes the session, its two conditions, and the loop. -/
theorem passEvent_loopOnly (d : Detector) (stamp : Word32) (s : State) :
    LoopOnly (s.setSession (passEvent d stamp s).session) (passEvent d stamp s) := by
  by_cases h : s.FewPulses d
  · have only := spoilPass_loopOnly .fewPulses s
    rw [passEvent_of_few h, show (spoilPass .fewPulses s).session = _ from only.session]
    exact only
  · rw [passEvent_of_enough h]
    exact LoopOnly.refl _

theorem exec_detectorEvent {det : Detector} {edge : Edge} {stamp : Word32} {s : State} (hr : s.Runs) :
    exec (.detectorEvent det edge stamp) s = .next (detectorEdge det edge stamp (advanceTo stamp s)) := by
  have kept : (detectorEdge det edge stamp (advanceTo stamp s)).restartPending = false := by
    unfold detectorEdge acceptedEdge
    split
    · split
      · exact (State.setDet_restartPending ..).trans hr.2
      · exact (passEvent_loopOnly ..).restartPending.trans ((State.setDet_restartPending ..).trans hr.2)
    · exact hr.2
  show execDetectorEvent det edge stamp s = _
  unfold execDetectorEvent
  rw [whenRunning_of_runs hr kept]

theorem edgeSelected_of_prover {s : State} {x : ProverRecord} (h : s.retained.prover = some x) (d : Detector)
    (e : Edge) : edgeSelected d e s = ((x.setup d).enabled && (x.setup d).polarity == e) := by
  unfold edgeSelected
  rw [h]

theorem acceptedEvent_session {det : Detector} {stamp : Word32} {s t : State} {x : ProverRecord}
    (hp : s.retained.prover = some x) (ht : t = passEvent det stamp s) :
    (det = .det1 → s.session.state = .armed →
        t.session
          = { s.session with state := .timing, items := { tD1 := some stamp, timeoutRunning := true } })
      ∧ (det = .det1 → (s.session.state = .timing ∨ s.session.state = .finishing) →
          t.session = { s.session with stray := min (s.session.stray + 1) 65535 })
      ∧ (det = .det2 → s.session.state = .timing → s.session.items.tP1.isSome = true →
          t.session
            = { s.session with state := .finishing, items := { s.session.items with tD2 := some stamp } })
      ∧ (det = .det2 → s.session.state = .timing → s.session.items.tP1 = none →
          t.session = s.session.afterSpoil .fewPulses x.autoRelease
            ∧ (t.cond .provePassSpoiled).occurrences
                = min ((s.cond .provePassSpoiled).occurrences + 1) 65535)
      ∧ (det = .det2 → (s.session.state = .armed ∨ s.session.state = .finishing) →
          t.session = { s.session with stray := min (s.session.stray + 1) 65535 })
      ∧ (s.session.state = .held ∨ s.session.state.active = false → t.session = s.session)
      ∧ (¬(det = .det2 ∧ s.session.state = .timing ∧ s.session.items.tP1 = none) →
          t.conds = s.conds ∧ t.outbound = s.outbound) := by
  have enough (h : ¬s.FewPulses det) : t.session = s.session.detected det stamp := by
    rw [ht, passEvent_of_enough h]
    rfl
  subst ht
  have untimed (h : s.session.state ≠ .timing) : ¬s.FewPulses det := fun few => h few.2.1
  have first (h : det = .det1) : ¬s.FewPulses det := fun few => by rw [h] at few; exact nomatch few.1
  refine ⟨fun hd hs => ?_, fun hd hs => ?_, fun hd hs hi => ?_, fun hd hs hi => ?_, fun hd hs => ?_,
    fun hs => ?_, fun h => ?_⟩
  · rw [enough (first hd), hd]
    simp only [Session.detected, hs]
  · rw [enough (first hd), hd]
    exact Session.detected_det1_of_timed hs stamp
  · rw [enough (fun few => by rw [few.2.2] at hi; exact nomatch hi), hd]
    exact Session.detected_det2_of_timing hs stamp
  · rw [passEvent_of_few ⟨hd, hs, hi⟩]
    refine ⟨?_, by rw [spoilPass_cond_spoiled]; rfl⟩
    have auto : s.autoRelease = x.autoRelease := by
      unfold State.autoRelease
      rw [hp]
      rfl
    rw [← auto]
    exact (spoilPass_loopOnly .fewPulses s).session
  · rw [enough (untimed (by obtain hs | hs := hs <;> rw [hs] <;> simp)), hd]
    exact Session.detected_det2_of_untimed hs stamp
  · have other : s.session.state ≠ .timing := by
      rintro hx
      rw [hx] at hs
      simp [SessionState.active] at hs
    rw [enough (untimed other)]
    unfold Session.detected
    cases det <;> cases hx : s.session.state <;> simp [hx, SessionState.active] at hs ⊢
  · rw [passEvent_of_enough h]
    exact ⟨rfl, rfl⟩

/-- R115: an edge that its detector takes, outside the dead time. -/
theorem detectorEdge_of_event {det : Detector} {edge : Edge} {stamp : Word32} {s : State}
    (h : edgeSelected det edge s = true) (hd : (s.det det).deadRunning = false) :
    detectorEdge det edge stamp s = passEvent det stamp (s.setDet det ((s.det det).take stamp)) := by
  unfold detectorEdge acceptedEdge
  rw [h, hd]
  rfl

/-- R116: an edge that its detector takes, in the dead time. -/
theorem detectorEdge_of_dead {det : Detector} {edge : Edge} {stamp : Word32} {s : State}
    (h : edgeSelected det edge s = true) (hd : (s.det det).deadRunning = true) :
    detectorEdge det edge stamp s
      = s.setDet det { s.det det with rejects := min ((s.det det).rejects + 1) 65535 } := by
  unfold detectorEdge acceptedEdge
  rw [h, if_pos hd]
  rfl

theorem detectorEdge_of_unselected {det : Detector} {edge : Edge} {stamp : Word32} {s : State}
    (h : edgeSelected det edge s = false) : detectorEdge det edge stamp s = s := by
  unfold detectorEdge
  rw [h]
  rfl

theorem LoopOnly.det {s t : State} (h : LoopOnly s t) (d : Detector) : t.det d = s.det d := by
  cases d
  · exact h.det1
  · exact h.det2

theorem State.det_setSession (s : State) (x : Session) (d : Detector) : (s.setSession x).det d = s.det d := by
  cases d <;> rfl

theorem State.det_advanceClock (s : State) (n : Nat) (d : Detector) : (advanceClock n s).det d = s.det d := by
  cases d <;> rfl

theorem setDet_cond (s : State) (d : Detector) (x : DetectorState) (c : CondId) :
    (s.setDet d x).cond c = s.cond c := by
  cases d <;> rfl

/-- Settles O50. -/
theorem detectorEventsAndDeadTimes : Obligations.DetectorEventsAndDeadTimes := by
  refine ⟨fun det edge stamp x s hr hp => ?_, fun det edge stamp s hr hp => ?_, ?_⟩
  · intro d y strayed
    have selected := edgeSelected_of_prover (s := advanceTo stamp s) hp det edge
    have same : (advanceTo stamp s).det det = d := State.det_advanceClock s _ det
    refine ⟨fun he hpol hdead => ?_, fun he hpol hdead => ?_, fun hno => ?_⟩
    · have taken := detectorEdge_of_event (stamp := stamp) (by rw [selected, he, hpol]; simp)
        (by rw [same]; exact hdead)
      rw [same] at taken
      have items := acceptedEvent_session (det := det) (stamp := stamp) (x := x)
        (s := (advanceTo stamp s).setDet det (d.take stamp)) (by rw [State.setDet_retained]; exact hp) rfl
      have only := passEvent_loopOnly det stamp ((advanceTo stamp s).setDet det (d.take stamp))
      simp only [State.setDet_session, State.setDet_conds, State.setDet_outbound, setDet_cond] at items
      refine ⟨_, (exec_detectorEvent hr).trans (by rw [taken]), ?_, fun e hne => ?_, ?_, ?_, ?_, ?_, items⟩
      · rw [only.det, State.det_setSession, State.det_setDet]
        rfl
      · rw [only.det, State.det_setSession, State.det_setDet_ne _ det e _ hne]
        exact State.det_advanceClock s _ e
      · rw [only.timebase]
        exact (State.setDet_timebase ..).trans (advanceTo_timebase _ stamp)
      · rw [only.retained]
        exact State.setDet_retained ..
      · rw [only.runs]
        exact State.setDet_runs ..
      · rw [only.pulses]
        exact State.setDet_pulses ..
    · have taken := detectorEdge_of_dead (stamp := stamp) (by rw [selected, he, hpol]; simp)
        (by rw [same]; exact hdead)
      rw [exec_detectorEvent hr, taken, same]
    · have other : edgeSelected det edge (advanceTo stamp s) = false := by
        rw [selected]
        obtain h | h := hno
        · rw [h, Bool.false_and]
        · rw [beq_false_of_ne h, Bool.and_false]
      rw [exec_detectorEvent hr, detectorEdge_of_unselected other]
  · have other : edgeSelected det edge (advanceTo stamp s) = false := by
      unfold edgeSelected
      rw [show (advanceTo stamp s).retained.prover = none from hp]
    rw [exec_detectorEvent hr, detectorEdge_of_unselected other]
  · intro det start x s hr hp hl hd left
    have due : s.deadTimeLeft det = some left := by
      unfold State.deadTimeLeft
      rw [hp, hl]
      simp only [hd, if_true]
      rfl
    show execDeadTimeEnd det s = _
    unfold execDeadTimeEnd
    rw [whenRunning_of_runs hr (by simp only [due, endDeadTime, State.setDet_restartPending]; exact hr.2)]
    simp only [due, endDeadTime, State.det_advanceClock]

end Sys2Proof.Machine
end

