-- ==== Sys2Proof/Proofs/Sessions.lean ====
section
/-! PROOFS. The evaluation of several conditions in turn, and what a prove session's own steps leave as it
is. -/

namespace Sys2Proof.Machine

/-! ### Conditions evaluated in turn -/

/-- Conditions evaluated one after another, each with its active mark. -/
def reportAll (l : List (CondId × Bool)) (s : State) : State :=
  l.foldl (fun s x => report x.1 x.2 s) s

theorem reportAll_loopOnly (l : List (CondId × Bool)) (s : State) : LoopOnly s (reportAll l s) := by
  induction l generalizing s with
  | nil => exact LoopOnly.refl s
  | cons x l ih => exact (report_loopOnly x.1 x.2 s).trans (ih _)

theorem reportAll_noticesEnter (l : List (CondId × Bool)) (s : State) :
    NoticesEnter l.length s (reportAll l s) := by
  induction l generalizing s with
  | nil => exact NoticesEnter.refl s
  | cons x l ih =>
    exact ((report_noticesEnter x.1 x.2 s).trans (ih _)).mono (by simp; omega)

theorem reportAll_cond_ne {l : List (CondId × Bool)} {e : CondId} (h : e ∉ l.map (·.1))
    (hd : e ≠ .outboundDiscard) (s : State) : (reportAll l s).cond e = s.cond e := by
  induction l generalizing s with
  | nil => rfl
  | cons x l ih =>
    simp only [List.map_cons, List.mem_cons, not_or] at h
    exact (ih h.2 _).trans (report_cond_ne hd h.1 x.2 s)

/-- Each of the conditions is evaluated once, by the mark it comes with. -/
theorem reportAll_cond {l : List (CondId × Bool)} (hl : (l.map (·.1)).Nodup) {c : CondId} {b : Bool}
    (h : (c, b) ∈ l) (hd : c ≠ .outboundDiscard) (s : State) : (reportAll l s).cond c = s.told c b := by
  induction l generalizing s with
  | nil => exact absurd h List.not_mem_nil
  | cons x l ih =>
    rw [List.map_cons, List.nodup_cons] at hl
    obtain rfl | h := List.mem_cons.mp h
    · exact (reportAll_cond_ne hl.1 hd _).trans (report_cond_self hd b s)
    · have other : c ≠ x.1 := fun hc => hl.1 (hc ▸ List.mem_map_of_mem (f := (·.1)) h)
      exact (ih hl.2 h _).trans
        (State.told_congr (report_cond_ne hd other x.2 s) (report_retained _ _ _) b)

/-! ### What the steps of a session leave as they are -/

/-- The conditions of the Prove Controller (R153). -/
def proveConds : List CondId := [.provePassSpoiled, .proveFailed, .proveComplete]

/-- `t` is `s` but for the session, the conditions of the Prove Controller, and the loop. -/
structure SessionOnly (s t : State) : Prop where
  rest : LoopOnly (s.setSession t.session) t
  conds : ∀ e : CondId, e ∉ proveConds → e ≠ .outboundDiscard → t.cond e = s.cond e

theorem SessionOnly.refl (s : State) : SessionOnly s s := ⟨LoopOnly.refl s, fun _ _ _ => rfl⟩

theorem SessionOnly.setSession (s : State) (x : Session) : SessionOnly s (s.setSession x) :=
  ⟨LoopOnly.refl _, fun _ _ _ => rfl⟩

theorem SessionOnly.trans {s t u : State} (h : SessionOnly s t) (k : SessionOnly t u) : SessionOnly s u where
  rest := by
    have start := h.rest.setSession u.session
    exact start.trans k.rest
  conds e he hd := (k.conds e he hd).trans (h.conds e he hd)

theorem occur_sessionOnly {c : CondId} (h : c ∈ proveConds) (s : State) : SessionOnly s (occur c s) where
  rest := by
    rw [occur_session]
    exact occur_loopOnly c s
  conds e he hd := occur_cond_ne hd (fun hc => he (hc ▸ h)) s

theorem offerReport_sessionOnly (s : State) : SessionOnly s (offerReport s) where
  rest := by
    rw [offerReport_session]
    exact offerReport_loopOnly s
  conds _ _ hd := offerReport_cond_ne hd s

theorem failSession_sessionOnly (cause : EndCause) (s : State) : SessionOnly s (failSession cause s) :=
  ((SessionOnly.setSession s _).trans (offerReport_sessionOnly _)).trans
    (occur_sessionOnly (by simp [proveConds]) _)

theorem completeSession_sessionOnly (rec : ProverRecord) (window : List ProveRun) (s : State) :
    SessionOnly s (completeSession rec window s) :=
  ((SessionOnly.setSession s _).trans (offerReport_sessionOnly _)).trans
    (occur_sessionOnly (by simp [proveConds]) _)

theorem spoilPass_sessionOnly (cause : SpoilCause) (s : State) : SessionOnly s (spoilPass cause s) := by
  have counted := (SessionOnly.setSession s (s.session.countSpoil cause)).trans
    (occur_sessionOnly (c := .provePassSpoiled) (by simp [proveConds]) _)
  rw [spoilPass_eq]
  split
  · exact counted.trans (failSession_sessionOnly _ _)
  · exact counted.trans (SessionOnly.setSession _ _)

theorem testRepeatability_sessionOnly (rec : ProverRecord) (s : State) :
    SessionOnly s (testRepeatability rec s) := by
  unfold testRepeatability
  simp only
  split
  · exact SessionOnly.setSession s _
  · split
    · exact (SessionOnly.setSession s _).trans (completeSession_sessionOnly _ _ _)
    · split
      · exact (SessionOnly.setSession s _).trans (failSession_sessionOnly _ _)
      · exact SessionOnly.setSession s _

theorem recordPass_sessionOnly (rec : ProverRecord) (pass : PassRecord) (s : State) :
    SessionOnly s (recordPass rec pass s) := by
  unfold recordPass
  simp only
  split
  · exact SessionOnly.setSession s _
  · exact (SessionOnly.setSession s _).trans (testRepeatability_sessionOnly _ _)

theorem deliverPulse_sessionOnly (r : Fin 4) (stamp : Word32) (s : State) :
    SessionOnly s (deliverPulse r stamp s) := by
  unfold deliverPulse
  simp only
  split
  · split <;> exact SessionOnly.setSession s _
  · unfold completePass
    simp only
    split
    · split
      · exact spoilPass_sessionOnly _ s
      · exact recordPass_sessionOnly _ _ s
    · exact SessionOnly.refl s
  · exact SessionOnly.refl s

theorem batchReport_sessionOnly (s : State) : SessionOnly s (batchReport s) := by
  unfold batchReport
  split
  · exact failSession_sessionOnly _ s
  · exact SessionOnly.refl s

/-! ### What the Pulse Unit reports to the Prove Controller (R50, R127) -/

/-- A pass of run `r` is timed: the session has it attached, in TIMING or FINISHING. -/
def State.Times (s : State) (r : Fin 4) : Prop :=
  s.session.attached = some r ∧ (s.session.state = .timing ∨ s.session.state = .finishing)

theorem pulseUnitReport_of_timed {cause : SpoilCause} {r : Fin 4} {s : State} (h : s.Times r) :
    pulseUnitReport cause r s = spoilPass cause s := by
  obtain ⟨ha, hs⟩ := h
  unfold pulseUnitReport State.proving
  obtain hs | hs := hs <;> simp [ha, hs, SessionState.active]

theorem pulseUnitReport_of_untimed {cause : SpoilCause} {r : Fin 4} {s : State} (h : ¬s.Times r) :
    pulseUnitReport cause r s = s := by
  unfold pulseUnitReport State.proving
  refine if_neg fun both => h ?_
  simp only [Bool.and_eq_true, Bool.or_eq_true, beq_iff_eq] at both
  exact ⟨both.1.2, both.2⟩

theorem pulseUnitReport_sessionOnly (cause : SpoilCause) (r : Fin 4) (s : State) :
    SessionOnly s (pulseUnitReport cause r s) := by
  by_cases h : s.Times r
  · rw [pulseUnitReport_of_timed h]
    exact spoilPass_sessionOnly cause s
  · rw [pulseUnitReport_of_untimed h]
    exact SessionOnly.refl s

theorem pulseUnitReport_session (cause : SpoilCause) (r : Fin 4) (s : State) :
    (pulseUnitReport cause r s).session = s.sessionTold r cause := by
  by_cases h : s.Times r
  · rw [pulseUnitReport_of_timed h]
    exact ((spoilPass_loopOnly cause s).session).trans (if_pos h).symm
  · rw [pulseUnitReport_of_untimed h]
    exact (if_neg h).symm

theorem pulseUnitReport_cond_spoiled (cause : SpoilCause) (r : Fin 4) (s : State) (h : s.Times r) :
    (pulseUnitReport cause r s).cond .provePassSpoiled = s.occurred .provePassSpoiled := by
  rw [pulseUnitReport_of_timed h]
  exact spoilPass_cond_spoiled cause s

/-- A spoiled pass is no longer timed. -/
theorem not_times_of_sessionTold {cause : SpoilCause} {r : Fin 4} {s t : State} (h : s.Times r)
    (ht : t.session = s.sessionTold r cause) : ¬t.Times r := by
  have told : t.session = s.session.afterSpoil cause s.autoRelease := ht.trans (if_pos h)
  rintro ⟨-, timed⟩
  rw [told] at timed
  unfold Session.afterSpoil at timed
  by_cases third : 2 ≤ s.session.consecutive
  · simp [third] at timed
  · cases ha : s.autoRelease <;> simp [third, ha] at timed

/-- R50: Fine cleared, and then a change made pending, spoil a timed pass once. -/
theorem reportPulseUnit_sessionOnly (r : Fin 4) (before after : PulseState) (s : State) :
    SessionOnly s (reportPulseUnit r before after s) := by
  unfold reportPulseUnit
  simp only
  split <;> split
  · exact (pulseUnitReport_sessionOnly ..).trans (pulseUnitReport_sessionOnly ..)
  · exact pulseUnitReport_sessionOnly ..
  · exact pulseUnitReport_sessionOnly ..
  · exact SessionOnly.refl s

/-- Fine is set before and clear after. -/
def LosesFine (p q : PulseState) : Prop := p.fine = true ∧ q.fine = false

/-- No change is pending before and one is after. -/
def MakesChange (p q : PulseState) : Prop := p.change = none ∧ q.change ≠ none

theorem reportPulseUnit_of_loses {r : Fin 4} {p q : PulseState} (h : LosesFine p q) (s : State) :
    reportPulseUnit r p q s = pulseUnitReport .agreement r s := by
  unfold reportPulseUnit
  simp only [h.1, h.2, Bool.not_false, Bool.and_self, if_true]
  split
  · refine pulseUnitReport_of_untimed fun timed => ?_
    by_cases before : s.Times r
    · exact not_times_of_sessionTold before (pulseUnitReport_session ..) timed
    · rw [pulseUnitReport_of_untimed before] at timed
      exact before timed
  · rfl

theorem loses_bool {p q : PulseState} : (p.fine && !q.fine) = true ↔ LosesFine p q := by
  unfold LosesFine
  simp

theorem changes_bool {p q : PulseState} : (p.change.isNone && q.change.isSome) = true ↔ MakesChange p q := by
  unfold MakesChange
  simp [Option.isSome_iff_ne_none]

theorem reportPulseUnit_of_changes {r : Fin 4} {p q : PulseState} (hn : ¬LosesFine p q)
    (h : MakesChange p q) (s : State) : reportPulseUnit r p q s = pulseUnitReport .channel r s := by
  unfold reportPulseUnit
  simp only [if_neg (mt loses_bool.mp hn), if_pos (changes_bool.mpr h)]

theorem reportPulseUnit_of_neither {r : Fin 4} {p q : PulseState} (hn : ¬LosesFine p q)
    (h : ¬MakesChange p q) (s : State) : reportPulseUnit r p q s = s := by
  unfold reportPulseUnit
  simp only [if_neg (mt loses_bool.mp hn), if_neg (mt changes_bool.mp h)]

end Sys2Proof.Machine
end

