-- ==== Sys2Proof/Proofs/Runs.lean ====
section
/-! PROOFS. The commands on meter runs and the pulses of the Pulse Unit (O27 to O31). -/

namespace Sys2Proof.Machine

/-! ### The pulse conditions of a run (R46) -/

/-- R46: the mark of a pulse condition of run `r`. -/
def State.pulseMark (s : State) (r : Fin 4) (c : CondId) : Bool :=
  pulseCondActive s.retained.runs[r].settings (s.runs[r].state == .closed) s.pulses[r] c

theorem State.dual_eq (s : State) (r : Fin 4) :
    s.dual r = (s.retained.runs[r].settings.map (·.mode) == some .dual) := by
  unfold State.dual State.settings
  cases s.retained.runs[r].settings with
  | none => rfl
  | some x => simp

/-- A DUAL run has settings, so its primary channel is that of its settings. -/
theorem dual_and_primary (x : Option RunSettings) (ch : Channel) :
    (x.map (·.mode) == some .dual && ch != (x.map (·.primary)).getD .a)
      = (x.map (·.mode) == some .dual && x.map (·.primary) != some ch) := by
  cases x with
  | none => rfl
  | some x =>
    have primary : ∀ y : Channel, (ch != y) = (some y != some ch) := by
      intro y
      cases ch <;> cases y <;> rfl
    exact congrArg (_ && ·) (primary x.primary)

theorem evalPulseConds_eq (r : Fin 4) (s : State) :
    evalPulseConds r s = reportAll ((pulseConds r).map fun c => (c, s.pulseMark r c)) s := by
  have third := dual_and_primary s.retained.runs[r].settings s.pulses[r].totalizing
  unfold evalPulseConds reportAll State.pulseMark pulseCondActive pulseConds State.primary
  simp only [List.map_cons, List.map_nil, List.foldl_cons, List.foldl_nil, State.dual_eq]
  rw [Bool.and_right_comm, State.settings, third, Bool.and_right_comm]
  rfl

theorem pulseConds_nodup (r : Fin 4) : (pulseConds r).Nodup := by simp [pulseConds]

theorem pulseConds_ne_discard {r : Fin 4} {c : CondId} (h : c ∈ pulseConds r) : c ≠ .outboundDiscard := by
  rintro rfl
  simp [pulseConds] at h

theorem pulseConds_not_prove {r : Fin 4} {c : CondId} (h : c ∈ pulseConds r) : c ∉ proveConds := by
  simp only [pulseConds, List.mem_cons, List.not_mem_nil, or_false] at h
  obtain rfl | rfl | rfl := h <;> simp [proveConds]

theorem map_marks {l : List CondId} (f : CondId → Bool) :
    (l.map fun c => (c, f c)).map (·.1) = l := by
  rw [List.map_map]
  exact List.map_id' l

theorem evalPulseConds_cond {r : Fin 4} {c : CondId} (h : c ∈ pulseConds r) (s : State) :
    (evalPulseConds r s).cond c = s.told c (s.pulseMark r c) := by
  rw [evalPulseConds_eq]
  refine reportAll_cond (by rw [map_marks]; exact pulseConds_nodup r) ?_ (pulseConds_ne_discard h) s
  exact List.mem_map_of_mem (f := fun c => (c, s.pulseMark r c)) h

theorem evalPulseConds_cond_ne {r : Fin 4} {c : CondId} (h : c ∉ pulseConds r) (hd : c ≠ .outboundDiscard)
    (s : State) : (evalPulseConds r s).cond c = s.cond c := by
  rw [evalPulseConds_eq]
  exact reportAll_cond_ne (by rw [map_marks]; exact h) hd s

/-! ### LOAD_RUN, OPEN_RUN, CLOSE_RUN (R7 to R10, R43) -/

/-- Settles O27. -/
theorem loadRunReplacesTheSettings : Obligations.LoadRunReplacesTheSettings := by
  intro src tag args r x s s1 ht hlen hread old differs
  have handled : handling (.loadRun src tag args) s1
      = if s1.runs[r].state = .closed then accept [] (installSettings r x s1) else refuse .busy s1 := by
    show loadRun args s1 = _
    unfold loadRun
    rw [withLength_of_length hlen, hread]
  refine ⟨fun closed => ⟨residuesAfterLoad old x, ?_, ?_, ?_⟩, fun running => ?_⟩
  · rw [if_pos closed] at handled
    refine exec_of_handling rfl ht handled ?_
    exact evalPulseConds_restartPending ..
  · rintro ⟨y, hy, hk⟩
    unfold residuesAfterLoad
    rw [hy]
    exact if_neg hk
  · intro same
    unfold residuesAfterLoad
    split
    · next y hy =>
      by_cases hk : y.kFactor = x.kFactor
      · exact if_pos hk
      · exact absurd ⟨y, hy, hk⟩ same
    · rfl
  · rw [if_neg running] at handled
    exact exec_of_handling rfl ht handled rfl

theorem openRun_of_run (src tag : Byte) (r : Fin 4) (s : State) :
    handling (.openRun src tag [BitVec.ofNat 8 r.val]) s
      = if s.station ≠ .metering ∨ s.runs[r].state ≠ .closed then refuse .wrongState s
        else if canOpen r s then accept (encCode RunState.opening.code) (openRunAt r s)
        else refuse .badArgument s := by
  show openRun _ s = _
  unfold openRun
  rw [withLength_of_length (n := 1) (by rfl)]
  simp only [argU_first, byte_toNat (show r.val < 256 by omega), asRun_val]

/-- R8: CLOSE_RUN of a run, by its state. -/
def closeRunAt (r : Fin 4) (s : State) : State × Reply :=
  match s.runs[r].state with
  | .closed => refuse .wrongState s
  | .opening => accept (encCode RunState.closed.code) (closeFromOpening r s)
  | .opened =>
    if s.proving r then refuse .busy s
    else accept (encCode RunState.closing.code) (beginClosing r s)
  | .closing => accept (encCode RunState.closing.code) s

theorem closeRun_of_run (src tag : Byte) (r : Fin 4) (s : State) :
    handling (.closeRun src tag [BitVec.ofNat 8 r.val]) s = closeRunAt r s := by
  show closeRun _ s = _
  unfold closeRun
  rw [withLength_of_length (n := 1) (by rfl)]
  simp only [argU_first, byte_toNat (show r.val < 256 by omega), asRun_val]
  rfl

theorem canOpen_of_slots {r : Fin 4} {s : State} {st : StationRecord} {x : RunSettings}
    (hst : s.retained.station = some st) (hr : st.layout.allowsRun r = true)
    (hx : s.retained.runs[r].settings = some x) (ht : (s.retained.bindings[x.tSlot]).isSome = true)
    (hp : (s.retained.bindings[x.pSlot]).isSome = true) : canOpen r s = true := by
  unfold canOpen State.settings
  rw [hst, hx]
  exact Bool.and_eq_true_iff.mpr ⟨hr, Bool.and_eq_true_iff.mpr ⟨ht, hp⟩⟩

/-- Settles O28. -/
theorem runsOpenAndClose : Obligations.RunsOpenAndClose := by
  refine ⟨?_, ?_, fun r s => ⟨evalPulseConds_loopOnly r s, fun c hc => evalPulseConds_cond hc s,
    fun c hc hd => evalPulseConds_cond_ne hc hd s⟩⟩
  · intro src tag r st x s s1 args ht hm hc hst hr hx hT hP
    have opened : handling (.openRun src tag args) s1
        = (openRunAt r s1, { result := .ok, data := [1] }) := by
      rw [openRun_of_run, if_neg (not_or.mpr ⟨not_not.mpr hm, not_not.mpr hc⟩), if_pos (canOpen_of_slots hst hr hx hT hP)]
      rfl
    exact exec_of_handling rfl ht opened (evalPulseConds_restartPending ..)
  · intro src tag r s s1 args p ht
    have handled := closeRun_of_run src tag r s1
    unfold closeRunAt at handled
    refine ⟨fun h => ?_, fun h hp => ?_, fun h hp => ?_, fun h => ?_, fun h => ?_⟩ <;> rw [h] at handled
    · exact exec_of_handling rfl ht handled (evalPulseConds_restartPending ..)
    · simp only [hp] at handled
      exact exec_of_handling rfl ht handled (evalPulseConds_restartPending ..)
    · simp only [hp] at handled
      exact exec_of_handling rfl ht handled rfl
    · exact exec_of_handling rfl ht handled rfl
    · exact exec_of_handling rfl ht handled rfl

/-! ### SELECT_CHANNEL (R45) -/

theorem encCode_channel (ch : Channel) : encCode (channelCode ch) = [BitVec.ofNat 8 (channelCode ch)] := by
  cases ch <;> rfl

theorem changeData_eq (p : PulseState) :
    changeData p
      = [BitVec.ofNat 8 (channelCode p.totalizing)] ++ encFlag p.change.isSome
        ++ encOpt 1 (fun c => [BitVec.ofNat 8 (channelCode c)]) p.change := by
  unfold changeData
  rw [funext encCode_channel, encCode_channel]

/-- Settles O29. -/
theorem selectChannelSetsThePendingChange : Obligations.SelectChannelSetsThePendingChange := by
  intro src tag r ch x s s1 args p change ht hx hdual hnormal
  have dual : s1.dual r = true := by
    unfold State.dual State.settings
    rw [hx]
    simp [hdual]
  have only : SessionOnly (evalPulseConds r (s1.setPulse r (p.select ch))) (selectAt r ch s1) :=
    reportPulseUnit_sessionOnly ..
  have evaluated := evalPulseConds_loopOnly r (s1.setPulse r (p.select ch))
  have held : (selectAt r ch s1).pulses[r] = p.select ch := by
    have := only.rest.pulses.trans evaluated.pulses
    rw [this]
    simp
  have handled : handling (.selectChannel src tag args) s1
      = accept (changeData (p.select ch)) (selectAt r ch s1) := by
    show selectChannel args s1 = _
    unfold selectChannel
    rw [withLength_of_length (n := 2) (by rfl)]
    simp only [args, argU_first, argU_second, byte_toNat (show r.val < 256 by omega), asRun_val,
      byte_toNat (show channelCode ch < 256 by cases ch <;> simp [channelCode]), asChannel_code, dual,
      show s1.pulses[r].status.get ch = .normal from hnormal, held]
    rfl
  rw [changeData_eq] at handled
  have noLoss : ¬LosesFine p (p.select ch) := fun h => by
    have := h.2
    rw [show (p.select ch).fine = p.fine from rfl, h.1] at this
    exact nomatch this
  have session : (selectAt r ch s1).session
      = if p.change = none ∧ change ≠ none then s1.sessionTold r .channel else s1.session := by
    show (reportPulseUnit r p (p.select ch) _).session = _
    split
    · next h =>
      rw [reportPulseUnit_of_changes noLoss h, pulseUnitReport_session]
      unfold State.sessionTold
      rw [evalPulseConds_session, evalPulseConds_retained]
      rfl
    · next h =>
      rw [reportPulseUnit_of_neither noLoss h]
      exact evalPulseConds_session ..
  refine ⟨selectAt r ch s1, exec_of_handling rfl ht handled ?_, ?_, fun h => ?_, fun c hc => ?_⟩
  · exact only.rest.restartPending.trans evaluated.restartPending
  · have all := (evaluated.setSession (selectAt r ch s1).session).trans only.rest
    rw [session] at all
    exact all
  · have changed : MakesChange p (p.select ch) := by
      rw [session] at h
      by_contra hn
      exact h (if_neg hn)
    have eq : selectAt r ch s1
        = pulseUnitReport .channel r (evalPulseConds r (s1.setPulse r (p.select ch))) :=
      reportPulseUnit_of_changes noLoss changed _
    rw [eq, pulseUnitReport_cond_spoiled]
    · refine State.occurred_congr ?_ (evalPulseConds_retained ..)
      exact evalPulseConds_cond_ne (by simp [pulseConds]) (by simp) _
    · by_contra untimed
      rw [eq, pulseUnitReport_of_untimed untimed] at h
      exact h (evalPulseConds_session ..)
  · rw [only.conds c (pulseConds_not_prove hc) (pulseConds_ne_discard hc), evalPulseConds_cond hc]
    have mark : (s1.setPulse r (p.select ch)).pulseMark r c
        = pulseCondActive (some x) (s1.runs[r].state == .closed) p c := by
      unfold State.pulseMark
      rw [State.setPulse_retained, State.setPulse_runs, State.setPulse_pulses, hx]
      simp only [Fin.getElem_fin, Vector.getElem_set_self]
      rfl
    rw [mark]
    rfl

end Sys2Proof.Machine
end

