-- ==== Sys2Proof/Proofs/Pulses.lean ====
section
/-! PROOFS. The pulses of the Pulse Unit: what counts them, and what a checkpoint does (O30, O31). -/

namespace Sys2Proof.Machine

/-! ### The pulse state of a run after a pulse (R32, R37) -/

/-- R37: the pulse state once a pulse is in its interval count and its window count. -/
def State.windowed (s : State) (r : Fin 4) (ch : Channel) : PulseState :=
  (s.pulses[r].countInterval ch).countWindow ch

/-- R32, R37: the pulse state of a run that is not CLOSED after a pulse. -/
def State.pulsed (s : State) (r : Fin 4) (ch : Channel) : PulseState :=
  if s.dual r then
    if (s.windowed r ch).atCheckpoint ch then (s.windowed r ch).checkpoint ch else s.windowed r ch
  else s.pulses[r].countInterval ch

/-- R49: a pulse on the totalizing channel of the attached run is delivered to the Prove Controller. -/
def delivered (r : Fin 4) (ch : Channel) (stamp : Word32) (s : State) : State :=
  if s.proving r && s.pulses[r].totalizing == ch then deliverPulse r stamp s else s

theorem delivered_sessionOnly (r : Fin 4) (ch : Channel) (stamp : Word32) (s : State) :
    SessionOnly s (delivered r ch stamp s) := by
  unfold delivered
  split
  · exact deliverPulse_sessionOnly r stamp s
  · exact SessionOnly.refl s

theorem State.setPulse_setPulse (s : State) (r : Fin 4) (p q : PulseState) :
    (s.setPulse r p).setPulse r q = s.setPulse r q := by
  unfold State.setPulse
  simp only [Vector.set_set]

theorem State.pulse_setPulse (s : State) (r : Fin 4) (p : PulseState) : (s.setPulse r p).pulses[r] = p := by
  simp

/-- R37: the checkpoint of run `r`, reported to the Prove Controller. -/
def checkpointState (r : Fin 4) (ch : Channel) (s : State) : State :=
  reportPulseUnit r (s.windowed r ch) ((s.windowed r ch).checkpoint ch)
    (evalPulseConds r (s.setPulse r ((s.windowed r ch).checkpoint ch)))

theorem runPulse_of_single {r : Fin 4} {s : State} (h : s.dual r = false) (ch : Channel) (stamp : Word32) :
    runPulse r ch stamp s = delivered r ch stamp (s.setPulse r (s.pulsed r ch)) := by
  have dual : (s.setPulse r (s.pulses[r].countInterval ch)).dual r = false := h
  unfold runPulse State.pulsed
  simp only [dual, h, Bool.false_eq_true, if_false]
  rfl

theorem windowPulse_counted (r : Fin 4) (ch : Channel) (s : State) :
    windowPulse r ch (s.setPulse r (s.pulses[r].countInterval ch))
      = if (s.windowed r ch).atCheckpoint ch then checkpointState r ch s
        else s.setPulse r (s.windowed r ch) := by
  unfold windowPulse checkpointState
  simp only [State.pulse_setPulse, State.setPulse_setPulse]
  rfl

theorem runPulse_of_dual {r : Fin 4} {s : State} (h : s.dual r = true) (ch : Channel) (stamp : Word32) :
    runPulse r ch stamp s
      = delivered r ch stamp
          (if (s.windowed r ch).atCheckpoint ch then checkpointState r ch s
            else s.setPulse r (s.windowed r ch)) := by
  have dual : (s.setPulse r (s.pulses[r].countInterval ch)).dual r = true := h
  unfold runPulse
  simp only [dual, if_true, windowPulse_counted]
  rfl

theorem checkpointState_sessionOnly (r : Fin 4) (ch : Channel) (s : State) :
    SessionOnly (evalPulseConds r (s.setPulse r ((s.windowed r ch).checkpoint ch)))
      (checkpointState r ch s) :=
  reportPulseUnit_sessionOnly ..

theorem checkpointState_loopOnly (r : Fin 4) (ch : Channel) (s : State) :
    LoopOnly ((s.setPulse r ((s.windowed r ch).checkpoint ch)).setSession (checkpointState r ch s).session)
      (checkpointState r ch s) :=
  ((evalPulseConds_loopOnly r _).setSession _).trans (checkpointState_sessionOnly r ch s).rest

/-- R32: a pulse of a run that is not CLOSED changes its pulse state, the session, conditions, and the loop. -/
theorem runPulse_loopOnly (r : Fin 4) (ch : Channel) (stamp : Word32) (s : State) :
    LoopOnly ((s.setPulse r (s.pulsed r ch)).setSession (runPulse r ch stamp s).session)
      (runPulse r ch stamp s) := by
  cases h : s.dual r with
  | false =>
    rw [runPulse_of_single h]
    exact (delivered_sessionOnly r ch stamp _).rest
  | true =>
    rw [runPulse_of_dual h]
    unfold State.pulsed
    rw [if_pos h]
    cases (s.windowed r ch).atCheckpoint ch with
    | true =>
      exact ((checkpointState_loopOnly r ch s).setSession _).trans
        (delivered_sessionOnly r ch stamp (checkpointState r ch s)).rest
    | false => exact (delivered_sessionOnly r ch stamp _).rest

theorem exec_pulse {r : Fin 4} {ch : Channel} {stamp : Word32} {s : State} (hr : s.Runs) :
    exec (.pulse r ch stamp) s = .next (pulseEvent r ch stamp (advanceTo stamp s)) := by
  have kept : (pulseEvent r ch stamp (advanceTo stamp s)).restartPending = false := by
    unfold pulseEvent
    split
    · split
      · unfold idlePulse
        simp only
        split
        · exact (occur_restartPending ..).trans hr.2
        · exact hr.2
      · exact hr.2
    · exact (runPulse_loopOnly ..).restartPending.trans hr.2
  show execPulse r ch stamp s = _
  unfold execPulse
  rw [whenRunning_of_runs hr kept]

theorem exec_pulse_of_running {r : Fin 4} {ch : Channel} {stamp : Word32} {s : State} (hr : s.Runs)
    (h : s.runs[r].state ≠ .closed) :
    exec (.pulse r ch stamp) s = .next (runPulse r ch stamp (advanceTo stamp s)) := by
  rw [exec_pulse hr]
  exact congrArg _ (if_neg h)

/-! ### The items of a pulse state that a checkpoint leaves (R37 to R42) -/

/-- The items of a pulse state that no checkpoint changes. -/
def PulseState.SameCounts (p q : PulseState) : Prop :=
  q.counts = p.counts ∧ q.idle = p.idle ∧ q.totalizing = p.totalizing

theorem PulseState.substitute_sameCounts (p : PulseState) (ch : Channel) : p.SameCounts (p.substitute ch) := by
  unfold PulseState.substitute
  split
  · split <;> exact ⟨rfl, rfl, rfl⟩
  · split <;> exact ⟨rfl, rfl, rfl⟩

theorem PulseState.checkpoint_sameCounts (p : PulseState) (ch : Channel) : p.SameCounts (p.checkpoint ch) := by
  unfold PulseState.checkpoint
  simp only
  split
  · unfold PulseState.lose
    simp only
    split
    · exact ⟨rfl, rfl, rfl⟩
    · exact PulseState.substitute_sameCounts _ _
  · split
    · unfold PulseState.checkNormal
      split
      · exact ⟨rfl, rfl, rfl⟩
      · split
        · exact ⟨rfl, rfl, rfl⟩
        · split
          · exact ⟨rfl, rfl, rfl⟩
          · split <;> exact ⟨rfl, rfl, rfl⟩
    · unfold PulseState.checkLost
      simp only
      split
      · exact ⟨rfl, rfl, rfl⟩
      · split <;> exact ⟨rfl, rfl, rfl⟩

theorem State.pulsed_sameCounts (s : State) (r : Fin 4) (ch : Channel) :
    (s.pulses[r].countInterval ch).SameCounts (s.pulsed r ch) := by
  unfold State.pulsed
  split
  · split
    · exact PulseState.checkpoint_sameCounts (s.windowed r ch) ch
    · exact ⟨rfl, rfl, rfl⟩
  · exact ⟨rfl, rfl, rfl⟩

theorem channel_other_ne (ch : Channel) : ch.other ≠ ch := by
  cases ch <;> simp [Channel.other]

/-- Settles O30. -/
theorem pulsesAreCountedByRunState : Obligations.PulsesAreCountedByRunState := by
  intro r ch stamp s hr
  refine ⟨fun running => ?_, fun closed primary => ?_, fun closed secondary => ?_⟩
  · have only := runPulse_loopOnly r ch stamp (advanceTo stamp s)
    have pulses : (runPulse r ch stamp (advanceTo stamp s)).pulses
        = s.pulses.set r ((advanceTo stamp s).pulsed r ch) := only.pulses
    obtain ⟨counts, idle, totalizing⟩ := (advanceTo stamp s).pulsed_sameCounts r ch
    have own : (runPulse r ch stamp (advanceTo stamp s)).pulses[r] = (advanceTo stamp s).pulsed r ch := by
      rw [pulses]
      simp
    refine ⟨_, exec_pulse_of_running hr running, ?_, ?_, ?_, ?_, fun q hq => ?_,
      only.timebase.trans (advanceTo_timebase _ stamp), only.retained, only.runs, only.live, only.station⟩
    · rw [own, counts]
      exact ByChannel.get_set ..
    · rw [own, counts]
      exact ByChannel.get_set_ne _ _ _ _ (channel_other_ne ch)
    · rw [own, idle]
      rfl
    · rw [own, totalizing]
      rfl
    · rw [pulses]
      exact Vector.getElem_set_ne _ _ (fun h => hq (Fin.ext h.symm))
  · have idle : pulseEvent r ch stamp (advanceTo stamp s) = idlePulse r (advanceTo stamp s) := by
      unfold pulseEvent
      rw [if_pos (by exact closed), if_pos (by exact primary)]
    rw [exec_pulse hr, idle]
    refine ⟨_, rfl, ?_, fun h => ?_, fun h => ?_⟩
    · unfold idlePulse
      simp only
      split
      · exact occur_loopOnly ..
      · exact LoopOnly.refl _
    · unfold idlePulse
      simp only
      rw [if_pos (by exact h), occur_cond_self (by simp)]
      rfl
    · unfold idlePulse
      simp only
      rw [if_neg (by exact h)]
      rfl
  · rw [exec_pulse hr]
    unfold pulseEvent
    rw [if_pos (by exact closed), if_neg (by exact secondary)]

/-! ### Checkpoints (R37 to R42, R50) -/

theorem PulseState.atCheckpoint_iff (p : PulseState) (ch : Channel) :
    p.atCheckpoint ch = true
      ↔ (p.windows.get ch = 16 ∨ p.windows.get ch = 32 ∨ p.windows.get ch = 64)
        ∧ p.windows.get ch.other < p.windows.get ch := by
  unfold PulseState.atCheckpoint
  simp [or_assoc]

theorem windowed_atCheckpoint_iff (s : State) (r : Fin 4) (ch : Channel) :
    (s.windowed r ch).atCheckpoint ch = true
      ↔ (s.pulses[r].windows.get ch + 1 = 16 ∨ s.pulses[r].windows.get ch + 1 = 32
          ∨ s.pulses[r].windows.get ch + 1 = 64)
        ∧ s.pulses[r].windows.get ch.other < s.pulses[r].windows.get ch + 1 := by
  have own : (s.windowed r ch).windows.get ch = s.pulses[r].windows.get ch + 1 := ByChannel.get_set ..
  have other : (s.windowed r ch).windows.get ch.other = s.pulses[r].windows.get ch.other :=
    ByChannel.get_set_ne _ _ _ _ (channel_other_ne ch)
  rw [PulseState.atCheckpoint_iff, own, other]

/-- R39: a checkpoint at which the lagging channel has counted, both channels NORMAL. -/
theorem PulseState.checkpoint_of_normal {p : PulseState} {ch : Channel}
    (hl : 1 ≤ p.windows.get ch.other) (hn : p.status = ⟨.normal, .normal⟩) :
    p.checkpoint ch
      = p.checkNormal (p.windows.get ch) (p.windows.get ch - p.windows.get ch.other - 1) := by
  unfold PulseState.checkpoint
  rw [if_neg (by omega), if_pos (by rw [hn]; exact ⟨rfl, rfl⟩)]

/-- R40: a checkpoint at which the lagging channel has counted, a channel LOST. -/
theorem PulseState.checkpoint_of_lost {p : PulseState} {ch : Channel}
    (hl : 1 ≤ p.windows.get ch.other) (hn : p.status ≠ ⟨.normal, .normal⟩) :
    p.checkpoint ch
      = p.checkLost (p.windows.get ch) (p.windows.get ch - p.windows.get ch.other - 1) := by
  unfold PulseState.checkpoint
  rw [if_neg (by omega), if_neg]
  rintro ⟨ha, hb⟩
  refine hn ?_
  cases hst : p.status with
  | mk a b =>
    rw [hst] at ha hb
    exact congr (congrArg ByChannel.mk ha) hb

/-- R38: a checkpoint at which the other channel has counted nothing. -/
theorem PulseState.checkpoint_of_silent {p : PulseState} {ch : Channel}
    (hl : p.windows.get ch.other = 0) : p.checkpoint ch = p.lose ch.other := by
  unfold PulseState.checkpoint
  rw [if_pos hl]

theorem checkpoint_outcomes (p : PulseState) (ch : Channel) :
    let lead := p.windows.get ch
    let lag := p.windows.get ch.other
    let d := lead - lag - 1
    let fresh := { p with windows := ⟨0, 0⟩ }
    let normal := p.status = ⟨.normal, .normal⟩
    let disagreed := fun n : Nat =>
      { fresh with
        cumDisagree := min (p.cumDisagree + n) 4294967295
        batchDisagree := min (p.batchDisagree + n) 4294967295 }
    (1 ≤ lag → normal → 2 ≤ d →
      p.checkpoint ch = { disagreed d with coarse := false, fine := false })
    ∧ (1 ≤ lag → normal → d ≤ 1 → lead = 16 → p.checkpoint ch = p)
    ∧ (1 ≤ lag → normal → d ≤ 1 → lead = 32 → p.checkpoint ch = { p with coarse := true })
    ∧ (1 ≤ lag → normal → d = 0 → lead = 64 →
        p.checkpoint ch = { fresh with coarse := true, fine := true })
    ∧ (1 ≤ lag → normal → d = 1 → lead = 64 →
        p.checkpoint ch = { disagreed 1 with fine := false })
    ∧ (1 ≤ lag → ¬normal → 2 ≤ d →
        p.checkpoint ch = { fresh with coarse := false, fine := false })
    ∧ (1 ≤ lag → ¬normal → d ≤ 1 → (lead = 16 ∨ lead = 32) →
        p.checkpoint ch = { p with status := ⟨.normal, .normal⟩ })
    ∧ (1 ≤ lag → ¬normal → d = 0 → lead = 64 →
        p.checkpoint ch = { fresh with status := ⟨.normal, .normal⟩ })
    ∧ (1 ≤ lag → ¬normal → d = 1 → lead = 64 →
        p.checkpoint ch = { fresh with status := ⟨.normal, .normal⟩, fine := false }) := by
  intro lead lag d fresh normal disagreed
  refine ⟨fun hl hn hd => ?_, fun hl hn hd h => ?_, fun hl hn hd h => ?_, fun hl hn hd h => ?_,
    fun hl hn hd h => ?_, fun hl hn hd => ?_, fun hl hn hd h => ?_, fun hl hn hd h => ?_,
    fun hl hn hd h => ?_⟩
  · rw [PulseState.checkpoint_of_normal hl hn]
    exact if_pos hd
  · rw [PulseState.checkpoint_of_normal hl hn]
    unfold PulseState.checkNormal
    rw [if_neg (by omega), if_pos h]
  · rw [PulseState.checkpoint_of_normal hl hn]
    unfold PulseState.checkNormal
    rw [if_neg (by omega), if_neg (by omega), if_pos h]
  · rw [PulseState.checkpoint_of_normal hl hn]
    unfold PulseState.checkNormal
    rw [if_neg (by omega), if_neg (by omega), if_neg (by omega), if_pos hd]
    rfl
  · rw [PulseState.checkpoint_of_normal hl hn]
    unfold PulseState.checkNormal
    rw [if_neg (by omega), if_neg (by omega), if_neg (by omega), if_neg (by omega)]
    rfl
  · rw [PulseState.checkpoint_of_lost hl hn]
    exact if_pos hd
  · rw [PulseState.checkpoint_of_lost hl hn]
    unfold PulseState.checkLost
    simp only
    rw [if_neg (by omega), if_neg (by omega)]
  · rw [PulseState.checkpoint_of_lost hl hn]
    unfold PulseState.checkLost
    simp only
    rw [if_neg (by omega), if_pos h, if_neg (by omega)]
    rfl
  · rw [PulseState.checkpoint_of_lost hl hn]
    unfold PulseState.checkLost
    simp only
    rw [if_neg (by omega), if_pos h, if_pos hd]
    rfl

/-- R38: the pulse state once its channel `ch` is LOST, with flags and window cleared. -/
def PulseState.silenced (p : PulseState) (ch : Channel) : PulseState :=
  ({ p with status := p.status.set ch .lost }).clearFlags.restartWindow

theorem PulseState.lose_eq (p : PulseState) (ch : Channel) :
    p.lose ch = if p.status.get ch = .lost then p.silenced ch else (p.silenced ch).substitute ch := rfl

/-- What the loss of a channel changes besides the change state. -/
theorem PulseState.substitute_eq (p : PulseState) (ch : Channel) :
    p.substitute ch = { p with change := (p.substitute ch).change } := by
  unfold PulseState.substitute
  split
  · split <;> rfl
  · split <;> rfl

theorem PulseState.lose_rest (p : PulseState) (ch : Channel) :
    p.lose ch = { p.silenced ch with change := (p.lose ch).change } := by
  rw [PulseState.lose_eq]
  split
  · rfl
  · exact PulseState.substitute_eq _ _

theorem PulseState.substitute_change (q : PulseState) (ch : Channel) :
    (q.substitute ch).change
      = if ch = q.totalizing then
          if q.status.get ch.other = .normal ∧ q.change = none then some ch.other else q.change
        else if q.change = some ch then none else q.change := by
  unfold PulseState.substitute
  simp only [apply_ite PulseState.change]

theorem PulseState.lose_change_of_normal {p : PulseState} {ch : Channel} (h : p.status.get ch = .normal) :
    (p.lose ch).change
      = if ch = p.totalizing then
          if p.status.get ch.other = .normal ∧ p.change = none then some ch.other else p.change
        else if p.change = some ch then none else p.change := by
  have other : (p.silenced ch).status.get ch.other = p.status.get ch.other :=
    ByChannel.get_set_ne _ _ _ _ (channel_other_ne ch)
  rw [PulseState.lose_eq, if_neg (by rw [h]; simp)]
  rw [PulseState.substitute_change, other]
  rfl

theorem channel_other_other (ch : Channel) : ch.other.other = ch := by
  cases ch <;> rfl

theorem silent_outcomes (p : PulseState) (ch : Channel) (hl : p.windows.get ch.other = 0) :
    (p.checkpoint ch).status = p.status.set ch.other .lost
      ∧ (p.checkpoint ch).windows = ⟨0, 0⟩ ∧ (p.checkpoint ch).coarse = false
      ∧ (p.checkpoint ch).fine = false ∧ (p.checkpoint ch).cumDisagree = p.cumDisagree
      ∧ (p.checkpoint ch).batchDisagree = p.batchDisagree
      ∧ (p.checkpoint ch).counts = p.counts
      ∧ (p.checkpoint ch).totalizing = p.totalizing
      ∧ (p.status.get ch.other = .lost → (p.checkpoint ch).change = p.change)
      ∧ (p.status.get ch.other = .normal → p.totalizing = ch.other →
          p.status.get ch = .normal → p.change = none → (p.checkpoint ch).change = some ch)
      ∧ (p.status.get ch.other = .normal → p.totalizing = ch.other →
          (p.status.get ch = .lost ∨ p.change ≠ none) → (p.checkpoint ch).change = p.change)
      ∧ (p.status.get ch.other = .normal → p.totalizing = ch → p.change = some ch.other →
          (p.checkpoint ch).change = none)
      ∧ (p.status.get ch.other = .normal → p.totalizing = ch → p.change ≠ some ch.other →
          (p.checkpoint ch).change = p.change) := by
  rw [PulseState.checkpoint_of_silent hl]
  have rest := p.lose_rest ch.other
  refine ⟨by rw [rest]; rfl, by rw [rest]; rfl, by rw [rest]; rfl, by rw [rest]; rfl, by rw [rest]; rfl,
    by rw [rest]; rfl, by rw [rest]; rfl, by rw [rest]; rfl, fun lost => ?_, fun hn own alone none => ?_,
    fun hn own alone => ?_, fun hn own named => ?_, fun hn own named => ?_⟩
  · rw [PulseState.lose_eq, if_pos lost]
    rfl
  · rw [PulseState.lose_change_of_normal hn, if_pos own.symm, channel_other_other, if_pos ⟨alone, none⟩]
  · rw [PulseState.lose_change_of_normal hn, if_pos own.symm, channel_other_other, if_neg]
    rintro ⟨a, b⟩
    obtain lost | some := alone
    · rw [lost] at a
      exact nomatch a
    · exact some b
  · rw [PulseState.lose_change_of_normal hn, if_neg (by rw [own]; exact channel_other_ne ch), if_pos named]
  · rw [PulseState.lose_change_of_normal hn, if_neg (by rw [own]; exact channel_other_ne ch), if_neg named]

/-! ### What a checkpoint reports (R46, R50, R127) -/

/-- A pulse that reaches a run whose pass is not timed is not counted by its prove. -/
theorem deliverPulse_of_untimed {r : Fin 4} {s : State} (h : ¬s.Times r) (hp : s.proving r = true)
    (stamp : Word32) : deliverPulse r stamp s = s := by
  have attached : s.session.attached = some r := by
    unfold State.proving at hp
    simp only [Bool.and_eq_true, beq_iff_eq] at hp
    exact hp.2
  unfold deliverPulse
  simp only
  split
  · next timing => exact absurd ⟨attached, .inl timing⟩ h
  · next finishing => exact absurd ⟨attached, .inr finishing⟩ h
  · rfl

theorem delivered_of_untimed {r : Fin 4} {s : State} (h : ¬s.Times r) (ch : Channel) (stamp : Word32) :
    delivered r ch stamp s = s := by
  unfold delivered
  split
  · next hp =>
    rw [Bool.and_eq_true] at hp
    exact deliverPulse_of_untimed h hp.1 stamp
  · rfl

theorem delivered_of_other {r : Fin 4} {ch : Channel} {s : State} (h : s.pulses[r].totalizing ≠ ch)
    (stamp : Word32) : delivered r ch stamp s = s := by
  unfold delivered
  rw [beq_false_of_ne h, Bool.and_false]
  rfl

/-- The state once the pulse conditions of a checkpoint have been evaluated. -/
def checkedState (r : Fin 4) (ch : Channel) (s : State) : State :=
  evalPulseConds r (s.setPulse r ((s.windowed r ch).checkpoint ch))

theorem checkedState_times {r : Fin 4} {ch : Channel} {s : State} :
    (checkedState r ch s).Times r ↔ s.Times r := by
  unfold State.Times checkedState
  rw [evalPulseConds_session]
  rfl

theorem checkedState_sessionTold (r : Fin 4) (ch : Channel) (s : State) (cause : SpoilCause) :
    (checkedState r ch s).sessionTold r cause = s.sessionTold r cause := by
  unfold State.sessionTold checkedState
  rw [evalPulseConds_session, evalPulseConds_retained]
  rfl

theorem checkedState_occurred (r : Fin 4) (ch : Channel) (s : State) :
    (checkedState r ch s).occurred .provePassSpoiled = s.occurred .provePassSpoiled :=
  State.occurred_congr (evalPulseConds_cond_ne (by simp [pulseConds]) (by simp) _)
    (evalPulseConds_retained ..)

/-- R50, R127: a checkpoint of a run whose pass is timed, when it reports an event, spoils the pass. -/
theorem checkpointState_of_loses {r : Fin 4} {ch : Channel} {s : State}
    (h : LosesFine (s.windowed r ch) ((s.windowed r ch).checkpoint ch)) :
    checkpointState r ch s = pulseUnitReport .agreement r (checkedState r ch s) :=
  reportPulseUnit_of_loses h _

theorem checkpointState_of_changes {r : Fin 4} {ch : Channel} {s : State}
    (hn : ¬LosesFine (s.windowed r ch) ((s.windowed r ch).checkpoint ch))
    (h : MakesChange (s.windowed r ch) ((s.windowed r ch).checkpoint ch)) :
    checkpointState r ch s = pulseUnitReport .channel r (checkedState r ch s) :=
  reportPulseUnit_of_changes hn h _

theorem checkpointState_of_neither {r : Fin 4} {ch : Channel} {s : State}
    (hn : ¬LosesFine (s.windowed r ch) ((s.windowed r ch).checkpoint ch))
    (h : ¬MakesChange (s.windowed r ch) ((s.windowed r ch).checkpoint ch)) :
    checkpointState r ch s = checkedState r ch s :=
  reportPulseUnit_of_neither hn h _

theorem delivered_report_session (cause : SpoilCause) (r : Fin 4) (ch : Channel) (stamp : Word32) (s : State) :
    delivered r ch stamp (pulseUnitReport cause r (checkedState r ch s))
      = pulseUnitReport cause r (checkedState r ch s) := by
  refine delivered_of_untimed (fun timed => ?_) ch stamp
  by_cases before : (checkedState r ch s).Times r
  · exact not_times_of_sessionTold before (pulseUnitReport_session ..) timed
  · rw [pulseUnitReport_of_untimed before] at timed
    exact before timed

/-- The pulse conditions of a run, and the conditions of the session, after a pulse that is no checkpoint. -/
theorem delivered_cond_pulse {r : Fin 4} {c : CondId} (h : c ∈ pulseConds r) (ch : Channel) (stamp : Word32)
    (s : State) : (delivered r ch stamp s).cond c = s.cond c :=
  (delivered_sessionOnly r ch stamp s).conds c (pulseConds_not_prove h) (pulseConds_ne_discard h)

/-- R46: a checkpoint leaves the pulse conditions of its run evaluated by the pulse state it leaves. -/
theorem checkpointState_cond {r : Fin 4} {s : State} {x : RunSettings} {c : CondId} (ch : Channel)
    (hc : c ∈ pulseConds r) (hx : s.retained.runs[r].settings = some x) (h : s.runs[r].state ≠ .closed) :
    (checkpointState r ch s).cond c
      = s.told c (pulseCondActive (some x) false ((s.windowed r ch).checkpoint ch) c) := by
  have mark : (s.setPulse r ((s.windowed r ch).checkpoint ch)).pulseMark r c
      = pulseCondActive (some x) false ((s.windowed r ch).checkpoint ch) c := by
    unfold State.pulseMark
    rw [State.setPulse_retained, State.setPulse_runs, State.pulse_setPulse, hx, beq_false_of_ne h]
  rw [(checkpointState_sessionOnly r ch s).conds c (pulseConds_not_prove hc) (pulseConds_ne_discard hc),
    evalPulseConds_cond hc, mark]
  rfl

/-- R50, R127: the session, and its condition, after a pulse that is a checkpoint. -/
theorem checkpoint_session (r : Fin 4) (ch : Channel) (stamp : Word32) (s : State) :
    let q := (s.windowed r ch).checkpoint ch
    let loses := LosesFine (s.windowed r ch) q
    let changes := MakesChange (s.windowed r ch) q
    let t := delivered r ch stamp (checkpointState r ch s)
    (¬s.Times r → t.session = s.session)
      ∧ (loses → t.session = s.sessionTold r .agreement)
      ∧ (¬loses → changes → t.session = s.sessionTold r .channel)
      ∧ (s.Times r → (loses ∨ changes) → t.cond .provePassSpoiled = s.occurred .provePassSpoiled)
      ∧ (¬loses → ¬changes → q.totalizing ≠ ch → t.session = s.session) := by
  intro q loses changes t
  have checked : (checkedState r ch s).session = s.session := evalPulseConds_session ..
  have ofLoses (h : loses) : t = pulseUnitReport .agreement r (checkedState r ch s) := by
    show delivered r ch stamp (checkpointState r ch s) = _
    rw [checkpointState_of_loses h, delivered_report_session]
  have ofChanges (hn : ¬loses) (h : changes) : t = pulseUnitReport .channel r (checkedState r ch s) := by
    show delivered r ch stamp (checkpointState r ch s) = _
    rw [checkpointState_of_changes hn h, delivered_report_session]
  have ofNeither (hn : ¬loses) (h : ¬changes) : t = delivered r ch stamp (checkedState r ch s) := by
    show delivered r ch stamp (checkpointState r ch s) = _
    rw [checkpointState_of_neither hn h]
  refine ⟨fun untimed => ?_, fun h => ?_, fun hn h => ?_, fun timed h => ?_, fun hn h other => ?_⟩
  · have still : ¬(checkedState r ch s).Times r := fun h => untimed (checkedState_times.mp h)
    by_cases h : loses
    · rw [ofLoses h, pulseUnitReport_of_untimed still, checked]
    · by_cases h' : changes
      · rw [ofChanges h h', pulseUnitReport_of_untimed still, checked]
      · rw [ofNeither h h', delivered_of_untimed still, checked]
  · rw [ofLoses h, pulseUnitReport_session, checkedState_sessionTold]
  · rw [ofChanges hn h, pulseUnitReport_session, checkedState_sessionTold]
  · by_cases hl : loses
    · rw [ofLoses hl, pulseUnitReport_cond_spoiled _ _ _ (checkedState_times.mpr timed), checkedState_occurred]
    · rw [ofChanges hl (h.resolve_left hl),
        pulseUnitReport_cond_spoiled _ _ _ (checkedState_times.mpr timed), checkedState_occurred]
  · have own : (checkedState r ch s).pulses[r].totalizing ≠ ch := by
      have pulses : (checkedState r ch s).pulses[r] = q := by
        unfold checkedState
        rw [evalPulseConds_pulses]
        exact State.pulse_setPulse s r _
      rw [pulses]
      exact other
    rw [ofNeither hn h, delivered_of_other own, checked]

theorem State.dual_of_settings {s : State} {r : Fin 4} {x : RunSettings}
    (hx : s.retained.runs[r].settings = some x) : s.dual r = (x.mode == .dual) := by
  unfold State.dual State.settings
  rw [hx]
  rfl

/-- Settles O31. -/
theorem checkpointOutcomes : Obligations.CheckpointOutcomes := by
  refine ⟨?_, fun p ch => ?_⟩
  · intro r ch stamp x s hr running hx p counted lead windowed there
    have same : (advanceTo stamp s).windowed r ch = windowed := rfl
    have dual := State.dual_of_settings (s := advanceTo stamp s) (r := r) hx
    have atThere : ((advanceTo stamp s).windowed r ch).atCheckpoint ch = true ↔ there :=
      windowed_atCheckpoint_iff (advanceTo stamp s) r ch
    have pulses := (runPulse_loopOnly r ch stamp (advanceTo stamp s)).pulses
    have own : (runPulse r ch stamp (advanceTo stamp s)).pulses[r] = (advanceTo stamp s).pulsed r ch := by
      rw [pulses]
      simp
    refine ⟨_, exec_pulse_of_running hr running, fun h => ?_, fun h ht => ?_, fun h ht => ?_, fun h ht => ?_,
      fun h c hc => ?_⟩
    · rw [own]
      exact if_neg (by rw [dual, h]; simp)
    · rw [own]
      unfold State.pulsed
      rw [if_pos (by rw [dual, h]; simp), if_pos (atThere.mpr ht), same]
    · rw [own]
      unfold State.pulsed
      rw [if_pos (by rw [dual, h]; simp), if_neg (mt atThere.mp ht), same]
    · have eq : runPulse r ch stamp (advanceTo stamp s)
          = delivered r ch stamp (checkpointState r ch (advanceTo stamp s)) := by
        rw [runPulse_of_dual (by rw [dual, h]; simp), if_pos (atThere.mpr ht)]
      intro q loses changes timed
      obtain ⟨untimed, ofLoses, ofChanges, spoiled, neither⟩ :=
        checkpoint_session r ch stamp (advanceTo stamp s)
      rw [eq]
      refine ⟨untimed, ofLoses, ofChanges, spoiled, neither, fun c hc => ?_⟩
      rw [delivered_cond_pulse hc]
      exact checkpointState_cond (s := advanceTo stamp s) ch hc hx running
    · obtain h | h := h
      · rw [runPulse_of_single (by rw [dual, h]; simp), delivered_cond_pulse hc]
        rfl
      · cases hd : (advanceTo stamp s).dual r with
        | false =>
          rw [runPulse_of_single hd, delivered_cond_pulse hc]
          rfl
        | true =>
          rw [runPulse_of_dual hd, if_neg (mt atThere.mp h), delivered_cond_pulse hc]
          rfl
  · intro lead lag d fresh normal disagreed
    obtain ⟨h1, h2, h3, h4, h5, h6, h7, h8, h9⟩ := checkpoint_outcomes p ch
    exact ⟨h1, h2, h3, h4, h5, h6, h7, h8, h9, silent_outcomes p ch⟩

end Sys2Proof.Machine
end

