-- ==== Sys2Proof/Proofs/Passes.lean ====
section
/-! PROOFS. How delivered pulses time a pass, and how a recorded pass forms prove runs and ends a session
(O48). -/

namespace Sys2Proof.Machine

/-! ### A pulse that is no checkpoint (R49, R120, R121) -/

/-- R32, R37: the pulse state of a run after a pulse that is no checkpoint. -/
def plainPulse (p : PulseState) (dual : Bool) (ch : Channel) : PulseState :=
  { p with
    counts := p.counts.set ch (min (p.counts.get ch + 1) 20000)
    windows := if dual then p.windows.set ch (p.windows.get ch + 1) else p.windows }

theorem runPulse_of_plain {r : Fin 4} {ch : Channel} {s : State}
    (h : s.dual r = true → (s.windowed r ch).atCheckpoint ch = false) (stamp : Word32) :
    runPulse r ch stamp s
      = delivered r ch stamp (s.setPulse r (plainPulse s.pulses[r] (s.dual r) ch)) := by
  cases hd : s.dual r with
  | false =>
    rw [runPulse_of_single hd]
    unfold State.pulsed
    rw [if_neg (by rw [hd]; simp)]
    rfl
  | true =>
    rw [runPulse_of_dual hd, h hd]
    rfl

theorem delivered_of_proving {r : Fin 4} {ch : Channel} {s : State} (hp : s.proving r = true)
    (ht : s.pulses[r].totalizing = ch) (stamp : Word32) :
    delivered r ch stamp s = deliverPulse r stamp s := by
  unfold delivered
  rw [hp, ht]
  simp

theorem deliverPulse_of_waiting {r : Fin 4} {s : State}
    (h : s.session.state = .held ∨ s.session.state = .armed) (stamp : Word32) :
    deliverPulse r stamp s = s := by
  unfold deliverPulse
  obtain h | h := h <;> simp only [h]

theorem deliverPulse_of_first {r : Fin 4} {s : State} (h : s.session.state = .timing)
    (hp : s.session.items.tP1 = none) (stamp : Word32) :
    deliverPulse r stamp s
      = s.setSession
          { s.session with items := { s.session.items with tP1 := some stamp, lastPulse := some stamp } } := by
  unfold deliverPulse
  simp only [h, hp]

theorem deliverPulse_of_next {r : Fin 4} {s : State} (h : s.session.state = .timing)
    (hp : s.session.items.tP1.isSome = true) (stamp : Word32) :
    deliverPulse r stamp s
      = s.setSession
          { s.session with
            items := { s.session.items with
              running := s.session.items.running + 1, lastPulse := some stamp } } := by
  obtain ⟨t, ht⟩ := Option.isSome_iff_exists.mp hp
  unfold deliverPulse
  simp only [h, ht]

theorem deliverPulse_of_finishing {r : Fin 4} {s : State} {rec : ProverRecord} {tD1 tP1 tD2 : Word32}
    (h : s.session.state = .finishing) (hrec : s.retained.prover = some rec)
    (h1 : s.session.items.tD1 = some tD1) (hp : s.session.items.tP1 = some tP1)
    (h2 : s.session.items.tD2 = some tD2) (stamp : Word32) :
    deliverPulse r stamp s
      = if s.session.items.running + 1 < rec.minPulses then spoilPass .fewPulses s
        else recordPass rec (formPass s rec r tD1 tP1 tD2 stamp (s.session.items.running + 1)) s := by
  unfold deliverPulse
  simp only [h]
  unfold completePass
  simp only [hrec, h1, hp, h2]

theorem formPass_eq {s : State} {r : Fin 4} {y : RunSettings} (hy : s.retained.runs[r].settings = some y)
    (rec : ProverRecord) (tD1 tP1 tD2 tP2 : Word32) (whole : Nat) :
    formPass s rec r tD1 tP1 tD2 tP2 whole
      = { number := s.session.completed + 1
          tD1, tP1, tD2, tP2
          nWhole := whole
          td := (tD2 - tD1).toNat
          tp := (tP2 - tP1).toNat
          ni := interpolatedPulses whole (tD2 - tD1).toNat (tP2 - tP1).toNat
          rate :=
            min (passRate (interpolatedPulses whole (tD2 - tD1).toNat (tP2 - tP1).toNat) y.kFactor
              (tD2 - tD1).toNat) 10000000
          rateClamped :=
            decide (10000000 < passRate (interpolatedPulses whole (tD2 - tD1).toNat (tP2 - tP1).toNat)
              y.kFactor (tD2 - tD1).toNat)
          proverT := s.reading rec.tSlot
          proverP := s.reading rec.pSlot
          meterT := s.reading y.tSlot
          meterP := s.reading y.pSlot
          channel := s.pulses[r].totalizing
          spoiledBefore := s.session.consecutive } := by
  unfold formPass State.settings
  rw [hy]
  rfl

/-! ### A recorded pass (R124, R136, R137) -/

theorem le_foldl_max (l : List Int) (a : Int) : a ≤ l.foldl max a ∧ ∀ x ∈ l, x ≤ l.foldl max a := by
  induction l generalizing a with
  | nil => exact ⟨le_refl a, by simp⟩
  | cons y l ih =>
    obtain ⟨first, rest⟩ := ih (max a y)
    refine ⟨(le_max_left a y).trans first, fun x hx => ?_⟩
    obtain rfl | hx := List.mem_cons.mp hx
    · exact (le_max_right a x).trans first
    · exact rest x hx

theorem foldl_max_le {l : List Int} {a b : Int} (ha : a ≤ b) (h : ∀ x ∈ l, x ≤ b) : l.foldl max a ≤ b := by
  induction l generalizing a with
  | nil => exact ha
  | cons y l ih => exact ih (max_le ha (h y (by simp))) fun x hx => h x (by simp [hx])

theorem foldl_min_le (l : List Int) (a : Int) : l.foldl min a ≤ a ∧ ∀ x ∈ l, l.foldl min a ≤ x := by
  induction l generalizing a with
  | nil => exact ⟨le_refl a, by simp⟩
  | cons y l ih =>
    obtain ⟨first, rest⟩ := ih (min a y)
    refine ⟨first.trans (min_le_left a y), fun x hx => ?_⟩
    obtain rfl | hx := List.mem_cons.mp hx
    · exact first.trans (min_le_right a x)
    · exact rest x hx

theorem le_foldl_min {l : List Int} {a b : Int} (ha : b ≤ a) (h : ∀ x ∈ l, b ≤ x) : b ≤ l.foldl min a := by
  induction l generalizing a with
  | nil => exact ha
  | cons y l ih => exact ih (le_min ha (h y (by simp))) fun x hx => h x (by simp [hx])

theorem head_ni_mem {window : List ProveRun} (h : window ≠ []) :
    ∃ w ∈ window, ((window.head?.map (·.ni)).getD 0) = w.ni := by
  cases window with
  | nil => exact absurd rfl h
  | cons w rest => exact ⟨w, by simp, rfl⟩

/-- R137: the largest mean NI of a window. -/
theorem maxNi_eq {window : List ProveRun} {hi : Int} (h : ∀ w ∈ window, w.ni ≤ hi)
    (he : ∃ w ∈ window, w.ni = hi) : maxNi window = hi := by
  obtain ⟨w, hw, rfl⟩ := he
  obtain ⟨v, hv, head⟩ := head_ni_mem (List.ne_nil_of_mem hw)
  refine le_antisymm (foldl_max_le (by rw [head]; exact h v hv) ?_) ?_
  · intro x hx
    obtain ⟨u, hu, rfl⟩ := List.mem_map.mp hx
    exact h u hu
  · exact (le_foldl_max _ _).2 _ (List.mem_map_of_mem hw)

/-- R137: the smallest mean NI of a window. -/
theorem minNi_eq {window : List ProveRun} {lo : Int} (h : ∀ w ∈ window, lo ≤ w.ni)
    (he : ∃ w ∈ window, w.ni = lo) : minNi window = lo := by
  obtain ⟨w, hw, rfl⟩ := he
  obtain ⟨v, hv, head⟩ := head_ni_mem (List.ne_nil_of_mem hw)
  refine le_antisymm ?_ (le_foldl_min (by rw [head]; exact h v hv) ?_)
  · exact (foldl_min_le _ _).2 _ (List.mem_map_of_mem hw)
  · intro x hx
    obtain ⟨u, hu, rfl⟩ := List.mem_map.mp hx
    exact h u hu

theorem meanReading_eq (passes : List PassRecord) (v : PassRecord → Reading) :
    meanReading (passes.map v)
      = { value := roundHalfAway (passes.map fun z => (v z).value).sum passes.length
          code := (passes.map fun z => (v z).code).foldl max 0 } := by
  unfold meanReading meanAway
  simp only [List.map_map, List.length_map]
  rfl

theorem meanUp_passes (passes : List PassRecord) (v : PassRecord → Int) :
    meanUp (passes.map v) = roundHalfUp (passes.map v).sum passes.length := by
  unfold meanUp
  rw [List.length_map]

theorem formRun_append (number spoiled : Nat) (passes : List PassRecord) (pass : PassRecord) :
    formRun number spoiled (passes ++ [pass])
      = { formRun number spoiled (passes ++ [pass]) with lastPass := pass.number } := by
  unfold formRun
  simp

/-- R124: the session once a pass has been recorded in its pass list. -/
def Session.recorded (x : Session) (pass : PassRecord) : Session :=
  { x with
    passes := x.passes ++ [pass]
    items := {}
    completed := x.completed + 1
    consecutive := 0
    lastOutcome := .completed (x.completed + 1) }

/-- R136: the session once its pass list has formed a prove run. -/
def Session.formed (x : Session) (pass : PassRecord) : Session :=
  { x.recorded pass with
    passes := []
    proveRuns := x.proveRuns ++ [formRun (x.proveRuns.length + 1) x.spoiledForRun (x.passes ++ [pass])]
    spoiledForRun := 0 }

theorem recordPass_eq (rec : ProverRecord) (pass : PassRecord) (s : State) :
    recordPass rec pass s
      = if (s.session.passes ++ [pass]).length < rec.passesPerRun then
          s.setSession { s.session.recorded pass with state := s.nextPassState }
        else testRepeatability rec (s.setSession (s.session.formed pass)) := rfl

/-- R137: the window that the last `m` prove runs make, as tested. -/
def testedWindow (m : Nat) (runs : List ProveRun) : TestWindow :=
  { first := runs.length - m + 1, last := runs.length, spread := spreadOf (lastRuns m runs) }

theorem testRepeatability_of_enough {rec : ProverRecord} {s : State}
    (h : rec.runsRequired ≤ s.session.proveRuns.length) :
    testRepeatability rec s
      = if repeats rec.repeatLimit (lastRuns rec.runsRequired s.session.proveRuns) then
          completeSession rec (lastRuns rec.runsRequired s.session.proveRuns)
            (s.setSession
              { s.session with lastWindow := some (testedWindow rec.runsRequired s.session.proveRuns) })
        else if rec.maxRuns ≤ s.session.proveRuns.length then
          failSession .notRepeatable
            (s.setSession
              { s.session with lastWindow := some (testedWindow rec.runsRequired s.session.proveRuns) })
        else
          s.setSession
            { s.session with
              lastWindow := some (testedWindow rec.runsRequired s.session.proveRuns)
              state := s.nextPassState } := by
  unfold testRepeatability
  simp only [if_neg (show ¬s.session.proveRuns.length < rec.runsRequired by omega)]
  rfl

theorem testRepeatability_of_few {rec : ProverRecord} {s : State}
    (h : s.session.proveRuns.length < rec.runsRequired) :
    testRepeatability rec s = s.setSession { s.session with state := s.nextPassState } := by
  unfold testRepeatability
  simp only [if_pos h]

/-! ### The results (R138 to R140) -/

theorem cplAt_eq (product : Option ProductCopy) (pres : Int) :
    (cplAt product pres).1
      = min (1000000 + roundHalfUp ((((product.map (·.compressibility)).getD 0 : Nat) : Int) * max pres 0)
          10000) 1050000 := by
  unfold cplAt
  simp only
  split <;> simp only <;> omega

/-- R138 to R140: the values formed for the prove runs of a window. -/
theorem formResults_eq (rec : ProverRecord) (product : Option ProductCopy) (k : Nat) (window : List ProveRun) :
    let z := formResults rec product k window
    let meanOf := fun v : ProveRun → Int => roundHalfAway (window.map v).sum window.length
    z.ni = roundHalfUp (window.map (·.ni)).sum window.length
      ∧ z.qProve = roundHalfUp (window.map (·.rate)).sum window.length
      ∧ z.tPv = meanOf (·.proverT.value) ∧ z.pPv = meanOf (·.proverP.value)
      ∧ z.tMt = meanOf (·.meterT.value) ∧ z.pMt = meanOf (·.meterP.value)
      ∧ z.ctsp = 1000000 + roundHalfAway (rec.gc * (z.tPv - 1500)) 10000
      ∧ z.cpsp = 1000000 + roundHalfUp (rec.gp * max z.pPv 0) 10000
      ∧ (∀ c : ProductCopy, product = some c →
          let table := c.points.map fun w => (w.x, (w.factor : Int))
          let f : Int := c.compressibility
          z.ctlp = interpolate table z.tPv ∧ z.ctlm = interpolate table z.tMt
            ∧ z.cplp = min (1000000 + roundHalfUp (f * max z.pPv 0) 10000) 1050000
            ∧ z.cplm = min (1000000 + roundHalfUp (f * max z.pMt 0) 10000) 1050000)
      ∧ (product = none →
          z.ctlp = 1000000 ∧ z.ctlm = 1000000 ∧ z.cplp = 1000000 ∧ z.cplm = 1000000 ∧ z.tableClamp = true)
      ∧ z.ccfp
          = roundHalfUp (roundHalfUp (roundHalfUp (z.ctsp * z.cpsp) 1000000 * z.ctlp) 1000000 * z.cplp) 1000000
      ∧ z.ccfm = roundHalfUp (z.ctlm * z.cplm) 1000000
      ∧ z.mfNew = min (roundHalfUp (rec.bpv * z.ccfp * k) (z.ni * z.ccfm)) 16777215
      ∧ z.factorRange = (decide (z.mfNew < 900000) || decide (1100000 < z.mfNew)) := by
  intro z meanOf
  have mean (v : ProveRun → Int) : meanAway (window.map v) = meanOf v := by
    unfold meanAway
    rw [List.length_map]
  have meanHalfUp (v : ProveRun → Int) :
      meanUp (window.map v) = roundHalfUp (window.map v).sum window.length := by
    unfold meanUp
    rw [List.length_map]
  refine ⟨meanHalfUp _, meanHalfUp _, mean _, mean _, mean _, mean _, rfl, rfl, ?_, ?_, rfl, rfl, rfl, rfl⟩
  · rintro c rfl
    exact ⟨rfl, rfl, cplAt_eq _ _, cplAt_eq _ _⟩
  · rintro rfl
    have unit (pres : Int) : (cplAt none pres).1 = 1000000 := by
      rw [cplAt_eq]
      simp [roundHalfUp]
    exact ⟨rfl, rfl, unit _, unit _, rfl⟩

/-! ### A pulse of the attached run -/

theorem exec_pulse_of_proving {r : Fin 4} {ch : Channel} {stamp : Word32} {s : State} (hr : s.Runs)
    (running : s.runs[r].state ≠ .closed) (hp : s.proving r = true) (ht : s.pulses[r].totalizing = ch)
    (h : s.dual r = true → (s.windowed r ch).atCheckpoint ch = false) :
    exec (.pulse r ch stamp) s
      = .next
          (deliverPulse r stamp
            ((advanceTo stamp s).setPulse r (plainPulse s.pulses[r] (s.dual r) ch))) := by
  rw [exec_pulse_of_running hr running, runPulse_of_plain (by exact h), delivered_of_proving]
  · rfl
  · exact hp
  · rw [State.pulse_setPulse]
    exact ht

/-- R141, R142, R144: a session ends by itself and is reported behind a busy transmitter. -/
theorem ended_reported {s : State} {x : Session} {st : StationRecord} {c : CondId}
    (hst : s.retained.station = some st) (hx : x.endCause.reported = true) (ht : s.transmitter ≠ .free)
    (hl : s.outbound.length ≤ 13) :
    (occur c (offerReport (s.setSession x))).outbound.filter (·.kind == .proveReport)
      = s.outbound.filter (·.kind == .proveReport)
        ++ [(occur c (offerReport (s.setSession x))).session.reportFrame st.reportLevel] := by
  rw [(endReported_loopOnly c x s).session]
  exact endReported_filter (NoticesEnter.refl s) hst hx ht (by omega)

/-- The session of a state, written and then written again. -/
theorem State.setSession_setSession (s : State) (x y : Session) :
    (s.setSession x).setSession y = s.setSession y := rfl

/-- Settles O48. -/
theorem pulsesTimePassesAndProveRuns : Obligations.PulsesTimePassesAndProveRuns := by
  refine ⟨?_, ?_⟩
  · intro r ch stamp y s hr running hy hat hact htot p lead x i s1 hplain
    have dual : s.dual r = (y.mode == .dual) := State.dual_of_settings hy
    have proving : s.proving r = true := by
      unfold State.proving
      rw [hact, hat]
      simp
    have plain : s.dual r = true → (s.windowed r ch).atCheckpoint ch = false := fun h => by
      rw [dual, beq_iff_eq] at h
      exact Bool.eq_false_iff.mpr fun at' => hplain h ((windowed_atCheckpoint_iff s r ch).mp at')
    have after : (advanceTo stamp s).setPulse r (plainPulse s.pulses[r] (s.dual r) ch) = s1 := by
      unfold plainPulse
      rw [dual]
      simp only [beq_iff_eq]
      rfl
    have step := exec_pulse_of_proving (stamp := stamp) hr running proving htot plain
    rw [after] at step
    refine ⟨fun h => ?_, fun h h' => ?_, fun h h' => ?_, ?_⟩
    · rw [step, deliverPulse_of_waiting (s := s1) h]
    · rw [step, deliverPulse_of_first (s := s1) h h']
      rfl
    · rw [step, deliverPulse_of_next (s := s1) h h']
      rfl
    · intro rec tD1 tP1 tD2 hfin hrec h1 hp h2 whole td tp ni rate
      have finished := deliverPulse_of_finishing (s := s1) (r := r) hfin hrec h1 hp h2 stamp
      rw [finished] at step
      refine ⟨fun few => ?_, fun enough => ?_⟩
      · rw [if_pos (by exact few)] at step
        have only := spoilPass_loopOnly .fewPulses s1
        have auto : s1.autoRelease = rec.autoRelease := by
          show (s.retained.prover.map (·.autoRelease)).getD false = _
          rw [hrec]
          rfl
        rw [auto] at only
        refine ⟨_, step, only, ?_⟩
        rw [spoilPass_cond_spoiled]
        rfl
      · rw [if_neg (by show ¬whole < _; omega)] at step
        rw [step, formPass_eq (s := s1) hy]
        have channel : s1.pulses[r].totalizing = ch := by
          rw [← after, State.pulse_setPulse]
          exact htot
        rw [channel]
        rfl
  · intro rec pass s hrec x passes next base up mean run runs formed
    have between : s.nextPassState = next := nextPassState_of_prover hrec
    have formedEq : x.formed pass = formed := by
      have run' : formRun (x.proveRuns.length + 1) x.spoiledForRun (x.passes ++ [pass]) = run := by
        rw [formRun_append]
        unfold formRun
        rw [meanUp_passes, meanUp_passes, meanReading_eq, meanReading_eq, meanReading_eq, meanReading_eq]
      unfold Session.formed
      rw [run']
      rfl
    have formedOf (h : rec.passesPerRun ≤ passes.length) :
        recordPass rec pass s = testRepeatability rec (s.setSession formed) := by
      rw [recordPass_eq, if_neg (show ¬passes.length < _ by omega), formedEq]
    refine ⟨fun h => ?_, fun h hf => ?_, fun h he => ?_⟩
    · rw [recordPass_eq, if_pos h, between]
      rfl
    · rw [formedOf h, testRepeatability_of_few (by exact hf)]
      exact congrArg (fun z => s.setSession { formed with state := z }) between
    · intro window hi lo hb hhi hlo tested repeated meanOf t reported
      have largest : maxNi window = hi := maxNi_eq (fun w hw => (hb w hw).2) hhi
      have smallest : minNi window = lo := minNi_eq (fun w hw => (hb w hw).1) hlo
      have tested' : testedWindow rec.runsRequired formed.proveRuns = tested := by
        unfold testedWindow spreadOf
        rw [show lastRuns rec.runsRequired formed.proveRuns = window from rfl, largest, smallest]
      have repeats' : repeats rec.repeatLimit window = true ↔ repeated := by
        unfold repeats
        rw [largest, smallest, decide_eq_true_iff]
      have eq : t
          = if repeats rec.repeatLimit window then
              completeSession rec window (s.setSession { formed with lastWindow := some tested })
            else if rec.maxRuns ≤ runs.length then
              failSession .notRepeatable (s.setSession { formed with lastWindow := some tested })
            else s.setSession { formed with lastWindow := some tested, state := s.nextPassState } := by
        rw [← tested']
        exact (formedOf h).trans (testRepeatability_of_enough (by exact he))
      refine ⟨fun yes => ?_, fun no more => ?_, fun no last => ?_⟩
      · rw [if_pos (repeats'.mpr yes)] at eq
        let product := x.product.bind fun q => s.retained.products[q].inService
        let z := formResults rec product (x.kFactor.getD 0) window
        let y : Session :=
          { formed with
            state := .complete, endCause := .completed, lastWindow := some tested, results := some z }
        have ends : t = occur .proveComplete (offerReport (s.setSession y)) := eq
        obtain ⟨ni, qProve, tPv, pPv, tMt, pMt, ctsp, cpsp, ofCopy, ofNone, ccfp, ccfm, mfNew, range⟩ :=
          formResults_eq rec product (x.kFactor.getD 0) window
        refine ⟨z, ?_, ?_, ni, qProve, tPv, pPv, tMt, pMt, ctsp, cpsp, ofCopy, ofNone, ccfp, ccfm,
          fun k hk => ?_, range, fun st hst ht hl => ?_⟩
        · rw [ends]
          exact endReported_loopOnly .proveComplete y s
        · rw [ends, endReported_cond_self (by simp)]
          rfl
        · rw [show x.kFactor.getD 0 = k by rw [hk]; rfl] at mfNew
          have factor : z = formResults rec product k window := by
            show formResults rec product (x.kFactor.getD 0) window = _
            rw [hk]
            rfl
          rw [factor]
          exact mfNew
        · rw [ends]
          exact ended_reported hst rfl ht hl
      · rw [eq, if_neg (mt repeats'.mp no), if_neg (by omega), between]
        rfl
      · rw [if_neg (mt repeats'.mp no), if_pos last] at eq
        let y : Session :=
          { formed with state := .failed, endCause := .notRepeatable, lastWindow := some tested }
        have ends : t = occur .proveFailed (offerReport (s.setSession y)) := eq
        refine ⟨?_, ?_, fun st hst ht hl => ?_⟩
        · rw [ends]
          exact endReported_loopOnly .proveFailed y s
        · rw [ends, endReported_cond_self (by simp)]
          rfl
        · rw [ends]
          exact ended_reported hst rfl ht hl

end Sys2Proof.Machine
end

