-- ==== Sys2Proof/Proofs/TableChecks.lean ====
section
/-! PROOFS. Interpolation on a table, and the checks of a table (O36, O41). -/

namespace Sys2Proof.Machine

/-! ### Interpolation (R17, R18) -/

/-- The size of an increment: the exact quotient of the sizes, rounded half up. -/
theorem roundHalfAway_size (n : Int) {d : Int} (hd : 0 < d) :
    ∃ size : Int,
      2 * d * size ≤ 2 * (n.natAbs : Int) + d ∧ 2 * (n.natAbs : Int) + d < 2 * d * (size + 1)
        ∧ roundHalfAway n d = if 0 ≤ n then size else -size := by
  obtain ⟨low, high⟩ := roundHalfUp_bounds (n.natAbs : Int) hd
  refine ⟨roundHalfUp n.natAbs d, low, high, ?_⟩
  unfold roundHalfAway roundHalfUp
  rw [if_neg hd.ne', if_neg hd.ne']
  by_cases h : 0 ≤ n
  · rw [if_neg (by omega), if_pos h, show (n.natAbs : Int) = n by omega]
  · rw [if_pos (by omega), if_neg h, show (n.natAbs : Int) = -n by omega]

theorem interpolate_head {points : List (Int × Int)} {p : Int × Int} {x : Int}
    (h : points.head? = some p) (hx : x ≤ p.1) : interpolate points x = p.2 := by
  match points, h with
  | [q], h =>
    cases h
    rfl
  | q :: r :: rest, h =>
    cases h
    exact if_pos hx

/-- Beyond the second point a table is looked up in the rest. -/
theorem interpolate_skip {p q : Int × Int} {rest : List (Int × Int)} {x : Int} (hpq : p.1 < q.1)
    (hx : q.1 ≤ x) : interpolate (p :: q :: rest) x = interpolate (q :: rest) x := by
  rw [interpolate, if_neg (by omega), if_neg (by omega)]

theorem interpolate_last {points : List (Int × Int)} {p : Int × Int} {x : Int}
    (hs : (points.map (·.1)).Pairwise (· < ·)) (h : points.getLast? = some p) (hx : p.1 ≤ x) :
    interpolate points x = p.2 := by
  match points, hs, h with
  | [q], _, h =>
    cases h
    rfl
  | q :: r :: rest, hs, h =>
    have hs' : ((r :: rest).map (·.1)).Pairwise (· < ·) := (List.pairwise_cons.mp hs).2
    have last : (r :: rest).getLast? = some p := by rw [← h, List.getLast?_cons_cons]
    have upto : r.1 ≤ p.1 := by
      rcases List.mem_cons.mp (List.mem_of_getLast? last) with rfl | hp
      · exact le_refl _
      · exact ((List.pairwise_cons.mp hs').1 _ (List.mem_map_of_mem hp)).le
    have first : q.1 < r.1 := (List.pairwise_cons.mp hs).1 _ (by simp)
    rw [interpolate_skip first (by omega)]
    exact interpolate_last hs' last hx

/-- Between two points that follow each other, the factor is the first one's and the increment. -/
theorem interpolate_segment {points : List (Int × Int)} {i : Nat} {p q : Int × Int} {x : Int}
    (hs : (points.map (·.1)).Pairwise (· < ·)) (hp : points[i]? = some p) (hq : points[i + 1]? = some q)
    (hpx : p.1 ≤ x) (hxq : x < q.1) :
    interpolate points x = p.2 + roundHalfAway ((q.2 - p.2) * (x - p.1)) (q.1 - p.1) := by
  induction i generalizing points with
  | zero =>
    match points, hp, hq with
    | a :: b :: rest, hp, hq =>
      cases hp
      cases hq
      rw [interpolate]
      by_cases h : x ≤ p.1
      · rw [if_pos h, show x - p.1 = 0 by omega, mul_zero]
        have none : roundHalfAway 0 (q.1 - p.1) = 0 :=
          le_antisymm (roundHalfAway_le (by omega) (by omega)) (le_roundHalfAway (by omega) (by omega))
        rw [none, add_zero]
      · rw [if_neg h, if_pos hxq]
  | succ i ih =>
    match points, hs, hp, hq with
    | a :: b :: rest, hs, hp, hq =>
      have hs' : ((b :: rest).map (·.1)).Pairwise (· < ·) := (List.pairwise_cons.mp hs).2
      have first : a.1 < b.1 := (List.pairwise_cons.mp hs).1 _ (by simp)
      have member : p ∈ b :: rest := List.mem_of_getElem? hp
      have upto : b.1 ≤ p.1 := by
        rcases List.mem_cons.mp member with rfl | hm
        · exact le_refl _
        · exact ((List.pairwise_cons.mp hs').1 _ (List.mem_map_of_mem hm)).le
      rw [interpolate_skip first (by omega)]
      exact ih hs' hp hq

/-- Settles O36. -/
theorem interpolationStaysWithinTheFactors : Obligations.InterpolationStaysWithinTheFactors := by
  intro points x hne hs
  refine ⟨fun low high h => interpolate_between points x hne h, fun p hp hx => interpolate_head hp hx,
    fun p hp hx => interpolate_last hs hp hx, ?_⟩
  intro i p q hp hq hpx hxq n d
  obtain ⟨size, low, high, eq⟩ := roundHalfAway_size n (show 0 < d by omega)
  refine ⟨size, low, high, ?_⟩
  rw [interpolate_segment hs hp hq hpx hxq]
  exact congrArg (p.2 + ·) eq

/-! ### The checks of a table (R68, R71) -/

/-- The first point of a list, from index `i` on, that a check refuses; the check sees the point before. -/
def firstFailure (check : Option TablePoint → TablePoint → Option TableCause) (i : Nat)
    (previous : Option TablePoint) : List TablePoint → Option (TableCause × Nat)
  | [] => none
  | p :: rest =>
    match check previous p with
    | some c => some (c, i)
    | none => firstFailure check (i + 1) (some p) rest

/-- R71: the cause for which a curve point is refused. -/
def curveCause (previous : Option TablePoint) (p : TablePoint) : Option TableCause :=
  (checkCurvePoint 0 previous p).map (·.1)

/-- R68: the cause for which an expansion point is refused. -/
def expansionCause (previous : Option TablePoint) (p : TablePoint) : Option TableCause :=
  (checkExpansionPoint 0 (previous.map (·.x)) p).map (·.1)

theorem checkCurvePoint_eq (i : Nat) (previous : Option TablePoint) (p : TablePoint) :
    checkCurvePoint i previous p = (curveCause previous p).map fun c => (c, i) := by
  unfold curveCause checkCurvePoint
  split
  · rfl
  · split
    · rfl
    · cases previous with
      | none => rfl
      | some q =>
        simp only
        split
        · rfl
        · split <;> rfl

theorem checkExpansionPoint_eq (i : Nat) (previous : Option TablePoint) (p : TablePoint) :
    checkExpansionPoint i (previous.map (·.x)) p = (expansionCause previous p).map fun c => (c, i) := by
  unfold expansionCause checkExpansionPoint
  split
  · rfl
  · split
    · rfl
    · cases previous with
      | none => rfl
      | some q =>
        simp only [Option.map_some]
        split <;> rfl

theorem checkCurve_eq (i : Nat) (previous : Option TablePoint) (l : List TablePoint) :
    checkCurve i previous l = firstFailure curveCause i previous l := by
  induction l generalizing i previous with
  | nil => rfl
  | cons p rest ih =>
    rw [checkCurve, firstFailure, checkCurvePoint_eq]
    cases curveCause previous p with
    | none => exact ih _ _
    | some c => rfl

theorem checkExpansion_eq (i : Nat) (previous : Option TablePoint) (l : List TablePoint) :
    checkExpansion i (previous.map (·.x)) l = firstFailure expansionCause i previous l := by
  induction l generalizing i previous with
  | nil => rfl
  | cons p rest ih =>
    rw [checkExpansion, firstFailure, checkExpansionPoint_eq]
    cases expansionCause previous p with
    | none => exact ih _ (some p)
    | some c => rfl

/-- The point before index `j` of a list that follows `previous`. -/
def pointBefore (previous : Option TablePoint) (l : List TablePoint) : Nat → Option TablePoint
  | 0 => previous
  | j + 1 => l[j]?

theorem firstFailure_eq_none {check : Option TablePoint → TablePoint → Option TableCause} {i : Nat}
    {previous : Option TablePoint} {l : List TablePoint} :
    firstFailure check i previous l = none
      ↔ ∀ (j : Nat) (p : TablePoint), l[j]? = some p → check (pointBefore previous l j) p = none := by
  induction l generalizing i previous with
  | nil => simp [firstFailure]
  | cons q rest ih =>
    rw [firstFailure]
    constructor
    · intro h j p hp
      cases hc : check previous q with
      | some c => simp [hc] at h
      | none =>
        simp only [hc] at h
        cases j with
        | zero =>
          cases hp
          exact hc
        | succ j =>
          have := ih.mp h j p hp
          cases j with
          | zero => exact this
          | succ j => exact this
    · intro h
      rw [show check previous q = none from h 0 q rfl]
      refine ih.mpr fun j p hp => ?_
      have := h (j + 1) p hp
      cases j with
      | zero => exact this
      | succ j => exact this

theorem firstFailure_of_first {check : Option TablePoint → TablePoint → Option TableCause} {i j : Nat}
    {previous : Option TablePoint} {l : List TablePoint} {q : TablePoint} {c : TableCause}
    (hq : l[j]? = some q)
    (hb : ∀ (k : Nat) (p : TablePoint), k < j → l[k]? = some p → check (pointBefore previous l k) p = none)
    (hc : check (pointBefore previous l j) q = some c) :
    firstFailure check i previous l = some (c, i + j) := by
  induction l generalizing i j previous with
  | nil => simp at hq
  | cons p rest ih =>
    rw [firstFailure]
    cases j with
    | zero =>
      obtain rfl : p = q := Option.some.inj hq
      rw [show check previous p = some c from hc]
      rfl
    | succ j =>
      rw [show check previous p = none from hb 0 p (by omega) rfl]
      have inner : firstFailure check (i + 1) (some p) rest = some (c, i + 1 + j) := by
        refine ih hq (fun k r hk hr => ?_) ?_
        · have := hb (k + 1) r (by omega) hr
          cases k with
          | zero => exact this
          | succ k => exact this
        · cases j with
          | zero => exact hc
          | succ j => exact hc
      rw [show i + (j + 1) = i + 1 + j by omega]
      exact inner

/-- The points before `i` are each within `ok`, and each stands to the point before it as `next` says. -/
def PointsPass (points : List TablePoint) (ok : TablePoint → Prop) (next : TablePoint → TablePoint → Prop)
    (i : Nat) : Prop :=
  (∀ (j : Nat) (p : TablePoint), j < i → points[j]? = some p → ok p)
    ∧ ∀ (j : Nat) (p q : TablePoint), j + 1 < i → points[j]? = some p → points[j + 1]? = some q → next p q

/-- What a check of one point asks for: a range, and an order with the point before. -/
def Checks (check : Option TablePoint → TablePoint → Option TableCause) (ok : TablePoint → Prop)
    (next : TablePoint → TablePoint → Prop) : Prop :=
  (∀ p, check none p = none ↔ ok p) ∧ ∀ q p, check (some q) p = none ↔ ok p ∧ next q p

theorem pointsPass_iff {check : Option TablePoint → TablePoint → Option TableCause} {ok : TablePoint → Prop}
    {next : TablePoint → TablePoint → Prop} (h : Checks check ok next) (points : List TablePoint) (i : Nat) :
    PointsPass points ok next i
      ↔ ∀ (j : Nat) (p : TablePoint), j < i → points[j]? = some p →
          check (pointBefore none points j) p = none := by
  obtain ⟨first, later⟩ := h
  constructor
  · rintro ⟨range, order⟩ j p hj hp
    cases j with
    | zero => exact (first p).mpr (range 0 p hj hp)
    | succ j =>
      obtain ⟨q, hq⟩ : ∃ q, points[j]? = some q := by
        have := (List.getElem?_eq_some_iff.mp hp).1
        exact ⟨points[j], List.getElem?_eq_getElem (by omega)⟩
      rw [show pointBefore none points (j + 1) = some q from hq]
      exact (later q p).mpr ⟨range (j + 1) p hj hp, order j q p hj hq hp⟩
  · intro all
    refine ⟨fun j p hj hp => ?_, fun j p q hj hp hq => ?_⟩
    · have passes := all j p hj hp
      cases hb : pointBefore none points j with
      | none => exact (first p).mp (hb ▸ passes)
      | some q => exact ((later q p).mp (hb ▸ passes)).1
    · have passes := all (j + 1) q hj hq
      rw [show pointBefore none points (j + 1) = some p from hp] at passes
      exact ((later p q).mp passes).2

/-- The points before the counted end of a list are those of the list. -/
theorem pointBefore_take {points : List TablePoint} {n j : Nat} (h : j ≤ n) :
    pointBefore none (points.take n) j = pointBefore none points j := by
  cases j with
  | zero => rfl
  | succ j => exact List.getElem?_take_of_lt (by omega)

theorem getElem?_take_iff {points : List TablePoint} {n j : Nat} {p : TablePoint} :
    (points.take n)[j]? = some p ↔ j < n ∧ points[j]? = some p := by
  rw [List.getElem?_take]
  split <;> simp_all

theorem firstFailure_none_iff {check : Option TablePoint → TablePoint → Option TableCause}
    {ok : TablePoint → Prop} {next : TablePoint → TablePoint → Prop} (h : Checks check ok next)
    (points : List TablePoint) (n : Nat) :
    firstFailure check 0 none (points.take n) = none ↔ PointsPass points ok next n := by
  rw [pointsPass_iff h, firstFailure_eq_none]
  constructor
  · intro all j p hj hp
    have := all j p (getElem?_take_iff.mpr ⟨hj, hp⟩)
    rwa [pointBefore_take (by omega)] at this
  · intro all j p hp
    obtain ⟨hj, hp⟩ := getElem?_take_iff.mp hp
    rw [pointBefore_take (by omega)]
    exact all j p hj hp

theorem firstFailure_at {check : Option TablePoint → TablePoint → Option TableCause}
    {ok : TablePoint → Prop} {next : TablePoint → TablePoint → Prop} (h : Checks check ok next)
    {points : List TablePoint} {n i : Nat} {q : TablePoint} {c : TableCause} (hi : i < n)
    (hq : points[i]? = some q) (hb : PointsPass points ok next i)
    (hc : check (pointBefore none points i) q = some c) :
    firstFailure check 0 none (points.take n) = some (c, i) := by
  have found := firstFailure_of_first (check := check) (i := 0) (j := i) (previous := none)
    (l := points.take n) (q := q) (c := c) (getElem?_take_iff.mpr ⟨hi, hq⟩) ?_
    (by rw [pointBefore_take (by omega)]; exact hc)
  · rwa [Nat.zero_add] at found
  · intro k p hk hp
    rw [pointBefore_take (by omega)]
    exact (pointsPass_iff h points i).mp hb k p hk (getElem?_take_iff.mp hp).2

/-- R71: the range of a curve point. -/
def CurveRange (p : TablePoint) : Prop :=
  (1 ≤ p.x ∧ p.x ≤ 10000000) ∧ 900000 ≤ p.factor ∧ p.factor ≤ 1100000

/-- R71: how a curve point stands to the one before it. -/
def CurveNext (p q : TablePoint) : Prop :=
  p.x < q.x ∧ q.factor ≤ p.factor + 20000 ∧ p.factor ≤ q.factor + 20000

/-- R68: the range of an expansion point. -/
def TempRange (p : TablePoint) : Prop :=
  (-4000 ≤ p.x ∧ p.x ≤ 10000) ∧ 950000 ≤ p.factor ∧ p.factor ≤ 1050000

theorem curveCause_of_range {p : TablePoint} (h : ¬CurveRange p) (previous : Option TablePoint) :
    curveCause previous p = some .range := by
  unfold curveCause checkCurvePoint
  by_cases hx : p.x < 1 ∨ 10000000 < p.x
  · rw [if_pos hx]
    rfl
  · rw [if_neg hx, if_pos]
    · rfl
    · unfold CurveRange at h
      omega

theorem curveCause_none {p : TablePoint} (h : CurveRange p) : curveCause none p = none := by
  obtain ⟨hx, hf⟩ := h
  unfold curveCause checkCurvePoint
  rw [if_neg (by omega), if_neg (by omega)]
  rfl

theorem curveCause_some {p q : TablePoint} (h : CurveRange p) :
    curveCause (some q) p
      = if p.x ≤ q.x then some .order
        else if q.factor + 20000 < p.factor ∨ p.factor + 20000 < q.factor then some .step
        else none := by
  obtain ⟨hx, hf⟩ := h
  unfold curveCause checkCurvePoint
  rw [if_neg (by omega), if_neg (by omega)]
  simp only
  split
  · rfl
  · split <;> rfl

theorem curveCause_checks : Checks curveCause CurveRange CurveNext := by
  refine ⟨fun p => ?_, fun q p => ?_⟩
  · by_cases h : CurveRange p
    · simp [curveCause_none h, h]
    · simp [curveCause_of_range h, h]
  · by_cases h : CurveRange p
    · rw [curveCause_some h]
      unfold CurveNext
      simp only [h, true_and]
      by_cases order : p.x ≤ q.x
      · rw [if_pos order]
        simp only [reduceCtorEq, false_iff]
        omega
      · rw [if_neg order]
        by_cases step : q.factor + 20000 < p.factor ∨ p.factor + 20000 < q.factor
        · rw [if_pos step]
          simp only [reduceCtorEq, false_iff]
          omega
        · rw [if_neg step]
          simp only [true_iff]
          omega
    · simp [curveCause_of_range h, h]

theorem expansionCause_of_range {p : TablePoint} (h : ¬TempRange p) (previous : Option TablePoint) :
    expansionCause previous p = some .range := by
  unfold expansionCause checkExpansionPoint
  by_cases hx : p.x < -4000 ∨ 10000 < p.x
  · rw [if_pos hx]
    rfl
  · rw [if_neg hx, if_pos]
    · rfl
    · unfold TempRange at h
      omega

theorem expansionCause_none {p : TablePoint} (h : TempRange p) : expansionCause none p = none := by
  obtain ⟨hx, hf⟩ := h
  unfold expansionCause checkExpansionPoint
  rw [if_neg (by omega), if_neg (by omega)]
  rfl

theorem expansionCause_some {p q : TablePoint} (h : TempRange p) :
    expansionCause (some q) p = if p.x ≤ q.x then some .order else none := by
  obtain ⟨hx, hf⟩ := h
  unfold expansionCause checkExpansionPoint
  rw [if_neg (by omega), if_neg (by omega)]
  simp only [Option.map_some]
  split <;> rfl

theorem expansionCause_checks : Checks expansionCause TempRange fun p q => p.x < q.x := by
  refine ⟨fun p => ?_, fun q p => ?_⟩
  · by_cases h : TempRange p
    · simp [expansionCause_none h, h]
    · simp [expansionCause_of_range h, h]
  · by_cases h : TempRange p
    · rw [expansionCause_some h]
      by_cases order : p.x ≤ q.x
      · rw [if_pos order]
        simp [h, order]
      · rw [if_neg order]
        simp only [h, true_and, true_iff]
        omega
    · simp [expansionCause_of_range h, h]

/-- R68, R71: the outcomes of the check of a count. -/
theorem checkCount_outcomes (count cap filled : Nat) :
    (checkCount count cap filled = none ↔ (2 ≤ count ∧ count ≤ filled) ∧ count ≤ cap)
      ∧ (count < 2 → checkCount count cap filled = some (.count, count))
      ∧ (2 ≤ count → cap < count → checkCount count cap filled = some (.count, cap))
      ∧ (2 ≤ count → count ≤ cap → filled < count → checkCount count cap filled = some (.count, filled)) := by
  unfold checkCount
  refine ⟨?_, fun h => if_pos h, fun h1 h2 => ?_, fun h1 h2 h3 => ?_⟩
  · split
    · simp only [reduceCtorEq, false_iff]
      omega
    · split
      · simp only [reduceCtorEq, false_iff]
        omega
      · split
        · simp only [reduceCtorEq, false_iff]
          omega
        · simp only [true_iff]
          omega
  · rw [if_neg (by omega), if_pos h2]
  · rw [if_neg (by omega), if_neg (by omega), if_pos h3]

/-- R68, R71: a table passes when its count and its points do. -/
theorem tableError_eq_none {check : Option TablePoint → TablePoint → Option TableCause}
    {ok : TablePoint → Prop} {next : TablePoint → TablePoint → Prop} (h : Checks check ok next)
    (count cap : Nat) (points : List TablePoint) :
    (checkCount count cap points.length).or (firstFailure check 0 none (points.take count)) = none
      ↔ (2 ≤ count ∧ count ≤ points.length) ∧ count ≤ cap ∧ PointsPass points ok next count := by
  rw [Option.or_eq_none_iff, (checkCount_outcomes count cap points.length).1, firstFailure_none_iff h,
    and_assoc]

theorem curveError_eq (count cap : Nat) (points : List TablePoint) :
    curveError count cap points
      = (checkCount count cap points.length).or (firstFailure curveCause 0 none (points.take count)) := by
  unfold curveError
  rw [checkCurve_eq]

theorem expansionError_eq (count : Nat) (points : List TablePoint) :
    expansionError count points
      = (checkCount count 16 points.length).or (firstFailure expansionCause 0 none (points.take count)) := by
  unfold expansionError
  rw [← checkExpansion_eq]
  rfl

/-- Settles O41. -/
theorem curveCheckAcceptsExactlyValidCurves : Obligations.CurveCheckAcceptsExactlyValidCurves := by
  intro count cap points counted rateOk factorOk stepOk tempOk expansionOk before curveRange curveNext
    tempRange tempNext curve expansion
  have curveEq : curve = _ := curveError_eq count cap points
  have expansionEq : expansion = _ := expansionError_eq count points
  obtain ⟨curveNone, curveFew, curveMany, curveUnfilled⟩ := checkCount_outcomes count cap points.length
  obtain ⟨tempNone, tempFew, tempMany, tempUnfilled⟩ := checkCount_outcomes count 16 points.length
  refine ⟨?_, fun h => ?_, fun h1 h2 h3 => ?_, fun h1 h2 h3 => ?_, fun h1 h2 h3 => .inl ?_,
    fun hc hcap i q hi hq hb => ⟨fun hr => ?_, fun j p hj hp hr => ⟨fun ho => ?_, fun ho hs => ?_⟩⟩,
    ?_, fun h => ?_, fun h1 h2 => ?_, fun h1 h2 h3 => ?_, fun h1 h2 => .inl ?_,
    fun hc hcap i q hi hq hb => ⟨fun hr => ?_, fun j p hj hp hr ho => ?_⟩⟩
  · rw [curveEq]
    exact tableError_eq_none curveCause_checks count cap points
  · rw [curveEq, curveFew h]
    rfl
  · rw [curveEq, curveMany h1 h2]
    rfl
  · rw [curveEq, curveUnfilled h1 h2 h3]
    rfl
  · rw [curveEq, curveMany h1 h2]
    rfl
  · rw [curveEq, curveNone.mpr ⟨hc, hcap⟩, Option.none_or]
    exact firstFailure_at curveCause_checks hi hq hb (curveCause_of_range hr _)
  · subst hj
    rw [curveEq, curveNone.mpr ⟨hc, hcap⟩, Option.none_or]
    refine firstFailure_at curveCause_checks hi hq hb ?_
    rw [show pointBefore none points (j + 1) = some p from hp, curveCause_some hr, if_pos ho]
  · subst hj
    rw [curveEq, curveNone.mpr ⟨hc, hcap⟩, Option.none_or]
    refine firstFailure_at curveCause_checks hi hq hb ?_
    rw [show pointBefore none points (j + 1) = some p from hp, curveCause_some hr, if_neg (by omega), if_pos]
    have : ¬(q.factor ≤ p.factor + 20000 ∧ p.factor ≤ q.factor + 20000) := hs
    omega
  · rw [expansionEq]
    exact tableError_eq_none expansionCause_checks count 16 points
  · rw [expansionEq, tempFew h]
    rfl
  · rw [expansionEq, tempMany (by omega) h1]
    rfl
  · rw [expansionEq, tempUnfilled h1 h2 h3]
    rfl
  · rw [expansionEq, tempMany (by omega) h1]
    rfl
  · rw [expansionEq, tempNone.mpr ⟨hc, hcap⟩, Option.none_or]
    exact firstFailure_at expansionCause_checks hi hq hb (expansionCause_of_range hr _)
  · subst hj
    rw [expansionEq, tempNone.mpr ⟨hc, hcap⟩, Option.none_or]
    refine firstFailure_at expansionCause_checks hi hq hb ?_
    rw [show pointBefore none points (j + 1) = some p from hp, expansionCause_some hr, if_pos ho]

end Sys2Proof.Machine
end

