-- ==== Sys2Proof/Proofs/AssemblyAndAccept.lean ====
section
/-! PROOFS. The assembly buffer, the commits of a table, and the curve that ACCEPT_PROVE edits (O40, O42,
O49). -/

namespace Sys2Proof.Machine

/-! ### LOAD_POINTS (R73, R74) -/

theorem length_overwrite {old : List TablePoint} {start : Nat} (new : List TablePoint)
    (h : start ≤ old.length) : (overwrite old start new).length = max old.length (start + new.length) := by
  unfold overwrite
  simp only [List.length_append, List.length_take, List.length_drop]
  omega

theorem getElem?_overwrite {old : List TablePoint} {start : Nat} (new : List TablePoint)
    (h : start ≤ old.length) (i : Nat) :
    (overwrite old start new)[i]?
      = if i < start then old[i]? else if i < start + new.length then new[i - start]? else old[i]? := by
  have taken : (old.take start).length = start := List.length_take_of_le h
  unfold overwrite
  by_cases first : i < start
  · rw [if_pos first, List.append_assoc, List.getElem?_append_left (by omega), List.getElem?_take_of_lt first]
  · rw [if_neg first]
    by_cases written : i < start + new.length
    · rw [if_pos written, List.getElem?_append_left (by rw [List.length_append]; omega),
        List.getElem?_append_right (by omega), taken]
    · rw [if_neg written, List.getElem?_append_right (by rw [List.length_append]; omega), List.length_append,
        taken, List.getElem?_drop]
      congr 1
      omega

theorem loadInto_of_fit {t : Target} {capacity start : Nat} {points : List TablePoint} {s : State}
    (hs : start ≤ (if s.buffer.target = some t then s.buffer.points else []).length)
    (hc : start + points.length ≤ capacity) :
    loadInto t capacity start points s
      = accept (t.bytes ++ encU 1 (s.buffer.load t start points).points.length)
          { s with buffer := s.buffer.load t start points } := by
  refine if_pos (Bool.and_eq_true_iff.mpr ⟨?_, decide_eq_true hc⟩)
  split
  · next same =>
    rw [if_pos same] at hs
    exact decide_eq_true hs
  · next other =>
    rw [if_neg other] at hs
    simpa using hs

/-- R73: the kind byte of a target that is read. -/
theorem readTarget_kind {kind : Byte} {rest : List Byte} {t : Target} (h : readTarget (kind :: rest) = some t) :
    (kind = 0 ∧ ∃ r p, t = .curve r p) ∨ (kind = 1 ∧ ∃ p, t = .expansion p) := by
  unfold readTarget at h
  cases hr : asRun (argU (kind :: rest) 1 1) with
  | none => simp [hr] at h
  | some r =>
    cases hp : asProduct (argU (kind :: rest) 2 1) with
    | none => simp [hr, hp] at h
    | some p =>
      simp only [hr, hp, argU_first, Option.bind_eq_bind, Option.bind_some] at h
      split at h
      · next zero => exact .inl ⟨BitVec.eq_of_toNat_eq zero, r, p, (Option.some.inj h).symm⟩
      · next one => exact .inr ⟨BitVec.eq_of_toNat_eq one, p, (Option.some.inj h).symm⟩
      · exact nomatch h

theorem loadTarget_of_curve {args : List Byte} {r : Fin 4} {p : Fin 8} {s : State} {st : StationRecord}
    (h : readTarget args = some (.curve r p)) (hst : s.retained.station = some st)
    (ha : st.layout.allows r p = true) :
    loadTarget args s
      = loadInto (.curve r p) st.layout.pointsPerCurve (argU args 3 1) (readPoints true args) s := by
  unfold loadTarget
  simp only [h, hst, ha, if_true]

theorem loadTarget_of_expansion {args : List Byte} {p : Fin 8} (s : State)
    (h : readTarget args = some (.expansion p)) :
    loadTarget args s = loadInto (.expansion p) 16 (argU args 3 1) (readPoints false args) s := by
  unfold loadTarget
  simp only [h]

theorem loadPoints_of_length {kind : Byte} {rest : List Byte} {t : Target} (s : State)
    (ht : readTarget (kind :: rest) = some t)
    (hl : pointsLengthOk (kind == 0) (kind :: rest).length = true) :
    loadPoints (kind :: rest) s = loadTarget (kind :: rest) s := by
  have known : ¬1 < kind.toNat := by
    obtain ⟨rfl, -⟩ | ⟨rfl, -⟩ := readTarget_kind ht <;> decide
  unfold loadPoints
  simp only [if_neg known, hl, if_true]

theorem encU_one_byte (n : Nat) (h : n < 256) : encU 1 n = [BitVec.ofNat 8 n] := by
  unfold encU natBytes natBytes
  rw [if_neg (by omega), Int.toNat_natCast, Nat.min_eq_left (by omega)]
  rfl

/-- Settles O40. -/
theorem loadPointsWritesTheBuffer : Obligations.LoadPointsWritesTheBuffer := by
  intro src tag kind rest t s s1 args start points old ht hlen hread hstart hcurve hexp shown
  have loaded : loadTarget args s1
      = accept (t.bytes ++ encU 1 (s1.buffer.load t start points).points.length)
          { s1 with buffer := s1.buffer.load t start points } := by
    obtain ⟨hk, r, p, rfl⟩ | ⟨hk, p, rfl⟩ := readTarget_kind hread
    · obtain ⟨st, hst, ha, hc⟩ := hcurve r p rfl
      have same : readPoints true args = points := by
        show _ = readPoints (kind == 0) args
        rw [hk]
        rfl
      rw [loadTarget_of_curve hread hst ha, same, loadInto_of_fit hstart hc]
    · have same : readPoints false args = points := by
        show _ = readPoints (kind == 0) args
        rw [hk]
        rfl
      rw [loadTarget_of_expansion s1 hread, same, loadInto_of_fit hstart (hexp p rfl)]
  have target : t.bytes = shown := by
    cases t <;> rfl
  have handled : handling (.loadPoints src tag args) s1 = _ :=
    (loadPoints_of_length s1 hread hlen).trans loaded
  rw [target] at handled
  exact ⟨overwrite old start points, exec_of_handling rfl ht handled rfl, length_overwrite points hstart,
    getElem?_overwrite points hstart⟩

/-! ### COMMIT_CURVE and COMMIT_PRODUCT (R75 to R79) -/

theorem commitCurve_of_pair (src tag : Byte) (r : Fin 4) (p : Fin 8) (count : Byte) (s : State) :
    handling (.commitCurve src tag [BitVec.ofNat 8 r.val, BitVec.ofNat 8 p.val, count]) s
      = commitCurveAt r p count.toNat s := by
  show commitCurve _ s = _
  unfold commitCurve
  rw [withLength_of_length (n := 3) (by rfl)]
  simp only [argU_first, argU_second, argU_third, byte_toNat (show r.val < 256 by omega),
    byte_toNat (show p.val < 256 by omega), asRun_val, asProduct_val]

theorem commitCurveAt_of_valid {r : Fin 4} {p : Fin 8} {count : Nat} {s : State} {st : StationRecord}
    (hst : s.retained.station = some st) (ha : st.layout.allows r p = true)
    (ht : s.buffer.target = some (.curve r p))
    (he : curveError count st.layout.pointsPerCurve s.buffer.points = none) :
    commitCurveAt r p count s
      = accept (encCode ((s.curve r p).installCode (curveInUseNow r p s))) (installCurve r p count s) := by
  unfold commitCurveAt
  simp only [hst, ha, ht, he, Bool.true_eq_false, if_false, ne_eq, not_true_eq_false]

theorem curveInUse_iff (r : Fin 4) (p : Fin 8) (s : State) :
    (curveInUseNow r p s || (s.curve r p).pending.isSome) = true
      ↔ (s.runs[r].state ≠ .closed ∧ p = s.retained.batch.product) ∨ (s.curve r p).pending ≠ none := by
  unfold curveInUseNow
  rw [Bool.or_eq_true, Bool.and_eq_true, bne_iff_ne, beq_iff_eq, Option.isSome_iff_ne_none]

theorem productInUse_iff (p : Fin 8) (s : State) :
    (productInUseNow p s || s.retained.products[p].pending.isSome) = true
      ↔ (s.station = .metering
          ∧ (p = s.retained.batch.product
            ∨ ∃ h rest, s.retained.batch.queue = h :: rest ∧ h.product = p))
        ∨ s.retained.products[p].pending ≠ none := by
  unfold productInUseNow
  rw [Bool.or_eq_true, Bool.and_eq_true, beq_iff_eq, Option.isSome_iff_ne_none, Bool.or_eq_true, beq_iff_eq,
    beq_iff_eq]
  cases s.retained.batch.queue <;> simp

theorem Copies.install_of_waits {α : Type} {c : Copies α} {inUse : Bool}
    (h : (inUse || c.pending.isSome) = true) (new : α) :
    c.install inUse new = { c with pending := some new } ∧ c.installCode inUse = 1 :=
  ⟨if_pos h, if_pos h⟩

theorem Copies.install_of_free {α : Type} {c : Copies α} {inUse : Bool}
    (h : ¬(inUse || c.pending.isSome) = true) (new : α) :
    c.install inUse new = { c with inService := some new } ∧ c.installCode inUse = 0 :=
  ⟨if_neg h, if_neg h⟩

/-- Settles O42. -/
theorem commitsInstallInServiceOrPending : Obligations.CommitsInstallInServiceOrPending := by
  refine ⟨?_, ?_⟩
  · intro src tag r p count st s s1 args c new waits done ht hst ha htarget he
    have handled : handling (.commitCurve src tag args) s1
        = accept (encCode (c.installCode (curveInUseNow r p s1)))
            (done (c.install (curveInUseNow r p s1) new)) :=
      (commitCurve_of_pair src tag r p count s1).trans (commitCurveAt_of_valid hst ha htarget he)
    have use : (curveInUseNow r p s1 || c.pending.isSome) = true ↔ waits := curveInUse_iff r p s1
    refine ⟨fun h => ?_, fun h => ?_⟩
    · obtain ⟨copy, code⟩ := Copies.install_of_waits (use.mpr h) new
      rw [copy, code] at handled
      exact exec_of_handling rfl ht handled rfl
    · obtain ⟨copy, code⟩ := Copies.install_of_free (mt use.mp h) new
      rw [copy, code] at handled
      exact exec_of_handling rfl ht handled rfl
  · intro src tag args x s s1 c new b waits done ht hlen hread htarget he
    have handled : handling (.commitProduct src tag args) s1
        = accept (encCode (c.installCode (productInUseNow x.slot s1)))
            (done (c.install (productInUseNow x.slot s1) new)) := by
      show commitProduct args s1 = _
      unfold commitProduct
      rw [withLength_of_length hlen, hread]
      simp only [htarget, he, ne_eq, not_true_eq_false, if_false]
      rfl
    have use : (productInUseNow x.slot s1 || c.pending.isSome) = true ↔ waits := productInUse_iff x.slot s1
    refine ⟨fun h => ?_, fun h => ?_⟩
    · obtain ⟨copy, code⟩ := Copies.install_of_waits (use.mpr h) new
      rw [copy, code] at handled
      exact exec_of_handling rfl ht handled rfl
    · obtain ⟨copy, code⟩ := Copies.install_of_free (mt use.mp h) new
      rw [copy, code] at handled
      exact exec_of_handling rfl ht handled rfl

/-! ### ACCEPT_PROVE (R146 to R148) -/

theorem nearestPoint_mem {q : Int} {points : List CurvePoint} {j : Nat} {y : CurvePoint}
    (h : nearestPoint q points = some (j, y)) : y ∈ points := by
  induction points generalizing j with
  | nil => exact nomatch h
  | cons p rest ih =>
    rw [nearestPoint] at h
    cases hr : nearestPoint q rest with
    | none =>
      rw [hr] at h
      cases h
      simp
    | some found =>
      obtain ⟨k, z⟩ := found
      simp only [hr] at h
      split at h
      · cases h
        exact List.mem_cons_of_mem p (ih hr)
      · cases h
        simp

/-- R147: the point nearest in rate is the first of those at the smallest distance. -/
theorem nearestPoint_eq {q : Int} {points : List CurvePoint} {i : Nat} {near : CurvePoint}
    (hi : points[i]? = some near) (hmin : ∀ y ∈ points, rateDistance q near ≤ rateDistance q y)
    (hfirst : ∀ j y, j < i → points[j]? = some y → rateDistance q near < rateDistance q y) :
    nearestPoint q points = some (i, near) := by
  induction points generalizing i with
  | nil => simp at hi
  | cons p rest ih =>
    rw [nearestPoint]
    cases i with
    | zero =>
      obtain rfl : p = near := Option.some.inj hi
      cases hr : nearestPoint q rest with
      | none => rfl
      | some found =>
        obtain ⟨j, y⟩ := found
        have member : y ∈ rest := nearestPoint_mem hr
        simp only
        rw [if_neg (by have := hmin y (by simp [member]); omega)]
    | succ i =>
      rw [ih hi (fun y hy => hmin y (by simp [hy])) fun j y hj hy => hfirst (j + 1) y (by omega) hy]
      exact if_pos (hfirst 0 p (by omega) rfl)

theorem insertPoint_eq (x : CurvePoint) (points : List CurvePoint) :
    insertPoint x points
      = points.takeWhile (fun y => decide (y.rate < x.rate))
        ++ x :: points.dropWhile fun y => decide (y.rate < x.rate) := by
  induction points with
  | nil => rfl
  | cons p rest ih =>
    rw [insertPoint]
    by_cases h : p.rate < x.rate
    · simp [h, ih]
    · simp [h]

/-- In a curve with ascending rates the points below a rate are its first points. -/
theorem filter_eq_takeWhile {points : List CurvePoint} {q : Nat}
    (h : (points.map (·.rate)).Pairwise (· < ·)) :
    points.filter (fun y => decide (y.rate < q)) = points.takeWhile fun y => decide (y.rate < q) := by
  induction points with
  | nil => rfl
  | cons p rest ih =>
    obtain ⟨above, hs⟩ := List.pairwise_cons.mp h
    by_cases hp : p.rate < q
    · simp [hp, ih hs]
    · simp only [List.takeWhile_cons, List.filter_cons, decide_eq_true_eq, if_neg hp]
      refine List.filter_eq_nil_iff.mpr fun y hy => ?_
      have later : p.rate < y.rate := above y.rate (List.mem_map_of_mem hy)
      simp only [decide_eq_true_eq]
      omega

/-- R71: the rates of a valid curve ascend. -/
theorem rates_ascend {points : List CurvePoint} {cap : Nat}
    (h : curveError points.length cap (points.map (·.plain)) = none) :
    (points.map (·.rate)).Pairwise (· < ·) := by
  rw [curveError_eq, tableError_eq_none curveCause_checks] at h
  obtain ⟨-, -, -, order⟩ := h
  rw [← List.isChain_iff_pairwise, List.isChain_iff_getElem]
  intro j hj
  rw [List.length_map] at hj
  have next := (order j points[j].plain points[j + 1].plain hj
    (by rw [List.getElem?_map, List.getElem?_eq_getElem (by omega)]; rfl)
    (by rw [List.getElem?_map, List.getElem?_eq_getElem hj]; rfl)).1
  simp only [List.getElem_map]
  have : (points[j].rate : Int) < points[j + 1].rate := next
  omega

/-- R147: a curve whose insertion of a point is valid had ascending rates. -/
theorem rates_ascend_of_inserted {points : List CurvePoint} {x : CurvePoint} {cap : Nat}
    (h : curveError (insertPoint x points).length cap ((insertPoint x points).map (·.plain)) = none) :
    (points.map (·.rate)).Pairwise (· < ·) := by
  have ascend := rates_ascend h
  rw [insertPoint_eq] at ascend
  refine ascend.sublist (List.Sublist.map _ ?_)
  have parts := (List.sublist_cons_self x (points.dropWhile fun y => decide (y.rate < x.rate))).append_left
    (points.takeWhile fun y => decide (y.rate < x.rate))
  rwa [List.takeWhile_append_dropWhile] at parts

/-- R147: a nearest point within a tenth of its rate is replaced. -/
theorem editCurve_of_close {points : List CurvePoint} {cap i : Nat} {q mf : Int} {near : CurvePoint}
    (hn : nearestPoint q points = some (i, near)) (h : rateDistance q near * 10 ≤ near.rate) :
    editCurve points cap q mf
      = some
          { inserted := false
            index := i
            points := points.set i { near with factor := mf.toNat, origin := .proved }
            oldFactor := some near.factor } := by
  unfold editCurve
  simp only [hn, if_pos h]

/-- R147: a point farther from every other is inserted where the curve has room. -/
theorem editCurve_of_far {points : List CurvePoint} {cap i : Nat} {q mf : Int} {near : CurvePoint}
    (hn : nearestPoint q points = some (i, near)) (h : near.rate < rateDistance q near * 10)
    (room : points.length < cap) :
    editCurve points cap q mf
      = some
          { inserted := true
            index := (points.filter fun x => decide ((x.rate : Int) < q)).length
            points := insertPoint { rate := q.toNat, factor := mf.toNat, origin := .proved } points
            oldFactor := none } := by
  unfold editCurve
  simp only [hn, if_neg (show ¬rateDistance q near * 10 ≤ near.rate by omega), if_pos room]

theorem editCurve_of_full {points : List CurvePoint} {cap i : Nat} {q : Int} {near : CurvePoint} (mf : Int)
    (hn : nearestPoint q points = some (i, near)) (h : near.rate < rateDistance q near * 10)
    (full : cap ≤ points.length) : editCurve points cap q mf = none := by
  unfold editCurve
  simp only [hn, if_neg (show ¬rateDistance q near * 10 ≤ near.rate by omega),
    if_neg (show ¬points.length < cap by omega)]

/-- R146 to R148: ACCEPT_PROVE of a COMPLETE session, from its working copy on. -/
theorem acceptProve_of_complete {r : Fin 4} {p : Fin 8} {x : Results} {st : StationRecord} {c : CurveCopy}
    {s : State} (src tag : Byte) (hs : s.session.state = .complete) (ha : s.session.attached = some r)
    (hp : s.session.product = some p) (hx : s.session.results = some x) (hst : s.retained.station = some st)
    (hl : st.layout.allows r p = true) (hc : ((s.curve r p).pending.or (s.curve r p).inService) = some c) :
    handling (.acceptProve src tag []) s = acceptOn r p x c.points st.layout.pointsPerCurve s := by
  have copy : s.workingCopy r p = some (c.points, st.layout.pointsPerCurve) := by
    unfold State.workingCopy
    rw [hst, hc]
    exact if_pos hl
  show acceptProve [] s = _
  unfold acceptProve
  rw [withLength_of_length (n := 0) (by rfl)]
  simp only [hs, ha, hp, hx, copy, ne_eq, not_true_eq_false, if_false]

/-- R146: an edit that passes the deviation test and the check of a curve is installed. -/
theorem acceptOn_of_edit {r : Fin 4} {p : Fin 8} {x : Results} {points : List CurvePoint} {cap : Nat}
    {s : State} {e : CurveEdit} {rec0 : ProverRecord} (hrec : s.retained.prover = some rec0)
    (hd : ((x.mfNew - interpolate (curvePairs points) x.qProve).natAbs : Int) * 100000
      ≤ rec0.acceptLimit * interpolate (curvePairs points) x.qProve)
    (he : editCurve points cap x.qProve x.mfNew = some e)
    (hv : curveError e.points.length cap (e.points.map (·.plain)) = none) :
    acceptOn r p x points cap s
      = accept (editData e (interpolate (curvePairs points) x.qProve) x.mfNew) (installEdit r p e.points s) := by
  have passes : deviates ((s.retained.prover.map (·.acceptLimit)).getD 0) x.mfNew
      (interpolate (curvePairs points) x.qProve) = false := by
    unfold deviates
    rw [hrec]
    exact decide_eq_false (by simp only [Option.map_some, Option.getD_some]; omega)
  unfold acceptOn
  simp only [passes, he, hv, Bool.false_eq_true, if_false]

theorem acceptOn_of_full {r : Fin 4} {p : Fin 8} {x : Results} {points : List CurvePoint} {cap : Nat}
    {s : State} {rec0 : ProverRecord} (hrec : s.retained.prover = some rec0)
    (hd : ((x.mfNew - interpolate (curvePairs points) x.qProve).natAbs : Int) * 100000
      ≤ rec0.acceptLimit * interpolate (curvePairs points) x.qProve)
    (he : editCurve points cap x.qProve x.mfNew = none) :
    acceptOn r p x points cap s = refuse .storeFull s := by
  have passes : deviates ((s.retained.prover.map (·.acceptLimit)).getD 0) x.mfNew
      (interpolate (curvePairs points) x.qProve) = false := by
    unfold deviates
    rw [hrec]
    exact decide_eq_false (by simp only [Option.map_some, Option.getD_some]; omega)
  unfold acceptOn
  simp only [passes, he, Bool.false_eq_true, if_false]

theorem BatchUnit.markProve_eq (b : BatchUnit) (r : Fin 4) :
    b.markProve r = if b.queue = [] then b else { b with acc := b.acc.markProve r } := by
  unfold BatchUnit.markProve
  cases b.queue <;> rfl

theorem installEdit_eq (r : Fin 4) (p : Fin 8) (points : List CurvePoint) (s : State) :
    installEdit r p points s
      = { s with
          session := { s.session with state := .idle, endCause := .accepted }
          retained :=
            { s.retained with
              curves :=
                s.retained.curves.set (curveIndex r p)
                  { s.curve r p with pending := some { points, installedAt := s.retained.intervalNumber } }
              batch := s.retained.batch.markProve r } } := rfl

/-- Settles O49. -/
theorem acceptedProveEditsThePendingCurve : Obligations.AcceptedProveEditsThePendingCurve := by
  intro src tag r p x rec0 st c i near s s1 cap away mfCurve factor replaced below inserted mark accepted
    ht hs ha hp hx hrec hst hl hc hd hq hi hmin hfirst
  have handled := acceptProve_of_complete src tag hs ha hp hx hst hl hc
  have nearest : nearestPoint x.qProve c.points = some (i, near) := nearestPoint_eq hi hmin hfirst
  have installed (points : List CurvePoint) : installEdit r p points s1 = accepted points := by
    rw [installEdit_eq, BatchUnit.markProve_eq]
    rfl
  refine ⟨fun close hv => ?_, fun far room hv => ?_, fun far full => ?_⟩
  · have edit := editCurve_of_close (cap := cap) (mf := x.mfNew) nearest close
    rw [acceptOn_of_edit hrec hd edit hv, installed] at handled
    exact exec_of_handling rfl ht handled rfl
  · have edit := editCurve_of_far (mf := x.mfNew) nearest far room
    have points : insertPoint { rate := x.qProve.toNat, factor := factor, origin := .proved } c.points
        = inserted := insertPoint_eq _ _
    have index : (c.points.filter fun y => decide ((y.rate : Int) < x.qProve)).length
        = (c.points.takeWhile below).length := by
      have ascend := rates_ascend_of_inserted (cap := cap) (by rw [points]; exact hv)
      have same : (fun y : CurvePoint => decide ((y.rate : Int) < x.qProve)) = below :=
        funext fun y => by
          show decide _ = decide _
          congr 1
          rw [eq_iff_iff]
          omega
      rw [same]
      exact congrArg List.length (filter_eq_takeWhile ascend)
    rw [index] at edit
    have valid := acceptOn_of_edit (r := r) (p := p) hrec hd edit (by rw [points]; exact hv)
    rw [valid, points, installed] at handled
    exact exec_of_handling rfl ht handled rfl
  · rw [acceptOn_of_full hrec hd (editCurve_of_full x.mfNew nearest far full)] at handled
    exact exec_of_handling rfl ht handled rfl

end Sys2Proof.Machine
end

