-- ==== Sys2Proof/Proofs/Batches.lean ====
section
/-! PROOFS. The batch conditions, the close of a batch into its ticket, and the commands of the Batch Unit
(O43, O44). -/

namespace Sys2Proof.Machine

/-! ### The conditions of the Batch Unit (R112) -/

/-- R112: whether the ticket list is full for a head that would close. -/
def BatchUnit.full (b : BatchUnit) : Bool :=
  b.queue.head?.map (·.state) == some .closing && decide (4 ≤ b.tickets.length)

theorem evalBatchConds_eq (s : State) :
    evalBatchConds s
      = reportAll [(.noActiveBatch, s.retained.batch.queue.isEmpty),
          (.ticketStoreFull, s.retained.batch.full)] s := by
  refine congrArg (fun v => report .ticketStoreFull v
    (report .noActiveBatch s.retained.batch.queue.isEmpty s)) ?_
  unfold BatchUnit.full
  cases s.retained.batch.queue with
  | nil => rfl
  | cons h rest => simp

theorem evalBatchConds_noticesEnter (s : State) : NoticesEnter 2 s (evalBatchConds s) := by
  rw [evalBatchConds_eq]
  exact reportAll_noticesEnter [_, _] s

theorem evalBatchConds_noActive (s : State) :
    (evalBatchConds s).cond .noActiveBatch = s.told .noActiveBatch s.retained.batch.queue.isEmpty := by
  rw [evalBatchConds_eq]
  exact reportAll_cond (by simp) (by simp) (by simp) s

theorem evalBatchConds_full (s : State) :
    (evalBatchConds s).cond .ticketStoreFull = s.told .ticketStoreFull s.retained.batch.full := by
  rw [evalBatchConds_eq]
  exact reportAll_cond (by simp) (by simp) (by simp) s

theorem evalBatchConds_cond_ne {c : CondId} (h1 : c ≠ .noActiveBatch) (h2 : c ≠ .ticketStoreFull)
    (hd : c ≠ .outboundDiscard) (s : State) : (evalBatchConds s).cond c = s.cond c := by
  rw [evalBatchConds_eq]
  exact reportAll_cond_ne (by simp [h1, h2]) hd s

/-! ### The TICKET frame (R106, R177) -/

theorem markByte_six (a b c d e f : Bool) :
    markByte [a, b, c, d, e, f] = packBits [a, b, c, d, e, f] := by
  cases a <;> cases b <;> cases c <;> cases d <;> cases e <;> cases f <;> rfl

theorem ticketFrame_eq (t : Ticket) (level : Nat) :
    ({ kind := .ticket, dest := allNodes, level, source := 0, payload := ticketPayload t } : OutFrame)
      = t.frame level := by
  have opening : encWord (t.opening.getD 0)
      = match t.opening with
        | some n => encWord n
        | none => [0, 0, 0, 0] := by
    cases t.opening <;> rfl
  have cause : encU 1 t.cause.code = [if t.cause = .target then 0 else 1] := by
    cases t.cause <;> rfl
  have marks : packBits (t.station.flags.bits ++ [t.opening.isSome, t.targetReached])
      = markByte [t.station.flags.channelSubstituted, t.station.flags.inputHeld,
          t.station.flags.curveClampOrFallback, t.station.flags.proveAccepted,
          t.opening.isSome, t.targetReached] := (markByte_six ..).symm
  unfold ticketPayload Ticket.frame
  rw [opening, cause, marks] <;> rfl

theorem offerTicket_eq {s : State} {st : StationRecord} (hst : s.retained.station = some st) (t : Ticket) :
    offerTicket t s = offer (t.frame st.ticketLevel) s := by
  unfold offerTicket
  rw [hst]
  simp only [ticketFrame_eq]

theorem offerTicket_cond_ne {c : CondId} (hd : c ≠ .outboundDiscard) (t : Ticket) (s : State) :
    (offerTicket t s).cond c = s.cond c := by
  unfold offerTicket
  split
  · rfl
  · exact offer_cond_ne hd _ s

/-! ### The close of a batch while not METERING (R92, R105 to R107) -/

theorem formTicket_eq (s : State) (h : BatchEntry) :
    formTicket s h
      = s.retained.batch.headTicket h ((s.retained.products[h.product].inService).map (·.code))
          s.retained.intervalNumber := rfl

theorem LoopOnly.setBatch {s t : State} (h : LoopOnly s t) (b : BatchUnit) :
    LoopOnly (s.setBatch b) (t.setBatch b) := by
  unfold LoopOnly State.setBatch State.setRetained at *
  rw [h]

/-- R106: the Batch Unit once its head has left and the product in service follows the entry behind it. -/
theorem productFollows_dropHead (s : State) (t : Ticket) :
    productFollows (s.setBatch (s.retained.batch.dropHead t))
      = s.setBatch (s.retained.batch.afterClose t fun _ => {}) := by
  unfold productFollows BatchUnit.dropHead BatchUnit.afterClose
  simp only [State.setBatch_retained]
  cases s.retained.batch.queue.tail <;> rfl

/-- The state in which the batch conditions are evaluated at a close while not METERING. -/
def closedIdle (h : BatchEntry) (s : State) : State :=
  (offerTicket (formTicket s h) s).setBatch (s.retained.batch.afterClose (formTicket s h) fun _ => {})

theorem closeHead_idle {s : State} {h : BatchEntry} {rest : List BatchEntry}
    (hq : s.retained.batch.queue = h :: rest) :
    closeHead false s = evalBatchConds (closedIdle h s) := by
  have follows := productFollows_dropHead (offerTicket (formTicket s h) s) (formTicket s h)
  unfold closeHead closedIdle
  simp only [hq, Bool.false_eq_true, if_false]
  rw [follows, offerTicket_retained]

theorem closedIdle_batch (h : BatchEntry) (s : State) :
    (closedIdle h s).retained.batch = s.retained.batch.afterClose (formTicket s h) fun _ => {} := rfl

theorem afterClose_queue (b : BatchUnit) (t : Ticket) (progress : Fin 8 → Progress) :
    (b.afterClose t progress).queue.isEmpty = b.queue.tail.isEmpty ∧ (b.afterClose t progress).full = false := by
  unfold BatchUnit.afterClose
  cases b.queue.tail with
  | nil => exact ⟨rfl, rfl⟩
  | cons e others => exact ⟨rfl, rfl⟩

theorem closedIdle_told {s : State} (h : BatchEntry) {c : CondId} (hd : c ≠ .outboundDiscard) (v : Bool) :
    (closedIdle h s).told c v = s.told c v :=
  State.told_congr (s := s) (t := offerTicket (formTicket s h) s) (offerTicket_cond_ne hd _ s)
    (offerTicket_retained _ _) v

/-- R105 to R107, R112: what a close while not METERING changes: the Batch Unit, the batch conditions, and the
loop, with the TICKET frame in a queue with room. -/
theorem closeHead_idle_outcome {s : State} {h : BatchEntry} {rest : List BatchEntry}
    (hq : s.retained.batch.queue = h :: rest) :
    LoopOnly (s.setBatch (s.retained.batch.afterClose (formTicket s h) fun _ => {})) (closeHead false s)
      ∧ (closeHead false s).cond .noActiveBatch = s.told .noActiveBatch rest.isEmpty
      ∧ (closeHead false s).cond .ticketStoreFull = s.told .ticketStoreFull false
      ∧ (∀ c : CondId, c ≠ .noActiveBatch → c ≠ .ticketStoreFull → c ≠ .outboundDiscard →
          (closeHead false s).cond c = s.cond c)
      ∧ ∀ (n : Nat) (s0 : State) (st : StationRecord), NoticesEnter n s0 s →
          s.retained.station = some st → s0.transmitter ≠ .free → s0.outbound.length + n + 3 ≤ 16 →
          (closeHead false s).outbound.filter (·.kind == .ticket)
            = s0.outbound.filter (·.kind == .ticket) ++ [(formTicket s h).frame st.ticketLevel] := by
  obtain ⟨empty, notFull⟩ := afterClose_queue s.retained.batch (formTicket s h) fun _ => {}
  rw [hq, List.tail_cons] at empty
  rw [closeHead_idle hq]
  refine ⟨?_, ?_, ?_, fun c h1 h2 hd => ?_, fun n s0 st hn hst ht hl => ?_⟩
  · exact ((offerTicket_loopOnly (formTicket s h) s).setBatch _).trans (evalBatchConds_loopOnly _)
  · rw [evalBatchConds_noActive, closedIdle_batch, empty, closedIdle_told h (by simp)]
  · rw [evalBatchConds_full, closedIdle_batch, notFull, closedIdle_told h (by simp)]
  · rw [evalBatchConds_cond_ne h1 h2 hd]
    exact offerTicket_cond_ne hd _ s
  · have enters : NoticesEnter 2 (offer ((formTicket s h).frame st.ticketLevel) s)
        (evalBatchConds (closedIdle h s)) := by
      have := evalBatchConds_noticesEnter (closedIdle h s)
      rw [← offerTicket_eq hst]
      exact this
    exact (filter_frame_between_notices hn enters ht (by omega)
      (by show OutKind.ticket ≠ _; simp)).1

theorem closeIfIdle_of_metering {s : State} (h : s.station = .metering) : closeIfIdle s = s := by
  unfold closeIfIdle
  simp [h]

theorem BatchUnit.canClose_iff {b : BatchUnit} {h : BatchEntry} {rest : List BatchEntry}
    (hq : b.queue = h :: rest) : b.canClose = true ↔ h.state = .closing ∧ b.tickets.length < 4 := by
  unfold BatchUnit.canClose
  rw [hq]
  simp

theorem closeIfIdle_of_held {s : State} (h : s.retained.batch.canClose = false) : closeIfIdle s = s := by
  unfold closeIfIdle
  simp [h]

theorem closeIfIdle_of_closing {s : State} (h : s.station ≠ .metering)
    (hc : s.retained.batch.canClose = true) : closeIfIdle s = closeHead false s := by
  unfold closeIfIdle
  simp [h, hc]

/-! ### QUEUE_BATCH and CANCEL_BATCH (R89, R90) -/

theorem queueBatch_of_args {src tag : Byte} {args : List Byte} {x : BatchArgs} {s : State}
    (hlen : args.length = 11) (hread : readBatchArgs args = some x)
    (hq : ∀ e ∈ s.retained.batch.queue, e.id ≠ x.id) (ht : ∀ t ∈ s.retained.batch.tickets, t.id ≠ x.id)
    (hp : (s.retained.products[x.product]).inService.isSome = true) (hl : s.retained.batch.queue.length < 8) :
    handling (.queueBatch src tag args) s
      = accept (encU 1 s.retained.batch.queue.length ++ encCode (x.entry s.retained.batch.queue).state.code)
          (queueEntry x s) := by
  have unknown : s.retained.batch.knows x.id = false := by
    unfold BatchUnit.knows
    rw [Bool.or_eq_false_iff, List.any_eq_false, List.any_eq_false]
    exact ⟨fun e he => by simpa using hq e he, fun t h => by simpa using ht t h⟩
  have known : (s.product x.product).isNone = false := by
    unfold State.product
    rw [← Option.not_isSome, hp]
    rfl
  show queueBatch args s = _
  unfold queueBatch
  rw [withLength_of_length hlen, hread]
  simp only [unknown, known, Bool.or_self, Bool.false_eq_true, if_false,
    if_neg (show ¬8 ≤ s.retained.batch.queue.length by omega)]

/-- The queue once the entry of a batch has left it. -/
theorem dropEntry_eq {id : Nat} {e : BatchEntry} {before after : List BatchEntry} (he : e.id = id)
    (hb : ∀ x ∈ before, x.id ≠ id) : dropEntry id (before ++ e :: after) = some (before ++ after) := by
  induction before with
  | nil => exact if_pos he
  | cons x before ih =>
    rw [List.cons_append, dropEntry, if_neg (hb x (by simp)), ih fun y hy => hb y (by simp [hy])]
    rfl

theorem argU_encU_id {n : Nat} (h : n < 2 ^ 32) : argU (encU 4 n) 0 4 = n := by
  have := argU_encU_four h []
  rwa [List.append_nil] at this

/-- Settles O43. -/
theorem batchesAreQueuedAndCancelled : Obligations.BatchesAreQueuedAndCancelled := by
  refine ⟨?_, ?_, fun s => ⟨evalBatchConds_loopOnly s, ?_, ?_, fun c h1 h2 hd =>
    evalBatchConds_cond_ne h1 h2 hd s⟩⟩
  · intro src tag args x s s1 b entry withBatch ht hlen hread hq htk hp hl
    have handled := queueBatch_of_args (src := src) (tag := tag) hlen hread hq htk hp hl
    refine ⟨fun empty => ?_, fun some => ?_⟩
    · have queued : queueEntry x s1
          = evalBatchConds
              (withBatch
                { b with
                  queue := [entry .active]
                  progress := {}
                  acc := {}
                  product := if s1.station = .metering then b.product else x.product }) := by
        unfold queueEntry BatchUnit.append
        rw [show s1.retained.batch.queue = [] from empty]
        by_cases hm : s1.station = .metering
        · simp only [hm, List.isEmpty_nil, bne_self_eq_false, Bool.and_false, Bool.false_eq_true, if_false,
            if_true]
          rfl
        · simp only [hm, List.isEmpty_nil, bne_iff_ne.mpr hm, Bool.and_self, if_false, if_true]
          rfl
      rw [queued, show s1.retained.batch.queue = [] from empty] at handled
      exact exec_of_handling rfl ht handled (evalBatchConds_restartPending _)
    · have notEmpty : s1.retained.batch.queue.isEmpty = false :=
        Bool.eq_false_iff.mpr fun h => some (List.isEmpty_iff.mp h)
      have queued : queueEntry x s1
          = evalBatchConds (withBatch { b with queue := b.queue ++ [entry .queued] }) := by
        unfold queueEntry BatchUnit.append BatchArgs.entry
        simp only [notEmpty, Bool.false_and, Bool.false_eq_true, if_false]
        rfl
      have position : encU 1 s1.retained.batch.queue.length
          = [BitVec.ofNat 8 s1.retained.batch.queue.length] :=
        encU_one_byte _ (show b.queue.length < 256 by omega)
      have state : (x.entry s1.retained.batch.queue).state = .queued := by
        unfold BatchArgs.entry
        rw [notEmpty]
        rfl
      rw [queued, position, state] at handled
      exact exec_of_handling rfl ht handled (evalBatchConds_restartPending _)
  · intro src tag e h before after s s1 args b ht hid hq hh hb
    have cancelled : handling (.cancelBatch src tag args) s1
        = accept [] (s1.setBatch { b with queue := h :: before ++ after }) := by
      show cancelBatch args s1 = _
      unfold cancelBatch
      rw [withLength_of_length (length_encU 4 _), argU_encU_id hid]
      have queue : s1.retained.batch.queue = h :: (before ++ e :: after) := hq
      unfold cancelId
      simp only [queue, if_neg hh, dropEntry_eq rfl hb]
      rfl
    exact exec_of_handling rfl ht cancelled rfl
  · rw [evalBatchConds_noActive]
    congr 1
    cases s.retained.batch.queue <;> rfl
  · exact evalBatchConds_full s

/-! ### END_BATCH (R103, R105) -/

theorem endBatch_of_head {src tag : Byte} {h : BatchEntry} {rest : List BatchEntry} {s : State}
    (hid : h.id < 2 ^ 32) (hq : s.retained.batch.queue = h :: rest) :
    handling (.endBatch src tag (encU 4 h.id)) s
      = accept (headStateData (endHead h s)).2 (headStateData (endHead h s)).1 := by
  show endBatch _ s = _
  unfold endBatch
  rw [withLength_of_length (length_encU 4 _)]
  simp only [hq, argU_encU_id hid, if_true]

/-- R103: the Batch Unit once an ACTIVE head has been ended by command. -/
def BatchUnit.commanded (b : BatchUnit) (h : BatchEntry) (rest : List BatchEntry) : BatchUnit :=
  { b with
    queue := { h with state := .closing } :: rest
    progress := { b.progress with closeCause := some .command } }

theorem startClosing_of_head {b : BatchUnit} {h : BatchEntry} {rest : List BatchEntry}
    (hq : b.queue = h :: rest) : b.startClosing .command = b.commanded h rest := by
  unfold BatchUnit.startClosing
  rw [hq]
  rfl

/-- R103: the state in which the close that follows END_BATCH is attempted. -/
def endedState (h : BatchEntry) (rest : List BatchEntry) (s : State) : State :=
  if h.state = .active then evalBatchConds (s.setBatch (s.retained.batch.commanded h rest)) else s

theorem endHead_eq {h : BatchEntry} {rest : List BatchEntry} {s : State}
    (hq : s.retained.batch.queue = h :: rest) : endHead h s = closeIfIdle (endedState h rest s) := by
  unfold endHead endedState
  rw [startClosing_of_head hq]

theorem headStateData_of_head {s : State} {h : BatchEntry} {rest : List BatchEntry}
    (hq : s.retained.batch.queue = h :: rest) : headStateData s = (s, encCode h.state.code) := by
  unfold headStateData
  rw [hq]

theorem headStateData_of_empty {s : State} (hq : s.retained.batch.queue = []) :
    headStateData s
      = ({ s with openCount := s.openCount + 1 }, [(Config.openWord s.openCount).setWidth 8]) := by
  unfold headStateData
  rw [hq]
  rfl

theorem BatchUnit.canClose_queue {b : BatchUnit} (h : b.canClose = true) :
    ∃ e rest, b.queue = e :: rest ∧ e.state = .closing ∧ b.tickets.length < 4 := by
  cases hq : b.queue with
  | nil =>
    unfold BatchUnit.canClose at h
    rw [hq] at h
    exact nomatch h
  | cons e rest => exact ⟨e, rest, rfl, (BatchUnit.canClose_iff hq).mp h⟩

/-- R105: a close that END_BATCH, TAKE_TICKET or STOP_METERING attempts changes the Batch Unit, conditions, and
the loop. -/
theorem closeIfIdle_restartPending (s : State) : (closeIfIdle s).restartPending = s.restartPending := by
  unfold closeIfIdle
  split
  · next h =>
    obtain ⟨e, rest, hq, -⟩ := BatchUnit.canClose_queue (Bool.and_eq_true_iff.mp h).2
    exact (closeHead_idle_outcome hq).1.restartPending
  · rfl

theorem NoticesEnter.of_setBatch {n : Nat} {s t : State} {b : BatchUnit} (h : NoticesEnter n (s.setBatch b) t) :
    NoticesEnter n s t := h

theorem headStateData_of_close {s : State} {h : BatchEntry} {rest : List BatchEntry}
    (hq : s.retained.batch.queue = h :: rest) :
    (headStateData (closeHead false s)).1
        = { closeHead false s with
            openCount := (closeHead false s).openCount + if rest.isEmpty then 1 else 0 }
      ∧ (rest ≠ [] → (headStateData (closeHead false s)).2 = [1]) := by
  have batch : (closeHead false s).retained.batch
      = s.retained.batch.afterClose (formTicket s h) fun _ => {} := by
    rw [(closeHead_idle_outcome hq).1.retained]
    rfl
  cases rest with
  | nil =>
    have queue : (closeHead false s).retained.batch.queue = [] := by
      rw [batch]
      unfold BatchUnit.afterClose
      rw [hq]
      rfl
    rw [headStateData_of_empty queue]
    exact ⟨rfl, fun h => absurd rfl h⟩
  | cons e others =>
    have queue : (closeHead false s).retained.batch.queue = { e with state := .active } :: others := by
      rw [batch]
      unfold BatchUnit.afterClose
      rw [hq]
      rfl
    rw [headStateData_of_head queue]
    exact ⟨rfl, fun _ => rfl⟩

theorem LoopOnly.setOpenCount {s t : State} (h : LoopOnly s t) (n : Nat) :
    LoopOnly { s with openCount := n } { t with openCount := n } := by
  unfold LoopOnly at *
  rw [h]

theorem endedState_closing {h : BatchEntry} {s : State} (hc : h.state = .closing) (rest : List BatchEntry) :
    endedState h rest s = s := by
  unfold endedState
  rw [hc]
  rfl

theorem endedState_active {h : BatchEntry} {s : State} (ha : h.state = .active) (rest : List BatchEntry) :
    endedState h rest s = evalBatchConds (s.setBatch (s.retained.batch.commanded h rest)) := if_pos ha

/-- R103: the ended head, in CLOSING. -/
def endedHead (h : BatchEntry) : BatchEntry := { h with state := .closing }

/-- R103: what END_BATCH has done when the close is attempted. -/
theorem endedState_facts {h : BatchEntry} {rest : List BatchEntry} {s : State}
    (hq : s.retained.batch.queue = h :: rest) (hs : h.state ≠ .queued) :
    let ended : BatchUnit :=
      if h.state = .active then
        { s.retained.batch with
          progress := { s.retained.batch.progress with closeCause := some .command } }
      else s.retained.batch
    let t := endedState h rest s
    t.retained.batch = { ended with queue := endedHead h :: rest }
      ∧ LoopOnly (s.setBatch t.retained.batch) t
      ∧ NoticesEnter 2 s t
      ∧ ∀ c : CondId, c ≠ .noActiveBatch → c ≠ .ticketStoreFull → c ≠ .outboundDiscard →
          t.cond c = s.cond c := by
  intro ended t
  cases state : h.state with
  | queued => exact absurd state hs
  | active =>
    have eq : t = _ := endedState_active state rest
    have batch : t.retained.batch = s.retained.batch.commanded h rest := by
      rw [eq, evalBatchConds_retained]
      rfl
    have ended' : ended = { s.retained.batch with
        progress := { s.retained.batch.progress with closeCause := some .command } } := if_pos state
    rw [batch, ended']
    refine ⟨rfl, ?_, ?_, fun c h1 h2 hd => ?_⟩
    · rw [eq]
      exact evalBatchConds_loopOnly _
    · rw [eq]
      exact NoticesEnter.of_setBatch (evalBatchConds_noticesEnter _)
    · rw [eq, evalBatchConds_cond_ne h1 h2 hd]
      rfl
  | closing =>
    have eq : t = s := endedState_closing state rest
    have ended' : ended = s.retained.batch := if_neg (by rw [state]; simp)
    have same : endedHead h = h := by
      unfold endedHead
      rw [← state]
    rw [eq, ended', same]
    refine ⟨?_, LoopOnly.refl _, (NoticesEnter.refl s).mono (by omega), fun _ _ _ _ => rfl⟩
    rw [← hq]

/-- R105: a batch unit whose head is ended closes into the same unit. -/
theorem afterClose_of_tail {b : BatchUnit} {h : BatchEntry} {rest : List BatchEntry}
    (hq : b.queue = h :: rest) (e : BatchEntry) (t : Ticket) (progress : Fin 8 → Progress) :
    { b with queue := e :: rest }.afterClose t progress = b.afterClose t progress := by
  unfold BatchUnit.afterClose
  rw [hq]
  cases rest <;> rfl

/-! ### TAKE_TICKET (R105, R109) -/

theorem dropTicket_eq {id : Nat} {t : Ticket} {before after : List Ticket} (ht : t.id = id)
    (hb : ∀ x ∈ before, x.id ≠ id) : dropTicket id (before ++ t :: after) = before ++ after := by
  induction before with
  | nil => exact if_pos ht
  | cons x before ih =>
    rw [List.cons_append, dropTicket, if_neg (hb x (by simp)), ih fun y hy => hb y (by simp [hy])]
    rfl

theorem takeTicket_of_held {src tag : Byte} {t : Ticket} {before after : List Ticket} {s : State}
    (hid : t.id < 2 ^ 32) (hq : s.retained.batch.tickets = before ++ t :: after)
    (hb : ∀ x ∈ before, x.id ≠ t.id) :
    handling (.takeTicket src tag (encU 4 t.id)) s
      = accept []
          (closeIfIdle
            (evalBatchConds (s.setBatch { s.retained.batch with tickets := before ++ after }))) := by
  have found : ∃ x, s.retained.batch.ticket t.id = some x := by
    refine Option.isSome_iff_exists.mp ?_
    unfold BatchUnit.ticket
    rw [List.find?_isSome, hq]
    exact ⟨t, by simp, by simp⟩
  obtain ⟨x, hx⟩ := found
  show takeTicket _ s = _
  unfold takeTicket
  rw [withLength_of_length (length_encU 4 _)]
  simp only [argU_encU_id hid, hx]
  unfold removeTicket
  simp only [hq, dropTicket_eq rfl hb]

/-- R101: a quotient rounded half away from zero, as the statements spell it. -/
theorem averages_rounded {e : AccEntry} (h0 : 0 < e.totals.iv) (h1 : e.totals.iv < 18446744073709551615) :
    let rounded := fun (n q : Int) =>
      ∃ size : Int,
        2 * (e.totals.iv : Int) * size ≤ 2 * (n.natAbs : Int) + e.totals.iv
          ∧ 2 * (n.natAbs : Int) + e.totals.iv < 2 * (e.totals.iv : Int) * (size + 1)
          ∧ q = if 0 ≤ n then size else -size
    ∃ a, e.averages = some a ∧ rounded e.sums.t a.t ∧ rounded e.sums.pres a.pres
      ∧ rounded e.sums.rho a.rho ∧ rounded e.sums.mf a.mf := by
  have positive : (0 : Int) < e.totals.iv := by omega
  have formed : e.averages = some _ := if_neg (by show ¬(e.totals.iv = 0 ∨ 18446744073709551615 ≤ _); omega)
  exact ⟨_, formed, roundHalfAway_size e.sums.t positive, roundHalfAway_size e.sums.pres positive,
    roundHalfAway_size e.sums.rho positive, roundHalfAway_size e.sums.mf positive⟩

/-- Settles O44. -/
theorem batchesEndAndTicketsAreTaken : Obligations.BatchesEndAndTicketsAreTaken := by
  refine ⟨?_, ?_, ?_⟩
  · intro src tag h rest s s1 args b ht hid hq hs
    have handled := endBatch_of_head (src := src) (tag := tag) hid hq
    rw [endHead_eq hq] at handled
    have held (h' : s1.station = .metering ∨ 4 ≤ b.tickets.length) :
        closeIfIdle (endedState h rest s1) = endedState h rest s1 := by
      obtain ⟨batch, only, -⟩ := endedState_facts hq hs
      obtain metering | full := h'
      · exact closeIfIdle_of_metering (only.station.trans metering)
      · refine closeIfIdle_of_held (Bool.eq_false_iff.mpr fun can => ?_)
        have tickets : (endedState h rest s1).retained.batch.tickets = b.tickets := by
          rw [batch]
          dsimp only
          split <;> rfl
        have := ((BatchUnit.canClose_iff (h := endedHead h) (rest := rest) (by rw [batch])).mp can).2
        rw [tickets] at this
        omega
    refine ⟨fun h' active => ?_, fun h' closing => ?_, fun idle room => ?_⟩
    · have queue : (endedState h rest s1).retained.batch.queue = endedHead h :: rest := by
        rw [endedState_active active, evalBatchConds_retained]
        rfl
      rw [held h', headStateData_of_head queue, endedState_active active] at handled
      exact exec_of_handling rfl ht handled (evalBatchConds_restartPending _)
    · rw [held h', endedState_closing closing, headStateData_of_head hq, closing] at handled
      exact exec_of_handling rfl ht handled rfl
    · intro ended ticket
      obtain ⟨batch, only, enters, others⟩ := endedState_facts hq hs
      have tickets : ended.tickets = b.tickets := by
        show (if _ then _ else _ : BatchUnit).tickets = _
        split <;> rfl
      have endedQueue : ended.queue = h :: rest := by
        refine Eq.trans ?_ hq
        show (if _ then _ else _ : BatchUnit).queue = _
        split <;> rfl
      have queue : (endedState h rest s1).retained.batch.queue = endedHead h :: rest := by rw [batch]
      have station : (endedState h rest s1).station ≠ .metering := by
        rw [only.station]
        exact idle
      have can : (endedState h rest s1).retained.batch.canClose = true := by
        refine (BatchUnit.canClose_iff queue).mpr ⟨rfl, ?_⟩
        rw [batch]
        exact tickets ▸ room
      have formed : formTicket (endedState h rest s1) (endedHead h) = ticket := by
        rw [formTicket_eq, only.retained, batch]
        rfl
      rw [closeIfIdle_of_closing station can] at handled
      obtain ⟨state, data⟩ := headStateData_of_close queue
      obtain ⟨closed, noActive, full, quiet, frame⟩ := closeHead_idle_outcome queue
      rw [formed, batch, afterClose_of_tail endedQueue] at closed
      have all : LoopOnly (s1.setBatch (ended.afterClose ticket fun _ => {}))
          (closeHead false (endedState h rest s1)) := (only.setBatch _).trans closed
      rw [state] at handled
      refine ⟨_, _, exec_of_handling rfl ht handled all.restartPending, data, ?_, ?_, ?_,
        fun c h1 h2 hd => (quiet c h1 h2 hd).trans (others c h1 h2 hd), fun st hst hb hl => ?_⟩
      · have counted := all.setOpenCount
          ((closeHead false (endedState h rest s1)).openCount + if rest.isEmpty then 1 else 0)
        rw [all.openCount] at counted
        rw [all.openCount]
        exact counted
      · show ((closeHead false (endedState h rest s1)).cond _).active = _
        rw [noActive, State.told_active]
      · show ((closeHead false (endedState h rest s1)).cond _).active = _
        rw [full, State.told_active]
      · rw [← formed]
        exact frame 2 s1 st enters (by rw [only.retained]; exact hst) hb (by omega)
  · intro src tag t before after s s1 args b ht hid hl hq hb
    have handled := takeTicket_of_held (src := src) (tag := tag) hid hq hb
    let left : BatchUnit := { b with tickets := before ++ after }
    have only := evalBatchConds_loopOnly (s1.setBatch left)
    have kept : (closeIfIdle (evalBatchConds (s1.setBatch left))).restartPending = s1.restartPending :=
      (closeIfIdle_restartPending _).trans only.restartPending
    have fits : (before ++ after).length < 4 := by
      have := congrArg List.length hq
      simp only [List.length_append, List.length_cons] at this ⊢
      have : b.tickets.length ≤ 4 := hl
      omega
    refine ⟨_, exec_of_handling rfl ht handled kept, fun held => ?_, fun idle closes h rest hh => ?_⟩
    · obtain metering | open' := held
      · exact closeIfIdle_of_metering (only.station.trans metering)
      · refine closeIfIdle_of_held (Bool.eq_false_iff.mpr fun can => open' ?_)
        rw [only.retained] at can
        obtain ⟨e, rest, he, hc, -⟩ := BatchUnit.canClose_queue can
        exact ⟨e, rest, he, hc⟩
    · intro left' ticket
      have queue : (evalBatchConds (s1.setBatch left)).retained.batch.queue = h :: rest := by
        rw [only.retained]
        exact hh
      have closing : h.state = .closing := by
        obtain ⟨e, others, he, hc⟩ := closes
        rw [hh] at he
        cases he
        exact hc
      have can : (evalBatchConds (s1.setBatch left)).retained.batch.canClose = true := by
        refine (BatchUnit.canClose_iff queue).mpr ⟨closing, ?_⟩
        rw [only.retained]
        exact fits
      have station : (evalBatchConds (s1.setBatch left)).station ≠ .metering := by
        rw [only.station]
        exact idle
      have formed : formTicket (evalBatchConds (s1.setBatch left)) h = ticket := by
        rw [formTicket_eq, only.retained]
        rfl
      have eq : closeIfIdle (evalBatchConds (s1.setBatch left))
          = closeHead false (evalBatchConds (s1.setBatch left)) := closeIfIdle_of_closing station can
      obtain ⟨closed, noActive, full, quiet, frame⟩ := closeHead_idle_outcome queue
      rw [formed, only.retained] at closed
      refine ⟨?_, ?_, ?_, fun c h1 h2 hd => ?_, fun st hst hbusy hroom => ?_⟩
      · rw [eq]
        exact (only.setBatch _).trans closed
      · rw [eq, noActive, State.told_active]
      · rw [eq, full, State.told_active]
      · rw [eq, quiet c h1 h2 hd, evalBatchConds_cond_ne h1 h2 hd]
        rfl
      · rw [eq, ← formed]
        exact frame 2 s1 st (NoticesEnter.of_setBatch (evalBatchConds_noticesEnter _))
          (by rw [only.retained]; exact hst) hbusy (by omega)
  · intro e x d rounded
    refine ⟨rfl, rfl, rfl, rfl, fun h => if_pos h, fun h0 h1 => averages_rounded h0 h1⟩

end Sys2Proof.Machine
end

