-- ==== Sys2Proof/Proofs/Station.lean ====
section
/-! PROOFS. The commands of Station Control (O19 to O22). -/

namespace Sys2Proof.Machine

/-! ### LOAD_STATION (R84, R178, R179) -/

theorem checkReady_eq (s : State) :
    checkReady s
      = { s with
          station :=
            if s.station = .configuring ∧ s.retained.station.isSome = true
                ∧ s.retained.levels.isSome = true then .ready
            else s.station } := by
  unfold checkReady
  by_cases h : s.station = .configuring ∧ s.retained.station.isSome = true ∧ s.retained.levels.isSome = true
  · obtain ⟨h1, h2, h3⟩ := h
    simp [h1, h2, h3]
  · rw [if_neg h, if_neg]
    simp only [Bool.and_eq_true, decide_eq_true_eq]
    exact fun ⟨⟨h1, h2⟩, h3⟩ => h ⟨h1, h2, h3⟩

theorem applyLayout_eq (old : Option StationRecord) (new : StationRecord) (s : State) :
    applyLayout old new s
      = { s with
          buffer :=
            if old.map (·.layout) = some new.layout then s.buffer else s.buffer.afterLayoutChange
          retained :=
            { s.retained with
              curves :=
                if old.map (·.layout) = some new.layout then s.retained.curves else .replicate 32 {} } } := by
  unfold applyLayout
  split <;> rfl

theorem afterLayoutChange_of_curve {b : AssemblyBuffer} (h : ∃ r p, b.target = some (.curve r p)) :
    b.afterLayoutChange = {} := by
  obtain ⟨r, p, h⟩ := h
  unfold AssemblyBuffer.afterLayoutChange
  rw [h]

theorem afterLayoutChange_of_other {b : AssemblyBuffer} (h : ¬∃ r p, b.target = some (.curve r p)) :
    b.afterLayoutChange = b := by
  unfold AssemblyBuffer.afterLayoutChange
  split
  · next r p ht => exact absurd ⟨r, p, ht⟩ h
  · rfl

/-- R84, R178, R179: the state once a station record has been installed. -/
def installedStation (x : StationRecord) (s : State) : State :=
  { s with
    station :=
      if s.station = .configuring ∧ s.retained.levels.isSome = true then .ready else s.station
    buffer :=
      if s.retained.station.map (·.layout) = some x.layout then s.buffer else s.buffer.afterLayoutChange
    retained :=
      { s.retained with
        station := some x
        curves :=
          if s.retained.station.map (·.layout) = some x.layout then s.retained.curves
          else .replicate 32 {} } }

theorem installedStation_eq (x : StationRecord) (s : State) :
    checkReady (applyLayout s.retained.station x (s.setRetained { s.retained with station := some x }))
      = installedStation x s := by
  rw [checkReady_eq, applyLayout_eq]
  simp only [State.setRetained_station, State.setRetained_retained, Option.isSome_some, true_and]
  rfl

/-- Settles O19. -/
theorem loadStationInstallsTheRecord : Obligations.LoadStationInstallsTheRecord := by
  intro src tag args x s s1 ht hlen hread hm same onCurve
  have installed : handling (.loadStation src tag args) s1
      = accept (encCode (installedStation x s1).station.code) (installedStation x s1) := by
    show loadStation args s1 = _
    unfold loadStation
    rw [withLength_of_length hlen, hread]
    simp only [if_neg hm]
    rw [installedStation_eq]
  refine ⟨_, _, exec_of_handling rfl ht installed rfl, ?_, fun other curve => ?_, fun h => ?_⟩
  · simp
  · rw [if_neg other]
    exact afterLayoutChange_of_curve curve
  · by_cases h' : same
    · exact if_pos h'
    · rw [if_neg h']
      exact afterLayoutChange_of_other (h.resolve_left h')

/-! ### START_METERING (R93, R180) -/

theorem startMetering_of_ready (src tag : Byte) {s : State} (h : s.station = .ready) :
    handling (.startMetering src tag []) s = accept (encWord s.now) (beginMetering s) := by
  show startMetering [] s = _
  unfold startMetering
  rw [withLength_of_length (n := 0) (by rfl), if_pos h]

/-- R180: the station once the interval timer has been loaded. -/
def timedState (s : State) : State := { s with station := .metering, timer := some s.intervalPeriods }

theorem beginMetering_of_settled {s : State} (h : s.retained.batch.awaits = false) :
    beginMetering s = timedState s := by
  unfold beginMetering
  simp only [h, Bool.false_eq_true, if_false]
  rfl

theorem beginMetering_of_awaiting {s : State} (h : s.retained.batch.awaits = true) :
    beginMetering s = openHead (s.now + 1) (timedState s) := by
  unfold beginMetering
  simp only [h, if_true]
  rfl

theorem openHead_of_head {s : State} {h : BatchEntry} {rest : List BatchEntry}
    (hq : s.retained.batch.queue = h :: rest) (opening : Word32) :
    openHead opening s
      = s.setBatch
          { s.retained.batch with
            product := h.product
            progress := { s.retained.batch.progress with
              opening := some opening
              productCode := s.codeOf h.product } } := by
  unfold openHead
  simp only [hq]

theorem BatchUnit.awaits_iff (b : BatchUnit) :
    b.awaits = true ↔ ∃ h rest, b.queue = h :: rest ∧ h.state = .active ∧ b.progress.opening = none := by
  unfold BatchUnit.awaits
  cases b.queue with
  | nil => simp
  | cons h rest => simp

/-- Settles O20. -/
theorem startMeteringStartsTheTimer : Obligations.StartMeteringStartsTheTimer := by
  intro src tag x s s1 ht hst hready reply s2 b
  have handled := startMetering_of_ready src tag hready
  have timed : timedState s1 = s2 := by
    unfold timedState State.intervalPeriods
    rw [hst]
    rfl
  refine ⟨fun opened => ?_, fun h rest hq ha ho => ?_⟩
  · have settled : s1.retained.batch.awaits = false := by
      refine Bool.eq_false_iff.mpr fun h => ?_
      obtain ⟨e, rest, hq, ha, ho⟩ := b.awaits_iff.mp h
      have := opened e rest hq ha
      rw [ho] at this
      exact nomatch this
    rw [beginMetering_of_settled settled, timed] at handled
    exact exec_of_handling rfl ht handled rfl
  · have awaiting : s1.retained.batch.awaits = true := b.awaits_iff.mpr ⟨h, rest, hq, ha, ho⟩
    rw [beginMetering_of_awaiting awaiting, timed, openHead_of_head (s := s2) hq] at handled
    exact exec_of_handling rfl ht handled rfl

/-! ### STOP_METERING (R92, R105, R180) -/

theorem stopMetering_of_metering (src tag : Byte) {s : State} (h : s.station = .metering) :
    handling (.stopMetering src tag []) s
      = if s.allClosed then accept [] (endMetering s) else refuse .busy s := by
  show stopMetering [] s = _
  unfold stopMetering
  rw [withLength_of_length (n := 0) (by rfl), if_neg (by simp [h])]

theorem productFollows_eq (s : State) :
    productFollows s
      = s.setBatch
          { s.retained.batch with
            product := (s.retained.batch.queue.head?.map (·.product)).getD s.retained.batch.product } := by
  unfold productFollows
  simp only
  split
  · next hq =>
    have same : (s.retained.batch.queue.head?.map (·.product)).getD s.retained.batch.product
        = s.retained.batch.product := by
      rw [hq]
      rfl
    rw [same]
    rfl
  · next h rest hq =>
    have head : (s.retained.batch.queue.head?.map (·.product)).getD s.retained.batch.product = h.product := by
      rw [hq]
      rfl
    rw [head]

/-- R180: the station in READY, its timer stopped, with the product of the head in service. -/
def stoppedState (s : State) : State :=
  { s with
    station := .ready
    timer := none
    retained :=
      { s.retained with
        batch :=
          { s.retained.batch with
            product := (s.retained.batch.queue.head?.map (·.product)).getD s.retained.batch.product } } }

theorem endMetering_eq (s : State) : endMetering s = closeIfIdle (stoppedState s) := by
  unfold endMetering
  rw [productFollows_eq]
  rfl

/-- Settles O21. -/
theorem stopMeteringStopsTheTimer : Obligations.StopMeteringStopsTheTimer := by
  intro src tag s s1 ht hm b ready
  have handled := stopMetering_of_metering src tag hm
  refine ⟨fun closed => ⟨fun held => ?_, fun h rest hq hc room => ?_⟩, fun running => ?_⟩
  · rw [if_pos ((allClosed_iff s1).mpr closed), endMetering_eq] at handled
    have stays : (stoppedState s1).retained.batch.canClose = false := by
      refine Bool.eq_false_iff.mpr fun can => ?_
      obtain ⟨e, rest, hq, hc, room⟩ := BatchUnit.canClose_queue can
      obtain open' | full := held
      · exact open' ⟨e, rest, hq, hc⟩
      · have : b.tickets.length < 4 := room
        omega
    rw [closeIfIdle_of_held stays] at handled
    exact exec_of_handling rfl ht handled rfl
  · intro code ticket
    rw [if_pos ((allClosed_iff s1).mpr closed), endMetering_eq] at handled
    have queue : (stoppedState s1).retained.batch.queue = h :: rest := hq
    have can : (stoppedState s1).retained.batch.canClose = true :=
      (BatchUnit.canClose_iff queue).mpr ⟨hc, room⟩
    have closes : closeIfIdle (stoppedState s1) = closeHead false (stoppedState s1) :=
      closeIfIdle_of_closing (by unfold stoppedState; simp) can
    have formed : formTicket (stoppedState s1) h = ticket := rfl
    have batch : (stoppedState s1).retained.batch = { b with product := h.product } := by
      show ({ b with product := (b.queue.head?.map (·.product)).getD b.product } : BatchUnit) = _
      rw [hq]
      rfl
    obtain ⟨only, noActive, full, quiet, frame⟩ := closeHead_idle_outcome queue
    rw [formed, batch] at only
    rw [closes] at handled
    refine ⟨_, exec_of_handling rfl ht handled only.restartPending, only, noActive, full, quiet,
      fun st hst hb hl => ?_⟩
    exact frame 0 s1 st (noticesEnter_of_same rfl rfl) hst hb (by omega)
  · have busy : ¬s1.allClosed = true := fun h => by
      obtain ⟨r, hr⟩ := running
      exact hr ((allClosed_iff s1).mp h r)
    rw [if_neg busy] at handled
    exact exec_of_handling rfl ht handled rfl

/-! ### RESTART (R172, R181) -/

theorem restart_handling (src tag : Byte) (s : State) :
    handling (.restart src tag []) s
      = if s.allClosed && s.session.state == .idle then
          ({ s with restartPending := true }, { result := .ok, marked := true })
        else refuse .busy s := rfl

/-- R172: a restart whose marked reply is in the queue waits. -/
theorem settle_of_waiting {s : State} (h : s.replyWaiting = true) : settle s = s := by
  unfold settle
  rw [h]
  simp

/-- Settles O22. -/
theorem restartWaitsForItsReply : Obligations.RestartWaitsForItsReply := by
  intro src tag s s1 ht quiet
  obtain ⟨hrun, hpend, htake⟩ := ht
  have quiet_iff : (s1.allClosed && s1.session.state == .idle) = true ↔ quiet := by
    rw [Bool.and_eq_true, allClosed_iff, beq_iff_eq]
  have accepted (h : quiet) :
      exec (.restart src tag []) s
        = .next
            (settle
              (offerReply src tag 0x0C { result := .ok, marked := true }
                { s1 with restartPending := true })) := by
    rw [exec_of_taken (i := .restart src tag []) rfl hrun htake, hpend, restart_handling,
      if_pos (quiet_iff.mpr h)]
    rfl
  refine ⟨fun h hb hl => ?_, accepted, fun h => ?_⟩
  · rw [accepted h]
    have entered : offerReply src tag 0x0C { result := .ok, marked := true }
        { s1 with restartPending := true }
        = { s1 with
            restartPending := true
            outbound :=
              s1.outbound
                ++ [{ kind := .reply, dest := src, level := 7, source := 0
                      payload := [tag, 0x0C, 0], marked := true }] } :=
      offer_of_busy (s := { s1 with restartPending := true }) hb hl
    rw [entered, settle_of_waiting]
    unfold State.replyWaiting
    simp
  · have handled := restart_handling src tag s1
    rw [if_neg (mt quiet_iff.mp h)] at handled
    exact exec_of_handling rfl ⟨hrun, hpend, htake⟩ handled rfl

end Sys2Proof.Machine
end

