-- ==== Sys2Proof/Proofs/Starts.lean ====
section
/-! PROOFS. The soft restart and the hard start (O23, O24). -/

namespace Sys2Proof.Machine

/-! ### A queue that holds only notices -/

/-- Every frame of the outbound queue is a notice. -/
def State.OnlyNotices (s : State) : Prop := ∀ f ∈ s.outbound, f.kind = .notice

/-- From `s` to `t` a queue of notices stays one, and only notices are lost. -/
def KeepsNotices (s t : State) : Prop :=
  s.OnlyNotices →
    t.OnlyNotices ∧ t.counters = { s.counters with noticeDiscard := t.counters.noticeDiscard }

theorem KeepsNotices.refl (s : State) : KeepsNotices s s := fun h => ⟨h, rfl⟩

theorem KeepsNotices.trans {s t u : State} (h : KeepsNotices s t) (k : KeepsNotices t u) :
    KeepsNotices s u := by
  intro hs
  obtain ⟨ht, counted⟩ := h hs
  obtain ⟨hu, counted'⟩ := k ht
  exact ⟨hu, by rw [counted', counted]⟩

theorem keepsNotices_of_same {s t : State} (ho : t.outbound = s.outbound) (hc : t.counters = s.counters) :
    KeepsNotices s t := by
  intro h
  refine ⟨?_, by rw [hc]⟩
  unfold State.OnlyNotices
  rw [ho]
  exact h

theorem mem_beginNext {s : State} {g : OutFrame} (h : g ∈ (beginNext s).outbound) : g ∈ s.outbound := by
  unfold beginNext at h
  split at h
  · split at h
    · exact h
    · split at h
      · next f others hf =>
        obtain ⟨older, younger, hq, ho, -⟩ := highest_split hf
        have member : g ∈ others := h
        rw [ho] at member
        rw [hq]
        simp only [List.mem_append, List.mem_cons] at member ⊢
        tauto
      · exact h
  · exact h

/-- R169: what an offered notice does to a queue of notices, and to the frame that is lost. -/
theorem enqueue_notices {f : OutFrame} {s : State} (hf : f.kind = .notice) (hs : s.OnlyNotices) :
    (enqueue f s).1.OnlyNotices ∧ (enqueue f s).1.counters = s.counters
      ∧ ∀ g, (enqueue f s).2 = some g → g.kind = .notice := by
  have begun {q : List OutFrame} (hq : ∀ g ∈ q, g.kind = .notice) :
      (beginNext { s with outbound := q }).OnlyNotices := fun g hg => hq g (mem_beginNext hg)
  unfold enqueue
  split
  · refine ⟨begun fun g hg => ?_, beginNext_counters _, nofun⟩
    rcases List.mem_append.mp hg with hg | hg
    · exact hs g hg
    · rw [List.mem_singleton.mp hg]
      exact hf
  · split
    · next g others hl =>
      obtain ⟨older, younger, hq, ho, -⟩ := lowest_split hl
      have member : ∀ x, x = g ∨ x ∈ others → x ∈ s.outbound := by
        intro x hx
        rw [hq]
        rw [ho] at hx
        simp only [List.mem_append, List.mem_cons] at hx ⊢
        tauto
      split
      · refine ⟨begun fun x hx => ?_, beginNext_counters _, fun x hx => ?_⟩
        · rcases List.mem_append.mp hx with hx | hx
          · exact hs x (member x (.inr hx))
          · rw [List.mem_singleton.mp hx]
            exact hf
        · cases hx
          exact hs g (member g (.inl rfl))
      · exact ⟨hs, rfl, fun x hx => by cases hx; exact hf⟩
    · exact ⟨hs, rfl, fun x hx => by cases hx; exact hf⟩

theorem recordOccurrence_keepsNotices (c : CondId) (s : State) : KeepsNotices s (recordOccurrence c s) :=
  keepsNotices_of_same rfl rfl

theorem countDiscard_keepsNotices {k : OutKind} (hk : k = .notice) (s : State) :
    KeepsNotices s (countDiscard k s) := by
  subst hk
  exact fun h => ⟨h, rfl⟩

theorem offerNoticeOnce_notices {c : CondId} {s : State} (hs : s.OnlyNotices) :
    (offerNoticeOnce c s).1.OnlyNotices ∧ (offerNoticeOnce c s).1.counters = s.counters
      ∧ ∀ g, (offerNoticeOnce c s).2 = some g → g.kind = .notice := by
  unfold offerNoticeOnce
  split
  · exact ⟨hs, rfl, nofun⟩
  · exact ⟨hs, rfl, nofun⟩
  · exact enqueue_notices rfl hs

theorem loseFrame_keepsNotices {g : OutFrame} (hg : g.kind = .notice) (s : State) :
    KeepsNotices s (loseFrame g s) := by
  have once : KeepsNotices s (recordOccurrence .outboundDiscard (countDiscard g.kind s)) :=
    (countDiscard_keepsNotices hg s).trans (recordOccurrence_keepsNotices _ _)
  unfold loseFrame
  simp only
  split
  · exact once
  · intro hs
    obtain ⟨kept, counted⟩ := once hs
    obtain ⟨noticed, same, lost⟩ := offerNoticeOnce_notices (c := .outboundDiscard) kept
    split
    · exact ⟨noticed, by rw [same, counted]⟩
    · next h hh =>
      obtain ⟨last, counted'⟩ :=
        ((countDiscard_keepsNotices (lost h hh) _).trans (recordOccurrence_keepsNotices .outboundDiscard _))
          noticed
      exact ⟨last, by rw [counted', same, counted]⟩

theorem offerNotice_keepsNotices (c : CondId) (s : State) : KeepsNotices s (offerNotice c s) := by
  intro hs
  obtain ⟨kept, same, lost⟩ := offerNoticeOnce_notices (c := c) hs
  unfold offerNotice afterOffer
  split
  · exact ⟨kept, by rw [same]⟩
  · next g hg =>
    obtain ⟨last, counted⟩ := loseFrame_keepsNotices (lost g hg) _ kept
    exact ⟨last, by rw [counted, same]⟩

theorem occur_keepsNotices (c : CondId) (s : State) : KeepsNotices s (occur c s) := by
  cases h : (s.cond c).latched with
  | true =>
    rw [occur_of_latched h]
    exact keepsNotices_of_same rfl rfl
  | false =>
    rw [occur_of_unlatched h]
    exact (recordOccurrence_keepsNotices c s).trans (offerNotice_keepsNotices c _)

theorem report_keepsNotices (c : CondId) (b : Bool) (s : State) : KeepsNotices s (report c b s) := by
  cases b with
  | false =>
    rw [report_false]
    exact keepsNotices_of_same rfl rfl
  | true =>
    cases h : (s.cond c).active with
    | true =>
      rw [report_of_active h]
      exact KeepsNotices.refl s
    | false =>
      rw [reportActive_of_inactive h]
      exact (keepsNotices_of_same (s := s) (t := s.setCond c _) rfl rfl).trans (occur_keepsNotices c _)

theorem reportAll_keepsNotices (l : List (CondId × Bool)) (s : State) : KeepsNotices s (reportAll l s) := by
  induction l generalizing s with
  | nil => exact KeepsNotices.refl s
  | cons x l ih => exact (report_keepsNotices x.1 x.2 s).trans (ih _)

/-! ### Without a level table the loop stays as it is (R155) -/

/-- The loop of `t` is that of `s`. -/
def SameLoop (s t : State) : Prop :=
  t.outbound = s.outbound ∧ t.transmitter = s.transmitter ∧ t.counters = s.counters

theorem SameLoop.trans {s t u : State} (h : SameLoop s t) (k : SameLoop t u) : SameLoop s u := by
  obtain ⟨h1, h2, h3⟩ := h
  obtain ⟨k1, k2, k3⟩ := k
  exact ⟨k1.trans h1, k2.trans h2, k3.trans h3⟩

theorem occur_sameLoop {s : State} (h : s.retained.levels = none) (c : CondId) : SameLoop s (occur c s) := by
  cases hl : (s.cond c).latched with
  | true =>
    rw [occur_of_latched hl]
    exact ⟨rfl, rfl, rfl⟩
  | false =>
    have quiet : (recordOccurrence c s).openNotice c = none := by
      unfold State.openNotice
      rw [recordOccurrence_retained, h]
    rw [occur_of_unlatched hl, offerNotice_of_closed quiet]
    exact ⟨rfl, rfl, rfl⟩

theorem report_sameLoop {s : State} (h : s.retained.levels = none) (c : CondId) (b : Bool) :
    SameLoop s (report c b s) := by
  cases b with
  | false =>
    rw [report_false]
    exact ⟨rfl, rfl, rfl⟩
  | true =>
    cases ha : (s.cond c).active with
    | true =>
      rw [report_of_active ha]
      exact ⟨rfl, rfl, rfl⟩
    | false =>
      rw [reportActive_of_inactive ha]
      exact occur_sameLoop (s := s.setCond c { s.cond c with active := true }) h c

theorem reportAll_sameLoop {s : State} (h : s.retained.levels = none) (l : List (CondId × Bool)) :
    SameLoop s (reportAll l s) := by
  induction l generalizing s with
  | nil => exact ⟨rfl, rfl, rfl⟩
  | cons x l ih =>
    exact (report_sameLoop h x.1 x.2).trans (ih (by rw [report_retained]; exact h))

/-! ### The end-of-start evaluations (R53, R94, R112) -/

/-- R53, R112: the conditions evaluated at a start, in the order of their kinds and units. -/
def startReports (r : Retained) : List (CondId × Bool) :=
  [(.noActiveBatch, r.batch.queue.isEmpty), (.ticketStoreFull, r.batch.full)]
    ++ ((List.finRange 16).filter fun slot => r.bindings[slot].isSome).map fun slot => (.inputFailed slot, true)

theorem foldl_failInputs (l : List (Fin 16)) (s : State) :
    l.foldl (fun s slot =>
        if s.retained.bindings[slot].isSome then reportActive (.inputFailed slot) s else s) s
      = reportAll ((l.filter fun slot => s.retained.bindings[slot].isSome).map
          fun slot => (.inputFailed slot, true)) s := by
  induction l generalizing s with
  | nil => rfl
  | cons slot l ih =>
    rw [List.foldl_cons, ih]
    by_cases h : s.retained.bindings[slot].isSome = true
    · rw [if_pos h, List.filter_cons_of_pos (p := fun slot : Fin 16 => s.retained.bindings[slot].isSome) h]
      have kept : (reportActive (.inputFailed slot) s).retained = s.retained :=
        report_retained (.inputFailed slot) true s
      rw [kept]
      rfl
    · rw [if_neg h, List.filter_cons_of_neg (p := fun slot : Fin 16 => s.retained.bindings[slot].isSome) h]

theorem reportAll_append (l k : List (CondId × Bool)) (s : State) :
    reportAll (l ++ k) s = reportAll k (reportAll l s) :=
  List.foldl_append ..

theorem endOfStart_eq (s : State) :
    endOfStart s = reportAll (startReports (productFollows s).retained) (productFollows s) := by
  unfold endOfStart failInputs startReports
  rw [foldl_failInputs, evalBatchConds_retained, evalBatchConds_eq, reportAll_append]

/-! ### The condition records after a start (R53, R112, R151, R183) -/

/-- R152: a record that has arisen once, at the interval number of `s`. -/
def State.freshRecord (s : State) (c : CondId) (active : Bool) : Condition :=
  { active, latched := true, withheld := s.retained.withholds c, occurrences := 1, first := some s.now
    last := some s.now }

theorem told_of_cleared {s : State} {c : CondId} (h : s.cond c = {}) (b : Bool) :
    s.told c b = if b = true then s.freshRecord c true else {} := by
  unfold State.told Condition.told State.freshRecord
  rw [h]
  cases b <;> rfl

theorem occurred_of_cleared {s : State} {c : CondId} (h : s.cond c = {}) :
    s.occurred c = s.freshRecord c false := by
  unfold State.occurred State.freshRecord
  rw [h]
  rfl

theorem startReports_nodup (r : Retained) : ((startReports r).map (·.1)).Nodup := by
  have slots : ((((List.finRange 16).filter fun slot => r.bindings[slot].isSome).map
      fun slot => (CondId.inputFailed slot, true)).map (·.1)).Nodup := by
    rw [List.map_map]
    exact ((List.nodup_finRange 16).filter _).map fun a b h => CondId.inputFailed.inj h
  unfold startReports
  rw [List.map_append]
  refine List.nodup_append.mpr ⟨by simp, slots, fun a ha b hb => ?_⟩
  obtain ⟨x, hx, rfl⟩ := List.mem_map.mp hb
  obtain ⟨slot, -, rfl⟩ := List.mem_map.mp hx
  rintro rfl
  simp at ha

theorem mem_startReports_failed {r : Retained} {slot : Fin 16} :
    CondId.inputFailed slot ∈ (startReports r).map (·.1) ↔ r.bindings[slot].isSome = true := by
  unfold startReports
  simp

/-- R151, R183: the records of a start from cleared ones, once `start` has occurred in them. -/
theorem conditionsFresh_of_cleared {s : State} {start : Option CondId}
    (hstart : ∀ c, start = some c → c = .powerRestored)
    (h : ∀ c : CondId, c ≠ .outboundDiscard →
      s.cond c = if start = some c then s.freshRecord c false else {}) :
    (reportAll (startReports s.retained) s).ConditionsFresh start := by
  intro c hd b active
  have only := reportAll_loopOnly (startReports s.retained) s
  have now : (reportAll (startReports s.retained) s).now = s.now := by
    unfold State.now
    rw [only.retained]
  have reported {v : Bool} (hc : start ≠ some c) (hm : (c, v) ∈ startReports s.retained) :
      (reportAll (startReports s.retained) s).cond c = if v = true then s.freshRecord c true else {} := by
    rw [reportAll_cond (startReports_nodup _) hm hd]
    exact told_of_cleared ((h c hd).trans (if_neg hc)) v
  have kept (hm : c ∉ (startReports s.retained).map (·.1)) :
      (reportAll (startReports s.retained) s).cond c
        = if start = some c then s.freshRecord c false else {} :=
    (reportAll_cond_ne hm hd s).trans (h c hd)
  have other (hc : c ≠ .powerRestored) : start ≠ some c := fun hs => hc (hstart c hs)
  have batch : b = s.retained.batch := congrArg Retained.batch only.retained
  have bindings : (reportAll (startReports s.retained) s).retained.bindings = s.retained.bindings :=
    congrArg Retained.bindings only.retained
  have fresh : ({ active, latched := true
                  withheld := (reportAll (startReports s.retained) s).retained.withholds c, occurrences := 1
                  first := some (reportAll (startReports s.retained) s).now
                  last := some (reportAll (startReports s.retained) s).now } : Condition)
      = s.freshRecord c active := by
    rw [now, only.retained]
    rfl
  rw [fresh]
  have evaluated (hc : start ≠ some c) (hm : (c, active) ∈ startReports s.retained) :
      (reportAll (startReports s.retained) s).cond c
        = if active = true ∨ start = some c then s.freshRecord c active else {} := by
    rw [reported hc hm]
    cases active <;> simp [hc]
  have untouched (ha : active = false) (hm : c ∉ (startReports s.retained).map (·.1)) :
      (reportAll (startReports s.retained) s).cond c
        = if active = true ∨ start = some c then s.freshRecord c active else {} := by
    rw [kept hm, ha]
    simp
  cases c with
  | noActiveBatch =>
    refine evaluated (other (by simp)) ?_
    show (CondId.noActiveBatch, b.queue.isEmpty) ∈ _
    rw [batch]
    simp [startReports]
  | ticketStoreFull =>
    refine evaluated (other (by simp)) ?_
    show (CondId.ticketStoreFull, b.full) ∈ _
    rw [batch]
    simp [startReports]
  | inputFailed slot =>
    have loaded : active = s.retained.bindings[slot].isSome := by
      show (reportAll (startReports s.retained) s).retained.bindings[slot].isSome = _
      rw [bindings]
    cases hs : s.retained.bindings[slot].isSome with
    | true =>
      refine evaluated (other (by simp)) ?_
      rw [loaded, hs]
      refine List.mem_append_right _ (List.mem_map.mpr ⟨slot, ?_, rfl⟩)
      exact List.mem_filter.mpr ⟨List.mem_finRange slot, hs⟩
    | false =>
      refine untouched (loaded.trans hs) fun hm => ?_
      rw [mem_startReports_failed, hs] at hm
      exact nomatch hm
  | _ => exact untouched rfl (by simp [startReports])

/-! ### What a start leaves (R173, R181, R183) -/

/-- The product in service follows the head of the batch queue. -/
def Retained.following (r : Retained) : Retained :=
  { r with
    batch := { r.batch with product := (r.batch.queue.head?.map (·.product)).getD r.batch.product } }

theorem productFollows_retained (s : State) : (productFollows s).retained = s.retained.following := by
  rw [productFollows_eq]
  rfl

/-- The volatile items of `d`, besides the conditions and the loop, are those after a start from `s`. -/
def State.StartedFrom (d s : State) : Prop :=
  d.station = s.retained.stationAfterStart ∧ d.timer = none ∧ d.runs = .replicate 4 {}
    ∧ d.pulses = .ofFn (fun r => PulseState.afterStart (s.primary r)) ∧ d.live = .replicate 16 {}
    ∧ d.buffer = {} ∧ d.det1 = {} ∧ d.det2 = {} ∧ d.session = {} ∧ d.receiver = .hunting ∧ d.commands = []
    ∧ d.restartPending = false

theorem volatileCleared_of_started {d s t : State} (h : LoopOnly d t) (hd : d.StartedFrom s)
    (hf : t.forward = []) (hc : t.counters = { noticeDiscard := t.counters.noticeDiscard })
    (hr : t.retained = s.retained.following) : t.VolatileCleared := by
  obtain ⟨station, timer, runs, pulses, live, buffer, det1, det2, session, receiver, commands, pending⟩ := hd
  have primary (r : Fin 4) : t.primary r = s.primary r := by
    unfold State.primary State.settings
    rw [hr]
    rfl
  refine ⟨?_, h.timer.trans timer, fun r => ⟨?_, ?_⟩, fun slot => ?_, h.buffer.trans buffer,
    h.det1.trans det1, h.det2.trans det2, h.session.trans session, h.receiver.trans receiver, hf,
    h.commands.trans commands, h.restartPending.trans pending, hc⟩
  · rw [h.station, station, hr]
    unfold Retained.stationAfterStart
    simp only [Bool.and_eq_true]
    rfl
  · rw [h.runs, runs]
    simp
  · rw [h.pulses, pulses, primary]
    simp [PulseState.afterStart]
  · rw [h.live, live]
    simp

theorem reportAll_offered (l : List (CondId × Bool)) (s : State) : Offered s (reportAll l s) := by
  induction l generalizing s with
  | nil => exact Offered.refl s
  | cons x l ih => exact (report_offered x.1 x.2 s).trans (ih _)

/-- What the end-of-start evaluations leave of a state whose loop is empty. -/
theorem endOfStart_outcome {C X : State} {start : Option CondId}
    (hf : C.forward = []) (ho : C.outbound = []) (hc : C.counters = {})
    (hstart : ∀ c, start = some c → c = .powerRestored) (only : LoopOnly C X) (notices : KeepsNotices C X)
    (mute : C.retained.levels = none → SameLoop C X) (offered : Offered C X)
    (conds : ∀ c : CondId, c ≠ .outboundDiscard →
      X.cond c = if start = some c then X.freshRecord c false else {}) :
    let t := endOfStart X
    LoopOnly (C.setRetained C.retained.following) t
      ∧ t.ConditionsFresh start ∧ t.LoopFresh C.transmitter ∧ t.forward = []
      ∧ t.counters = { noticeDiscard := t.counters.noticeDiscard } := by
  intro t
  have eq : t = reportAll (startReports (productFollows X).retained) (productFollows X) := endOfStart_eq X
  have follows : LoopOnly (C.setRetained C.retained.following) (productFollows X) := by
    rw [productFollows_eq, only.retained]
    exact only.setBatch _
  have all : LoopOnly (C.setRetained C.retained.following) t := by
    rw [eq]
    exact follows.trans (reportAll_loopOnly _ _)
  have levels : t.retained.levels = C.retained.levels := (congrArg Retained.levels all.retained).trans rfl
  have same : SameLoop X (productFollows X) := by
    rw [productFollows_eq]
    exact ⟨rfl, rfl, rfl⟩
  have noticed : KeepsNotices C t := by
    rw [eq]
    exact (notices.trans (keepsNotices_of_same same.1 same.2.2)).trans (reportAll_keepsNotices _ _)
  have offers : Offered C t := by
    rw [eq]
    refine (offered.trans (offered_of_same same.2.2 same.2.1 ?_)).trans (reportAll_offered _ _)
    rw [productFollows_eq]
    rfl
  obtain ⟨only', counted⟩ := noticed (fun f h => by rw [ho] at h; exact absurd h List.not_mem_nil)
  refine ⟨all, ?_, ⟨only', fun hl => ?_, fun hb => (offers.busy hb).1⟩, ?_, ?_⟩
  · rw [eq]
    refine conditionsFresh_of_cleared hstart fun c hd => ?_
    have cond : (productFollows X).cond c = X.cond c := by
      rw [productFollows_eq]
      rfl
    have fresh : (productFollows X).freshRecord c false = X.freshRecord c false := by
      rw [productFollows_eq]
      rfl
    rw [cond, fresh]
    exact conds c hd
  · rw [levels] at hl
    have quiet : SameLoop C t := by
      rw [eq]
      refine ((mute hl).trans same).trans (reportAll_sameLoop ?_ _)
      rw [follows.retained]
      exact hl
    obtain ⟨outbound, transmitter, counters⟩ := quiet
    exact ⟨outbound.trans ho, transmitter, counters.trans hc⟩
  · by_cases ht : C.transmitter = .free
    · obtain ⟨-, h⟩ | ⟨-, h⟩ := offers.free ht <;> rw [h, hf]
      rfl
    · exact ((offers.busy ht).2).trans hf
  · rw [hc] at counted
    exact counted

theorem clearVolatile_cond (s : State) (c : CondId) : (clearVolatile s).cond c = {} := by
  show (Vector.replicate 115 ({} : Condition))[c.index] = _
  simp

theorem strappedNode_eq (strap : BitVec 6) :
    strappedNode strap = if strap.toNat = 63 then 62 else strap.toNat := by
  unfold strappedNode
  have := strap.isLt
  split <;> omega

theorem exec_hardStart {s : State} {cause : StartCause} (h : s.Starts cause) (straps : Straps) :
    exec (.hardStart cause straps) s = .next (hardStart straps s) := by
  have rises : s.power.rise cause = .running := by
    obtain hp | ⟨rfl, hp⟩ | ⟨rfl, hp⟩ := h <;> rw [hp]
    · cases cause <;> rfl
    · rfl
    · rfl
  show execHardStart cause straps s = _
  unfold execHardStart
  simp only [rises, if_true]

/-- R181: the volatile items at a soft restart, before the conditions are evaluated. -/
def softCleared (s : State) : State := { clearVolatile s with lastStart := .soft }

theorem softCleared_cond (s : State) (c : CondId) : (softCleared s).cond c = {} := clearVolatile_cond s c

/-- R181: what a soft restart leaves. -/
theorem softRestart_outcome (s : State) :
    LoopOnly ((softCleared s).setRetained s.retained.following) (softRestart s)
      ∧ (softRestart s).ConditionsFresh none ∧ (softRestart s).LoopFresh s.transmitter
      ∧ (softRestart s).forward = []
      ∧ (softRestart s).counters = { noticeDiscard := (softRestart s).counters.noticeDiscard } := by
  have eq : softRestart s = endOfStart (softCleared s) := rfl
  rw [eq]
  exact endOfStart_outcome (C := softCleared s) (X := softCleared s) (start := none) rfl rfl rfl nofun
    (LoopOnly.refl _) (KeepsNotices.refl _) (fun _ => ⟨rfl, rfl, rfl⟩) (Offered.refl _)
    fun c _ => softCleared_cond s c

/-- R183: what a hard start over an area kept whole leaves. -/
theorem hardStart_outcome {s : State} (h : s.retainedLost = false) (straps : Straps) :
    LoopOnly ((hardStartCleared (some s.retained) straps s).setRetained s.retained.following)
        (hardStart straps s)
      ∧ (hardStart straps s).ConditionsFresh (some .powerRestored) ∧ (hardStart straps s).LoopFresh .free
      ∧ (hardStart straps s).forward = []
      ∧ (hardStart straps s).counters
          = { noticeDiscard := (hardStart straps s).counters.noticeDiscard } := by
  have area : goodArea s = some s.retained := by
    unfold goodArea
    rw [h]
    rfl
  have eq : hardStart straps s
      = endOfStart (occur .powerRestored (hardStartCleared (some s.retained) straps s)) := by
    unfold hardStart
    rw [area]
    rfl
  have cleared (c : CondId) : (hardStartCleared (some s.retained) straps s).cond c = {} :=
    clearVolatile_cond s c
  rw [eq]
  refine endOfStart_outcome (C := hardStartCleared (some s.retained) straps s) (start := some .powerRestored)
    rfl rfl rfl (fun c hc => (Option.some.inj hc).symm) (occur_loopOnly _ _) (occur_keepsNotices _ _)
    (fun hl => occur_sameLoop hl _) (occur_offered _ _) fun c hd => ?_
  by_cases hc : c = .powerRestored
  · subst hc
    rw [if_pos rfl, occur_cond_self hd, occurred_of_cleared (cleared _)]
    unfold State.freshRecord State.now
    rw [occur_retained]
  · rw [if_neg (fun h => hc (Option.some.inj h).symm), occur_cond_ne hd hc]
    exact cleared c

/-- Settles O23. -/
theorem startsSetEveryVolatileItem : Obligations.StartsSetEveryVolatileItem := by
  refine ⟨fun s => ?_, fun cause straps s hs hl => ?_⟩
  · obtain ⟨only, conds, loop, forward, counters⟩ := softRestart_outcome s
    refine ⟨only.retained, only.timebase, only.node, only.rateCode, only.inputDivider, only.lastStart,
      only.power, only.retainedLost, only.pending, ?_, conds, loop⟩
    exact volatileCleared_of_started only ⟨rfl, rfl, rfl, rfl, rfl, rfl, rfl, rfl, rfl, rfl, rfl, rfl⟩ forward
      counters only.retained
  · obtain ⟨only, conds, loop, forward, counters⟩ := hardStart_outcome hl straps
    refine ⟨_, exec_hardStart hs straps, only.retained, only.power, only.retainedLost,
      only.node.trans (strappedNode_eq _), only.rateCode, only.lastStart, only.timebase, only.inputDivider,
      only.pending, ?_, conds, loop⟩
    exact volatileCleared_of_started only ⟨rfl, rfl, rfl, rfl, rfl, rfl, rfl, rfl, rfl, rfl, rfl, rfl⟩ forward
      counters only.retained

/-! ### A hard start over a lost area (R182, R183) -/

theorem setCond_same {s : State} {c : CondId} {x : Condition} (h : s.cond c = x) : s.setCond c x = s := by
  subst h
  exact State.setCond_cond s c

/-- R155: without a level table an event that occurs in a cleared record latches it with its notice withheld. -/
theorem occur_muted {s : State} {c : CondId} (hl : s.retained.levels = none) (hc : s.cond c = {}) :
    occur c s = s.setCond c (s.freshRecord c false) := by
  have quiet : (recordOccurrence c s).openNotice c = none := by
    unfold State.openNotice
    rw [recordOccurrence_retained, hl]
  have withholds : s.retained.withholds c = true := withholds_of_none hl
  have record : { (recordOccurrence c s).cond c with withheld := s.retained.withholds c }
      = s.freshRecord c false := by
    unfold recordOccurrence State.freshRecord
    rw [State.cond_setCond, hc]
    rfl
  rw [occur_of_unlatched (by rw [hc]), offerNotice_of_closed quiet, recordOccurrence_retained, record]
  exact State.setCond_setCond s c _ _

theorem report_muted {s : State} {c : CondId} (hl : s.retained.levels = none) (hc : s.cond c = {}) :
    report c true s = s.setCond c (s.freshRecord c true) := by
  have active : { s.cond c with active := true } = ({ active := true } : Condition) := by rw [hc]
  have quiet : (recordOccurrence c (s.setCond c { active := true })).openNotice c = none := by
    unfold State.openNotice
    rw [recordOccurrence_retained]
    show (match s.retained.levels with | none => none | some l => _) = none
    rw [hl]
  have record : { (recordOccurrence c (s.setCond c { active := true })).cond c with
        withheld := s.retained.withholds c } = s.freshRecord c true := by
    unfold recordOccurrence State.freshRecord
    rw [State.cond_setCond, State.cond_setCond]
    rfl
  rw [reportActive_of_inactive (by rw [hc]), active,
    occur_of_unlatched (by rw [State.cond_setCond]), offerNotice_of_closed quiet, recordOccurrence_retained]
  rw [show (s.setCond c { active := true }).retained = s.retained from rfl, record]
  unfold recordOccurrence
  rw [State.setCond_setCond, State.setCond_setCond]

theorem report_idle {s : State} {c : CondId} (hc : s.cond c = {}) : report c false s = s := by
  rw [report_false]
  exact setCond_same (by rw [hc])

/-- R182: the check-word test over a lost area. -/
theorem goodArea_of_lost {s : State} (h : s.retainedLost = true) :
    goodArea s = lostAreaPasses (Config.lostArea s.openCount) := if_pos h

/-- R183: the volatile items of a hard start that finds the check word bad, before the conditions arise. -/
def badCleared (straps : Straps) (s : State) : State := hardStartCleared none straps s

theorem badCleared_cond (straps : Straps) (s : State) (c : CondId) : (badCleared straps s).cond c = {} :=
  clearVolatile_cond { s with retained := {} } c

theorem startReports_of_reset :
    startReports {} = [(.noActiveBatch, true), (.ticketStoreFull, false)] := by
  have empty : ((List.finRange 16).filter fun slot : Fin 16 => ({} : Retained).bindings[slot].isSome) = [] := by
    decide
  unfold startReports
  rw [empty]
  rfl

/-- R183: a hard start that finds the check word bad has RETENTION_LOST and NO_ACTIVE_BATCH latched. -/
theorem endOfStart_of_bad (straps : Straps) (s : State) :
    endOfStart (occur .retentionLost (badCleared straps s))
      = ((badCleared straps s).setCond .retentionLost (Condition.atReset false)).setCond .noActiveBatch
          (Condition.atReset true) := by
  have raised : occur .retentionLost (badCleared straps s)
      = (badCleared straps s).setCond .retentionLost (Condition.atReset false) :=
    occur_muted rfl (badCleared_cond straps s _)
  have follows : productFollows ((badCleared straps s).setCond .retentionLost (Condition.atReset false))
      = (badCleared straps s).setCond .retentionLost (Condition.atReset false) := rfl
  have cleared {c : CondId} (hc : c ≠ .retentionLost) :
      ((badCleared straps s).setCond .retentionLost (Condition.atReset false)).cond c = {} :=
    (State.cond_setCond_ne _ _ _ _ hc).trans (badCleared_cond straps s c)
  rw [raised, endOfStart_eq, follows]
  show reportAll (startReports {}) _ = _
  rw [startReports_of_reset]
  unfold reportAll
  simp only [List.foldl_cons, List.foldl_nil]
  rw [report_muted rfl (cleared (by simp)), report_idle]
  · rfl
  · exact (State.cond_setCond_ne _ _ _ _ (by simp)).trans (cleared (by simp))

/-- Settles O24. -/
theorem hardStartOverALostAreaGivesTheResetState :
    Obligations.HardStartOverALostAreaGivesTheResetState := by
  intro cause straps s hs hl area
  rw [exec_hardStart hs]
  refine ⟨fun bad => ?_, fun good => ?_⟩
  · have none : goodArea s = none := by
      rw [goodArea_of_lost hl]
      exact if_neg bad
    have eq : hardStart straps s = endOfStart (occur .retentionLost (badCleared straps s)) := by
      unfold hardStart
      rw [none]
      rfl
    rw [eq, endOfStart_of_bad, ← strappedNode_eq]
    unfold badCleared hardStartCleared
    rw [if_pos hl]
    rfl
  · have again : State.Starts { s with retained := area.1, retainedLost := false, openCount := s.openCount + 1 }
        cause := hs
    have some' : goodArea s = some area.1 := by
      rw [goodArea_of_lost hl]
      exact if_pos good
    rw [exec_hardStart again]
    unfold hardStart
    rw [some']
    unfold hardStartCleared
    rw [if_pos hl]
    rfl

end Sys2Proof.Machine
end

