-- ==== Sys2Proof/Proofs/Reads.lean ====
section
/-! PROOFS. The commands that read (R11, R51, R65, R66, R86, R87, R110, R111, R131, R149, R160, R179):
each has a lemma that says what its owning rule does with arguments in range, and the parts of O10 are
assembled from these. -/

namespace Sys2Proof.Machine

/-- An optional item is spelt as its item is. -/
theorem encOpt_congr {α : Type} {n : Nat} {f g : α → List Byte} (h : ∀ x, f x = g x) (o : Option α) :
    encOpt n f o = encOpt n g o := by
  cases o with
  | none => rfl
  | some x => exact congrArg (1 :: ·) (h x)

/-! ### READ_STATION, READ_RUN, READ_PULSES -/

theorem readStation_nil (s : State) : readStation [] s = accept (stationData s) s := rfl

theorem readRun_of_run {r : Fin 4} {part : Byte} (h : part.toNat ≤ 3) (s : State) :
    readRun [BitVec.ofNat 8 r.val, part] s = accept (runData r part.toNat s) s := by
  unfold readRun
  rw [withLength_of_length (n := 2) (by rfl), argU_first, argU_second, byte_toNat (by omega), asRun_val]
  exact if_neg (by omega)

theorem readPulses_of_run (r : Fin 4) (s : State) :
    readPulses [BitVec.ofNat 8 r.val] s = accept (pulsesData r s) s := by
  unfold readPulses
  rw [withLength_of_length (n := 1) (by rfl), argU_first, byte_toNat (by omega), asRun_val]

/-! ### READ_INPUT -/

theorem readInput_of_empty {slot : Fin 16} {part : Byte} (h : part.toNat < 2) {s : State}
    (hb : s.retained.bindings[slot] = none) :
    readInput [BitVec.ofNat 8 slot.val, part] s = accept (encFlag true) s := by
  unfold readInput
  rw [withLength_of_length (n := 2) (by rfl), argU_first, argU_second, byte_toNat (by omega), asSlot_val]
  simp only [hb]
  exact if_neg (by omega)

theorem readInput_of_loaded {slot : Fin 16} {part : Byte} (h : part.toNat < 2) {s : State} {b : Binding}
    (hb : s.retained.bindings[slot] = some b) :
    readInput [BitVec.ofNat 8 slot.val, part] s
      = accept (if part.toNat = 0 then inputData slot b s else usesData slot s) s := by
  unfold readInput
  rw [withLength_of_length (n := 2) (by rfl), argU_first, argU_second, byte_toNat (by omega), asSlot_val]
  simp only [hb]
  exact if_neg (by omega)

/-- R66: a use of a slot as reply data. -/
def SlotUse.bytes (u : SlotUse) : List Byte := encU 1 u.role ++ encU 1 u.run ++ encFlag u.inUse

theorem usesData_eq (slot : Fin 16) (s : State) :
    usesData slot s
      = encU 1 ((slotUses slot s).map SlotUse.bytes).length ++ ((slotUses slot s).map SlotUse.bytes).flatten := by
  rw [List.length_map, ← List.flatMap_def]
  rfl

/-- R66: the uses of a slot as reply data, place by place. -/
theorem slotUses_bytes (slot : Fin 16) (s : State) :
    (slotUses slot s).map SlotUse.bytes
      = ((List.finRange 4).flatMap fun r =>
          match s.retained.runs[r].settings with
          | none => []
          | some x =>
            (if x.tSlot = slot then [encU 1 0 ++ encU 1 r.val ++ encFlag (s.runs[r].state != .closed)] else [])
              ++ if x.pSlot = slot then
                [encU 1 1 ++ encU 1 r.val ++ encFlag (s.runs[r].state != .closed)] else [])
        ++ (match s.retained.station with
          | none => []
          | some x =>
            (if x.densitySlot = some slot then
                [encU 1 2 ++ encU 1 0 ++ encFlag (s.station == .metering)] else [])
              ++ if x.waterSlot = some slot then
                [encU 1 3 ++ encU 1 0 ++ encFlag (s.station == .metering)] else [])
        ++ (match s.retained.prover with
          | none => []
          | some x =>
            (if x.tSlot = slot then [encU 1 4 ++ encU 1 0 ++ encFlag s.session.state.active] else [])
              ++ if x.pSlot = slot then
                [encU 1 5 ++ encU 1 0 ++ encFlag s.session.state.active] else []) := by
  unfold slotUses
  rw [List.map_append, List.map_append, List.map_flatMap]
  congr 1
  · congr 1
    · congr 1
      funext r
      unfold runUses State.settings
      cases s.retained.runs[r].settings with
      | none => rfl
      | some x =>
        simp only [List.map_append, apply_ite (List.map SlotUse.bytes)]
        rfl
    · unfold stationUses
      cases s.retained.station with
      | none => rfl
      | some x =>
        simp only [List.map_append, apply_ite (List.map SlotUse.bytes)]
        rfl
  · unfold proverUses
    cases s.retained.prover with
    | none => rfl
    | some x =>
      simp only [List.map_append, apply_ite (List.map SlotUse.bytes)]
      rfl

/-! ### READ_CURVE and READ_PRODUCT -/

/-- R86, R87: the byte that names a copy. -/
theorem asPendingCopy_of_byte {copy : Byte} {P : Prop} (h : copy = 0 ∨ copy = 1 ∧ P) :
    ∃ pending : Bool, asPendingCopy copy.toNat = some pending ∧ (pending = true → P)
      ∧ ∀ {α : Type} (c : Copies α), (if copy = 0 then c.inService else c.pending) = c.select pending := by
  rcases h with rfl | ⟨rfl, hP⟩
  · exact ⟨false, rfl, nofun, fun _ => rfl⟩
  · exact ⟨true, rfl, fun _ => hP, fun _ => rfl⟩

theorem installedAtOf_state (x : Option Word32) (s : State) :
    (installedAtOf x s).1 = { s with openCount := (installedAtOf x s).1.openCount } := by
  cases x <;> rfl

theorem readCurve_of_pair {r : Fin 4} {p : Fin 8} {copy part : Byte} {pending : Bool} {st : StationRecord}
    {s : State} (hcopy : asPendingCopy copy.toNat = some pending) (hpart : part.toNat < 3)
    (hst : s.retained.station = some st) (hallows : st.layout.allows r p = true)
    (hroom : part.toNat = 2 → st.layout.pointsPerCurve = 12)
    (hheld : pending = true → (s.curve r p).pending.isSome = true) :
    readCurve [BitVec.ofNat 8 r.val, BitVec.ofNat 8 p.val, copy, part] s
      = accept
          (curveData r p st.layout pending part.toNat
            (installedAtOf (((s.curve r p).select pending).map (·.installedAt)) s).2 s)
          (installedAtOf (((s.curve r p).select pending).map (·.installedAt)) s).1 := by
  have held : (pending && (s.curve r p).pending.isNone) = false := by
    cases pending with
    | false => rfl
    | true =>
      rw [Bool.true_and, Option.isNone_eq_false_iff]
      exact hheld rfl
  unfold readCurve
  rw [withLength_of_length (n := 4) (by rfl), argU_first, argU_second, argU_third, argU_fourth,
    byte_toNat (by omega), byte_toNat (by omega), asRun_val, asProduct_val, hcopy]
  simp only
  rw [if_neg (by omega)]
  unfold readCurveAt
  simp only [hst]
  rw [if_neg (by simp [hallows]), if_neg (by tauto), if_neg (by simp [held])]

theorem readProduct_of_product {p : Fin 8} {copy part : Byte} {pending : Bool}
    (hcopy : asPendingCopy copy.toNat = some pending) (hpart : part.toNat < 3) (s : State) :
    readProduct [BitVec.ofNat 8 p.val, copy, part] s = readProductAt p pending part.toNat s := by
  unfold readProduct
  rw [withLength_of_length (n := 3) (by rfl), argU_first, argU_second, argU_third, byte_toNat (by omega),
    asProduct_val, hcopy]
  exact if_neg (by omega)

theorem readProductAt_of_valid {p : Fin 8} {pending : Bool} {part : Nat} {s : State} {x : ProductCopy}
    (h : s.retained.products[p].select pending = some x) :
    readProductAt p pending part s
      = accept (if part = 0 then productData p x s else productPoints part x.points x.installedAt) s := by
  unfold readProductAt
  rw [h]

theorem readProductAt_of_empty {p : Fin 8} {pending : Bool} {part : Nat} {s : State}
    (hp : pending = false) (h : s.retained.products[p].select pending = none) :
    readProductAt p pending part s
      = if part = 0 then accept (encFlag false) s
        else accept (productPoints part [] (drawOpen s).2) (drawOpen s).1 := by
  subst hp
  unfold readProductAt
  rw [h]
  rfl

/-- R87: parts 1 and 2 of READ_PRODUCT; an EMPTY copy in service has an open installed-at number. -/
theorem readProductAt_points {p : Fin 8} {pending : Bool} {part : Nat} {s : State} (hpart : part ≠ 0)
    (held : pending = true → s.retained.products[p].pending.isSome = true) :
    readProductAt p pending part s
      = accept
          (productPoints part (((s.retained.products[p].select pending).map (·.points)).getD [])
            (installedAtOf ((s.retained.products[p].select pending).map (·.installedAt)) s).2)
          (installedAtOf ((s.retained.products[p].select pending).map (·.installedAt)) s).1 := by
  cases selects : s.retained.products[p].select pending with
  | some x =>
    rw [readProductAt_of_valid selects, if_neg hpart]
    rfl
  | none =>
    have inService : pending = false := by
      cases pending with
      | false => rfl
      | true =>
        have valid := held rfl
        rw [show s.retained.products[p].pending = none from selects] at valid
        cases valid
    rw [readProductAt_of_empty inService selects, if_neg hpart]
    rfl

/-- R87: part 0 of READ_PRODUCT for an EMPTY copy in service. -/
theorem readProductAt_status_of_empty {p : Fin 8} {pending : Bool} {s : State}
    (held : pending = true → s.retained.products[p].pending.isSome = true)
    (h : s.retained.products[p].select pending = none) :
    readProductAt p pending 0 s = accept (encFlag false) s := by
  cases pending with
  | false => exact (readProductAt_of_empty rfl h).trans (if_pos rfl)
  | true =>
    have valid := held rfl
    rw [show s.retained.products[p].pending = none from h] at valid
    cases valid

/-! ### READ_BATCHES and READ_TICKET -/

theorem readBatches_of_part {part : Byte} {s : State} (h : part.toNat ≤ 13)
    (hq : s.retained.batch.queue ≠ [] ∨ part.toNat < 2 ∨ part.toNat = 13) :
    readBatches [part] s = accept (batchesData part.toNat s.retained.batch) s := by
  unfold readBatches
  rw [withLength_of_length (n := 1) (by rfl), argU_first]
  simp only
  rw [if_neg (by omega), if_neg]
  rintro ⟨he, h2, h12⟩
  rw [List.isEmpty_iff] at he
  rcases hq with hq | hq | hq
  · exact hq he
  · omega
  · omega

theorem batchesData_of_entry {part : Nat} (h : 3 ≤ part) (h' : part ≤ 12) (b : BatchUnit) :
    batchesData part b = (b.acc.entry (partEntry (part - 2)).1).part (partEntry (part - 2)).2 := by
  unfold batchesData
  split
  case h_1 => omega
  case h_2 => omega
  case h_3 => omega
  case h_4 => omega
  case h_5 => rfl

theorem partEntry_totals (r : Fin 4) : partEntry (3 + r.val) = (some r, true) := by
  unfold partEntry
  rw [if_neg (by omega), if_pos (by omega), Nat.add_sub_cancel_left]
  simp

theorem partEntry_rest (r : Fin 4) : partEntry (7 + r.val) = (some r, false) := by
  unfold partEntry
  rw [if_neg (by omega), if_neg (by omega), Nat.add_sub_cancel_left]
  simp

/-- The byte after a batch id. -/
theorem argU_after_id (id : Nat) (part : Byte) : argU (encU 4 id ++ [part]) 4 1 = part.toNat := by
  rw [argU_one (by simp)]
  simp

theorem readTicket_of_ticket {id : Nat} {t : Ticket} {part : Byte} {data : List Byte} {s : State}
    (hid : id < 2 ^ 32) (ht : s.retained.batch.tickets.find? (fun x => x.id == id) = some t)
    (hpart : part.toNat ≤ 10) (hdata : t.partData part.toNat = some data) :
    readTicket (encU 4 id ++ [part]) s = accept data s := by
  unfold readTicket
  rw [withLength_of_length (by simp), argU_after_id, argU_encU_four hid, if_neg (by omega)]
  unfold BatchUnit.ticket
  rw [ht, Option.bind_some, hdata]

/-! ### READ_PROVE and READ_CONDITIONS -/

theorem readProve_of_data {part : Byte} {data : List Byte} {s : State} (hpart : part.toNat ≤ 43)
    (hdata : proveData part.toNat s = some data) : readProve [part] s = accept data s := by
  unfold readProve
  rw [withLength_of_length (n := 1) (by rfl), argU_first, if_neg (by omega), hdata]

theorem proveData_pass (i : Nat) (h : i < 20) (s : State) :
    proveData (4 + i) s = (s.session.passes[i]?).map PassRecord.bytes := by
  unfold proveData
  rw [if_neg (by omega), if_neg (by omega), if_neg (by omega), if_neg (by omega), if_pos (by omega),
    Nat.add_sub_cancel_left]

theorem proveData_run (i : Nat) (s : State) :
    proveData (24 + i) s = (s.session.proveRuns[i]?).map ProveRun.bytes := by
  unfold proveData
  rw [if_neg (by omega), if_neg (by omega), if_neg (by omega), if_neg (by omega), if_neg (by omega),
    Nat.add_sub_cancel_left]

/-! What READ_PROVE tells of the pass, by the session state (R131). -/

theorem passData_of_partial {s : State} (h : s.session.state = .timing ∨ s.session.state = .finishing) :
    passData s
      = encCode 0 ++ encWord (s.session.items.tD1.getD 0) ++ encOpt 4 encWord s.session.items.tP1
          ++ encU 4 s.session.items.running ++ encOpt 4 encWord s.session.items.lastPulse
          ++ encOpt 4 encWord s.session.items.tD2
          ++ encWord (s.timebase - s.session.items.tD1.getD 0)
          ++ encU 2 ((s.retained.prover.map (·.timeout)).getD 0) := by
  unfold passData
  rcases h with h | h <;> simp only [h]

theorem passData_of_between {s : State} (h : s.session.state = .held ∨ s.session.state = .armed) :
    passData s = encCode 1 ++ s.session.lastOutcome.bytes := by
  unfold passData
  rcases h with h | h <;> simp only [h]

theorem passData_of_ended {s : State} (h : s.session.state.active = false) :
    passData s = encCode 2 ++ s.session.lastOutcome.bytes := by
  unfold passData
  cases hs : s.session.state with
  | idle | complete | failed => simp only [hs]
  | held | armed | timing | finishing =>
    rw [hs] at h
    cases h

theorem readConditions_of_data {args : List Byte} {n : Nat} {data : List Byte} {s : State}
    (hne : args ≠ []) (hform : formLength [1, 2, 3] args = some n) (hlen : args.length = n)
    (hdata : conditionsData args s = some data) : readConditions args s = accept data s := by
  unfold readConditions
  rw [if_neg (by simpa using hne), hform]
  simp only
  rw [withLength_of_length hlen, hdata]

/-! ### The obligation -/

theorem stationData_eq (s : State) :
    stationData s
      = encCode s.station.code
          ++ encOpt 10
              (fun x : StationRecord =>
                encU 1 x.intervalLength ++ encCode x.layout.code ++ encU 1 x.spacing
                  ++ encU 1 x.resultLevel ++ encU 1 x.ticketLevel ++ encU 1 x.reportLevel
                  ++ encOpt 1 (fun b : Fin 16 => encU 1 b.val) x.densitySlot
                  ++ encOpt 1 (fun b : Fin 16 => encU 1 b.val) x.waterSlot)
              s.retained.station
          ++ encFlag s.retained.levels.isSome ++ encWord s.retained.intervalNumber
          ++ encOpt 1 (fun n : Nat => encU 1 ((n + 99999) / 100000 : Nat)) s.timer
          ++ encU 2 (crc (Config.retainedBytes s.retained)).toNat
          ++ encCode s.lastStart.code := by
  unfold stationData State.remainingCount
  cases s.timer <;> rfl

/-- R131: the input mark of READ_PROVE, by the session state. -/
theorem sessionMark_eq (x : Session) :
    encOpt 1 encFlag (if x.ended then some x.inputMark else none)
      = if x.state = .complete then
          [1] ++ encFlag (x.windowRuns.any fun r =>
            [r.proverT.code, r.proverP.code, r.meterT.code, r.meterP.code].any (2 ≤ ·))
        else if x.state = .failed then
          [1] ++ encFlag (x.proveRuns.any fun r =>
            [r.proverT.code, r.proverP.code, r.meterT.code, r.meterP.code].any (2 ≤ ·))
        else [0, 0] := by
  rw [Session.inputMark_eq]
  unfold Session.ended
  cases x.state <;> rfl

theorem readStation_answers {src tag : Byte} {s s1 : State} (ht : s.Takes (frameOf src tag 0x09 []) s1) :
    exec (.readStation src tag []) s
      = .next (offerReply src tag 0x09 { result := .ok, data := stationData s1 } s1) :=
  exec_of_handling rfl ht (readStation_nil s1) rfl

/-- R62: the value in use of a loaded slot, by its live state. -/
def LiveInput.reading (l : LiveInput) (b : Binding) : Reading :=
  match l.state with
  | .live => ⟨l.held.getD b.substitute, if l.uncertain then 1 else 0⟩
  | .held => ⟨l.held.getD b.substitute, 2⟩
  | .substituted | .noData => ⟨b.substitute, 3⟩

theorem reading_of_loaded {slot : Fin 16} {b : Binding} {s : State}
    (hb : s.retained.bindings[slot] = some b) : s.reading slot = s.live[slot].reading b := by
  unfold State.reading
  rw [hb]
  rfl

theorem reading_of_empty {slot : Fin 16} {s : State} (hb : s.retained.bindings[slot] = none) :
    s.reading slot = ⟨0, 3⟩ := by
  unfold State.reading
  rw [hb]

/-- R13: the line density with a station record. -/
theorem densityReading_of_record {s : State} {x : StationRecord} (h : s.retained.station = some x) :
    s.densityReading
      = match x.densitySlot with
        | some slot =>
          if s.retained.bindings[slot].isSome then s.reading slot
          else
            ⟨((((s.product s.retained.batch.product).bind (·.defaultDensity)).getD 0 : Nat) : Int), 3⟩
        | none =>
          match (s.product s.retained.batch.product).bind (·.defaultDensity) with
          | some d => ⟨(d : Int), 0⟩
          | none => ⟨0, 3⟩ := by
  unfold State.densityReading
  rw [h]
  rfl

/-- R13: the water cut with a station record. -/
theorem waterReading_of_record {s : State} {x : StationRecord} (h : s.retained.station = some x) :
    s.waterReading
      = match x.waterSlot with
        | some slot => s.reading slot
        | none => ⟨0, 0⟩ := by
  unfold State.waterReading
  rw [h]
  rfl

/-! The value in use and its input code, by the state of a loaded slot (R62). -/

section
variable {slot : Fin 16} {b : Binding} {s : State} (hb : s.retained.bindings[slot] = some b)
include hb

theorem reading_of_live {v : Int} {uncertain : Bool} (hs : s.live[slot].state = .live)
    (hv : s.live[slot].held = some v) (hu : s.live[slot].uncertain = uncertain) :
    s.reading slot = ⟨v, if uncertain then 1 else 0⟩ := by
  rw [reading_of_loaded hb]
  simp only [LiveInput.reading, hs, hv, hu, Option.getD_some]

theorem reading_of_held {v : Int} (hs : s.live[slot].state = .held) (hv : s.live[slot].held = some v) :
    s.reading slot = ⟨v, 2⟩ := by
  rw [reading_of_loaded hb]
  simp only [LiveInput.reading, hs, hv, Option.getD_some]

theorem reading_of_substituted (hs : s.live[slot].state = .substituted ∨ s.live[slot].state = .noData) :
    s.reading slot = ⟨b.substitute, 3⟩ := by
  rw [reading_of_loaded hb]
  rcases hs with hs | hs <;> simp only [LiveInput.reading, hs]

end

/-! The reply of an accepted read, by its data. -/

theorem readBatches_answers {src tag part : Byte} {s s1 : State} {data : List Byte}
    (ht : s.Takes (frameOf src tag 0x2B [part]) s1) (h : part.toNat ≤ 13)
    (hq : s1.retained.batch.queue ≠ [] ∨ part.toNat < 2 ∨ part.toNat = 13)
    (hd : batchesData part.toNat s1.retained.batch = data) :
    exec (.readBatches src tag [part]) s
      = .next (offerReply src tag 0x2B { result := .ok, data } s1) :=
  exec_of_handling rfl ht (hd ▸ readBatches_of_part h hq) rfl

/-- R111: the parts of READ_BATCHES that give an accumulator entry. -/
theorem readBatches_entry_answers {src tag part : Byte} {s s1 : State} {run : Option (Fin 4)} {whole : Bool}
    (ht : s.Takes (frameOf src tag 0x2B [part]) s1) (hq : s1.retained.batch.queue ≠ [])
    (h3 : 3 ≤ part.toNat) (h12 : part.toNat ≤ 12) (hp : partEntry (part.toNat - 2) = (run, whole)) :
    exec (.readBatches src tag [part]) s
      = .next (offerReply src tag 0x2B
          { result := .ok, data := (s1.retained.batch.acc.entry run).part whole } s1) :=
  readBatches_answers ht (by omega) (.inl hq) (by rw [batchesData_of_entry h3 h12, hp])

theorem readTicket_answers {src tag part : Byte} {id : Nat} {t : Ticket} {s s1 : State} {data : List Byte}
    (ht : s.Takes (frameOf src tag 0x2C (encU 4 id ++ [part])) s1) (hid : id < 2 ^ 32)
    (hfound : s1.retained.batch.tickets.find? (fun x => x.id == id) = some t) (h : part.toNat ≤ 10)
    (hd : t.partData part.toNat = some data) :
    exec (.readTicket src tag (encU 4 id ++ [part])) s
      = .next (offerReply src tag 0x2C { result := .ok, data } s1) :=
  exec_of_handling rfl ht (readTicket_of_ticket hid hfound h hd) rfl

/-- R110: the parts of a ticket that give one of its entries. -/
theorem partData_of_entry {t : Ticket} {part : Nat} {run : Option (Fin 4)} {e : TicketEntry} {whole : Bool}
    (h : 1 ≤ part) (hp : partEntry part = (run, whole)) (he : t.entry run = some e) :
    t.partData part = some (e.part whole) := by
  unfold Ticket.partData
  rw [if_neg (by omega), hp, he]
  rfl

theorem readProve_answers {src tag part : Byte} {s s1 : State} {data : List Byte}
    (ht : s.Takes (frameOf src tag 0x36 [part]) s1) (h : part.toNat ≤ 43)
    (hd : proveData part.toNat s1 = some data) :
    exec (.readProve src tag [part]) s
      = .next (offerReply src tag 0x36 { result := .ok, data } s1) :=
  exec_of_handling rfl ht (readProve_of_data h hd) rfl

theorem readProduct_answers {src tag copy part : Byte} {p : Fin 8} {pending : Bool} {s s1 s2 : State}
    {data : List Byte} (ht : s.Takes (frameOf src tag 0x24 [BitVec.ofNat 8 p.val, copy, part]) s1)
    (hcopy : asPendingCopy copy.toNat = some pending) (hpart : part.toNat < 3)
    (hd : readProductAt p pending part.toNat s1 = accept data s2)
    (hr : s2.restartPending = s1.restartPending) :
    exec (.readProduct src tag [BitVec.ofNat 8 p.val, copy, part]) s
      = .next (offerReply src tag 0x24 { result := .ok, data } s2) :=
  exec_of_handling rfl ht ((readProduct_of_product hcopy hpart s1).trans hd) hr

theorem outcome_bytes (x : PassOutcome) :
    x.bytes
      = match x with
        | .none => [0]
        | .completed n => [1] ++ encU 2 n
        | .spoiled cause => [2] ++ encCode cause.code := by
  cases x <;> rfl

/-- Settles O10. -/
theorem readsAnswerOkAndChangeNothing : Obligations.ReadsAnswerOkAndChangeNothing := by
  unfold Obligations.ReadsAnswerOkAndChangeNothing
  intro word slotOpt totals flags entry reading
  refine ⟨?station, ?input, ?run, ?pulses, ?curve, ?product, ?batches, ?ticket, ?prove, ?conditions,
    ?inUse, ?line⟩
  case station =>
    intro src tag s s1 ht
    rw [readStation_answers ht, stationData_eq]
  case input =>
    intro src tag part slot s s1 args answers use uses ht hpart
    refine ⟨fun hb => exec_of_handling rfl ht (readInput_of_empty hpart hb) rfl, ?_⟩
    intro b hb l
    have loaded := readInput_of_loaded hpart hb
    refine ⟨?_, ?_⟩
    · rintro rfl
      refine exec_of_handling rfl ht (loaded.trans ?_) rfl
      simp only [inputData, Binding.bytes, List.append_assoc, reading]
      rfl
    · rintro rfl
      refine exec_of_handling rfl ht (loaded.trans ?_) rfl
      have spelt : (slotUses slot s1).map SlotUse.bytes = uses := slotUses_bytes slot s1
      rw [← spelt, ← usesData_eq]
      rfl
  case run =>
    intro src tag part r s s1 args answers k ht
    refine ⟨?_, ?_, ?_, ?_⟩ <;> rintro rfl <;>
      refine exec_of_handling rfl ht ((readRun_of_run (by decide) s1).trans ?_) rfl
    · rfl
    · rfl
    · refine congrArg (accept · s1) (encOpt_congr (fun x => ?_) _)
      simp only [IntervalRecord.partTwo, ResultFlags.bytes, List.append_assoc, flags, word]
    · rfl
  case pulses =>
    intro src tag r s s1 args p ht
    refine exec_of_handling rfl ht ((readPulses_of_run r s1).trans ?_) rfl
    simp only [pulsesData, changeData, List.append_assoc]
    rfl
  case curve =>
    intro src tag r p copy part st s s1 args c points entries ht hst hallows hpart hroom hcopy
    obtain ⟨pending, named, held, selected⟩ := asPendingCopy_of_byte hcopy
    have hc : c = (s1.curve r p).select pending := selected _
    have body := readCurve_of_pair named hpart hst hallows hroom held
    rw [← hc, installedAtOf_state] at body
    refine ⟨(installedAtOf (c.map (·.installedAt)) s1).2, _, _, exec_of_handling rfl ht body rfl,
      ?_, ?_, ?_, ?_⟩
    · intro x hx
      rw [hx]
      exact ⟨rfl, rfl⟩
    · rintro rfl
      simp only [curveData, ← hc]
      rfl
    · rintro rfl
      simp only [curveData, ← hc]
      rfl
    · rintro rfl
      simp only [curveData, ← hc]
      rfl
  case product =>
    intro src tag p copy part s s1 args c points entries b ht hpart hcopy
    obtain ⟨pending, named, held, selected⟩ := asPendingCopy_of_byte hcopy
    have hc : c = s1.retained.products[p].select pending := selected _
    by_cases h0 : part = 0
    · subst h0
      cases selects : s1.retained.products[p].select pending with
      | some x =>
        have found : c = some x := hc.trans selects
        have empty : c ≠ none := by rw [found]; exact Option.some_ne_none x
        have valid {y : ProductCopy} (hy : c = some y) : y = x :=
          Option.some.inj (hy.symm.trans found)
        refine ⟨x.installedAt, s1.openCount, _,
          readProduct_answers ht named hpart (readProductAt_of_valid selects) rfl,
          fun y hy => ⟨by rw [valid hy], rfl⟩, fun _ h => absurd h empty, fun y _ hy => ?_, nofun, nofun⟩
        rw [valid hy]
        rfl
      | none =>
        have empty {y : ProductCopy} : c ≠ some y := by
          rw [hc.trans selects]
          exact (Option.some_ne_none y).symm
        exact ⟨0, s1.openCount, _,
          readProduct_answers ht named hpart (readProductAt_status_of_empty held selects) rfl,
          fun _ hy => absurd hy empty, fun _ _ => rfl, fun _ _ hy => absurd hy empty, nofun, nofun⟩
    · have read := readProductAt_points (fun h => h0 (BitVec.eq_of_toNat_eq h)) held
      rw [← hc, installedAtOf_state] at read
      refine ⟨(installedAtOf (c.map (·.installedAt)) s1).2, _, _,
        readProduct_answers ht named hpart read rfl, fun x hx => ?_, fun h => absurd h h0,
        fun _ h => absurd h h0, ?_, ?_⟩
      · rw [hx]
        exact ⟨rfl, rfl⟩
      · rintro rfl
        rfl
      · rintro rfl
        rfl
  case batches =>
    intro src tag part s s1 answers b batch ht
    refine ⟨?_, ?_, ?_, fun hq => ⟨?_, ?_, fun r => ⟨fun h => ?_, fun h => ?_⟩⟩, ?_⟩
    · rintro rfl
      refine readBatches_answers ht (by decide) (.inr (.inl (by decide))) ?_
      simp only [batchesData, encList, List.append_assoc]
      rfl
    · rintro rfl
      exact readBatches_answers ht (by decide) (.inr (.inl (by decide))) rfl
    · rintro rfl hq
      exact readBatches_answers (data := progressData b) ht (by decide) (.inl hq) rfl
    · rintro rfl
      exact readBatches_entry_answers (run := none) (whole := true) ht hq (by decide) (by decide) rfl
    · rintro rfl
      exact readBatches_entry_answers (run := none) (whole := false) ht hq (by decide) (by decide) rfl
    · refine readBatches_entry_answers (run := some r) (whole := true) ht hq (by omega) (by omega) ?_
      rw [h, show 5 + r.val - 2 = 3 + r.val by omega, partEntry_totals]
    · refine readBatches_entry_answers (run := some r) (whole := false) ht hq (by omega) (by omega) ?_
      rw [h, show 9 + r.val - 2 = 7 + r.val by omega, partEntry_rest]
    · rintro rfl
      exact readBatches_answers ht (by decide) (.inr (.inr (by decide))) rfl
  case ticket =>
    intro src tag id t part s s1 args answers ht hid hfound
    refine ⟨?_, ?_, ?_, fun r e he => ?_⟩
    · rintro rfl
      refine readTicket_answers ht hid hfound (by decide) (congrArg some ?_)
      simp only [Ticket.header, encList, List.append_assoc]
      rfl
    · rintro rfl
      exact readTicket_answers ht hid hfound (by decide) (partData_of_entry (by decide) rfl rfl)
    · rintro rfl
      exact readTicket_answers ht hid hfound (by decide) (partData_of_entry (by decide) rfl rfl)
    · have found : t.entry (some r) = some e.2 := congrArg (Option.map Prod.snd) he
      refine ⟨fun h => ?_, fun h => ?_⟩
      · exact readTicket_answers ht hid hfound (by omega)
          (partData_of_entry (by omega) (h ▸ partEntry_totals r) found)
      · exact readTicket_answers ht hid hfound (by omega)
          (partData_of_entry (by omega) (h ▸ partEntry_rest r) found)
  case prove =>
    intro src tag part s s1 answers x prover detector outcome tD1 window bad ht
    have told : outcome = x.lastOutcome.bytes := (outcome_bytes x.lastOutcome).symm
    refine ⟨?_, ?_, ?_, ?_, ?_, ?_, fun i y hy hi hpart => ?_, fun i y hy hi hpart => ?_⟩
    · rintro rfl
      exact readProve_answers ht (by decide) rfl
    · rintro rfl hstate
      exact readProve_answers ht (by decide) (congrArg some (passData_of_partial hstate))
    · rintro rfl hstate
      rw [told]
      exact readProve_answers ht (by decide) (congrArg some (passData_of_between hstate))
    · rintro rfl hstate
      rw [told]
      exact readProve_answers ht (by decide) (congrArg some (passData_of_ended hstate))
    · rintro rfl
      refine readProve_answers ht (by decide) (congrArg some ?_)
      simp only [sessionData, sessionMark_eq, Session.rateMark]
      rfl
    · rintro rfl
      exact readProve_answers ht (by decide) rfl
    · refine readProve_answers ht (by omega) ?_
      rw [hpart, proveData_pass i hi, hy, Option.map_some]
      simp only [PassRecord.bytes, Reading.bytes, List.append_assoc, reading]
      rfl
    · refine readProve_answers ht (by omega) ?_
      rw [hpart, proveData_run i, hy, Option.map_some]
      rfl
  case conditions =>
    intro src tag args s s1 answers latched one ht
    refine ⟨?_, ?_, ?_⟩
    · rintro rfl
      exact exec_of_handling rfl ht (readConditions_of_data (n := 1) (by simp) rfl rfl rfl) rfl
    · rintro start hstart rfl shown
      have data : conditionsData [1, start] s1 = some (listData start.toNat s1) := by
        unfold conditionsData
        rw [argU_first, argU_second]
        exact if_pos hstart
      refine exec_of_handling rfl ht
        ((readConditions_of_data (n := 2) (by simp) rfl rfl data).trans ?_) rfl
      simp only [listData, encList, List.append_assoc, one, flags]
      rfl
    · rintro c rfl
      have data : conditionsData [2, BitVec.ofNat 8 c.kindCode, BitVec.ofNat 8 c.unit] s1
          = some (condEntry s1 c) := by
        unfold conditionsData
        rw [argU_first, argU_second, argU_third, byte_toNat (kindCode_lt c), byte_toNat (unit_lt c),
          condOf_kind_unit]
        rfl
      refine exec_of_handling rfl ht
        ((readConditions_of_data (n := 3) (by simp) rfl rfl data).trans ?_) rfl
      simp only [condEntry, List.append_assoc, one, flags]
      rfl
  case inUse =>
    intro slot s l
    exact ⟨reading_of_empty, fun b hb => ⟨fun v => reading_of_live hb, fun v => reading_of_live hb,
      fun v => reading_of_held hb, reading_of_substituted hb⟩⟩
  case line =>
    intro x s hx standard
    have density := densityReading_of_record hx
    have water := waterReading_of_record hx
    refine ⟨?_, ?_, ?_, ?_, ?_, ?_, ?_⟩
    · intro slot hslot loaded
      rw [density, hslot]
      exact if_pos loaded
    · intro slot hslot empty
      rw [density, hslot]
      exact if_neg (by rw [empty]; exact Bool.false_ne_true)
    · intro d hslot hd
      rw [density, hslot, show (s.product s.retained.batch.product).bind (·.defaultDensity) = some d from hd]
    · intro hslot hd
      rw [density, hslot, show (s.product s.retained.batch.product).bind (·.defaultDensity) = none from hd]
    · intro slot hslot _
      rw [water, hslot]
    · intro slot hslot empty
      rw [water, hslot]
      exact reading_of_empty empty
    · intro hslot
      rw [water, hslot]

end Sys2Proof.Machine
end

