-- ==== Sys2Proof/Proofs/ExpiryParts.lean ====
section
/-! PROOFS. The parts of an interval expiry (R3): what each leaves as it is, the frames it queues while no
notice can enter, and the application of the channel changes. -/

namespace Sys2Proof.Machine

/-! ### An operation done for each run -/

/-- The runs before and after a run in the order of an expiry. -/
theorem forRuns_split (r : Fin 4) :
    ∃ before after : List (Fin 4), List.finRange 4 = before ++ r :: after ∧ r ∉ before ∧ r ∉ after := by
  obtain ⟨before, after, split⟩ := List.append_of_mem (List.mem_finRange r)
  have nodup : (before ++ r :: after).Nodup := split ▸ List.nodup_finRange 4
  rw [List.nodup_append, List.nodup_cons] at nodup
  obtain ⟨-, ⟨hafter, -⟩, apart⟩ := nodup
  exact ⟨before, after, split, fun h => apart r h r List.mem_cons_self rfl, hafter⟩

theorem forRuns_of_split {f : State → Fin 4 → State} {before after : List (Fin 4)} {r : Fin 4}
    (h : List.finRange 4 = before ++ r :: after) (s : State) :
    forRuns f s = after.foldl f (f (before.foldl f s) r) := by
  unfold forRuns
  rw [h, List.foldl_append, List.foldl_cons]

/-- What every step of a fold leaves as it is, the fold leaves as it is. -/
theorem foldl_related {ι : Type} {R : State → State → Prop} (refl : ∀ s, R s s)
    (trans : ∀ {s t u}, R s t → R t u → R s u) {f : State → ι → State} {l : List ι}
    (step : ∀ a ∈ l, ∀ s, R s (f s a)) (s : State) : R s (l.foldl f s) := by
  induction l generalizing s with
  | nil => exact refl s
  | cons a l ih =>
    exact trans (step a List.mem_cons_self s) (ih (fun b hb => step b (List.mem_cons_of_mem a hb)) _)

/-! ### What the parts of an expiry leave as it is -/

/-- `t` is `s` but for the runs, the batches, the session, the conditions and the loop. -/
def RunsOnly (s t : State) : Prop :=
  t =
    { s with
      retained := { s.retained with runs := t.retained.runs, batch := t.retained.batch }
      runs := t.runs
      pulses := t.pulses
      session := t.session
      conds := t.conds
      forward := t.forward
      outbound := t.outbound
      transmitter := t.transmitter
      counters := t.counters }

theorem RunsOnly.refl (s : State) : RunsOnly s s := rfl

theorem RunsOnly.trans {s t u : State} (h : RunsOnly s t) (k : RunsOnly t u) : RunsOnly s u := by
  unfold RunsOnly at h k ⊢
  rw [k, h]

theorem LoopOnly.runsOnly {s t : State} (h : LoopOnly s t) : RunsOnly s t := by
  unfold LoopOnly at h
  unfold RunsOnly
  rw [h]

theorem SessionOnly.runsOnly {s t : State} (h : SessionOnly s t) : RunsOnly s t :=
  RunsOnly.trans (t := s.setSession t.session) rfl h.rest.runsOnly

section
variable {s t : State} (h : RunsOnly s t)
include h

theorem RunsOnly.station : t.station = s.station := by rw [h]
theorem RunsOnly.timebase : t.timebase = s.timebase := by rw [h]
theorem RunsOnly.timer : t.timer = s.timer := by rw [h]
theorem RunsOnly.live : t.live = s.live := by rw [h]
theorem RunsOnly.buffer : t.buffer = s.buffer := by rw [h]
theorem RunsOnly.retained :
    t.retained = { s.retained with runs := t.retained.runs, batch := t.retained.batch } := by rw [h]
theorem RunsOnly.now : t.now = s.now := by rw [h]; rfl
theorem RunsOnly.stationRecord : t.retained.station = s.retained.station := by rw [h]
theorem RunsOnly.bindings : t.retained.bindings = s.retained.bindings := by rw [h]
theorem RunsOnly.prover : t.retained.prover = s.retained.prover := by rw [h]
theorem RunsOnly.levels : t.retained.levels = s.retained.levels := by rw [h]
theorem RunsOnly.gate : t.retained.gate = s.retained.gate := by rw [h]
theorem RunsOnly.products : t.retained.products = s.retained.products := by rw [h]
theorem RunsOnly.curves : t.retained.curves = s.retained.curves := by rw [h]

theorem RunsOnly.withholds (c : CondId) : t.retained.withholds c = s.retained.withholds c := by
  unfold Retained.withholds
  rw [h.levels, h.gate]

theorem RunsOnly.told {c : CondId} (hc : t.cond c = s.cond c) (b : Bool) : t.told c b = s.told c b := by
  unfold State.told
  rw [hc, h.withholds, h.now]

theorem RunsOnly.occurred {c : CondId} (hc : t.cond c = s.cond c) : t.occurred c = s.occurred c := by
  unfold State.occurred
  rw [hc, h.withholds, h.now]

end

/-! ### The frames queued while no notice can enter -/

/-- While no notice can enter, behind a busy transmitter with room for them, the frames `l` and nothing else
enter the outbound queue. -/
def Queues (l : List OutFrame) (s t : State) : Prop :=
  s.NoticesQuiet → s.transmitter ≠ .free → s.outbound.length + l.length ≤ 16 →
    t.NoticesQuiet ∧ t.transmitter ≠ .free ∧ t.outbound = s.outbound ++ l

theorem Queues.refl (s : State) : Queues [] s s := fun hq ht _ => ⟨hq, ht, (List.append_nil _).symm⟩

theorem Queues.trans {l l' : List OutFrame} {s t u : State} (h : Queues l s t) (k : Queues l' t u) :
    Queues (l ++ l') s u := by
  intro hq ht hl
  rw [List.length_append] at hl
  obtain ⟨hq', ht', ho⟩ := h hq ht (by omega)
  obtain ⟨hq'', ht'', ho'⟩ := k hq' ht' (by rw [ho, List.length_append]; omega)
  exact ⟨hq'', ht'', by rw [ho', ho, List.append_assoc]⟩

theorem Queues.after {l : List OutFrame} {s t u : State} (k : Queues l t u) (h : Queues [] s t) :
    Queues l s u := h.trans k

theorem Queues.then {l : List OutFrame} {s t u : State} (h : Queues l s t) (k : Queues [] t u) :
    Queues l s u := by
  have both := h.trans k
  rwa [List.append_nil] at both

/-- No notice can enter when no record has been unlatched and the levels and the gate are as they were. -/
theorem NoticesQuiet.of_latched {s t : State} (h : s.NoticesQuiet)
    (hl : ∀ c, (s.cond c).latched = true → (t.cond c).latched = true)
    (levels : t.retained.levels = s.retained.levels) (gate : t.retained.gate = s.retained.gate) :
    t.NoticesQuiet := by
  intro c
  have kept : t.retained.withholds c = s.retained.withholds c := by
    unfold Retained.withholds
    rw [levels, gate]
  rw [kept, levels]
  exact (h c).imp_left (hl c)

/-- An operation that leaves the conditions, the queue, the levels and the gate as they are queues nothing. -/
theorem queues_of_same {s t : State} (conds : t.conds = s.conds) (outbound : t.outbound = s.outbound)
    (transmitter : t.transmitter = s.transmitter) (levels : t.retained.levels = s.retained.levels)
    (gate : t.retained.gate = s.retained.gate) : Queues [] s t := by
  intro hq ht _
  refine ⟨NoticesQuiet.of_latched hq (fun c hc => ?_) levels gate, by rwa [transmitter], by simp [outbound]⟩
  unfold State.cond at hc ⊢
  rwa [conds]

theorem setCond_latched {s : State} {c : CondId} {x : Condition}
    (h : (s.cond c).latched = true → x.latched = true) (e : CondId) (he : (s.cond e).latched = true) :
    ((s.setCond c x).cond e).latched = true := by
  by_cases hc : e = c
  · subst hc
    rw [State.cond_setCond]
    exact h he
  · rw [State.cond_setCond_ne s c e x hc]
    exact he

theorem setCond_queues {s : State} {c : CondId} {x : Condition}
    (h : (s.cond c).latched = true → x.latched = true) : Queues [] s (s.setCond c x) :=
  fun hq ht _ => ⟨NoticesQuiet.of_latched hq (setCond_latched h) rfl rfl, ht, (List.append_nil _).symm⟩

/-- A condition that is not latched has no open notice while no notice can enter. -/
theorem openNotice_of_quiet {s : State} {c : CondId} (h : s.NoticesQuiet) (hl : (s.cond c).latched = false) :
    s.openNotice c = none := by
  rcases h c with latched | withheld | ⟨l, levels, zero⟩
  · rw [hl] at latched
    cases latched
  · cases ho : s.openNotice c with
    | none => rfl
    | some f =>
      rw [(offerNotice_of_open ho).2] at withheld
      cases withheld
  · exact openNotice_of_zero levels zero

theorem openNotice_recordOccurrence (c : CondId) (s : State) (h : s.openNotice c = none) :
    (recordOccurrence c s).openNotice c = none := by
  unfold State.openNotice at h ⊢
  rw [recordOccurrence_retained]
  revert h
  split
  · exact id
  · split
    · intro h
      cases h
    · exact id

theorem occur_queues (c : CondId) (s : State) : Queues [] s (occur c s) := by
  cases hl : (s.cond c).latched with
  | true =>
    rw [occur_of_latched hl]
    exact setCond_queues fun _ => rfl
  | false =>
    intro hq ht hr
    rw [occur_of_unlatched hl, offerNotice_of_closed (openNotice_recordOccurrence c s (openNotice_of_quiet hq hl))]
    have recorded : Queues [] s (recordOccurrence c s) := setCond_queues fun _ => rfl
    refine recorded.then (setCond_queues ?_) hq ht hr
    exact id

theorem report_queues (c : CondId) (b : Bool) (s : State) : Queues [] s (report c b s) := by
  cases b with
  | false =>
    rw [report_false]
    exact setCond_queues id
  | true =>
    cases ha : (s.cond c).active with
    | true =>
      rw [report_of_active ha]
      exact Queues.refl s
    | false =>
      rw [reportActive_of_inactive ha]
      exact (occur_queues c _).after (setCond_queues id)

theorem reportAll_queues (l : List (CondId × Bool)) (s : State) : Queues [] s (reportAll l s) :=
  foldl_related Queues.refl (fun h k => h.then k) (fun x _ s => report_queues x.1 x.2 s) s

theorem offer_queues (f : OutFrame) (s : State) : Queues [f] s (offer f s) := by
  intro hq ht hl
  rw [offer_of_busy ht (by simpa using hl)]
  exact ⟨hq, ht, rfl⟩

/-! ### The channel changes (R36, R50) -/

/-- The pulse states of the runs of a list with their pending changes applied. -/
def appliedChanges (l : List (Fin 4)) (s : State) : State :=
  l.foldl (fun s r => s.setPulse r s.pulses[r].applyChange) s

theorem applyChange_of_none {p : PulseState} (h : p.change = none) : p.applyChange = p := by
  unfold PulseState.applyChange
  rw [h]

theorem applyChange_eq (p : PulseState) :
    p.applyChange = { p with totalizing := p.channelAtExpiry, change := none } := by
  unfold PulseState.applyChange PulseState.channelAtExpiry
  split
  · next ch h => rw [h, Option.getD_some]
  · next h => rw [h, Option.getD_none, ← h]

theorem State.setPulse_self (s : State) (r : Fin 4) : s.setPulse r s.pulses[r] = s := by
  have h : s.pulses.set r s.pulses[r] = s.pulses := Vector.set_getElem_self r.isLt
  unfold State.setPulse
  rw [h]

theorem applyChannelChange_eq (r : Fin 4) (s : State) :
    applyChannelChange r s
      = if s.pulses[r].change = none then s
        else pulseUnitReport .channel r (s.setPulse r s.pulses[r].applyChange) := by
  unfold applyChannelChange
  simp only
  split
  · next h => rw [if_pos h]
  · next h => rw [if_neg (by rw [h]; exact Option.some_ne_none _)]

/-- A change of a run that times no pass is applied, and nothing else. -/
theorem applyChannelChange_of_untimed {r : Fin 4} {s : State} (h : s.Times r → s.pulses[r].change = none) :
    applyChannelChange r s = s.setPulse r s.pulses[r].applyChange := by
  rw [applyChannelChange_eq]
  split
  · next hn => rw [applyChange_of_none hn, State.setPulse_self]
  · next hn => exact pulseUnitReport_of_untimed fun timed => hn (h timed)

theorem appliedChanges_frame (l : List (Fin 4)) (s : State) :
    appliedChanges l s = { s with pulses := (appliedChanges l s).pulses } := by
  induction l generalizing s with
  | nil => rfl
  | cons a l ih => exact (ih (s.setPulse a s.pulses[a].applyChange)).trans rfl

theorem appliedChanges_pulse_of_not_mem {l : List (Fin 4)} {r : Fin 4} (h : r ∉ l) (s : State) :
    (appliedChanges l s).pulses[r] = s.pulses[r] := by
  induction l generalizing s with
  | nil => rfl
  | cons a l ih =>
    rw [List.mem_cons, not_or] at h
    exact (ih h.2 _).trans (Vector.getElem_set_ne a.isLt r.isLt fun k => h.1 (Fin.ext k.symm))

theorem appliedChanges_pulse_of_mem {l : List (Fin 4)} {r : Fin 4} (h : r ∈ l) (s : State) :
    (appliedChanges l s).pulses[r] = s.pulses[r].applyChange := by
  have again (p : PulseState) : p.applyChange.applyChange = p.applyChange :=
    applyChange_of_none (by rw [applyChange_eq])
  have here (r : Fin 4) (s : State) :
      (s.setPulse r s.pulses[r].applyChange).pulses[r] = s.pulses[r].applyChange :=
    Vector.getElem_set_self r.isLt
  induction l generalizing s with
  | nil => cases h
  | cons a l ih =>
    by_cases hl : r ∈ l
    · refine (ih hl _).trans ?_
      by_cases ha : r = a
      · subst ha
        rw [here, again]
      · exact congrArg _ (Vector.getElem_set_ne a.isLt r.isLt fun k => ha (Fin.ext k.symm))
    · obtain rfl : r = a := (List.mem_cons.mp h).resolve_right hl
      exact (appliedChanges_pulse_of_not_mem hl _).trans (here r s)

/-- The changes of runs that time no pass are applied, and nothing else. -/
theorem foldl_applyChannelChange_of_untimed {l : List (Fin 4)} {s : State}
    (h : ∀ r ∈ l, s.Times r → s.pulses[r].change = none) :
    l.foldl (fun s r => applyChannelChange r s) s = appliedChanges l s := by
  induction l generalizing s with
  | nil => rfl
  | cons a l ih =>
    rw [List.foldl_cons, applyChannelChange_of_untimed (h a List.mem_cons_self)]
    refine ih fun r hr timed => ?_
    have before := h r (List.mem_cons_of_mem a hr) timed
    by_cases ha : r = a
    · subst ha
      rw [applyChange_of_none before, State.setPulse_self]
      exact before
    · exact (congrArg PulseState.change
        (Vector.getElem_set_ne a.isLt r.isLt fun k => ha (Fin.ext k.symm))).trans before

/-- The session once the channel changes of an expiry have been reported. -/
def State.toldChange (s : State) : Session :=
  match s.session.attached with
  | some r => if s.pulses[r].change = none then s.session else s.sessionTold r .channel
  | none => s.session

/-- The report frame of a session that fails, from `x` to `y`. -/
def failReport (x y : Session) (level : Nat) : List OutFrame :=
  if x.state.active = true ∧ y.state = .failed then [y.reportFrame level] else []

theorem active_of_timed {s : State} {r : Fin 4} (h : s.Times r) : s.session.state.active = true := by
  obtain hs | hs := h.2 <;> rw [hs] <;> rfl

theorem afterSpoil_state (x : Session) (cause : SpoilCause) (auto : Bool) :
    (x.afterSpoil cause auto).state
      = if 2 ≤ x.consecutive then .failed else if auto then .armed else .held := rfl

theorem afterSpoil_failed_iff (x : Session) (cause : SpoilCause) (auto : Bool) :
    (x.afterSpoil cause auto).state = .failed ↔ 2 ≤ x.consecutive := by
  rw [afterSpoil_state]
  split
  · next h => simp [h]
  · next h => cases auto <;> simp [h]

/-- A spoiled pass changes its session. -/
theorem afterSpoil_ne {x : Session} (h : x.state = .timing ∨ x.state = .finishing) (cause : SpoilCause)
    (auto : Bool) : x.afterSpoil cause auto ≠ x := by
  intro same
  have state := afterSpoil_state x cause auto
  rw [same] at state
  by_cases third : 2 ≤ x.consecutive
  · rw [if_pos third] at state
    rcases h with h | h <;> rw [h] at state <;> cases state
  · rw [if_neg third] at state
    cases auto <;> rcases h with h | h <;> rw [h] at state <;> cases state

theorem offerReport_queues {s : State} {st : StationRecord} (hst : s.retained.station = some st)
    (hr : s.session.endCause.reported = true) :
    Queues [s.session.reportFrame st.reportLevel] s (offerReport s) := by
  rw [offerReport_eq hst hr]
  exact offer_queues _ s

theorem failSession_queues {cause : EndCause} {s : State} {st : StationRecord}
    (hst : s.retained.station = some st) (hr : cause.reported = true) :
    Queues [(s.session.leave .failed cause).reportFrame st.reportLevel] s (failSession cause s) := by
  have offered := offerReport_queues (s := s.setSession (s.session.leave .failed cause)) hst hr
  exact (offered.then (occur_queues .proveFailed _)).after (queues_of_same rfl rfl rfl rfl rfl)

theorem spoilPass_queues {cause : SpoilCause} {s : State} {st : StationRecord}
    (hst : s.retained.station = some st) :
    Queues
      (if 2 ≤ s.session.consecutive then
        [(s.session.afterSpoil cause s.autoRelease).reportFrame st.reportLevel] else [])
      s (spoilPass cause s) := by
  have counted : Queues [] s (occur .provePassSpoiled (s.setSession (s.session.countSpoil cause))) :=
    (occur_queues _ _).after (queues_of_same rfl rfl rfl rfl rfl)
  split
  · next h =>
    rw [spoilPass_of_third h]
    have offered := offerReport_queues
      (s := (occur .provePassSpoiled (s.setSession (s.session.countSpoil cause))).setSession
        (s.session.afterSpoil cause s.autoRelease)) (st := st)
      (by rw [State.setSession_retained, occur_retained]; exact hst)
      (by
        show (s.session.afterSpoil cause s.autoRelease).endCause.reported = true
        unfold Session.afterSpoil
        simp only [if_pos h]
        rfl)
    exact ((offered.then (occur_queues .proveFailed _)).after (queues_of_same rfl rfl rfl rfl rfl)).after counted
  · next h =>
    rw [spoilPass_of_other (by omega)]
    exact counted.then (queues_of_same rfl rfl rfl rfl rfl)

/-- What the channel changes of an expiry do: they are applied in every pulse state, and spoil a timed pass of
the attached run. -/
structure ChannelsChanged (s t : State) : Prop where
  only : LoopOnly ({ s with pulses := t.pulses }.setSession s.toldChange) t
  pulses : ∀ r : Fin 4, t.pulses[r] = s.pulses[r].applyChange
  conds : ∀ e : CondId, e ≠ .provePassSpoiled → e ≠ .proveFailed → e ≠ .outboundDiscard → t.cond e = s.cond e
  spoiled :
    t.cond .provePassSpoiled
      = if s.toldChange != s.session then s.occurred .provePassSpoiled else s.cond .provePassSpoiled
  failed :
    t.cond .proveFailed
      = if s.session.state.active && s.toldChange.state == .failed then s.occurred .proveFailed
        else s.cond .proveFailed
  queues : ∀ st : StationRecord, s.retained.station = some st →
    Queues (failReport s.session s.toldChange st.reportLevel) s t

theorem toldChange_of_timed {s : State} {r : Fin 4} (ht : s.Times r) (hc : s.pulses[r].change ≠ none) :
    s.toldChange = s.session.afterSpoil .channel s.autoRelease := by
  unfold State.toldChange
  rw [ht.1]
  simp only
  rw [if_neg hc]
  exact if_pos ht

theorem toldChange_of_untimed {s : State} (h : ∀ r, s.Times r → s.pulses[r].change = none) :
    s.toldChange = s.session := by
  unfold State.toldChange
  split
  · next r hr =>
    split
    · rfl
    · next hc => exact if_neg fun timed => hc (h r timed)
  · rfl

theorem not_failed_of_active {x : SessionState} : (x.active && x == .failed) = false := by
  cases x <;> rfl

theorem failReport_self (x : Session) (level : Nat) : failReport x x level = [] := by
  refine if_neg ?_
  rintro ⟨active, failed⟩
  rw [failed] at active
  cases active

theorem channelsChanged_of_untimed {s : State} (h : ∀ r, s.Times r → s.pulses[r].change = none) :
    ChannelsChanged s (forRuns (fun s r => applyChannelChange r s) s) := by
  have told := toldChange_of_untimed h
  have all : forRuns (fun s r => applyChannelChange r s) s = appliedChanges (List.finRange 4) s :=
    foldl_applyChannelChange_of_untimed fun r _ => h r
  have frame := appliedChanges_frame (List.finRange 4) s
  rw [all]
  refine ⟨?_, fun r => appliedChanges_pulse_of_mem (List.mem_finRange r) s, fun _ _ _ _ => ?_, ?_, ?_,
    fun _ _ => ?_⟩
  · rw [told, frame]
    exact LoopOnly.refl _
  · rw [frame]
    rfl
  · rw [told, frame, bne_self_eq_false]
    rfl
  · rw [told, frame, not_failed_of_active]
    rfl
  · rw [told, failReport_self, frame]
    exact queues_of_same rfl rfl rfl rfl rfl

/-- A change of the run whose pass is timed spoils the pass between the changes of the other runs. -/
theorem forRuns_change_of_timed {s : State} {r : Fin 4} (ht : s.Times r) (hc : s.pulses[r].change ≠ none) :
    ∃ l l' : List (Fin 4), (∀ q, q ∈ l ∨ q ∈ l')
      ∧ forRuns (fun s r => applyChannelChange r s) s
          = appliedChanges l' (spoilPass .channel (appliedChanges l s)) := by
  obtain ⟨before, after, split, hbefore, hafter⟩ := forRuns_split r
  have attached : ∀ {q}, s.Times q → q = r := fun h => Option.some.inj (h.1.symm.trans ht.1)
  refine ⟨before ++ [r], after, fun q => ?_, ?_⟩
  · have all := List.mem_finRange q
    rw [split] at all
    simpa [or_assoc] using all
  · have first : before.foldl (fun s r => applyChannelChange r s) s = appliedChanges before s :=
      foldl_applyChannelChange_of_untimed fun q hq timed => absurd (attached timed ▸ hq) hbefore
    have upTo : appliedChanges (before ++ [r]) s
        = (appliedChanges before s).setPulse r (appliedChanges before s).pulses[r].applyChange :=
      List.foldl_append
    have timed : (appliedChanges (before ++ [r]) s).Times r := by
      rw [appliedChanges_frame]
      exact ht
    have second : applyChannelChange r (appliedChanges before s)
        = spoilPass .channel (appliedChanges (before ++ [r]) s) := by
      rw [applyChannelChange_eq, if_neg (by rwa [appliedChanges_pulse_of_not_mem hbefore]), ← upTo]
      exact pulseUnitReport_of_timed timed
    rw [forRuns_of_split split, first, second]
    refine foldl_applyChannelChange_of_untimed fun q hq again => absurd ?_ hafter
    have kept : (spoilPass .channel (appliedChanges (before ++ [r]) s)).session.attached = some r :=
      (congrArg Session.attached (spoilPass_loopOnly _ _).session).trans timed.1
    exact (Option.some.inj (again.1.symm.trans kept)) ▸ hq

theorem channelsChanged_of_timed {s : State} {r : Fin 4} (ht : s.Times r) (hc : s.pulses[r].change ≠ none) :
    ChannelsChanged s (forRuns (fun s r => applyChannelChange r s) s) := by
  obtain ⟨l, l', all, changed⟩ := forRuns_change_of_timed ht hc
  have told := toldChange_of_timed ht hc
  have active := active_of_timed ht
  have pulses (q : Fin 4) : (appliedChanges l' (spoilPass .channel (appliedChanges l s))).pulses[q]
      = s.pulses[q].applyChange := by
    have kept : (spoilPass .channel (appliedChanges l s)).pulses = (appliedChanges l s).pulses :=
      (spoilPass_loopOnly .channel (appliedChanges l s)).pulses
    by_cases h' : q ∈ l'
    · rw [appliedChanges_pulse_of_mem h', kept]
      by_cases h : q ∈ l
      · rw [appliedChanges_pulse_of_mem h]
        exact applyChange_of_none (by rw [applyChange_eq])
      · rw [appliedChanges_pulse_of_not_mem h]
    · rw [appliedChanges_pulse_of_not_mem h', kept, appliedChanges_pulse_of_mem ((all q).resolve_right h')]
  rw [changed]
  refine ⟨?_, pulses, fun e h1 h2 h3 => ?_, ?_, ?_, fun st hst => ?_⟩ <;>
    rw [appliedChanges_frame l' (spoilPass .channel (appliedChanges l s)), appliedChanges_frame l s]
  · have spoilt := spoilPass_loopOnly .channel { s with pulses := (appliedChanges l s).pulses }
    rw [told]
    unfold LoopOnly at spoilt ⊢
    rw [spoilt]
    rfl
  · exact spoilPass_cond_ne h1 h2 h3 _ _
  · rw [told, if_pos (bne_iff_ne.mpr (afterSpoil_ne ht.2 _ _))]
    exact spoilPass_cond_spoiled _ _
  · refine (spoilPass_cond_failed .channel { s with pulses := (appliedChanges l s).pulses }).trans ?_
    rw [told, active, Bool.true_and]
    exact if_congr ((afterSpoil_failed_iff ..).symm.trans beq_iff_eq.symm) rfl rfl
  · have report : failReport s.session s.toldChange st.reportLevel
        = if 2 ≤ s.session.consecutive then
            [(s.session.afterSpoil .channel s.autoRelease).reportFrame st.reportLevel] else [] := by
      unfold failReport
      rw [told]
      exact if_congr (by rw [afterSpoil_failed_iff, active]; exact and_iff_right rfl) rfl rfl
    rw [report]
    have spoilt := spoilPass_queues (cause := .channel) (s := { s with pulses := (appliedChanges l s).pulses }) hst
    exact (spoilt.after (queues_of_same rfl rfl rfl rfl rfl)).then (queues_of_same rfl rfl rfl rfl rfl)

theorem channelsChanged (s : State) :
    ChannelsChanged s (forRuns (fun s r => applyChannelChange r s) s) := by
  by_cases h : ∃ r, s.Times r ∧ s.pulses[r].change ≠ none
  · obtain ⟨r, ht, hc⟩ := h
    exact channelsChanged_of_timed ht hc
  · exact channelsChanged_of_untimed fun r ht => by_contra fun hc => h ⟨r, ht, hc⟩

end Sys2Proof.Machine
end

