-- ==== Sys2Proof/Proofs/RecordsAndTargets.lean ====
section
/-! PROOFS. The runs at an interval expiry (R3): what the computation of a run does to the run, to the
batch its record goes to, to the conditions, and to the outbound queue. -/

namespace Sys2Proof.Machine

/-! ### The record goes to one accumulator (R97 to R102) -/

theorem SummaryFlags.add_eq (s : SummaryFlags) (f : ResultFlags) :
    s.add f
      = { channelSubstituted := s.channelSubstituted || f.substituted
          inputHeld := s.inputHeld || [f.codeT, f.codeP, f.codeRho, f.codeSW].any (2 ≤ ·)
          curveClampOrFallback := s.curveClampOrFallback || (f.curveClamp || f.fallback)
          proveAccepted := s.proveAccepted } := by
  unfold SummaryFlags.add
  simp [Bool.or_assoc]

theorem AccEntry.add_eq_taking (e : AccEntry) (rec : IntervalRecord) (d : Nat) (counts : Bool) :
    e.add rec d counts = e.taking rec d counts := by
  unfold AccEntry.add AccEntry.taking
  rw [SummaryFlags.add_eq]
  rfl

theorem ActiveAcc.add_eq (a : ActiveAcc) (rec : IntervalRecord) (d : Nat) :
    a.add rec d
      = { runs := a.runs.set rec.run (a.runs[rec.run].taking rec d true)
          station := a.station.taking rec d (a.last != some rec.interval)
          last := some rec.interval } := by
  unfold ActiveAcc.add
  rw [AccEntry.add_eq_taking, AccEntry.add_eq_taking]

/-- R102: the Batch Unit with its target marked as reached. -/
def BatchUnit.marked (b : BatchUnit) : BatchUnit :=
  { b with progress := { b.progress with targetReached := true } }

/-- R102: the Batch Unit once its target has been checked. -/
def BatchUnit.checked (b : BatchUnit) : BatchUnit :=
  if b.reachesTarget then if b.endsOnTarget then b.marked.startClosing .target else b.marked else b

theorem taking_of_opened {b : BatchUnit} (h : b.opened = true) (rec : IntervalRecord) (d : Nat) :
    b.taking rec d = BatchUnit.checked { b with acc := b.acc.add rec d } := by
  rw [ActiveAcc.add_eq]
  obtain ⟨queue, progress, acc, product, unbatched, tickets⟩ := b
  obtain ⟨opening, productCode, targetReached, closeCause⟩ := progress
  cases queue with
  | nil => cases h
  | cons e rest =>
    cases opening with
    | none => cases h
    | some n =>
      unfold BatchUnit.taking BatchUnit.checked BatchUnit.reachesTarget BatchUnit.endsOnTarget
      obtain ⟨id, slot, target, endMode, state⟩ := e
      simp only
      cases target with
      | none => cases targetReached <;> rfl
      | some litres =>
        cases targetReached with
        | true => rfl
        | false =>
          simp only [Bool.not_false, Bool.true_and, Bool.false_or]
          cases decide (litres * 1000
              ≤ (acc.station.taking rec d (acc.last != some rec.interval)).totals.nsv) with
          | false => rfl
          | true =>
            simp only [Bool.true_and]
            cases state == BatchState.active && endMode == EndMode.onTarget <;> rfl

theorem taking_of_unopened {b : BatchUnit} (h : b.opened = false) (rec : IntervalRecord) (d : Nat) :
    b.taking rec d = { b with unbatched := b.unbatched.add rec d } := by
  obtain ⟨queue, progress, acc, product, unbatched, tickets⟩ := b
  obtain ⟨opening, productCode, targetReached, closeCause⟩ := progress
  cases queue with
  | nil => rfl
  | cons e rest =>
    cases opening with
    | none => rfl
    | some n => cases h

theorem checked_of_unreached {b : BatchUnit} (h : b.reachesTarget = false) : b.checked = b :=
  if_neg (by rw [h]; exact Bool.false_ne_true)

theorem checked_of_closing {b : BatchUnit} (h : b.reachesTarget = true) (he : b.endsOnTarget = true) :
    b.checked = b.marked.startClosing .target :=
  (if_pos h).trans (if_pos he)

theorem checked_of_marking {b : BatchUnit} (h : b.reachesTarget = true) (he : b.endsOnTarget = false) :
    b.checked = b.marked :=
  (if_pos h).trans (if_neg (by rw [he]; exact Bool.false_ne_true))

theorem checkTarget_of_unreached {s : State} (h : s.retained.batch.reachesTarget = false) :
    checkTarget s = s :=
  if_neg (by rw [h]; exact Bool.false_ne_true)

theorem checkTarget_of_closing {s : State} (h : s.retained.batch.reachesTarget = true)
    (he : s.retained.batch.endsOnTarget = true) :
    checkTarget s
      = evalBatchConds ((occur .targetReached (s.setBatch s.retained.batch.marked)).setBatch
          s.retained.batch.checked) := by
  rw [checked_of_closing h he]
  exact (if_pos h).trans (if_pos he)

theorem checkTarget_of_marking {s : State} (h : s.retained.batch.reachesTarget = true)
    (he : s.retained.batch.endsOnTarget = false) :
    checkTarget s = occur .targetReached (s.setBatch s.retained.batch.checked) := by
  rw [checked_of_marking h he]
  exact (if_pos h).trans (if_neg (by
    show ¬(s.retained.batch.endsOnTarget = true)
    rw [he]
    exact Bool.false_ne_true))

theorem checkTarget_loopOnly (s : State) :
    LoopOnly (s.setBatch s.retained.batch.checked) (checkTarget s) := by
  cases h : s.retained.batch.reachesTarget with
  | false =>
    rw [checkTarget_of_unreached h, checked_of_unreached h]
    exact LoopOnly.refl s
  | true =>
    cases he : s.retained.batch.endsOnTarget with
    | false =>
      rw [checkTarget_of_marking h he]
      exact occur_loopOnly _ _
    | true =>
      rw [checkTarget_of_closing h he]
      exact ((occur_loopOnly .targetReached (s.setBatch s.retained.batch.marked)).setBatch _).trans
        (evalBatchConds_loopOnly _)

/-- R97, R98, R100, R102: a record goes to one accumulator, and nothing else changes but the loop. -/
theorem accumulate_loopOnly (rec : IntervalRecord) (d : Nat) (s : State) :
    LoopOnly (s.setBatch (s.retained.batch.taking rec d)) (accumulate rec d s) := by
  cases h : s.retained.batch.opened with
  | true =>
    rw [taking_of_opened h, show accumulate rec d s
      = checkTarget (s.setBatch { s.retained.batch with acc := s.retained.batch.acc.add rec d }) from if_pos h]
    exact checkTarget_loopOnly _
  | false =>
    rw [taking_of_unopened h, show accumulate rec d s
      = s.setBatch { s.retained.batch with unbatched := s.retained.batch.unbatched.add rec d } from
        if_neg (by rw [h]; exact Bool.false_ne_true)]
    exact LoopOnly.refl _

/-! ### The conditions that a record may change (R102, R112) -/

/-- The state of the head of a batch queue. -/
def BatchUnit.headState (b : BatchUnit) : Option BatchState := b.queue.head?.map (·.state)

/-- Whether an ACTIVE head has become CLOSING. -/
def ended (old new : BatchUnit) : Bool :=
  old.headState == some .active && new.headState == some .closing

/-- What records do to the conditions of the Batch Unit, from `s` to `t`: TARGET_REACHED occurs when the target
is marked, and the other two are evaluated when a target ends the batch. -/
structure BatchTold (s t : State) : Prop where
  only : RunsOnly s t
  marked : s.retained.batch.progress.targetReached = true → t.retained.batch.progress.targetReached = true
  tickets : t.retained.batch.tickets = s.retained.batch.tickets
  head : t.retained.batch.headState = s.retained.batch.headState
    ∨ ended s.retained.batch t.retained.batch = true
  target :
    t.cond .targetReached
      = if t.retained.batch.progress.targetReached && !s.retained.batch.progress.targetReached then
          s.occurred .targetReached
        else s.cond .targetReached
  noActive :
    t.cond .noActiveBatch
      = if ended s.retained.batch t.retained.batch then s.told .noActiveBatch false
        else s.cond .noActiveBatch
  full :
    t.cond .ticketStoreFull
      = if ended s.retained.batch t.retained.batch then
          s.told .ticketStoreFull (decide (4 ≤ t.retained.batch.tickets.length))
        else s.cond .ticketStoreFull

theorem ended_of_same {b c : BatchUnit} (h : c.headState = b.headState) : ended b c = false := by
  unfold ended
  rw [h]
  cases b.headState with
  | none => rfl
  | some x => cases x <;> rfl

theorem ended_iff {b c : BatchUnit} :
    ended b c = true ↔ b.headState = some .active ∧ c.headState = some .closing := by
  unfold ended
  rw [Bool.and_eq_true, beq_iff_eq, beq_iff_eq]

/-- The records of the Batch Unit's conditions. -/
def batchConds : List CondId := [.targetReached, .noActiveBatch, .ticketStoreFull]

theorem BatchTold.of_same {s t : State} (only : RunsOnly s t)
    (marked : t.retained.batch.progress.targetReached = s.retained.batch.progress.targetReached)
    (tickets : t.retained.batch.tickets = s.retained.batch.tickets)
    (head : t.retained.batch.headState = s.retained.batch.headState)
    (conds : ∀ c ∈ batchConds, t.cond c = s.cond c) : BatchTold s t where
  only
  marked := (marked.trans ·)
  tickets
  head := .inl head
  target := by
    rw [marked, Bool.and_not_self]
    exact conds _ (by simp [batchConds])
  noActive := by
    rw [ended_of_same head]
    exact conds _ (by simp [batchConds])
  full := by
    rw [ended_of_same head]
    exact conds _ (by simp [batchConds])

theorem BatchTold.refl (s : State) : BatchTold s s :=
  BatchTold.of_same (RunsOnly.refl s) rfl rfl rfl fun _ _ => rfl

/-- A record changed at the first of two moments or at the second is changed once. -/
theorem changed_once {x y z v w : Condition} {a b c : Bool} (first : y = if a then v else x)
    (second : z = if b then w else y) (hw : y = x → w = v) (hb : a = true → b = false)
    (hc : c = (a || b)) : z = if c then v else x := by
  subst hc
  cases a with
  | true =>
    rw [hb rfl] at second
    exact second.trans first
  | false =>
    rw [second, hw first, first]
    rfl

theorem headState_of_told {s t : State} (h : BatchTold s t)
    (he : ended s.retained.batch t.retained.batch = false) :
    t.retained.batch.headState = s.retained.batch.headState :=
  h.head.resolve_right (by rw [he]; exact Bool.false_ne_true)

/-- A head ends once. -/
theorem ended_trans {s t u : State} (h : BatchTold s t) (k : BatchTold t u) :
    (ended s.retained.batch t.retained.batch = true → ended t.retained.batch u.retained.batch = false)
      ∧ ended s.retained.batch u.retained.batch
          = (ended s.retained.batch t.retained.batch || ended t.retained.batch u.retained.batch) := by
  cases he : ended s.retained.batch t.retained.batch with
  | true =>
    obtain ⟨hs, ht⟩ := ended_iff.mp he
    have later : ended t.retained.batch u.retained.batch = false := by
      unfold ended
      rw [ht]
      rfl
    refine ⟨fun _ => later, ended_iff.mpr ⟨hs, ?_⟩⟩
    rw [headState_of_told k later, ht]
  | false =>
    refine ⟨nofun, ?_⟩
    unfold ended
    rw [headState_of_told h he, Bool.false_or]

/-- A target is marked once. -/
theorem marked_trans {a b c : Bool} (h : a = true → b = true) (k : b = true → c = true) :
    ((b && !a) = true → (c && !b) = false) ∧ (c && !a) = (b && !a || c && !b) := by
  cases a with
  | true => simp [h rfl, k (h rfl)]
  | false => cases b <;> simp [k]

theorem BatchTold.trans {s t u : State} (h : BatchTold s t) (k : BatchTold t u) : BatchTold s u := by
  obtain ⟨endsOnce, ends⟩ := ended_trans h k
  obtain ⟨marksOnce, marks⟩ := marked_trans h.marked k.marked
  refine ⟨h.only.trans k.only, fun m => k.marked (h.marked m), k.tickets.trans h.tickets, ?_, ?_, ?_, ?_⟩
  · rw [ends]
    cases he : ended s.retained.batch t.retained.batch with
    | true => exact .inr rfl
    | false =>
      rw [Bool.false_or, ← headState_of_told h he]
      exact k.head
  · exact changed_once h.target k.target (fun same => h.only.occurred same) marksOnce marks
  · exact changed_once h.noActive k.noActive (fun same => h.only.told same _) endsOnce ends
  · have later := k.full
    rw [k.tickets] at later ⊢
    exact changed_once h.full later (fun same => h.only.told same _) endsOnce ends

theorem LoopOnly.batchTold {s t : State} (h : LoopOnly s t) (conds : ∀ c ∈ batchConds, t.cond c = s.cond c) :
    BatchTold s t :=
  have same : t.retained.batch = s.retained.batch := congrArg Retained.batch h.retained
  BatchTold.of_same h.runsOnly (by rw [same]) (by rw [same]) (by rw [same]) conds

theorem reachesTarget_unmarked {b : BatchUnit} (h : b.reachesTarget = true) :
    b.progress.targetReached = false := by
  unfold BatchUnit.reachesTarget at h
  split at h
  · cases h
  · split at h
    · cases h
    · rw [Bool.and_eq_true, Bool.not_eq_true'] at h
      exact h.1

theorem endsOnTarget_head {b : BatchUnit} (h : b.endsOnTarget = true) :
    ∃ e rest, b.queue = e :: rest ∧ e.state = .active := by
  unfold BatchUnit.endsOnTarget at h
  split at h
  · next e rest hq =>
    rw [Bool.and_eq_true, beq_iff_eq] at h
    exact ⟨e, rest, hq, h.1⟩
  · cases h

theorem checkTarget_told (s : State) : BatchTold s (checkTarget s) := by
  cases h : s.retained.batch.reachesTarget with
  | false =>
    rw [checkTarget_of_unreached h]
    exact BatchTold.refl s
  | true =>
    have unmarked := reachesTarget_unmarked h
    have only : RunsOnly s (checkTarget s) :=
      RunsOnly.trans (t := s.setBatch s.retained.batch.checked) rfl (checkTarget_loopOnly s).runsOnly
    have batch : (checkTarget s).retained.batch = s.retained.batch.checked :=
      congrArg Retained.batch (checkTarget_loopOnly s).retained
    cases he : s.retained.batch.endsOnTarget with
    | false =>
      have marking := checked_of_marking h he
      have head : s.retained.batch.checked.headState = s.retained.batch.headState := by
        rw [marking]
        rfl
      refine ⟨only, fun _ => ?_, ?_, .inl ?_, ?_, ?_, ?_⟩
      · rw [batch, marking]
        rfl
      · rw [batch, marking]
        rfl
      · rw [batch, head]
      · rw [batch, marking, unmarked, checkTarget_of_marking h he]
        exact occur_cond_self (by simp) _
      · rw [batch, ended_of_same head, checkTarget_of_marking h he]
        exact occur_cond_ne (by simp) (by simp) _
      · rw [batch, ended_of_same head, checkTarget_of_marking h he]
        exact occur_cond_ne (by simp) (by simp) _
    | true =>
      obtain ⟨e, rest, hq, active⟩ := endsOnTarget_head he
      have closing : s.retained.batch.checked
          = { s.retained.batch.marked with
              queue := { e with state := .closing } :: rest
              progress := { s.retained.batch.marked.progress with closeCause := some .target } } := by
        rw [checked_of_closing h he]
        unfold BatchUnit.startClosing
        rw [show s.retained.batch.marked.queue = e :: rest from hq]
      have ends : ended s.retained.batch s.retained.batch.checked = true := by
        rw [ended_iff, closing]
        exact ⟨by unfold BatchUnit.headState; rw [hq]; exact congrArg some active, rfl⟩
      have occurred := occur_cond_ne (c := .targetReached) (e := .noActiveBatch) (by simp) (by simp)
        (s.setBatch s.retained.batch.marked)
      have occurred' := occur_cond_ne (c := .targetReached) (e := .ticketStoreFull) (by simp) (by simp)
        (s.setBatch s.retained.batch.marked)
      have before : RunsOnly s ((occur .targetReached (s.setBatch s.retained.batch.marked)).setBatch
          s.retained.batch.checked) :=
        RunsOnly.trans (t := s.setBatch s.retained.batch.checked) rfl
          ((occur_loopOnly .targetReached (s.setBatch s.retained.batch.marked)).setBatch _).runsOnly
      refine ⟨only, fun _ => ?_, ?_, .inr ?_, ?_, ?_, ?_⟩
      · rw [batch, closing]
        rfl
      · rw [batch, closing]
        rfl
      · rw [batch, ends]
      · rw [batch, show s.retained.batch.checked.progress.targetReached = true by rw [closing]; rfl, unmarked,
          checkTarget_of_closing h he, evalBatchConds_cond_ne (by simp) (by simp) (by simp)]
        exact occur_cond_self (by simp) _
      · rw [batch, ends, checkTarget_of_closing h he, evalBatchConds_noActive]
        refine (congrArg (State.told _ _) ?_).trans (before.told occurred false)
        show s.retained.batch.checked.queue.isEmpty = false
        rw [closing]
        rfl
      · rw [batch, ends, checkTarget_of_closing h he, evalBatchConds_full]
        refine (congrArg (State.told _ _) ?_).trans (before.told occurred' _)
        show s.retained.batch.checked.full = _
        rw [closing]
        rfl

theorem accumulate_told (rec : IntervalRecord) (d : Nat) (s : State) :
    BatchTold s (accumulate rec d s) := by
  cases h : s.retained.batch.opened with
  | true =>
    rw [show accumulate rec d s
      = checkTarget (s.setBatch { s.retained.batch with acc := s.retained.batch.acc.add rec d }) from if_pos h]
    have added : BatchTold s (s.setBatch { s.retained.batch with acc := s.retained.batch.acc.add rec d }) :=
      BatchTold.of_same rfl rfl rfl rfl fun _ _ => rfl
    exact added.trans (checkTarget_told _)
  | false =>
    rw [show accumulate rec d s
      = s.setBatch { s.retained.batch with unbatched := s.retained.batch.unbatched.add rec d } from
        if_neg (by rw [h]; exact Bool.false_ne_true)]
    exact BatchTold.of_same rfl rfl rfl rfl fun _ _ => rfl

theorem checkTarget_cond_ne {c : CondId} (h : c ∉ batchConds) (hd : c ≠ .outboundDiscard) (s : State) :
    (checkTarget s).cond c = s.cond c := by
  simp only [batchConds, List.mem_cons, List.not_mem_nil, or_false, not_or] at h
  obtain ⟨h1, h2, h3⟩ := h
  unfold checkTarget
  simp only
  split
  · split
    · rw [evalBatchConds_cond_ne h2 h3 hd]
      exact occur_cond_ne hd h1 _
    · exact occur_cond_ne hd h1 _
  · rfl

theorem accumulate_cond_ne {c : CondId} (h : c ∉ batchConds) (hd : c ≠ .outboundDiscard)
    (rec : IntervalRecord) (d : Nat) (s : State) : (accumulate rec d s).cond c = s.cond c := by
  unfold accumulate
  simp only
  split
  · exact checkTarget_cond_ne h hd _
  · rfl

theorem evalBatchConds_queues (s : State) : Queues [] s (evalBatchConds s) := by
  rw [evalBatchConds_eq]
  exact reportAll_queues _ s

theorem checkTarget_queues (s : State) : Queues [] s (checkTarget s) := by
  have occurred (b : BatchUnit) : Queues [] s (occur .targetReached (s.setBatch b)) :=
    (occur_queues _ _).after (queues_of_same rfl rfl rfl rfl rfl)
  unfold checkTarget
  simp only
  split
  · split
    · exact ((evalBatchConds_queues _).after (queues_of_same rfl rfl rfl rfl rfl)).after (occurred _)
    · exact occurred _
  · exact Queues.refl s

theorem accumulate_queues (rec : IntervalRecord) (d : Nat) (s : State) : Queues [] s (accumulate rec d s) := by
  unfold accumulate
  simp only
  split
  · exact (checkTarget_queues _).after (queues_of_same rfl rfl rfl rfl rfl)
  · exact queues_of_same rfl rfl rfl rfl rfl

/-! ### What a record leaves of the Batch Unit -/

theorem checked_kept (b : BatchUnit) :
    b.checked.product = b.product ∧ b.checked.opened = b.opened ∧ b.checked.acc = b.acc := by
  cases h : b.reachesTarget with
  | false => rw [checked_of_unreached h]; exact ⟨rfl, rfl, rfl⟩
  | true =>
    cases he : b.endsOnTarget with
    | false => rw [checked_of_marking h he]; exact ⟨rfl, rfl, rfl⟩
    | true =>
      obtain ⟨e, rest, hq, -⟩ := endsOnTarget_head he
      rw [checked_of_closing h he]
      unfold BatchUnit.startClosing BatchUnit.opened
      rw [show b.marked.queue = e :: rest from hq, hq]
      exact ⟨rfl, rfl, rfl⟩

/-- A record leaves the product in service, whether the head has opened, and the entries of the other runs. -/
theorem taking_kept (b : BatchUnit) (rec : IntervalRecord) (d : Nat) :
    (b.taking rec d).product = b.product ∧ (b.taking rec d).opened = b.opened
      ∧ ∀ q : Fin 4, q ≠ rec.run → (b.taking rec d).acc.runs[q] = b.acc.runs[q] := by
  cases h : b.opened with
  | false =>
    rw [taking_of_unopened h]
    exact ⟨rfl, h, fun _ _ => rfl⟩
  | true =>
    rw [taking_of_opened h]
    obtain ⟨product, opened, acc⟩ := checked_kept { b with acc := b.acc.add rec d }
    refine ⟨product, opened.trans h, fun q hq => ?_⟩
    rw [acc]
    exact Vector.getElem_set_ne rec.run.isLt q.isLt fun k => hq (Fin.ext k.symm)

end Sys2Proof.Machine
end

