-- ==== Sys2Proof/Proofs/RunsAtExpiry.lean ====
section
/-! PROOFS. One run at an interval expiry (R3): what its handling does to it, what it leaves of the other
runs, and how the runs are handled one after another. -/

namespace Sys2Proof.Machine

/-! ### The conditions of the Flow Engine (R16 to R18, R29) -/

/-- The six state-type conditions of the Flow Engine for a run. -/
def flowConds (r : Fin 4) : List CondId :=
  [.rateHigh r, .rateLow r, .rateOutsideCurve r, .noCurve r, .tempOutsideTable r, .densityOutsideProduct r]

/-- Whether such a condition is active by the interval of a run. -/
def flowActive (x : RunSettings) (d : Sampled) (out : IntervalOutput) : CondId → Bool
  | .rateHigh _ => aboveLimit x.rateHigh out.q
  | .rateLow _ => belowLimit x.rateLow out.q
  | .rateOutsideCurve _ => out.curveClamp
  | .noCurve _ => d.input.curve.isNone
  | .tempOutsideTable _ => out.tempOutside
  | _ => densityOutside d.input.product d.rho.value

theorem evalFlowConds_eq (r : Fin 4) (x : RunSettings) (d : Sampled) (out : IntervalOutput) (s : State) :
    evalFlowConds r x d out s = reportAll ((flowConds r).map fun c => (c, flowActive x d out c)) s := rfl

theorem quietFlowConds_eq (r : Fin 4) (s : State) :
    quietFlowConds r s = reportAll ((flowConds r).map fun c => (c, false)) s := by
  have each (c : CondId) (s : State) : reportInactive c s = report c false s := rfl
  unfold quietFlowConds flowConds
  simp only [each, reportAll, List.map_cons, List.map_nil, List.foldl_cons, List.foldl_nil]

theorem flowConds_nodup (r : Fin 4) : (flowConds r).Nodup := by simp [flowConds]

theorem flowConds_ne_discard {r : Fin 4} {c : CondId} (h : c ∈ flowConds r) : c ≠ .outboundDiscard := by
  rintro rfl
  simp [flowConds] at h

theorem flowConds_not_batch {r : Fin 4} {c : CondId} (h : c ∈ flowConds r) : c ∉ batchConds := by
  simp only [flowConds, List.mem_cons, List.not_mem_nil, or_false] at h
  obtain rfl | rfl | rfl | rfl | rfl | rfl := h <;> simp [batchConds]

theorem flowConds_not_other {r q : Fin 4} (hq : q ≠ r) {c : CondId} (h : c ∈ flowConds r) : c ∉ flowConds q := by
  simp only [flowConds, List.mem_cons, List.not_mem_nil, or_false] at h
  obtain rfl | rfl | rfl | rfl | rfl | rfl := h <;> simp [flowConds, hq.symm]

theorem flowConds_not_pulse {r q : Fin 4} {c : CondId} (h : c ∈ flowConds r) : c ∉ pulseConds q := by
  simp only [flowConds, List.mem_cons, List.not_mem_nil, or_false] at h
  obtain rfl | rfl | rfl | rfl | rfl | rfl := h <;> simp [pulseConds]

theorem flowConds_not_prove {r : Fin 4} {c : CondId} (h : c ∈ flowConds r) : c ∉ proveConds := by
  simp only [flowConds, List.mem_cons, List.not_mem_nil, or_false] at h
  obtain rfl | rfl | rfl | rfl | rfl | rfl := h <;> simp [proveConds]

theorem evalFlowConds_cond {r : Fin 4} {c : CondId} (h : c ∈ flowConds r) (x : RunSettings) (d : Sampled)
    (out : IntervalOutput) (s : State) :
    (evalFlowConds r x d out s).cond c = s.told c (flowActive x d out c) := by
  rw [evalFlowConds_eq]
  refine reportAll_cond (by rw [map_marks]; exact flowConds_nodup r) ?_ (flowConds_ne_discard h) s
  exact List.mem_map_of_mem (f := fun c => (c, flowActive x d out c)) h

theorem evalFlowConds_cond_ne {r : Fin 4} {c : CondId} (h : c ∉ flowConds r) (hd : c ≠ .outboundDiscard)
    (x : RunSettings) (d : Sampled) (out : IntervalOutput) (s : State) :
    (evalFlowConds r x d out s).cond c = s.cond c := by
  rw [evalFlowConds_eq]
  exact reportAll_cond_ne (by rw [map_marks]; exact h) hd s

theorem quietFlowConds_cond {r : Fin 4} {c : CondId} (h : c ∈ flowConds r) (s : State) :
    (quietFlowConds r s).cond c = { s.cond c with active := false } := by
  rw [quietFlowConds_eq]
  refine (reportAll_cond (b := false) (by rw [map_marks fun _ => false]; exact flowConds_nodup r) ?_
    (flowConds_ne_discard h) s).trans ?_
  · exact List.mem_map_of_mem (f := fun c => (c, false)) h
  · unfold State.told Condition.told
    rw [if_neg fun both => Bool.false_ne_true both.1]

theorem quietFlowConds_cond_ne {r : Fin 4} {c : CondId} (h : c ∉ flowConds r) (hd : c ≠ .outboundDiscard)
    (s : State) : (quietFlowConds r s).cond c = s.cond c := by
  rw [quietFlowConds_eq]
  exact reportAll_cond_ne (by rw [map_marks fun _ => false]; exact h) hd s

theorem evalFlowConds_queues (r : Fin 4) (x : RunSettings) (d : Sampled) (out : IntervalOutput) (s : State) :
    Queues [] s (evalFlowConds r x d out s) := by
  rw [evalFlowConds_eq]
  exact reportAll_queues _ s

theorem quietFlowConds_queues (r : Fin 4) (s : State) : Queues [] s (quietFlowConds r s) := by
  rw [quietFlowConds_eq]
  exact reportAll_queues _ s

/-! ### The computation of a run -/

/-- The outputs of the stages for a run at an expiry. -/
def State.outputOf (s : State) (r : Fin 4) (x : RunSettings) : IntervalOutput :=
  computeStages (sampleRun r x s).input

/-- R27: the record of a run with settings `x` at an expiry. -/
def State.recordOf (s : State) (r : Fin 4) (x : RunSettings) : IntervalRecord :=
  formRecord r x (sampleRun r x s) (s.outputOf r x) s

/-- A run whose interval has been computed, with its record in one accumulator. -/
def computedRun (r : Fin 4) (x : RunSettings) (s : State) : State :=
  (recordRun r (s.recordOf r x) (s.outputOf r x) s).setBatch
    (s.retained.batch.taking (s.recordOf r x) s.pulses[r].batchDisagree)

theorem computeRun_eq (r : Fin 4) (x : RunSettings) (closing : Bool) (s : State) :
    computeRun r x closing s
      = offerResult (s.recordOf r x) closing
          (accumulate (s.recordOf r x) s.pulses[r].batchDisagree
            (evalFlowConds r x (sampleRun r x s) (s.outputOf r x)
              (recordRun r (s.recordOf r x) (s.outputOf r x) s))) := rfl

theorem computeRun_loopOnly (r : Fin 4) (x : RunSettings) (closing : Bool) (s : State) :
    LoopOnly (computedRun r x s) (computeRun r x closing s) := by
  rw [computeRun_eq]
  have flow := evalFlowConds_loopOnly r x (sampleRun r x s) (s.outputOf r x)
    (recordRun r (s.recordOf r x) (s.outputOf r x) s)
  refine LoopOnly.trans ?_ ((accumulate_loopOnly _ _ _).trans (offerResult_loopOnly _ _ _))
  rw [evalFlowConds_retained]
  exact flow.setBatch _

/-- R30: the RESULT frame of a record. -/
def resultFrame (rec : IntervalRecord) (totals : Totals) (level : Nat) : OutFrame :=
  { kind := .result, dest := allNodes, level, source := rec.run.val, payload := resultPayload rec totals }

theorem offerResult_queues {s : State} {st : StationRecord} (hst : s.retained.station = some st)
    (rec : IntervalRecord) (closing : Bool) :
    Queues
      (if resultDue st.spacing rec.interval closing then
        [resultFrame rec s.retained.runs[rec.run].totals st.resultLevel] else [])
      s (offerResult rec closing s) := by
  unfold offerResult
  rw [hst]
  simp only
  split
  · exact offer_queues _ s
  · exact Queues.refl s

theorem offerResult_cond_ne {c : CondId} (hd : c ≠ .outboundDiscard) (rec : IntervalRecord) (closing : Bool)
    (s : State) : (offerResult rec closing s).cond c = s.cond c := by
  unfold offerResult
  split
  · rfl
  · split
    · exact offer_cond_ne hd _ _
    · rfl

/-- The conditions of the Flow Engine are evaluated for a run that computes. -/
theorem computeRun_cond {r : Fin 4} {c : CondId} (h : c ∈ flowConds r) (x : RunSettings) (closing : Bool)
    (s : State) :
    (computeRun r x closing s).cond c
      = s.told c (flowActive x (sampleRun r x s) (s.outputOf r x) c) := by
  have hd := flowConds_ne_discard h
  rw [computeRun_eq, offerResult_cond_ne hd, accumulate_cond_ne (flowConds_not_batch h) hd,
    evalFlowConds_cond h]
  rfl

theorem computeRun_cond_ne {r : Fin 4} {c : CondId} (h : c ∉ flowConds r) (hb : c ∉ batchConds)
    (hd : c ≠ .outboundDiscard) (x : RunSettings) (closing : Bool) (s : State) :
    (computeRun r x closing s).cond c = s.cond c := by
  rw [computeRun_eq, offerResult_cond_ne hd, accumulate_cond_ne hb hd, evalFlowConds_cond_ne h hd]
  rfl

theorem batchConds_ne_discard {c : CondId} (h : c ∈ batchConds) : c ≠ .outboundDiscard := by
  rintro rfl
  simp [batchConds] at h

theorem computeRun_told (r : Fin 4) (x : RunSettings) (closing : Bool) (s : State) :
    BatchTold s (computeRun r x closing s) := by
  rw [computeRun_eq]
  have recorded : BatchTold s (recordRun r (s.recordOf r x) (s.outputOf r x) s) :=
    BatchTold.of_same rfl rfl rfl rfl fun _ _ => rfl
  have flow (u : State) : BatchTold u (evalFlowConds r x (sampleRun r x s) (s.outputOf r x) u) :=
    (evalFlowConds_loopOnly _ _ _ _ _).batchTold fun c hc =>
      evalFlowConds_cond_ne (fun h => flowConds_not_batch h hc) (batchConds_ne_discard hc) _ _ _ _
  have offered (u : State) : BatchTold u (offerResult (s.recordOf r x) closing u) :=
    (offerResult_loopOnly _ _ _).batchTold fun c hc => offerResult_cond_ne (batchConds_ne_discard hc) _ _ _
  exact ((recorded.trans (flow _)).trans (accumulate_told _ _ _)).trans (offered _)

theorem computedRun_totals (r : Fin 4) (x : RunSettings) (s : State) :
    (computedRun r x s).retained.runs[r] = s.retained.runs[r].take (s.recordOf r x) (s.outputOf r x) :=
  Vector.getElem_set_self r.isLt

theorem recordOf_run (s : State) (r : Fin 4) (x : RunSettings) : (s.recordOf r x).run = r := rfl

theorem recordOf_interval (s : State) (r : Fin 4) (x : RunSettings) : (s.recordOf r x).interval = s.now := rfl

theorem computeRun_queues {s : State} {st : StationRecord} (hst : s.retained.station = some st) (r : Fin 4)
    (x : RunSettings) (closing : Bool) :
    Queues
      (if resultDue st.spacing s.now closing then
        [resultFrame (s.recordOf r x) (s.retained.runs[r].totals.add (s.recordOf r x)) st.resultLevel] else [])
      s (computeRun r x closing s) := by
  rw [computeRun_eq]
  obtain ⟨u, hu⟩ : ∃ u, u = accumulate (s.recordOf r x) s.pulses[r].batchDisagree
      (evalFlowConds r x (sampleRun r x s) (s.outputOf r x)
        (recordRun r (s.recordOf r x) (s.outputOf r x) s)) := ⟨_, rfl⟩
  have before : Queues [] s u := by
    rw [hu]
    have recorded : Queues [] s (recordRun r (s.recordOf r x) (s.outputOf r x) s) :=
      queues_of_same rfl rfl rfl rfl rfl
    exact (accumulate_queues _ _ _).after ((evalFlowConds_queues _ _ _ _ _).after recorded)
  have data : u.retained = (computedRun r x s).retained := by
    rw [hu, (accumulate_loopOnly _ _ _).retained, State.setBatch_retained, evalFlowConds_retained]
    rfl
  have totals : u.retained.runs[r].totals = s.retained.runs[r].totals.add (s.recordOf r x) := by
    rw [data, computedRun_totals]
    rfl
  have offered := offerResult_queues (s := u) (st := st) (by rw [data]; exact hst) (s.recordOf r x) closing
  simp only [recordOf_run, recordOf_interval] at offered
  rw [totals] at offered
  rw [← hu]
  exact offered.after before

/-! ### The run that closes (R3, R37) -/

theorem closeAtExpiry_loopOnly (r : Fin 4) (s : State) :
    LoopOnly ((s.setRun r { s.runs[r] with state := .closed }).setPulse r s.pulses[r].closeRun)
      (closeAtExpiry r s) :=
  quietFlowConds_loopOnly r _

theorem closeAtExpiry_cond {r : Fin 4} {c : CondId} (h : c ∈ flowConds r) (s : State) :
    (closeAtExpiry r s).cond c = { s.cond c with active := false } :=
  quietFlowConds_cond h _

theorem closeAtExpiry_cond_ne {r : Fin 4} {c : CondId} (h : c ∉ flowConds r) (hd : c ≠ .outboundDiscard)
    (s : State) : (closeAtExpiry r s).cond c = s.cond c :=
  quietFlowConds_cond_ne h hd _

theorem closeAtExpiry_told (r : Fin 4) (s : State) : BatchTold s (closeAtExpiry r s) := by
  have same : BatchTold s ((s.setRun r { s.runs[r] with state := .closed }).setPulse r s.pulses[r].closeRun) :=
    BatchTold.of_same rfl rfl rfl rfl fun _ _ => rfl
  exact same.trans ((closeAtExpiry_loopOnly r s).batchTold fun c hc =>
    closeAtExpiry_cond_ne (fun h => flowConds_not_batch h hc) (batchConds_ne_discard hc) s)

theorem closeAtExpiry_queues (r : Fin 4) (s : State) : Queues [] s (closeAtExpiry r s) :=
  (quietFlowConds_queues r _).after (queues_of_same rfl rfl rfl rfl rfl)

/-! ### The handling of a run by its state -/

theorem expireRun_of_closed {s : State} {r : Fin 4} (h : s.runs[r].state = .closed) : expireRun s r = s := by
  unfold expireRun
  rw [h]

theorem expireRun_of_opening {s : State} {r : Fin 4} (h : s.runs[r].state = .opening) :
    expireRun s r = openAtExpiry r s := by
  unfold expireRun
  rw [h]

theorem computeIfLoaded_of_settings {s : State} {r : Fin 4} {x : RunSettings} (h : s.settings r = some x)
    (closing : Bool) : computeIfLoaded r closing s = computeRun r x closing s := by
  unfold computeIfLoaded
  rw [h]

theorem computeIfLoaded_of_none {s : State} {r : Fin 4} (h : s.settings r = none) (closing : Bool) :
    computeIfLoaded r closing s = s := by
  unfold computeIfLoaded
  rw [h]

theorem expireRun_of_opened {s : State} {r : Fin 4} (h : s.runs[r].state = .opened) :
    expireRun s r = computeIfLoaded r false s := by
  unfold expireRun
  rw [h]

theorem expireRun_of_closing {s : State} {r : Fin 4} (h : s.runs[r].state = .closing) :
    expireRun s r = closeAtExpiry r (computeIfLoaded r true s) := by
  unfold expireRun
  rw [h]

/-! ### What the handling of a run leaves of another -/

/-- `t` is as `s` for run `r`: its own items, what its interval is computed from, and its conditions. -/
structure SeesRun (r : Fin 4) (s t : State) : Prop where
  only : RunsOnly s t
  run : t.runs[r] = s.runs[r]
  pulse : t.pulses[r] = s.pulses[r]
  retained : t.retained.runs[r] = s.retained.runs[r]
  product : t.retained.batch.product = s.retained.batch.product
  opened : t.retained.batch.opened = s.retained.batch.opened
  acc : t.retained.batch.acc.runs[r] = s.retained.batch.acc.runs[r]
  flow : ∀ c ∈ flowConds r, t.cond c = s.cond c

theorem SeesRun.refl (r : Fin 4) (s : State) : SeesRun r s s :=
  ⟨RunsOnly.refl s, rfl, rfl, rfl, rfl, rfl, rfl, fun _ _ => rfl⟩

theorem SeesRun.trans {r : Fin 4} {s t u : State} (h : SeesRun r s t) (k : SeesRun r t u) : SeesRun r s u :=
  ⟨h.only.trans k.only, k.run.trans h.run, k.pulse.trans h.pulse, k.retained.trans h.retained,
    k.product.trans h.product, k.opened.trans h.opened, k.acc.trans h.acc,
    fun c hc => (k.flow c hc).trans (h.flow c hc)⟩

theorem LoopOnly.seesRun {r : Fin 4} {s t : State} (h : LoopOnly s t)
    (flow : ∀ c ∈ flowConds r, t.cond c = s.cond c) : SeesRun r s t :=
  ⟨h.runsOnly, by rw [h.runs], by rw [h.pulses], by rw [h.retained], by rw [h.retained], by rw [h.retained],
    by rw [h.retained], flow⟩

section
variable {r q : Fin 4} (hq : q ≠ r)
include hq

theorem run_index_ne : q.val ≠ r.val := fun k => hq (Fin.ext k)

theorem computeRun_sees (x : RunSettings) (closing : Bool) (s : State) :
    SeesRun r s (computeRun q x closing s) := by
  have kept := taking_kept s.retained.batch (s.recordOf q x) s.pulses[q].batchDisagree
  have computed : SeesRun r s (computedRun q x s) :=
    ⟨rfl, Vector.getElem_set_ne q.isLt r.isLt (run_index_ne hq), Vector.getElem_set_ne q.isLt r.isLt (run_index_ne hq),
      Vector.getElem_set_ne q.isLt r.isLt (run_index_ne hq), kept.1, kept.2.1, kept.2.2 r hq.symm,
      fun _ _ => rfl⟩
  refine computed.trans ((computeRun_loopOnly q x closing s).seesRun fun c hc => ?_)
  exact computeRun_cond_ne (flowConds_not_other hq hc) (flowConds_not_batch hc) (flowConds_ne_discard hc) x closing s

theorem closeAtExpiry_sees (s : State) : SeesRun r s (closeAtExpiry q s) := by
  have closed : SeesRun r s
      ((s.setRun q { s.runs[q] with state := .closed }).setPulse q s.pulses[q].closeRun) :=
    ⟨rfl, Vector.getElem_set_ne q.isLt r.isLt (run_index_ne hq),
      Vector.getElem_set_ne q.isLt r.isLt (run_index_ne hq), rfl, rfl, rfl, rfl, fun _ _ => rfl⟩
  exact closed.trans ((closeAtExpiry_loopOnly q s).seesRun fun c hc =>
    closeAtExpiry_cond_ne (flowConds_not_other hq hc) (flowConds_ne_discard hc) s)

theorem computeIfLoaded_sees (closing : Bool) (s : State) : SeesRun r s (computeIfLoaded q closing s) := by
  cases h : s.settings q with
  | none =>
    rw [computeIfLoaded_of_none h]
    exact SeesRun.refl r s
  | some x =>
    rw [computeIfLoaded_of_settings h]
    exact computeRun_sees hq x closing s

theorem expireRun_sees (s : State) : SeesRun r s (expireRun s q) := by
  cases h : s.runs[q].state with
  | closed =>
    rw [expireRun_of_closed h]
    exact SeesRun.refl r s
  | opening =>
    rw [expireRun_of_opening h]
    exact ⟨rfl, Vector.getElem_set_ne q.isLt r.isLt (run_index_ne hq),
      Vector.getElem_set_ne q.isLt r.isLt (run_index_ne hq), rfl, rfl, rfl, rfl, fun _ _ => rfl⟩
  | opened =>
    rw [expireRun_of_opened h]
    exact computeIfLoaded_sees hq false s
  | closing =>
    rw [expireRun_of_closing h]
    exact (computeIfLoaded_sees hq true s).trans (closeAtExpiry_sees hq _)

end

theorem computeIfLoaded_told (r : Fin 4) (closing : Bool) (s : State) :
    BatchTold s (computeIfLoaded r closing s) := by
  cases h : s.settings r with
  | none =>
    rw [computeIfLoaded_of_none h]
    exact BatchTold.refl s
  | some x =>
    rw [computeIfLoaded_of_settings h]
    exact computeRun_told r x closing s

theorem expireRun_told (s : State) (r : Fin 4) : BatchTold s (expireRun s r) := by
  cases h : s.runs[r].state with
  | closed =>
    rw [expireRun_of_closed h]
    exact BatchTold.refl s
  | opening =>
    rw [expireRun_of_opening h]
    exact BatchTold.of_same rfl rfl rfl rfl fun _ _ => rfl
  | opened =>
    rw [expireRun_of_opened h]
    exact computeIfLoaded_told r false s
  | closing =>
    rw [expireRun_of_closing h]
    exact (computeIfLoaded_told r true s).trans (closeAtExpiry_told r _)

theorem foldl_expireRun_sees {r : Fin 4} {l : List (Fin 4)} (h : r ∉ l) (s : State) :
    SeesRun r s (l.foldl expireRun s) :=
  foldl_related (SeesRun.refl r) SeesRun.trans (fun q hq s => expireRun_sees (fun k : q = r => h (k ▸ hq)) s) s

/-- At its turn a run is as it was at the expiry, and afterwards as its turn has left it. -/
theorem expireRun_turn (r : Fin 4) (s : State) :
    ∃ u, SeesRun r s u ∧ SeesRun r (expireRun u r) (forRuns expireRun s) := by
  obtain ⟨before, after, split, hbefore, hafter⟩ := forRuns_split r
  refine ⟨before.foldl expireRun s, foldl_expireRun_sees hbefore s, ?_⟩
  rw [forRuns_of_split split]
  exact foldl_expireRun_sees hafter _

/-! ### What the interval of a run is computed from -/

section
variable {s t : State} (h : RunsOnly s t)
include h

theorem RunsOnly.reading (slot : Fin 16) : t.reading slot = s.reading slot := by
  unfold State.reading
  rw [h.bindings, h.live]

theorem RunsOnly.productIn (p : Fin 8) : t.product p = s.product p := by
  unfold State.product
  rw [h.products]

theorem RunsOnly.densityReading (hp : t.retained.batch.product = s.retained.batch.product) :
    t.densityReading = s.densityReading := by
  unfold State.densityReading
  simp only [h.stationRecord, h.bindings, h.productIn, h.reading, hp]

theorem RunsOnly.waterReading : t.waterReading = s.waterReading := by
  unfold State.waterReading
  simp only [h.stationRecord, h.reading]

theorem RunsOnly.curveInUse (hp : t.retained.batch.product = s.retained.batch.product) (r : Fin 4) :
    t.curveInUse r = s.curveInUse r := by
  unfold State.curveInUse State.curve
  simp only [h.stationRecord, h.curves, hp]

end

theorem SeesRun.sampleRun {r : Fin 4} {s t : State} (h : SeesRun r s t) (x : RunSettings) :
    sampleRun r x t = sampleRun r x s := by
  unfold Machine.sampleRun
  simp only [h.pulse, h.retained, h.product, h.only.reading, h.only.densityReading h.product, h.only.waterReading,
    h.only.stationRecord, h.only.curveInUse h.product, h.only.productIn]

theorem SeesRun.recordOf {r : Fin 4} {s t : State} (h : SeesRun r s t) (x : RunSettings) :
    t.recordOf r x = s.recordOf r x := by
  unfold State.recordOf State.outputOf formRecord BatchUnit.firstOfBatch
  simp only [h.sampleRun, h.pulse, h.product, h.opened, h.acc, h.only.now]

theorem SeesRun.outputOf {r : Fin 4} {s t : State} (h : SeesRun r s t) (x : RunSettings) :
    t.outputOf r x = s.outputOf r x := by
  unfold State.outputOf
  rw [h.sampleRun]

theorem SeesRun.settings {r : Fin 4} {s t : State} (h : SeesRun r s t) : t.settings r = s.settings r := by
  unfold State.settings
  rw [h.retained]

end Sys2Proof.Machine
end

