-- ==== Sys2Proof/Proofs/BatchesAtExpiry.lean ====
section
/-! PROOFS. The end of an interval expiry: the pulse conditions, the promotion of tables, and the close or
opening of a batch with its report to the Prove Controller (R46, R80, R93, R104 to R107, R143). -/

namespace Sys2Proof.Machine

/-! ### A close or an opening fails an active session (R143) -/

/-- R143: the session once a close or an opening has been reported to it. -/
def Session.productChanged (x : Session) : Session :=
  if x.state.active = true then { x with state := .failed, endCause := .productChanged, items := {} } else x

theorem batchReport_of_active {s : State} (h : s.session.state.active = true) :
    batchReport s = failSession .productChanged s := if_pos h

theorem batchReport_of_inactive {s : State} (h : s.session.state.active = false) : batchReport s = s :=
  if_neg (by rw [h]; exact Bool.false_ne_true)

theorem productChanged_of_active {x : Session} (h : x.state.active = true) :
    x.productChanged = x.leave .failed .productChanged := if_pos h

theorem productChanged_of_inactive {x : Session} (h : x.state.active = false) : x.productChanged = x :=
  if_neg (by rw [h]; exact Bool.false_ne_true)

theorem batchReport_loopOnly (s : State) : LoopOnly (s.setSession s.session.productChanged) (batchReport s) := by
  cases h : s.session.state.active with
  | true =>
    rw [batchReport_of_active h, productChanged_of_active h]
    exact endReported_loopOnly .proveFailed _ s
  | false =>
    rw [batchReport_of_inactive h, productChanged_of_inactive h]
    exact LoopOnly.refl s

theorem batchReport_cond_failed (s : State) :
    (batchReport s).cond .proveFailed
      = if s.session.state.active && s.session.productChanged.state == .failed then s.occurred .proveFailed
        else s.cond .proveFailed := by
  cases h : s.session.state.active with
  | true =>
    rw [batchReport_of_active h, productChanged_of_active h]
    exact endReported_cond_self (by simp) _ s
  | false =>
    rw [batchReport_of_inactive h]
    rfl

theorem batchReport_cond_ne {c : CondId} (h : c ≠ .proveFailed) (hd : c ≠ .outboundDiscard) (s : State) :
    (batchReport s).cond c = s.cond c := by
  cases ha : s.session.state.active with
  | true =>
    rw [batchReport_of_active ha]
    exact endReported_cond_ne hd h _ s
  | false => rw [batchReport_of_inactive ha]

theorem batchReport_queues {s : State} {st : StationRecord} (hst : s.retained.station = some st) :
    Queues (failReport s.session s.session.productChanged st.reportLevel) s (batchReport s) := by
  cases h : s.session.state.active with
  | true =>
    rw [batchReport_of_active h, productChanged_of_active h]
    have frame : failReport s.session (s.session.leave .failed .productChanged) st.reportLevel
        = [(s.session.leave .failed .productChanged).reportFrame st.reportLevel] := if_pos ⟨h, rfl⟩
    rw [frame]
    exact failSession_queues hst rfl
  | false =>
    rw [batchReport_of_inactive h, productChanged_of_inactive h, failReport_self]
    exact Queues.refl s

/-! ### The close of a batch at an expiry (R93, R104 to R107) -/

/-- The state in which the batch conditions are evaluated at a close at an expiry. -/
def closedOpening (h : BatchEntry) (s : State) : State :=
  (offerTicket (formTicket s h) s).setBatch
    (s.retained.batch.afterClose (formTicket s h)
      fun p => { opening := some (s.now + 1), productCode := s.codeOf p })

/-- R93, R106: the Batch Unit once its head has left and the entry behind it has opened. -/
theorem openHead_dropHead (s : State) (t : Ticket) (n : Word32) :
    openHead n (s.setBatch (s.retained.batch.dropHead t))
      = s.setBatch
          (s.retained.batch.afterClose t fun p => { opening := some n, productCode := s.codeOf p }) := by
  unfold openHead BatchUnit.dropHead BatchUnit.afterClose
  simp only [State.setBatch_retained]
  cases s.retained.batch.queue.tail <;> rfl

theorem closeHead_expiry {s : State} {h : BatchEntry} {rest : List BatchEntry}
    (hq : s.retained.batch.queue = h :: rest) :
    closeHead true s = batchReport (evalBatchConds (closedOpening h s)) := by
  have opens := openHead_dropHead (offerTicket (formTicket s h) s) (formTicket s h) (s.now + 1)
  have now : ((offerTicket (formTicket s h) s).setBatch
      ((offerTicket (formTicket s h) s).retained.batch.dropHead (formTicket s h))).now = s.now := by
    unfold State.now
    rw [State.setBatch_retained, offerTicket_retained]
  have code (p : Fin 8) : (offerTicket (formTicket s h) s).codeOf p = s.codeOf p := by
    unfold State.codeOf State.product
    rw [offerTicket_retained]
  unfold closeHead closedOpening
  simp only [hq, if_true]
  rw [now, opens, offerTicket_retained]
  simp only [code]

theorem closedOpening_told {s : State} (h : BatchEntry) {c : CondId} (hd : c ≠ .outboundDiscard) (v : Bool) :
    (closedOpening h s).told c v = s.told c v :=
  State.told_congr (s := s) (t := offerTicket (formTicket s h) s) (offerTicket_cond_ne hd _ s)
    (offerTicket_retained _ _) v

/-- R93: the Batch Unit once its head `h` has opened at interval number `n`. -/
def BatchUnit.openedAt (b : BatchUnit) (h : BatchEntry) (n : Word32) (code : Option Nat) : BatchUnit :=
  { b with product := h.product, progress := { b.progress with opening := some n, productCode := code } }

/-- What a step of the Batch Unit at an expiry may change: the Batch Unit, the session, four conditions, and the
loop. -/
structure BatchStep (s t : State) : Prop where
  only : LoopOnly ((s.setBatch t.retained.batch).setSession t.session) t
  conds : ∀ c : CondId, c ≠ .proveFailed → c ≠ .noActiveBatch → c ≠ .ticketStoreFull → c ≠ .outboundDiscard →
    t.cond c = s.cond c
  failed :
    t.cond .proveFailed
      = if s.session.state.active && t.session.state == .failed then s.occurred .proveFailed
        else s.cond .proveFailed

theorem BatchStep.refl (s : State) : BatchStep s s :=
  ⟨LoopOnly.refl s, fun _ _ _ _ _ => rfl, by rw [not_failed_of_active]; rfl⟩

theorem codeOf_eq (s : State) (p : Fin 8) : s.codeOf p = (s.retained.products[p].inService).map (·.code) := rfl

section
variable {s : State} {h : BatchEntry} {rest : List BatchEntry} (hq : s.retained.batch.queue = h :: rest)
include hq

theorem batchExpiry_of_closing (hc : h.state = .closing) (hl : s.retained.batch.tickets.length < 4) :
    batchExpiry s = batchReport (evalBatchConds (closedOpening h s)) := by
  rw [← closeHead_expiry hq]
  exact if_pos ((BatchUnit.canClose_iff hq).mpr ⟨hc, hl⟩)

/-- R104 to R107, R112, R143: a close at an expiry. -/
theorem batchExpiry_close (hc : h.state = .closing) (hl : s.retained.batch.tickets.length < 4) :
    BatchStep s (batchExpiry s)
      ∧ (batchExpiry s).retained.batch
          = s.retained.batch.afterClose (formTicket s h)
              (fun p => { opening := some (s.now + 1), productCode := s.codeOf p })
      ∧ (batchExpiry s).session = s.session.productChanged
      ∧ (batchExpiry s).cond .noActiveBatch = s.told .noActiveBatch rest.isEmpty
      ∧ (batchExpiry s).cond .ticketStoreFull = s.told .ticketStoreFull false
      ∧ ∀ st : StationRecord, s.retained.station = some st →
          Queues ((formTicket s h).frame st.ticketLevel
              :: failReport s.session s.session.productChanged st.reportLevel)
            s (batchExpiry s) := by
  obtain ⟨u, hu⟩ : ∃ u, u = evalBatchConds (closedOpening h s) := ⟨_, rfl⟩
  have evaluated : LoopOnly (s.setBatch (s.retained.batch.afterClose (formTicket s h)
      fun p => { opening := some (s.now + 1), productCode := s.codeOf p })) u := by
    rw [hu]
    exact ((offerTicket_loopOnly (formTicket s h) s).setBatch _).trans (evalBatchConds_loopOnly _)
  have session : u.session = s.session := evaluated.session
  obtain ⟨empty, notFull⟩ := afterClose_queue s.retained.batch (formTicket s h)
    fun p => { opening := some (s.now + 1), productCode := s.codeOf p }
  rw [hq, List.tail_cons] at empty
  have noActive : u.cond .noActiveBatch = s.told .noActiveBatch rest.isEmpty := by
    rw [hu, evalBatchConds_noActive, closedOpening_told h (by simp)]
    exact congrArg _ empty
  have full : u.cond .ticketStoreFull = s.told .ticketStoreFull false := by
    rw [hu, evalBatchConds_full, closedOpening_told h (by simp)]
    exact congrArg _ notFull
  have others : ∀ c : CondId, c ≠ .noActiveBatch → c ≠ .ticketStoreFull → c ≠ .outboundDiscard →
      u.cond c = s.cond c := by
    intro c h1 h2 hd
    rw [hu, evalBatchConds_cond_ne h1 h2 hd]
    exact offerTicket_cond_ne hd _ s
  have reported := batchReport_loopOnly u
  rw [batchExpiry_of_closing hq hc hl, ← hu]
  have batch : (batchReport u).retained.batch = u.retained.batch := congrArg Retained.batch reported.retained
  refine ⟨⟨?_, ?_, ?_⟩, ?_, ?_, ?_, ?_, fun st hst => ?_⟩
  · rw [batch, reported.session, evaluated.retained]
    exact (evaluated.setSession u.session.productChanged).trans reported
  · intro c h1 h2 h3 hd
    rw [batchReport_cond_ne h1 hd, others c h2 h3 hd]
  · rw [batchReport_cond_failed, reported.session, session]
    have same := others .proveFailed (by simp) (by simp) (by simp)
    rw [same]
    have only : RunsOnly s u := RunsOnly.trans (t := s.setBatch u.retained.batch) rfl (by
      rw [evaluated.retained]
      exact evaluated.runsOnly)
    rw [only.occurred same]
    rfl
  · rw [batch, evaluated.retained]
    rfl
  · rw [reported.session, session]
    rfl
  · rw [batchReport_cond_ne (by simp) (by simp), noActive]
  · rw [batchReport_cond_ne (by simp) (by simp), full]
  · have offered : Queues [(formTicket s h).frame st.ticketLevel] s (offerTicket (formTicket s h) s) := by
      rw [offerTicket_eq hst]
      exact offer_queues _ s
    have closed : Queues [(formTicket s h).frame st.ticketLevel] s u := by
      rw [hu]
      have set : Queues [] (offerTicket (formTicket s h) s) (closedOpening h s) :=
        queues_of_same rfl rfl rfl rfl rfl
      exact (offered.then set).then (evalBatchConds_queues _)
    have fails := batchReport_queues (s := u) (st := st) (by rw [evaluated.retained]; exact hst)
    rw [session] at fails
    exact closed.trans fails

/-- R93, R143: an awaiting head opens at an expiry. -/
theorem batchExpiry_open (ha : h.state = .active) (ho : s.retained.batch.progress.opening = none) :
    BatchStep s (batchExpiry s)
      ∧ (batchExpiry s).retained.batch
          = s.retained.batch.openedAt h (s.now + 1) (s.codeOf h.product)
      ∧ (batchExpiry s).session = s.session.productChanged
      ∧ (∀ c : CondId, c ≠ .proveFailed → c ≠ .outboundDiscard → (batchExpiry s).cond c = s.cond c)
      ∧ ∀ st : StationRecord, s.retained.station = some st →
          Queues (failReport s.session s.session.productChanged st.reportLevel) s (batchExpiry s) := by
  have held : s.retained.batch.canClose = false := by
    rw [← Bool.not_eq_true, BatchUnit.canClose_iff hq, ha]
    exact fun both => nomatch both.1
  obtain ⟨u, hu⟩ : ∃ u, u = s.setBatch (s.retained.batch.openedAt h (s.now + 1) (s.codeOf h.product)) :=
    ⟨_, rfl⟩
  have opens : batchExpiry s = batchReport u := by
    unfold batchExpiry
    simp only
    rw [if_neg (by rw [held]; exact Bool.false_ne_true),
      if_pos (s.retained.batch.awaits_iff.mpr ⟨h, rest, hq, ha, ho⟩), openHead_of_head hq, hu]
    rfl
  have reported := batchReport_loopOnly u
  have batch : (batchReport u).retained.batch = u.retained.batch := congrArg Retained.batch reported.retained
  have conds : ∀ c : CondId, c ≠ .proveFailed → c ≠ .outboundDiscard → (batchReport u).cond c = s.cond c := by
    intro c hc hd
    rw [batchReport_cond_ne hc hd, hu]
    rfl
  rw [opens]
  refine ⟨⟨?_, fun c h1 _ _ hd => conds c h1 hd, ?_⟩, ?_, ?_, conds, fun st hst => ?_⟩
  · rw [batch, reported.session, hu]
    rw [hu] at reported
    exact reported
  · rw [batchReport_cond_failed, reported.session, hu]
    rfl
  · rw [batch, hu]
    rfl
  · rw [reported.session, hu]
    rfl
  · have start : Queues [] s u := by
      rw [hu]
      exact queues_of_same rfl rfl rfl rfl rfl
    have fails := (batchReport_queues (s := u) (st := st) (by rw [hu]; exact hst)).after start
    rw [hu] at fails ⊢
    exact fails

end

/-- R93, R104: nothing closes and nothing opens. -/
theorem batchExpiry_idle {s : State} (hc : ¬s.retained.batch.HeadCloses ∨ 4 ≤ s.retained.batch.tickets.length)
    (ho : ∀ h rest, s.retained.batch.queue = h :: rest → h.state = .active →
      s.retained.batch.progress.opening.isSome = true) : batchExpiry s = s := by
  unfold batchExpiry
  simp only
  rw [if_neg, if_neg]
  · intro awaits
    obtain ⟨h, rest, hq, ha, hn⟩ := s.retained.batch.awaits_iff.mp awaits
    have opened := ho h rest hq ha
    rw [hn] at opened
    cases opened
  · intro can
    obtain ⟨h, rest, hq, hs, hl⟩ := BatchUnit.canClose_queue can
    rcases hc with none | full
    · exact none ⟨h, rest, hq, hs⟩
    · omega

theorem batchExpiry_step (s : State) : BatchStep s (batchExpiry s) := by
  by_cases can : s.retained.batch.canClose = true
  · obtain ⟨h, rest, hq, hs, hl⟩ := BatchUnit.canClose_queue can
    exact (batchExpiry_close hq hs hl).1
  · by_cases awaits : s.retained.batch.awaits = true
    · obtain ⟨h, rest, hq, ha, hn⟩ := s.retained.batch.awaits_iff.mp awaits
      exact (batchExpiry_open hq ha hn).1
    · rw [show batchExpiry s = s from (if_neg can).trans (if_neg awaits)]
      exact BatchStep.refl s

/-! ### The pulse conditions and the promotion (R46, R80) -/

theorem foldl_evalPulseConds_loopOnly (l : List (Fin 4)) (s : State) :
    LoopOnly s (l.foldl (fun s r => evalPulseConds r s) s) :=
  foldl_related LoopOnly.refl LoopOnly.trans (fun r _ s => evalPulseConds_loopOnly r s) s

theorem foldl_evalPulseConds_queues (l : List (Fin 4)) (s : State) :
    Queues [] s (l.foldl (fun s r => evalPulseConds r s) s) :=
  foldl_related Queues.refl (fun h k => h.then k)
    (fun r _ s => by
      rw [evalPulseConds_eq]
      exact reportAll_queues _ s) s

theorem foldl_evalPulseConds_cond_ne {l : List (Fin 4)} {c : CondId} (h : ∀ r ∈ l, c ∉ pulseConds r)
    (hd : c ≠ .outboundDiscard) (s : State) :
    (l.foldl (fun s r => evalPulseConds r s) s).cond c = s.cond c :=
  foldl_related (R := fun s t => t.cond c = s.cond c) (fun _ => rfl) (fun h k => k.trans h)
    (fun r hr s => evalPulseConds_cond_ne (h r hr) hd s) s

theorem pulseConds_not_other {r q : Fin 4} (hq : q ≠ r) {c : CondId} (h : c ∈ pulseConds r) :
    c ∉ pulseConds q := by
  simp only [pulseConds, List.mem_cons, List.not_mem_nil, or_false] at h
  obtain rfl | rfl | rfl := h <;> simp [pulseConds, hq.symm]

theorem pulseMark_loopOnly {s t : State} (h : LoopOnly s t) (r : Fin 4) (c : CondId) :
    t.pulseMark r c = s.pulseMark r c := by
  unfold State.pulseMark
  rw [h.retained, h.runs, h.pulses]

/-- R46: the pulse conditions of every run are evaluated once. -/
theorem forRuns_evalPulseConds_cond {r : Fin 4} {c : CondId} (h : c ∈ pulseConds r) (s : State) :
    (forRuns (fun s r => evalPulseConds r s) s).cond c = s.told c (s.pulseMark r c) := by
  obtain ⟨before, after, split, hbefore, hafter⟩ := forRuns_split r
  have hd := pulseConds_ne_discard h
  have first := foldl_evalPulseConds_loopOnly before s
  rw [forRuns_of_split split,
    foldl_evalPulseConds_cond_ne (fun q hq => pulseConds_not_other (fun k : q = r => hafter (k ▸ hq)) h) hd,
    evalPulseConds_cond h, pulseMark_loopOnly first]
  exact first.runsOnly.told
    (foldl_evalPulseConds_cond_ne (fun q hq => pulseConds_not_other (fun k : q = r => hbefore (k ▸ hq)) h) hd s) _

end Sys2Proof.Machine
end

