-- ==== Sys2Proof/Proofs/Expiry.lean ====
section
/-! PROOFS. The interval expiry (R1 to R3, R14 to R29, R80): the stages of the computation that O37 names, and
what an expiry does to the runs and to the tables (O37, O38). -/

namespace Sys2Proof.Machine

/-! ### Stages 1 to 5 and 9 (R14 to R19, R23) -/

section
variable (x : IntervalInput)

theorem computeStages_iv : (computeStages x).iv = (x.p * 1000000000 + x.residues.rIV) / x.kFactor := rfl

theorem computeStages_rIV :
    (computeStages x).residues.rIV = (x.p * 1000000000 + x.residues.rIV) % x.kFactor := rfl

theorem computeStages_q : (computeStages x).q = min (rateOf (computeStages x).iv x.length) 10000000 := rfl

theorem computeStages_rateClamped :
    (computeStages x).rateClamped = decide (10000000 < rateOf (computeStages x).iv x.length) := rfl

theorem computeStages_mf : (computeStages x).mf = meterFactor x.curve x.fallback (computeStages x).q := rfl

theorem computeStages_curveClamp : (computeStages x).curveClamp = curveClampAt x.curve (computeStages x).q := rfl

theorem computeStages_tempOutside : (computeStages x).tempOutside = (ctlAt x.product x.t).2 := rfl

theorem computeStages_cplCapped : (computeStages x).cplCapped = (cplAt x.product x.pres).2 := rfl

theorem computeStages_mass : (computeStages x).mass
    = (((computeStages x).iv : Int) * (computeStages x).mf * x.rho + x.residues.rM) / 100000000000 := rfl

theorem computeStages_rM : (computeStages x).residues.rM
    = ((((computeStages x).iv : Int) * (computeStages x).mf * x.rho + x.residues.rM)
        % 100000000000).toNat := rfl

end

section
variable (x : IntervalInput)

/-- R14: the pulses divide by the K-factor, with the remainder below it. -/
theorem stageOne (h : x.kFactor ≠ 0) :
    x.p * 1000000000 + x.residues.rIV
        = (computeStages x).iv * x.kFactor + (computeStages x).residues.rIV
      ∧ (computeStages x).residues.rIV < x.kFactor := by
  rw [computeStages_iv, computeStages_rIV]
  exact ⟨(Nat.div_add_mod' _ _).symm, Nat.mod_lt _ (Nat.pos_of_ne_zero h)⟩

/-- R15: the flow rate, rounded half up and then limited. -/
theorem stageTwo (h : x.length ≠ 0) :
    ∃ q : Nat,
      2 * (10 * x.length) * q ≤ 2 * ((computeStages x).iv * 360) + 10 * x.length
      ∧ 2 * ((computeStages x).iv * 360) + 10 * x.length < 2 * (10 * x.length) * (q + 1)
      ∧ (computeStages x).q = min q 10000000 ∧ (computeStages x).rateClamped = decide (10000000 < q)
      ∧ ((computeStages x).iv = 0 → (computeStages x).q = 0) := by
  have hd : (0 : Int) < 10 * x.length := by omega
  have rate : ((rateOf (computeStages x).iv x.length : Nat) : Int)
      = roundHalfUp ((computeStages x).iv * 360) (10 * x.length) :=
    Int.toNat_of_nonneg (roundHalfUp_nonneg hd (by positivity))
  obtain ⟨low, high⟩ := roundHalfUp_bounds ((computeStages x).iv * 360 : Int) hd
  rw [← rate] at low high
  refine ⟨rateOf (computeStages x).iv x.length, ?_, ?_, computeStages_q x, computeStages_rateClamped x, ?_⟩
  · exact_mod_cast low
  · exact_mod_cast high
  · intro h0
    rw [computeStages_q, h0]
    unfold rateOf
    rw [Int.natCast_zero, zero_mul, roundHalfUp_zero hd]
    rfl

theorem outsideTable_iff {points : List (Int × Int)} {p q : Int × Int} (hp : points.head? = some p)
    (hq : points.getLast? = some q) (v : Int) : outsideTable points v = true ↔ v < p.1 ∨ q.1 < v := by
  unfold outsideTable
  rw [hp, hq]
  simp

/-- R16, R17: the meter factor without a curve. -/
theorem stageThree_of_no_curve (h : x.curve = none) :
    (computeStages x).mf = x.fallback ∧ (computeStages x).curveClamp = false := by
  rw [computeStages_mf, computeStages_curveClamp, h]
  exact ⟨rfl, rfl⟩

/-- R17: the meter factor on a curve. -/
theorem stageThree_of_curve {points : List CurvePoint} {first last : CurvePoint} (h : x.curve = some points)
    (hf : points.head? = some first) (hl : points.getLast? = some last) :
    (computeStages x).mf
        = interpolate (points.map fun y => ((y.rate : Int), (y.factor : Int))) (computeStages x).q
      ∧ ((computeStages x).curveClamp = true
          ↔ 0 < (computeStages x).q
            ∧ ((computeStages x).q < first.rate ∨ last.rate < (computeStages x).q)) := by
  have outside := outsideTable_iff (points := curvePairs points)
    (p := ((first.rate : Int), (first.factor : Int))) (q := ((last.rate : Int), (last.factor : Int)))
    (by unfold curvePairs; rw [List.head?_map, hf]; rfl) (by unfold curvePairs; rw [List.getLast?_map, hl]; rfl)
    (computeStages x).q
  rw [computeStages_mf, computeStages_curveClamp, h]
  refine ⟨rfl, ?_⟩
  show ((computeStages x).q != 0 && outsideTable (curvePairs points) (computeStages x).q) = true ↔ _
  rw [Bool.and_eq_true, bne_iff_ne, outside]
  simp only
  omega

/-- R18: the temperature correction without a product. -/
theorem stageFour_of_empty (h : x.product = none) :
    (computeStages x).ctl = 1000000 ∧ (computeStages x).tempOutside = true := by
  rw [computeStages_ctl, computeStages_tempOutside, h]
  exact ⟨rfl, rfl⟩

/-- R18: the temperature correction on the expansion table of a product. -/
theorem stageFour_of_product {c : ProductCopy} {first last : TablePoint} (h : x.product = some c)
    (hf : c.points.head? = some first) (hl : c.points.getLast? = some last) :
    (computeStages x).ctl = interpolate (c.points.map fun y => (y.x, (y.factor : Int))) x.t
      ∧ ((computeStages x).tempOutside = true ↔ x.t < first.x ∨ last.x < x.t) := by
  rw [computeStages_ctl, computeStages_tempOutside, h]
  refine ⟨rfl, outsideTable_iff (points := expansionPairs c.points) (p := (first.x, (first.factor : Int)))
    (q := (last.x, (last.factor : Int))) ?_ ?_ x.t⟩
  · unfold expansionPairs
    rw [List.head?_map, hf]
    rfl
  · unfold expansionPairs
    rw [List.getLast?_map, hl]
    rfl

theorem cplAt_capped (product : Option ProductCopy) (pres : Int) :
    (cplAt product pres).2
      = decide (50000 < roundHalfUp ((((product.map (·.compressibility)).getD 0 : Nat) : Int) * max pres 0)
          10000) := by
  unfold cplAt
  simp only
  split
  · next h => exact (decide_eq_true (by omega)).symm
  · next h => exact (decide_eq_false (by omega)).symm

/-- R19: the pressure correction, rounded half up and capped. -/
theorem stageFive :
    ∃ v : Int,
      2 * 10000 * v ≤ 2 * ((((x.product.map (·.compressibility)).getD 0 : Nat) : Int) * max x.pres 0) + 10000
      ∧ 2 * ((((x.product.map (·.compressibility)).getD 0 : Nat) : Int) * max x.pres 0) + 10000
          < 2 * 10000 * (v + 1)
      ∧ (computeStages x).cpl = min (1000000 + v) 1050000
      ∧ (computeStages x).cplCapped = decide (50000 < v)
      ∧ 1000000 ≤ (computeStages x).cpl ∧ (computeStages x).cpl ≤ 1050000 := by
  obtain ⟨low, high⟩ := roundHalfUp_bounds
    ((((x.product.map (·.compressibility)).getD 0 : Nat) : Int) * max x.pres 0) (d := 10000) (by decide)
  have lower := cplAt_lower x.product x.pres
  rw [computeStages_cpl, computeStages_cplCapped, cplAt_capped]
  rw [cplAt_eq] at lower ⊢
  exact ⟨_, low, high, rfl, rfl, lower, min_le_right _ _⟩

/-- R23: the mass and its residue. -/
theorem stageNine :
    ((computeStages x).iv : Int) * (computeStages x).mf * x.rho + x.residues.rM
        = (computeStages x).mass * 100000000000 + ((computeStages x).residues.rM : Int)
      ∧ (x.rho = 0 → x.residues.rM < 100000000000 →
          (computeStages x).mass = 0 ∧ (computeStages x).residues.rM = x.residues.rM) := by
  rw [computeStages_mass, computeStages_rM]
  refine ⟨by omega, fun h0 hr => ?_⟩
  rw [h0, mul_zero, zero_add]
  omega

/-- R25: the residues lie below their divisors. -/
theorem residues_below :
    (computeStages x).residues.rGSV < 1000000 ∧ (computeStages x).residues.rNSV < 10000
      ∧ (computeStages x).residues.rM < 100000000000 := by
  rw [computeStages_rGSV, computeStages_rNSV, computeStages_rM]
  omega

end

/-! ### The phases of an expiry -/

theorem foldl_expireRun_told (l : List (Fin 4)) (s : State) : BatchTold s (l.foldl expireRun s) :=
  foldl_related BatchTold.refl BatchTold.trans (fun r _ s => expireRun_told s r) s

theorem BatchStep.runsOnly {s t : State} (h : BatchStep s t) : RunsOnly s t :=
  RunsOnly.trans (s := s) (t := (s.setBatch t.retained.batch).setSession t.session) rfl h.only.runsOnly

theorem ChannelsChanged.runsOnly {s t : State} (h : ChannelsChanged s t) : RunsOnly s t :=
  RunsOnly.trans (s := s) (t := ({ s with pulses := t.pulses } : State).setSession s.toldChange) rfl h.only.runsOnly

/-- The states between the phases of an expiry (R3): the channel changes applied (`c`), the runs handled (`d`),
the pulse conditions evaluated (`e`), and the Batch Unit's step on the promoted tables. -/
structure Expires (s c d e t : State) : Prop where
  changed : ChannelsChanged (nextInterval s) c
  handled : d = forRuns expireRun c
  evaluated : e = forRuns (fun s r => evalPulseConds r s) d
  closed : t = batchExpiry (promoteAll e)

theorem expiry_phases (s : State) : ∃ c d e, Expires s c d e (expiry s) :=
  ⟨_, _, _, channelsChanged _, rfl, rfl, rfl⟩

section
variable {s c d e t : State} (h : Expires s c d e t)
include h

theorem Expires.told : BatchTold c d := by
  rw [h.handled]
  exact foldl_expireRun_told _ c

theorem Expires.loop : LoopOnly d e := by
  rw [h.evaluated]
  exact foldl_evalPulseConds_loopOnly _ d

theorem Expires.step : BatchStep (promoteAll e) t := by
  rw [h.closed]
  exact batchExpiry_step _

theorem Expires.before : RunsOnly (nextInterval s) e :=
  (h.changed.runsOnly.trans h.told.only).trans h.loop.runsOnly

theorem Expires.after : RunsOnly (promoteAll e) t := h.step.runsOnly

end

theorem exec_expires {s : State} {n : Nat} (h : s.Runs) (ht : s.timer = some n) :
    ∃ c d e t, exec .intervalExpiry s = .next t ∧ Expires (advanceClock n s) c d e t := by
  obtain ⟨c, d, e, phases⟩ := expiry_phases (advanceClock n s)
  exact ⟨c, d, e, _, exec_intervalExpiry h ht, phases⟩

theorem promote_eq {α : Type} (c : Copies α) (date : α → α) :
    c.promote date
      = match c.pending with
        | some x => { inService := some (date x), pending := none }
        | none => c := rfl

/-- Settles O38. -/
theorem expiryAdvancesTheIntervalAndPromotes : Obligations.ExpiryAdvancesTheIntervalAndPromotes := by
  intro n x s hr ht hx next
  obtain ⟨c, d, e, t, ran, phases⟩ := exec_expires hr ht
  have before := phases.before
  have after := phases.after
  have now : e.now = next := before.now
  refine ⟨t, ran, ?_, ?_, ?_, ?_, ?_, ?_, ?_, ?_, ?_, ?_, ?_, fun q => ?_, fun k => ?_⟩
  · exact after.now.trans now
  · rw [after.timer]
    refine before.timer.trans ?_
    show some ((s.retained.station.map (·.intervalLength)).getD 0 * periodsPer10ms) = _
    rw [hx]
    rfl
  · exact after.timebase.trans before.timebase
  · exact after.station.trans before.station
  · exact after.live.trans before.live
  · exact after.buffer.trans before.buffer
  · exact (after.stationRecord.trans before.stationRecord).trans hx
  · exact after.bindings.trans before.bindings
  · exact after.prover.trans before.prover
  · exact after.levels.trans before.levels
  · exact after.gate.trans before.gate
  · rw [after.products]
    refine (Vector.getElem_ofFn q.isLt).trans ?_
    rw [now, show e.retained.products = s.retained.products from before.products]
    show s.retained.products[q].promote _ = _
    rw [promote_eq]
    cases s.retained.products[q].pending <;> rfl
  · rw [after.curves]
    refine (Vector.getElem_ofFn k.isLt).trans ?_
    rw [now, show e.retained.curves = s.retained.curves from before.curves]
    show s.retained.curves[k].promote _ = _
    rw [promote_eq]
    cases s.retained.curves[k].pending <;> rfl

end Sys2Proof.Machine
end

