-- ==== Sys2Proof/Proofs/RunOutcomes.lean ====
section
/-! PROOFS. What an interval expiry does to every run, by its state (O37). -/

namespace Sys2Proof.Machine

theorem isNone_eq_none {α : Type} [BEq α] (o : Option α) : o.isNone = (o == none) := by
  cases o <;> rfl

/-! ### A run after its turn -/

theorem computeRun_run (r : Fin 4) (x : RunSettings) (closing : Bool) (s : State) :
    (computeRun r x closing s).runs[r] = { s.runs[r] with last := some (s.recordOf r x) } := by
  rw [(computeRun_loopOnly r x closing s).runs]
  exact Vector.getElem_set_self r.isLt

theorem computeRun_pulse (r : Fin 4) (x : RunSettings) (closing : Bool) (s : State) :
    (computeRun r x closing s).pulses[r] = s.pulses[r].taken := by
  rw [(computeRun_loopOnly r x closing s).pulses]
  exact Vector.getElem_set_self r.isLt

theorem computeRun_retainedRun (r : Fin 4) (x : RunSettings) (closing : Bool) (s : State) :
    (computeRun r x closing s).retained.runs[r]
      = s.retained.runs[r].take (s.recordOf r x) (s.outputOf r x) := by
  rw [(computeRun_loopOnly r x closing s).retained]
  exact computedRun_totals r x s

theorem closeAtExpiry_run (r : Fin 4) (s : State) :
    (closeAtExpiry r s).runs[r] = { s.runs[r] with state := .closed } := by
  rw [(closeAtExpiry_loopOnly r s).runs]
  exact Vector.getElem_set_self r.isLt

theorem closeAtExpiry_pulse (r : Fin 4) (s : State) :
    (closeAtExpiry r s).pulses[r] = s.pulses[r].closeRun := by
  rw [(closeAtExpiry_loopOnly r s).pulses]
  exact Vector.getElem_set_self r.isLt

theorem closeAtExpiry_retained (r : Fin 4) (s : State) : (closeAtExpiry r s).retained = s.retained :=
  (closeAtExpiry_loopOnly r s).retained

theorem openAtExpiry_run (r : Fin 4) (s : State) :
    (openAtExpiry r s).runs[r]
      = { s.runs[r] with state := .opened, preOpen := s.pulses[r].counts.get s.pulses[r].totalizing } :=
  Vector.getElem_set_self r.isLt

theorem openAtExpiry_pulse (r : Fin 4) (s : State) :
    (openAtExpiry r s).pulses[r] = { s.pulses[r] with counts := ⟨0, 0⟩ } :=
  Vector.getElem_set_self r.isLt

theorem take_settings (k : RunRetained) (rec : IntervalRecord) (out : IntervalOutput) :
    (k.take rec out).settings = k.settings := rfl

theorem take_eq {k : RunRetained} {x : RunSettings} (h : k.settings = some x) (rec : IntervalRecord)
    (out : IntervalOutput) :
    k.take rec out = { settings := some x, residues := out.residues, totals := k.totals.add rec } := by
  rw [← h]
  rfl

/-- A field set to the value it has. -/
theorem RunVolatile.with_state {v : RunVolatile} {st : RunState} (h : v.state = st)
    (last : Option IntervalRecord) : { v with last } = { v with state := st, last } := by
  subst h
  rfl

/-- R3: a run that computes, and closes if it is CLOSING. -/
structure Computes (r : Fin 4) (x : RunSettings) (s t : State) : Prop where
  run : t.runs[r]
    = { s.runs[r] with
        state := if s.runs[r].state = .closing then .closed else .opened
        last := some (s.recordOf r x) }
  pulse : t.pulses[r]
    = { s.pulses[r] with
        counts := ⟨0, 0⟩, batchDisagree := 0
        windows := if s.runs[r].state = .closing then ⟨0, 0⟩ else s.pulses[r].windows }
  retained : t.retained.runs[r] = s.retained.runs[r].take (s.recordOf r x) (s.outputOf r x)
  flow : ∀ c ∈ flowConds r,
    t.cond c
      = if s.runs[r].state = .closing then
          { s.told c (flowActive x (sampleRun r x s) (s.outputOf r x) c) with active := false }
        else s.told c (flowActive x (sampleRun r x s) (s.outputOf r x) c)

theorem expireRun_computes {r : Fin 4} {x : RunSettings} {s : State}
    (h : s.runs[r].state = .opened ∨ s.runs[r].state = .closing) (hx : s.settings r = some x) :
    Computes r x s (expireRun s r) := by
  rcases h with h | h
  · have open1 : s.runs[r].state ≠ .closing := by rw [h]; decide
    rw [expireRun_of_opened h, computeIfLoaded_of_settings hx]
    refine ⟨?_, ?_, computeRun_retainedRun r x false s, fun c hc => ?_⟩
    · rw [computeRun_run, if_neg open1, RunVolatile.with_state h]
    · rw [computeRun_pulse, if_neg open1]
      rfl
    · rw [computeRun_cond hc, if_neg open1]
  · rw [expireRun_of_closing h, computeIfLoaded_of_settings hx]
    refine ⟨?_, ?_, ?_, fun c hc => ?_⟩
    · rw [closeAtExpiry_run, computeRun_run, if_pos h]
    · rw [closeAtExpiry_pulse, computeRun_pulse, if_pos h]
      rfl
    · rw [closeAtExpiry_retained, computeRun_retainedRun]
    · rw [closeAtExpiry_cond hc, computeRun_cond hc, if_pos h]

/-- What the pulse conditions of a run depend on is as it was, and the run is CLOSED if it was CLOSED or
CLOSING. -/
structure KeepsMarks (r : Fin 4) (s t : State) : Prop where
  settings : t.retained.runs[r].settings = s.retained.runs[r].settings
  closed : (t.runs[r].state == .closed) = (s.runs[r].state == .closed || s.runs[r].state == .closing)
  coarse : t.pulses[r].coarse = s.pulses[r].coarse
  status : t.pulses[r].status = s.pulses[r].status
  totalizing : t.pulses[r].totalizing = s.pulses[r].totalizing

theorem Computes.keepsMarks {r : Fin 4} {x : RunSettings} {s t : State} (h : Computes r x s t)
    (hs : s.runs[r].state = .opened ∨ s.runs[r].state = .closing) : KeepsMarks r s t where
  settings := by rw [h.retained, take_settings]
  closed := by
    rw [h.run]
    rcases hs with hs | hs <;> rw [hs] <;> rfl
  coarse := by rw [h.pulse]
  status := by rw [h.pulse]
  totalizing := by rw [h.pulse]

theorem expireRun_keepsMarks (r : Fin 4) (s : State) : KeepsMarks r s (expireRun s r) := by
  cases h : s.runs[r].state with
  | closed =>
    rw [expireRun_of_closed h]
    exact ⟨rfl, by rw [h]; rfl, rfl, rfl, rfl⟩
  | opening =>
    rw [expireRun_of_opening h]
    have pulse := openAtExpiry_pulse r s
    refine ⟨rfl, ?_, by rw [pulse], by rw [pulse], by rw [pulse]⟩
    rw [openAtExpiry_run, h]
    rfl
  | opened =>
    cases hx : s.settings r with
    | some x => exact (expireRun_computes (.inl h) hx).keepsMarks (.inl h)
    | none =>
      rw [expireRun_of_opened h, computeIfLoaded_of_none hx]
      exact ⟨rfl, by rw [h]; rfl, rfl, rfl, rfl⟩
  | closing =>
    cases hx : s.settings r with
    | some x => exact (expireRun_computes (.inr h) hx).keepsMarks (.inr h)
    | none =>
      rw [expireRun_of_closing h, computeIfLoaded_of_none hx]
      have pulse := closeAtExpiry_pulse r s
      refine ⟨by rw [closeAtExpiry_retained], ?_, by rw [pulse]; rfl, by rw [pulse]; rfl, by rw [pulse]; rfl⟩
      rw [closeAtExpiry_run, h]
      rfl

/-! ### A run over the whole expiry -/

theorem foldl_expireRun_cond_ne {l : List (Fin 4)} {c : CondId} (h : ∀ r, c ∉ flowConds r)
    (hb : c ∉ batchConds) (hd : c ≠ .outboundDiscard) (s : State) : (l.foldl expireRun s).cond c = s.cond c := by
  refine foldl_related (R := fun s t => t.cond c = s.cond c) (fun _ => rfl) (fun h k => k.trans h)
    (fun r _ s => ?_) s
  have computed (closing : Bool) : (computeIfLoaded r closing s).cond c = s.cond c := by
    cases hx : s.settings r with
    | none => rw [computeIfLoaded_of_none hx]
    | some x =>
      rw [computeIfLoaded_of_settings hx]
      exact computeRun_cond_ne (h r) hb hd x closing s
  cases hs : s.runs[r].state with
  | closed => rw [expireRun_of_closed hs]
  | opening =>
    rw [expireRun_of_opening hs]
    rfl
  | opened =>
    rw [expireRun_of_opened hs]
    exact computed false
  | closing =>
    rw [expireRun_of_closing hs, closeAtExpiry_cond_ne (h r) hd]
    exact computed true

theorem pulseConds_not_flow {r q : Fin 4} {c : CondId} (h : c ∈ pulseConds r) : c ∉ flowConds q :=
  fun hc => flowConds_not_pulse hc h

theorem pulseConds_not_batch {r : Fin 4} {c : CondId} (h : c ∈ pulseConds r) : c ∉ batchConds := by
  simp only [pulseConds, List.mem_cons, List.not_mem_nil, or_false] at h
  obtain rfl | rfl | rfl := h <;> simp [batchConds]

theorem ne_of_not_prove {c : CondId} (h : c ∉ proveConds) : c ≠ .provePassSpoiled ∧ c ≠ .proveFailed := by
  simp only [proveConds, List.mem_cons, List.not_mem_nil, or_false, not_or] at h
  exact ⟨h.1, h.2.1⟩

theorem ne_of_not_batch {c : CondId} (h : c ∉ batchConds) :
    c ≠ .targetReached ∧ c ≠ .noActiveBatch ∧ c ≠ .ticketStoreFull := by
  simpa only [batchConds, List.mem_cons, List.not_mem_nil, or_false, not_or] using h

section
variable {s c d e t : State} (h : Expires s c d e t)
include h

theorem Expires.cond_changed {i : CondId} (hp : i ∉ proveConds) (hd : i ≠ .outboundDiscard) :
    c.cond i = s.cond i :=
  h.changed.conds i (ne_of_not_prove hp).1 (ne_of_not_prove hp).2 hd

theorem Expires.cond_after {i : CondId} (hp : i ∉ proveConds) (hb : i ∉ batchConds)
    (hd : i ≠ .outboundDiscard) : t.cond i = e.cond i :=
  h.step.conds i (ne_of_not_prove hp).2 (ne_of_not_batch hb).2.1 (ne_of_not_batch hb).2.2 hd

theorem Expires.runs : t.runs = d.runs := h.step.only.runs.trans h.loop.runs

theorem Expires.pulses : t.pulses = d.pulses := h.step.only.pulses.trans h.loop.pulses

theorem Expires.retainedRuns : t.retained.runs = d.retained.runs := by
  rw [h.step.only.retained, ← h.loop.retained]
  rfl

theorem Expires.flow {r : Fin 4} {i : CondId} (hi : i ∈ flowConds r) : t.cond i = d.cond i := by
  have hd := flowConds_ne_discard hi
  rw [h.cond_after (flowConds_not_prove hi) (flowConds_not_batch hi) hd, h.evaluated]
  exact foldl_evalPulseConds_cond_ne (fun q _ => flowConds_not_pulse hi) hd d

theorem Expires.retainedBefore :
    c.retained = { s.retained with intervalNumber := s.retained.intervalNumber + 1 } :=
  h.changed.only.retained

theorem Expires.now : c.now = s.retained.intervalNumber + 1 := congrArg Retained.intervalNumber h.retainedBefore

theorem Expires.withholds (i : CondId) : c.retained.withholds i = s.retained.withholds i := by
  rw [h.retainedBefore]
  rfl

theorem Expires.told_before {i : CondId} (hp : i ∉ proveConds) (hd : i ≠ .outboundDiscard) (b : Bool) :
    c.told i b = (s.cond i).told b (s.retained.withholds i) (s.retained.intervalNumber + 1) := by
  unfold State.told
  rw [h.cond_changed hp hd, h.withholds, h.now]

theorem Expires.runs_before : c.runs = s.runs := h.changed.only.runs

theorem Expires.pulse_before (r : Fin 4) :
    c.pulses[r] = { s.pulses[r] with totalizing := s.pulses[r].channelAtExpiry, change := none } := by
  rw [h.changed.pulses, applyChange_eq]
  rfl

end

/-! ### The interval of a run, from the state before the expiry -/

/-- R13, R16: what the interval of a run is computed from, in terms of the state before the expiry. -/
theorem Expires.sampleRun {s c d e t : State} (h : Expires s c d e t) {r : Fin 4} (x : RunSettings)
    {st : StationRecord} (hst : s.retained.station = some st) :
    sampleRun r x c
      = { input :=
            { kFactor := x.kFactor
              p := s.pulses[r].counts.get s.pulses[r].channelAtExpiry
              length := st.intervalLength
              residues := s.retained.runs[r].residues
              curve :=
                if st.layout.allows r s.retained.batch.product = true then
                  ((s.curve r s.retained.batch.product).inService).map (·.points)
                else none
              product := s.retained.products[s.retained.batch.product].inService
              fallback := x.fallback
              t := (s.reading x.tSlot).value
              pres := (s.reading x.pSlot).value
              rho := s.densityReading.value
              sw := s.waterReading.value }
          t := s.reading x.tSlot, pres := s.reading x.pSlot, rho := s.densityReading, sw := s.waterReading } := by
  have only : RunsOnly (nextInterval s) c := h.changed.runsOnly
  have product : c.retained.batch.product = (nextInterval s).retained.batch.product := by
    rw [h.retainedBefore]
    rfl
  have curve : (nextInterval s).curveInUse r
      = if st.layout.allows r s.retained.batch.product = true then
          ((s.curve r s.retained.batch.product).inService).map (·.points)
        else none := by
    unfold State.curveInUse
    rw [show (nextInterval s).retained.station = some st from hst]
    rfl
  unfold Machine.sampleRun
  simp only [only.reading, only.densityReading product, only.waterReading, only.curveInUse product,
    only.productIn, h.pulse_before, product, curve]
  rw [h.retainedBefore, hst]
  rfl

/-- A run that computes does so from what it was at the expiry. -/
theorem Computes.between {r : Fin 4} {x : RunSettings} {c u v d : State} (h : Computes r x u v)
    (before : SeesRun r c u) (after : SeesRun r v d) : Computes r x c d where
  run := by
    rw [after.run, h.run, before.run, before.recordOf]
  pulse := by
    rw [after.pulse, h.pulse, before.pulse, before.run]
  retained := by
    rw [after.retained, h.retained, before.retained, before.recordOf, before.outputOf]
  flow i hi := by
    rw [after.flow i hi, h.flow i hi, before.run, before.sampleRun, before.outputOf,
      before.only.told (before.flow i hi)]

theorem KeepsMarks.between {r : Fin 4} {c u v d : State} (h : KeepsMarks r u v) (before : SeesRun r c u)
    (after : SeesRun r v d) : KeepsMarks r c d where
  settings := by rw [after.retained, h.settings, before.retained]
  closed := by rw [after.run, h.closed, before.run]
  coarse := by rw [after.pulse, h.coarse, before.pulse]
  status := by rw [after.pulse, h.status, before.pulse]
  totalizing := by rw [after.pulse, h.totalizing, before.pulse]

theorem KeepsMarks.pulseMark {r : Fin 4} {c d : State} (h : KeepsMarks r c d) (i : CondId) :
    d.pulseMark r i
      = pulseCondActive c.retained.runs[r].settings
          (c.runs[r].state == .closed || c.runs[r].state == .closing) c.pulses[r] i := by
  unfold State.pulseMark pulseCondActive
  rw [h.settings, h.closed, h.coarse, h.status, h.totalizing]

theorem firstOfBatch_eq (b : BatchUnit) (r : Fin 4) :
    b.firstOfBatch r
      = (b.queue != [] && b.progress.opening != none && b.acc.runs[r].intervals == 0) := by
  have first : (!b.queue.isEmpty) = (b.queue != []) := by cases b.queue <;> rfl
  have second : b.progress.opening.isSome = (b.progress.opening != none) := by
    cases b.progress.opening <;> rfl
  unfold BatchUnit.firstOfBatch BatchUnit.opened
  rw [first, second]

/-- R27, R28: the record of a run, in terms of the state before the expiry. -/
theorem Expires.recordOf {s c d e t : State} (h : Expires s c d e t) (r : Fin 4) (x : RunSettings)
    {st : StationRecord} (hst : s.retained.station = some st) :
    c.recordOf r x
      = let out := c.outputOf r x
        let curve :=
          if st.layout.allows r s.retained.batch.product = true then
            ((s.curve r s.retained.batch.product).inService).map (·.points)
          else none
        { run := r, interval := s.retained.intervalNumber + 1
          product := s.retained.batch.product
          p := s.pulses[r].counts.get s.pulses[r].channelAtExpiry
          channel := s.pulses[r].channelAtExpiry
          iv := out.iv, q := out.q, mf := out.mf, ctl := out.ctl, cpl := out.cpl
          ccf := out.ccf, gsv := out.gsv, nsv := out.nsv, mass := out.mass
          t := (s.reading x.tSlot).value
          pres := (s.reading x.pSlot).value
          rhoLine := s.densityReading.value, rhoStd := out.rhoStd
          sw := s.waterReading.value
          flags :=
            { codeT := (s.reading x.tSlot).code
              codeP := (s.reading x.pSlot).code
              codeRho := s.densityReading.code
              codeSW := s.waterReading.code
              fallback := curve == none
              curveClamp := out.curveClamp
              tableClamp := out.tempOutside || out.cplCapped
              rateClamped := out.rateClamped
              coarse := s.pulses[r].coarse
              fine := s.pulses[r].fine
              substituted := s.pulses[r].channelAtExpiry != x.primary
              firstOfBatch :=
                s.retained.batch.queue != [] && s.retained.batch.progress.opening != none
                  && s.retained.batch.acc.runs[r].intervals == 0 } } := by
  have batch : c.retained.batch = s.retained.batch := by rw [h.retainedBefore]
  unfold State.recordOf formRecord resultFlags
  rw [h.sampleRun x hst]
  simp only [h.pulse_before, h.now, batch, firstOfBatch_eq, ← isNone_eq_none, Option.not_isSome]

/-- A run with settings that is OPEN or CLOSING computes its interval. -/
theorem Expires.computes {s c d e t : State} (h : Expires s c d e t) {r : Fin 4} {x : RunSettings}
    (hs : s.runs[r].state = .opened ∨ s.runs[r].state = .closing)
    (hx : s.retained.runs[r].settings = some x) : Computes r x c d := by
  obtain ⟨u, before, after⟩ := expireRun_turn r c
  rw [← h.handled] at after
  refine (expireRun_computes ?_ ?_).between before after
  · rw [before.run, h.runs_before]
    exact hs
  · rw [before.settings]
    show c.retained.runs[r].settings = some x
    rw [h.retainedBefore]
    exact hx

/-! The process values do not depend on the clock. -/

theorem advanceClock_reading (n : Nat) (s : State) (slot : Fin 16) :
    (advanceClock n s).reading slot = s.reading slot := by
  unfold State.reading
  rfl

theorem advanceClock_densityReading (n : Nat) (s : State) :
    (advanceClock n s).densityReading = s.densityReading := by
  unfold State.densityReading
  simp only [advanceClock_reading]
  rfl

theorem advanceClock_waterReading (n : Nat) (s : State) : (advanceClock n s).waterReading = s.waterReading := by
  unfold State.waterReading
  simp only [advanceClock_reading]
  rfl

/-! ### The obligation -/

theorem flowActive_of_member (r : Fin 4) (i : CondId) (x : RunSettings) (d : Sampled) (out : IntervalOutput) :
    i ∈ flowConds r → flowActive x d out i
      = match i with
        | .rateHigh _ => x.rateHigh != 0 && decide (x.rateHigh < out.q)
        | .rateLow _ => x.rateLow != 0 && decide (0 < out.q) && decide (out.q < x.rateLow)
        | .rateOutsideCurve _ => out.curveClamp
        | .noCurve _ => d.input.curve == none
        | .tempOutsideTable _ => out.tempOutside
        | _ =>
          match d.input.product with
          | none => true
          | some y => decide (d.rho.value < y.densityLow) || decide (y.densityHigh < d.rho.value) := by
  intro hi
  simp only [flowConds, List.mem_cons, List.not_mem_nil, or_false] at hi
  obtain rfl | rfl | rfl | rfl | rfl | rfl := hi
  case inr.inr.inr.inl => exact isNone_eq_none d.input.curve
  all_goals rfl

/-- Settles O37. -/
theorem expiryHandlesEveryRunByItsState : Obligations.ExpiryHandlesEveryRunByItsState := by
  refine ⟨fun n s hr ht => ?_, fun x => ?_⟩
  · obtain ⟨c, d, e, t, ran, phases⟩ := exec_expires hr ht
    refine ⟨t, ran, fun r => ?_⟩
    obtain ⟨u, before, after⟩ := expireRun_turn r c
    rw [← phases.handled] at after
    intro p used flow
    have run : c.runs[r] = s.runs[r] := by rw [phases.runs_before]; rfl
    have runAt : u.runs[r] = s.runs[r] := before.run.trans run
    have pulse : c.pulses[r] = { p with totalizing := used, change := none } := phases.pulse_before r
    have pulseAt : u.pulses[r] = { p with totalizing := used, change := none } := before.pulse.trans pulse
    have retained : c.retained.runs[r] = s.retained.runs[r] := by rw [phases.retainedBefore]; rfl
    have retainedAt : u.retained.runs[r] = s.retained.runs[r] := before.retained.trans retained
    refine ⟨?closed, ?untouched, ?marks, ?opening, ?computes⟩
    case closed =>
      intro h
      rw [phases.runs, phases.pulses, phases.retainedRuns]
      rw [expireRun_of_closed (by rw [runAt]; exact h)] at after
      exact ⟨after.run.trans runAt, after.retained.trans retainedAt, after.pulse.trans pulseAt⟩
    case untouched =>
      intro h i hi
      refine (phases.flow hi).trans ((after.flow i hi).trans ?_)
      have same : u.cond i = s.cond i :=
        (before.flow i hi).trans (phases.cond_changed (flowConds_not_prove hi) (flowConds_ne_discard hi))
      rcases h with h | h
      · rw [expireRun_of_closed (by rw [runAt]; exact h)]
        exact same
      · rw [expireRun_of_opening (by rw [runAt]; exact h)]
        exact same
    case marks =>
      intro closed i hi
      have hd := pulseConds_ne_discard hi
      have marks := (expireRun_keepsMarks r u).between before after
      have told : d.told i (d.pulseMark r i) = c.told i (d.pulseMark r i) := by
        refine phases.told.only.told ?_ _
        rw [phases.handled]
        exact foldl_expireRun_cond_ne (fun _ => pulseConds_not_flow hi) (pulseConds_not_batch hi) hd c
      rw [phases.cond_after (pulseConds_not_prove hi) (pulseConds_not_batch hi) hd, phases.evaluated,
        forRuns_evalPulseConds_cond hi, told, phases.told_before (pulseConds_not_prove hi) hd,
        marks.pulseMark, run, pulse, retained]
      rfl
    case opening =>
      intro h
      rw [expireRun_of_opening (by rw [runAt]; exact h)] at after
      rw [phases.runs, phases.pulses, phases.retainedRuns, after.run, after.pulse, after.retained, openAtExpiry_run, openAtExpiry_pulse, runAt, pulseAt]
      exact ⟨rfl, retainedAt, rfl⟩
    case computes =>
      rw [phases.runs, phases.pulses, phases.retainedRuns]
      intro x st hs hx hst b curve product rho out old
      have computes := phases.computes hs hx
      have sample := phases.sampleRun (r := r) x hst
      simp only [advanceClock_reading, advanceClock_densityReading, advanceClock_waterReading] at sample
      have output : c.outputOf r x = out := by
        show computeStages (sampleRun r x c).input = out
        rw [sample]
        rfl
      have record := phases.recordOf r x hst
      simp only [advanceClock_reading, advanceClock_densityReading, advanceClock_waterReading, output] at record
      refine ⟨?_, ?_, ?_, fun i hi => ?_⟩
      · rw [computes.retained, output, retained, record, take_eq hx]
        rfl
      · rw [computes.pulse, pulse, run]
      · rw [computes.run, run, record]
        rfl
      · have hp := flowConds_not_prove hi
        have hd := flowConds_ne_discard hi
        rw [phases.flow hi, computes.flow i hi, run, output, sample, phases.told_before hp hd,
          flowActive_of_member r i x _ out hi]
        rfl
  · exact ⟨stageOne x, stageTwo x, stageThree_of_no_curve x, fun _ _ _ h hf hl => stageThree_of_curve x h hf hl,
      stageFour_of_empty x, fun _ _ _ h hf hl => stageFour_of_product x h hf hl, stageFive x,
      (stageNine x).1, (stageNine x).2, residues_below x⟩

end Sys2Proof.Machine
end

