-- ==== Sys2Proof/Proofs/BatchOutcomes.lean ====
section
/-! PROOFS. What an interval expiry does to the batches, the prove session and the outbound queue (O39). -/

namespace Sys2Proof.Machine

/-! ### The records and the RESULT frames of the runs, in their order -/

/-- Whether a run computes at an expiry, by its state. -/
def State.computing (s : State) (r : Fin 4) : Bool :=
  s.runs[r].state == .opened || s.runs[r].state == .closing

/-- The record of a run that computes, with its batch disagreement count. -/
def State.takenRecord (s : State) (r : Fin 4) : Option (IntervalRecord × Nat) :=
  if s.computing r then (s.settings r).map fun x => (s.recordOf r x, s.pulses[r].batchDisagree) else none

/-- R30: the RESULT frame of a run that computes, when it is due. -/
def State.dueFrame (s : State) (st : StationRecord) (r : Fin 4) : Option OutFrame :=
  if s.computing r && resultDue st.spacing s.now (s.runs[r].state == .closing) then
    (s.settings r).map fun x =>
      resultFrame (s.recordOf r x) (s.retained.runs[r].totals.add (s.recordOf r x)) st.resultLevel
  else none

theorem SeesRun.takenRecord {r : Fin 4} {s t : State} (h : SeesRun r s t) : t.takenRecord r = s.takenRecord r := by
  unfold State.takenRecord State.computing
  simp only [h.run, h.settings, h.pulse, h.recordOf]

theorem SeesRun.dueFrame {r : Fin 4} {s t : State} (h : SeesRun r s t) (st : StationRecord) :
    t.dueFrame st r = s.dueFrame st r := by
  unfold State.dueFrame State.computing
  simp only [h.run, h.settings, h.retained, h.recordOf, h.only.now]

theorem computeRun_batch (r : Fin 4) (x : RunSettings) (closing : Bool) (s : State) :
    (computeRun r x closing s).retained.batch
      = s.retained.batch.taking (s.recordOf r x) s.pulses[r].batchDisagree := by
  rw [(computeRun_loopOnly r x closing s).retained]
  rfl

theorem takenRecord_of_idle {s : State} {r : Fin 4} (h : s.computing r = false) : s.takenRecord r = none :=
  if_neg (by rw [h]; exact Bool.false_ne_true)

theorem dueFrame_of_idle {s : State} {r : Fin 4} (st : StationRecord) (h : s.computing r = false) :
    s.dueFrame st r = none :=
  if_neg (by rw [h, Bool.false_and]; exact Bool.false_ne_true)

theorem takenRecord_of_computing {s : State} {r : Fin 4} (h : s.computing r = true) :
    s.takenRecord r = (s.settings r).map fun x => (s.recordOf r x, s.pulses[r].batchDisagree) := if_pos h

/-- R97: the records of a list of runs go to the Batch Unit one after another. -/
def BatchUnit.takingAll (b : BatchUnit) (recs : List (IntervalRecord × Nat)) : BatchUnit :=
  recs.foldl (fun b x => b.taking x.1 x.2) b

theorem computeIfLoaded_batch {s : State} {r : Fin 4} (h : s.computing r = true) (closing : Bool) :
    (computeIfLoaded r closing s).retained.batch = s.retained.batch.takingAll (s.takenRecord r).toList := by
  rw [takenRecord_of_computing h]
  cases hx : s.settings r with
  | none =>
    rw [computeIfLoaded_of_none hx]
    rfl
  | some x =>
    rw [computeIfLoaded_of_settings hx]
    exact computeRun_batch r x closing s

theorem computeIfLoaded_queues {s : State} {st : StationRecord} {r : Fin 4} {closing : Bool}
    (hst : s.retained.station = some st) (h : s.computing r = true)
    (hc : (s.runs[r].state == .closing) = closing) :
    Queues (s.dueFrame st r).toList s (computeIfLoaded r closing s) := by
  unfold State.dueFrame
  rw [h, hc, Bool.true_and]
  cases hx : s.settings r with
  | none =>
    rw [computeIfLoaded_of_none hx]
    split <;> exact Queues.refl s
  | some x =>
    rw [computeIfLoaded_of_settings hx]
    have queued := computeRun_queues hst r x closing
    split
    · next due =>
      rw [if_pos due] at queued
      exact queued
    · next due =>
      rw [if_neg due] at queued
      exact queued

theorem computing_of_opened {s : State} {r : Fin 4} (h : s.runs[r].state = .opened) : s.computing r = true := by
  unfold State.computing
  rw [h]
  rfl

theorem computing_of_closing {s : State} {r : Fin 4} (h : s.runs[r].state = .closing) : s.computing r = true := by
  unfold State.computing
  rw [h]
  rfl

theorem not_computing {s : State} {r : Fin 4} (h : s.runs[r].state = .closed ∨ s.runs[r].state = .opening) :
    s.computing r = false := by
  unfold State.computing
  rcases h with h | h <;> rw [h] <;> rfl

theorem expireRun_batch (s : State) (r : Fin 4) :
    (expireRun s r).retained.batch = s.retained.batch.takingAll (s.takenRecord r).toList := by
  cases h : s.runs[r].state with
  | closed =>
    rw [expireRun_of_closed h, takenRecord_of_idle (not_computing (.inl h))]
    rfl
  | opening =>
    rw [expireRun_of_opening h, takenRecord_of_idle (not_computing (.inr h))]
    rfl
  | opened =>
    rw [expireRun_of_opened h]
    exact computeIfLoaded_batch (computing_of_opened h) false
  | closing =>
    rw [expireRun_of_closing h, closeAtExpiry_retained]
    exact computeIfLoaded_batch (computing_of_closing h) true

theorem expireRun_queues {s : State} {st : StationRecord} (hst : s.retained.station = some st) (r : Fin 4) :
    Queues (s.dueFrame st r).toList s (expireRun s r) := by
  cases h : s.runs[r].state with
  | closed =>
    rw [expireRun_of_closed h, dueFrame_of_idle st (not_computing (.inl h))]
    exact Queues.refl s
  | opening =>
    rw [expireRun_of_opening h, dueFrame_of_idle st (not_computing (.inr h))]
    exact queues_of_same rfl rfl rfl rfl rfl
  | opened =>
    rw [expireRun_of_opened h]
    exact computeIfLoaded_queues hst (computing_of_opened h) (by rw [h]; rfl)
  | closing =>
    rw [expireRun_of_closing h]
    exact (computeIfLoaded_queues hst (computing_of_closing h) (by rw [h]; rfl)).then (closeAtExpiry_queues r _)

theorem filterMap_cons_toList {α β : Type} (f : α → Option β) (a : α) (l : List α) :
    (a :: l).filterMap f = (f a).toList ++ l.filterMap f := by
  rw [List.filterMap_cons]
  cases f a <;> rfl

/-- Every run's record goes to the Batch Unit as it was at the expiry. -/
theorem foldl_expireRun_batch {l : List (Fin 4)} (hl : l.Nodup) (s : State) :
    (l.foldl expireRun s).retained.batch = s.retained.batch.takingAll (l.filterMap s.takenRecord) := by
  induction l generalizing s with
  | nil => rfl
  | cons a l ih =>
    rw [List.nodup_cons] at hl
    have same : l.filterMap (expireRun s a).takenRecord = l.filterMap s.takenRecord :=
      List.filterMap_congr fun r hr => (expireRun_sees (fun k : a = r => hl.1 (k ▸ hr)) s).takenRecord
    rw [List.foldl_cons, ih hl.2, same, expireRun_batch, filterMap_cons_toList]
    exact List.foldl_append.symm

theorem foldl_expireRun_queues {l : List (Fin 4)} (hl : l.Nodup) {s : State} {st : StationRecord}
    (hst : s.retained.station = some st) :
    Queues (l.filterMap (s.dueFrame st)) s (l.foldl expireRun s) := by
  induction l generalizing s with
  | nil => exact Queues.refl s
  | cons a l ih =>
    rw [List.nodup_cons] at hl
    have same : l.filterMap ((expireRun s a).dueFrame st) = l.filterMap (s.dueFrame st) :=
      List.filterMap_congr fun r hr => (expireRun_sees (fun k : a = r => hl.1 (k ▸ hr)) s).dueFrame st
    have rest := ih hl.2 (s := expireRun s a) ((expireRun_told s a).only.stationRecord.trans hst)
    rw [same] at rest
    rw [filterMap_cons_toList]
    exact (expireRun_queues hst a).trans rest

theorem expireRun_session (s : State) (r : Fin 4) : (expireRun s r).session = s.session := by
  have computed (closing : Bool) : (computeIfLoaded r closing s).session = s.session := by
    cases hx : s.settings r with
    | none => rw [computeIfLoaded_of_none hx]
    | some x =>
      rw [computeIfLoaded_of_settings hx]
      exact (computeRun_loopOnly r x closing s).session
  cases h : s.runs[r].state with
  | closed => rw [expireRun_of_closed h]
  | opening =>
    rw [expireRun_of_opening h]
    rfl
  | opened =>
    rw [expireRun_of_opened h]
    exact computed false
  | closing =>
    rw [expireRun_of_closing h]
    exact ((closeAtExpiry_loopOnly r _).session).trans (computed true)

/-! ### The session over the whole expiry (R127, R142, R143) -/

/-- A session that goes on at most once to FAILED: it changes only while it is active. -/
def KeepsEnded (x y : Session) : Prop := x.state.active = false → y = x

theorem toldChange_keepsEnded (s : State) : KeepsEnded s.session s.toldChange := by
  intro h
  refine toldChange_of_untimed fun r timed => ?_
  rw [active_of_timed timed] at h
  cases h

theorem productChanged_keepsEnded (x : Session) : KeepsEnded x x.productChanged :=
  productChanged_of_inactive

theorem not_active_of_failed {x : Session} (h : x.state = .failed) : x.state.active = false := by
  rw [h]
  rfl

/-- A session fails once. -/
theorem failed_trans {x y z : Session} (hy : KeepsEnded x y) (hz : KeepsEnded y z) :
    ((x.state.active && y.state == .failed) = true → (y.state.active && z.state == .failed) = false)
      ∧ (x.state.active && z.state == .failed)
          = (x.state.active && y.state == .failed || y.state.active && z.state == .failed) := by
  cases hx : x.state.active with
  | false =>
    obtain rfl := hy hx
    rw [hx]
    simp
  | true =>
    cases ha : y.state.active with
    | false =>
      obtain rfl := hz ha
      simp
    | true =>
      have going : (y.state == .failed) = false := by
        rw [beq_eq_false_iff_ne]
        intro failed
        rw [not_active_of_failed failed] at ha
        cases ha
      simp [going]

/-- A failed session is reported once. -/
theorem failReport_trans {x y z : Session} (hy : KeepsEnded x y) (hz : KeepsEnded y z) (level : Nat) :
    failReport x y level ++ failReport y z level = failReport x z level := by
  cases hx : x.state.active with
  | false =>
    obtain rfl := hy hx
    rw [failReport_self]
    rfl
  | true =>
    cases ha : y.state.active with
    | false =>
      obtain rfl := hz ha
      rw [failReport_self, List.append_nil]
    | true =>
      have going : failReport x y level = [] := if_neg fun both => by
        rw [not_active_of_failed both.2] at ha
        cases ha
      rw [going, List.nil_append]
      unfold failReport
      rw [hx, ha]

/-! ### The phases of an expiry, from the state before it -/

section
variable {s c d e t : State} (h : Expires s c d e t)
include h

theorem Expires.session_handled : d.session = s.toldChange := by
  have same : d.session = c.session := by
    rw [h.handled]
    exact foldl_related (R := fun s t => t.session = s.session) (fun _ => rfl) (fun h k => k.trans h)
      (fun r _ s => expireRun_session s r) c
  exact same.trans h.changed.only.session

theorem Expires.session_evaluated : (promoteAll e).session = s.toldChange :=
  h.loop.session.trans h.session_handled

theorem Expires.batch_handled :
    d.retained.batch = s.retained.batch.takingAll ((List.finRange 4).filterMap c.takenRecord) := by
  rw [h.handled]
  refine (foldl_expireRun_batch (List.nodup_finRange 4) c).trans ?_
  rw [h.retainedBefore]

theorem Expires.batch_evaluated :
    (promoteAll e).retained.batch = s.retained.batch.takingAll ((List.finRange 4).filterMap c.takenRecord) := by
  rw [← h.batch_handled, ← h.loop.retained]
  rfl

theorem Expires.now_evaluated : (promoteAll e).now = s.retained.intervalNumber + 1 := h.before.now

theorem Expires.withholds_evaluated (i : CondId) :
    (promoteAll e).retained.withholds i = s.retained.withholds i :=
  h.before.withholds i

/-- A record of the Batch Unit's conditions once the records have been taken. -/
theorem Expires.cond_evaluated {i : CondId} (hf : ∀ r, i ∉ pulseConds r) (hd : i ≠ .outboundDiscard) :
    (promoteAll e).cond i = d.cond i := by
  show e.cond i = d.cond i
  rw [h.evaluated]
  exact foldl_evalPulseConds_cond_ne (fun r _ => hf r) hd d

theorem Expires.cond_handled {i : CondId} (hf : ∀ r, i ∉ flowConds r) (hb : i ∉ batchConds)
    (hd : i ≠ .outboundDiscard) : d.cond i = c.cond i := by
  rw [h.handled]
  exact foldl_expireRun_cond_ne hf hb hd c

/-- The frames that an expiry queues before the step of the Batch Unit, while no notice can enter. -/
theorem Expires.queues_evaluated {st : StationRecord} (hst : s.retained.station = some st) :
    Queues (failReport s.session s.toldChange st.reportLevel ++ (List.finRange 4).filterMap (c.dueFrame st))
      (nextInterval s) (promoteAll e) := by
  have first : Queues (failReport s.session s.toldChange st.reportLevel) (nextInterval s) c :=
    h.changed.queues st hst
  have second : Queues ((List.finRange 4).filterMap (c.dueFrame st)) c d := by
    rw [h.handled]
    exact foldl_expireRun_queues (List.nodup_finRange 4) (h.changed.runsOnly.stationRecord.trans hst)
  have third : Queues [] d e := by
    rw [h.evaluated]
    exact foldl_evalPulseConds_queues _ d
  exact ((first.trans second).then third).then (queues_of_same rfl rfl rfl rfl rfl)

end

/-! ### The conditions of the Prove Controller (R128, R142) -/

theorem batchExpiry_session (s : State) : KeepsEnded s.session (batchExpiry s).session := by
  by_cases can : s.retained.batch.canClose = true
  · obtain ⟨h, rest, hq, hs, hl⟩ := BatchUnit.canClose_queue can
    rw [(batchExpiry_close hq hs hl).2.2.1]
    exact productChanged_keepsEnded _
  · by_cases awaits : s.retained.batch.awaits = true
    · obtain ⟨h, rest, hq, ha, hn⟩ := s.retained.batch.awaits_iff.mp awaits
      rw [(batchExpiry_open hq ha hn).2.2.1]
      exact productChanged_keepsEnded _
    · rw [show batchExpiry s = s from (if_neg can).trans (if_neg awaits)]
      exact fun _ => rfl

section
variable {s c d e t : State} (h : Expires s c d e t)
include h

theorem Expires.keepsEnded : KeepsEnded s.toldChange t.session := by
  have last := batchExpiry_session (promoteAll e)
  rw [h.session_evaluated, ← h.closed] at last
  exact last

theorem Expires.prove_evaluated {i : CondId} (hi : i ∈ proveConds) : (promoteAll e).cond i = c.cond i := by
  have hd : i ≠ .outboundDiscard := by
    rintro rfl
    simp [proveConds] at hi
  have hb : i ∉ batchConds := by
    simp only [proveConds, List.mem_cons, List.not_mem_nil, or_false] at hi
    obtain rfl | rfl | rfl := hi <;> simp [batchConds]
  rw [h.cond_evaluated (fun r hp => pulseConds_not_prove hp hi) hd]
  exact h.cond_handled (fun r hf => flowConds_not_prove hf hi) hb hd

theorem Expires.spoiled :
    t.cond .provePassSpoiled
      = if s.toldChange != s.session then
          (s.cond .provePassSpoiled).occurred (s.retained.withholds .provePassSpoiled)
            (s.retained.intervalNumber + 1)
        else s.cond .provePassSpoiled := by
  rw [h.step.conds .provePassSpoiled (by simp) (by simp) (by simp) (by simp),
    h.prove_evaluated (by simp [proveConds])]
  exact h.changed.spoiled

theorem Expires.proveFailed :
    t.cond .proveFailed
      = if s.session.state.active && t.session.state == .failed then
          (s.cond .proveFailed).occurred (s.retained.withholds .proveFailed) (s.retained.intervalNumber + 1)
        else s.cond .proveFailed := by
  obtain ⟨failsOnce, fails⟩ := failed_trans (toldChange_keepsEnded s) h.keepsEnded
  have later := h.step.failed
  rw [h.prove_evaluated (by simp [proveConds]), h.session_evaluated] at later
  refine changed_once h.changed.failed later (fun same => ?_) failsOnce fails
  have occurred := h.before.occurred (c := .proveFailed)
    ((h.prove_evaluated (i := .proveFailed) (by simp [proveConds])).trans same)
  exact occurred

/-- R153: every record that an expiry may not change stays. -/
theorem Expires.cond_ne {i : CondId} (hp : i ≠ .provePassSpoiled) (hf : i ≠ .proveFailed) (hb : i ∉ batchConds)
    (hr : ∀ r, i ∉ pulseConds r ∧ i ∉ flowConds r) (hd : i ≠ .outboundDiscard) : t.cond i = s.cond i := by
  rw [h.step.conds i hf (ne_of_not_batch hb).2.1 (ne_of_not_batch hb).2.2 hd,
    h.cond_evaluated (fun r => (hr r).1) hd, h.cond_handled (fun r => (hr r).2) hb hd]
  exact h.changed.conds i hp hf hd

end

/-! ### The outbound queue (R30, R106, R142) -/

theorem batchExpiry_queues {s : State} {st : StationRecord} (hst : s.retained.station = some st) :
    ∃ l : List OutFrame, l.length ≤ 1 ∧ (∀ f ∈ l, f.kind = .ticket)
      ∧ Queues (l ++ failReport s.session (batchExpiry s).session st.reportLevel) s (batchExpiry s) := by
  by_cases can : s.retained.batch.canClose = true
  · obtain ⟨h, rest, hq, hs, hl⟩ := BatchUnit.canClose_queue can
    obtain ⟨-, -, session, -, -, queued⟩ := batchExpiry_close hq hs hl
    refine ⟨[(formTicket s h).frame st.ticketLevel], le_refl 1, fun f hf => ?_, ?_⟩
    · rw [List.mem_singleton.mp hf]
      rfl
    · rw [session]
      exact queued st hst
  · by_cases awaits : s.retained.batch.awaits = true
    · obtain ⟨h, rest, hq, ha, hn⟩ := s.retained.batch.awaits_iff.mp awaits
      obtain ⟨-, -, session, -, queued⟩ := batchExpiry_open hq ha hn
      refine ⟨[], by simp, by simp, ?_⟩
      rw [session]
      exact queued st hst
    · refine ⟨[], by simp, by simp, ?_⟩
      rw [show batchExpiry s = s from (if_neg can).trans (if_neg awaits), failReport_self]
      exact Queues.refl s

theorem failReport_kind {x y : Session} {level : Nat} {f : OutFrame} (h : f ∈ failReport x y level) :
    f.kind = .proveReport := by
  unfold failReport at h
  split at h
  · rw [List.mem_singleton.mp h]
    rfl
  · cases h

theorem failReport_length (x y : Session) (level : Nat) : (failReport x y level).length ≤ 1 := by
  unfold failReport
  split <;> simp

theorem dueFrame_kind {s : State} {st : StationRecord} {l : List (Fin 4)} {f : OutFrame}
    (h : f ∈ l.filterMap (s.dueFrame st)) : f.kind = .result := by
  obtain ⟨r, -, hr⟩ := List.mem_filterMap.mp h
  unfold State.dueFrame at hr
  split at hr
  · obtain ⟨x, -, rfl⟩ := Option.map_eq_some_iff.mp hr
    rfl
  · cases hr

theorem filter_kind_all {k : OutKind} {l : List OutFrame} (h : ∀ f ∈ l, f.kind = k) :
    l.filter (·.kind == k) = l :=
  List.filter_eq_self.mpr fun f hf => beq_iff_eq.mpr (h f hf)

theorem filter_kind_none {k k' : OutKind} (hk : k' ≠ k) {l : List OutFrame} (h : ∀ f ∈ l, f.kind = k') :
    l.filter (·.kind == k) = [] :=
  List.filter_eq_nil_iff.mpr fun f hf => by simp [h f hf, hk]

/-! ### The records and the frames, from the states before and after the expiry -/

/-- A run with settings that is OPEN or CLOSING. -/
def State.computes (s : State) (r : Fin 4) : Bool :=
  (s.runs[r].state == .opened || s.runs[r].state == .closing) && s.retained.runs[r].settings.isSome

/-- The record that an expiry from `s` to `t` leaves for a run, with its batch disagreement count. -/
def keptRecord (s t : State) (r : Fin 4) : Option (IntervalRecord × Nat) :=
  if s.computes r then t.runs[r].last.map fun x => (x, s.pulses[r].batchDisagree) else none

/-- R97: the Batch Unit once the records of an expiry from `s` to `t` have been taken. -/
def batchTaken (s t : State) : BatchUnit :=
  s.retained.batch.takingAll ((List.finRange 4).filterMap (keptRecord s t))

/-- R30, R176: the RESULT frame of a run whose record is `x`, byte for byte. -/
def resultBytes (r : Fin 4) (now : Word32) (x : IntervalRecord) (totals : Totals) (level : Nat) : OutFrame :=
  let f := x.flags
  let bit := fun (b : Bool) (w : Nat) => if b then w else 0
  { kind := .result, dest := 63, level, source := r.val
    payload :=
      encU 1 r.val ++ encU 1 (f.codeT + 4 * f.codeP + 16 * f.codeRho + 64 * f.codeSW : Nat)
        ++ encU 1
            (bit f.fallback 1 + bit f.curveClamp 2 + bit f.tableClamp 4 + bit f.rateClamped 8
              + bit f.coarse 16 + bit f.fine 32 + bit f.substituted 64 + bit f.firstOfBatch 128 : Nat)
        ++ encWord now ++ encU 4 x.q ++ encU 3 x.mf ++ encU 3 x.ccf ++ encS 2 x.t ++ encS 3 x.pres
        ++ encU 3 x.rhoLine ++ encU 8 totals.iv ++ encU 8 totals.gsv ++ encU 8 totals.nsv
        ++ encU 8 totals.mass }

/-- The RESULT frame that an expiry from `s` to `t` queues for a run. -/
def queuedResult (st : StationRecord) (now : Word32) (s t : State) (r : Fin 4) : Option OutFrame :=
  let due := s.runs[r].state == .closing || (decide (0 < st.spacing) && now.toNat % st.spacing == 0)
  if s.computes r && due then
    t.runs[r].last.map fun x => resultBytes r now x t.retained.runs[r].totals st.resultLevel
  else none

theorem flagByte_eq (f : ResultFlags) :
    f.flagByte
      = (if f.fallback then 1 else 0) + (if f.curveClamp then 2 else 0) + (if f.tableClamp then 4 else 0)
        + (if f.rateClamped then 8 else 0) + (if f.coarse then 16 else 0) + (if f.fine then 32 else 0)
        + (if f.substituted then 64 else 0) + (if f.firstOfBatch then 128 else 0) := by
  have bit (b : Bool) (w : Nat) : (if b then w else 0) = w * b.toNat := by cases b <;> simp
  unfold ResultFlags.flagByte
  simp only [packBits, bit]
  omega

theorem resultFrame_bytes (x : IntervalRecord) (totals : Totals) (level : Nat) :
    resultFrame x totals level = resultBytes x.run x.interval x totals level := by
  unfold resultFrame resultPayload resultBytes
  rw [flagByte_eq]
  rfl

section
variable {s c d e t : State} (h : Expires s c d e t)
include h

theorem Expires.computing_eq (r : Fin 4) :
    c.computing r = (s.runs[r].state == .opened || s.runs[r].state == .closing) := by
  unfold State.computing
  rw [h.runs_before]

theorem Expires.settings_before (r : Fin 4) : c.settings r = s.retained.runs[r].settings := by
  unfold State.settings
  rw [h.retainedBefore]

theorem Expires.computes_cases (r : Fin 4) :
    (s.computes r = false ∧ (c.computing r = false ∨ c.settings r = none))
      ∨ ∃ x, s.computes r = true ∧ c.computing r = true ∧ c.settings r = some x ∧ Computes r x c d := by
  unfold State.computes
  rw [← h.computing_eq, ← h.settings_before]
  cases going : c.computing r with
  | false => exact .inl ⟨rfl, .inl rfl⟩
  | true =>
    cases hx : c.settings r with
    | none => exact .inl ⟨rfl, .inr rfl⟩
    | some x =>
      rw [h.computing_eq, Bool.or_eq_true, beq_iff_eq, beq_iff_eq] at going
      rw [h.settings_before] at hx
      exact .inr ⟨x, rfl, rfl, rfl, h.computes going hx⟩

theorem Expires.takenRecord (r : Fin 4) : c.takenRecord r = keptRecord s t r := by
  unfold State.takenRecord keptRecord
  obtain ⟨idle, none⟩ | ⟨x, computes, computing, settings, computed⟩ := h.computes_cases r
  · rw [idle]
    rcases none with none | none <;> rw [none]
    · rfl
    · exact ite_self _
  · rw [computes, computing, settings, h.runs, computed.run, h.pulse_before]
    rfl

theorem Expires.dueFrame (st : StationRecord) (r : Fin 4) :
    c.dueFrame st r = queuedResult st (s.retained.intervalNumber + 1) s t r := by
  unfold State.dueFrame queuedResult
  obtain ⟨idle, none⟩ | ⟨x, computes, computing, settings, computed⟩ := h.computes_cases r
  · rw [idle]
    rcases none with none | none <;> rw [none]
    · rfl
    · exact ite_self _
  · have totals : t.retained.runs[r].totals = c.retained.runs[r].totals.add (c.recordOf r x) := by
      rw [h.retainedRuns, computed.retained]
      rfl
    have frame := resultFrame_bytes (c.recordOf r x) t.retained.runs[r].totals st.resultLevel
    rw [recordOf_run, recordOf_interval, totals, h.now] at frame
    rw [computes, computing, settings, h.runs_before, h.now, h.runs, computed.run, totals]
    simp only [Option.map_some, frame]
    rfl

theorem Expires.batch : (promoteAll e).retained.batch = batchTaken s t := by
  rw [h.batch_evaluated, show c.takenRecord = keptRecord s t from funext h.takenRecord]
  rfl

theorem Expires.results (st : StationRecord) :
    (List.finRange 4).filterMap (c.dueFrame st)
      = (List.finRange 4).filterMap (queuedResult st (s.retained.intervalNumber + 1) s t) := by
  rw [show c.dueFrame st = queuedResult st (s.retained.intervalNumber + 1) s t from funext (h.dueFrame st)]

/-! ### The conditions of the Batch Unit (R102, R112) -/

theorem Expires.batch_told : d.retained.batch = batchTaken s t :=
  h.batch_handled.trans (h.batch_evaluated.symm.trans h.batch)

theorem Expires.batch_before : c.retained.batch = s.retained.batch := by rw [h.retainedBefore]

theorem Expires.targetReached :
    t.cond .targetReached
      = if (batchTaken s t).progress.targetReached && !s.retained.batch.progress.targetReached then
          (s.cond .targetReached).occurred (s.retained.withholds .targetReached) (s.retained.intervalNumber + 1)
        else s.cond .targetReached := by
  have same : c.cond .targetReached = s.cond .targetReached := h.cond_changed (by simp [proveConds]) (by simp)
  have told := h.told.target
  rw [h.batch_told, h.batch_before, same, State.occurred, same, h.withholds, h.now] at told
  rw [h.step.conds .targetReached (by simp) (by simp) (by simp) (by simp),
    h.cond_evaluated (fun r => by simp [pulseConds]) (by simp)]
  exact told

theorem Expires.noActive_evaluated :
    (promoteAll e).cond .noActiveBatch
      = if ended s.retained.batch (batchTaken s t) then
          (s.cond .noActiveBatch).told false (s.retained.withholds .noActiveBatch)
            (s.retained.intervalNumber + 1)
        else s.cond .noActiveBatch := by
  have told := h.told.noActive
  rw [h.batch_told, h.batch_before, h.told_before (by simp [proveConds]) (by simp),
    h.cond_changed (by simp [proveConds]) (by simp)] at told
  rw [h.cond_evaluated (fun r => by simp [pulseConds]) (by simp)]
  exact told

theorem Expires.full_evaluated :
    (promoteAll e).cond .ticketStoreFull
      = if ended s.retained.batch (batchTaken s t) then
          (s.cond .ticketStoreFull).told (decide (4 ≤ (batchTaken s t).tickets.length))
            (s.retained.withholds .ticketStoreFull) (s.retained.intervalNumber + 1)
        else s.cond .ticketStoreFull := by
  have told := h.told.full
  rw [h.batch_told, h.batch_before, h.told_before (by simp [proveConds]) (by simp),
    h.cond_changed (by simp [proveConds]) (by simp)] at told
  rw [h.cond_evaluated (fun r => by simp [pulseConds]) (by simp)]
  exact told

theorem Expires.told_evaluated (i : CondId) (active : Bool) :
    (promoteAll e).told i active
      = ((promoteAll e).cond i).told active (s.retained.withholds i) (s.retained.intervalNumber + 1) := by
  unfold State.told
  rw [h.withholds_evaluated, h.now_evaluated]

theorem Expires.codeOf (p : Fin 8) :
    (promoteAll e).codeOf p = (t.retained.products[p].inService).map (·.code) := by
  rw [codeOf_eq, h.after.products]

theorem Expires.headTicket (b : BatchEntry) :
    formTicket (promoteAll e) b
      = (batchTaken s t).headTicket b ((t.retained.products[b.product].inService).map (·.code))
          (s.retained.intervalNumber + 1) := by
  rw [formTicket_eq, h.batch, ← h.after.products]
  exact congrArg _ h.now_evaluated

/-! ### The frames queued over the whole expiry -/

/-- The frames that an expiry queues, the Batch Unit's own (`l`) last. -/
theorem Expires.outbound {st : StationRecord} (hst : s.retained.station = some st) {l : List OutFrame}
    (hl : l.length ≤ 2) (k : Queues l (promoteAll e) t) (hq : s.NoticesQuiet) (ht : s.transmitter ≠ .free)
    (room : s.outbound.length ≤ 8) :
    t.outbound
      = s.outbound ++ (failReport s.session s.toldChange st.reportLevel
          ++ (List.finRange 4).filterMap (queuedResult st (s.retained.intervalNumber + 1) s t) ++ l) := by
  have before : Queues [] s (nextInterval s) := queues_of_same rfl rfl rfl rfl rfl
  have all := ((h.queues_evaluated hst).after before).trans k
  rw [h.results] at all
  have reports := failReport_length s.session s.toldChange st.reportLevel
  have results : ((List.finRange 4).filterMap
      (queuedResult st (s.retained.intervalNumber + 1) s t)).length ≤ 4 := List.length_filterMap_le _ _
  exact (all hq ht (by simp only [List.length_append]; omega)).2.2

end

theorem queuedResult_kind {st : StationRecord} {now : Word32} {s t : State} {l : List (Fin 4)} {f : OutFrame}
    (h : f ∈ l.filterMap (queuedResult st now s t)) : f.kind = .result := by
  obtain ⟨r, -, hr⟩ := List.mem_filterMap.mp h
  unfold queuedResult at hr
  simp only at hr
  split at hr
  · obtain ⟨x, -, rfl⟩ := Option.map_eq_some_iff.mp hr
    rfl
  · cases hr

/-- Of the frames of an expiry, those of one kind stand together. -/
theorem filter_kinds {o reports results l : List OutFrame} (hp : ∀ f ∈ reports, f.kind = .proveReport)
    (hr : ∀ f ∈ results, f.kind = .result) :
    (o ++ (reports ++ results ++ l)).filter (·.kind == .result)
        = o.filter (·.kind == .result) ++ results ++ l.filter (·.kind == .result)
      ∧ (o ++ (reports ++ results ++ l)).filter (·.kind == .ticket)
        = o.filter (·.kind == .ticket) ++ l.filter (·.kind == .ticket)
      ∧ (o ++ (reports ++ results ++ l)).filter (·.kind == .proveReport)
        = o.filter (·.kind == .proveReport) ++ (reports ++ l.filter (·.kind == .proveReport)) := by
  simp only [List.filter_append, filter_kind_all hp, filter_kind_all hr,
    filter_kind_none (k := .result) (k' := .proveReport) (by decide) hp,
    filter_kind_none (k := .ticket) (k' := .proveReport) (by decide) hp,
    filter_kind_none (k := .ticket) (k' := .result) (by decide) hr,
    filter_kind_none (k := .proveReport) (k' := .result) (by decide) hr,
    List.nil_append, List.append_assoc, and_self]

section
variable {s c d e t : State} (h : Expires s c d e t) {st : StationRecord} (hst : s.retained.station = some st)
include h hst

/-- The RESULT and PROVE_REPORT frames of an expiry. -/
theorem Expires.reports (hq : s.NoticesQuiet) (ht : s.transmitter ≠ .free) (room : s.outbound.length ≤ 8) :
    t.outbound.filter (·.kind == .result)
        = s.outbound.filter (·.kind == .result)
          ++ (List.finRange 4).filterMap (queuedResult st (s.retained.intervalNumber + 1) s t)
      ∧ t.outbound.filter (·.kind == .proveReport)
        = s.outbound.filter (·.kind == .proveReport) ++ failReport s.session t.session st.reportLevel := by
  obtain ⟨l, one, tickets, queued⟩ := batchExpiry_queues (s := promoteAll e) (st := st)
    (h.before.stationRecord.trans hst)
  rw [h.session_evaluated, ← h.closed] at queued
  have last := failReport_length s.toldChange t.session st.reportLevel
  have all := h.outbound hst (by simp only [List.length_append]; omega) queued hq ht room
  obtain ⟨results, -, reports⟩ := filter_kinds (o := s.outbound)
    (reports := failReport s.session s.toldChange st.reportLevel)
    (results := (List.finRange 4).filterMap (queuedResult st (s.retained.intervalNumber + 1) s t))
    (l := l ++ failReport s.toldChange t.session st.reportLevel)
    (fun f => failReport_kind) (fun f => queuedResult_kind)
  rw [← all] at results reports
  rw [results, reports]
  simp only [List.filter_append, filter_kind_none (k := .result) (k' := .ticket) (by decide) tickets,
    filter_kind_none (k := .proveReport) (k' := .ticket) (by decide) tickets,
    filter_kind_none (k := .result) (k' := .proveReport) (by decide)
      (fun f (hf : f ∈ failReport s.toldChange t.session st.reportLevel) => failReport_kind hf),
    filter_kind_all (fun f (hf : f ∈ failReport s.toldChange t.session st.reportLevel) => failReport_kind hf),
    List.append_nil, List.nil_append,
    failReport_trans (toldChange_keepsEnded s) h.keepsEnded, and_self]

/-- The TICKET frames of an expiry are those of the Batch Unit. -/
theorem Expires.ticketFrames {l : List OutFrame} (hl : l.length ≤ 1) (k : ∀ f ∈ l, f.kind = .ticket)
    (queued : Queues (l ++ failReport s.toldChange t.session st.reportLevel) (promoteAll e) t)
    (hq : s.NoticesQuiet) (ht : s.transmitter ≠ .free) (room : s.outbound.length ≤ 8) :
    t.outbound.filter (·.kind == .ticket) = s.outbound.filter (·.kind == .ticket) ++ l := by
  have last := failReport_length s.toldChange t.session st.reportLevel
  rw [h.outbound hst (by simp only [List.length_append]; omega) queued hq ht room,
    (filter_kinds (fun f => failReport_kind) (fun f => queuedResult_kind)).2.1, List.filter_append,
    filter_kind_all k, filter_kind_none (k' := .proveReport) (by decide) fun f => failReport_kind,
    List.append_nil]

end

/-! ### The step of the Batch Unit (R93, R104 to R107, R143) -/

section
variable {s c d e t : State} (h : Expires s c d e t) {st : StationRecord} (hst : s.retained.station = some st)
include h hst

/-- Nothing closes and nothing opens. -/
theorem Expires.idle (hc : ¬(batchTaken s t).HeadCloses ∨ 4 ≤ (batchTaken s t).tickets.length)
    (ho : ∀ h rest, (batchTaken s t).queue = h :: rest → h.state = .active →
      (batchTaken s t).progress.opening.isSome = true) :
    t.retained.batch = batchTaken s t ∧ t.session = s.toldChange
      ∧ (∀ i, t.cond i = (promoteAll e).cond i)
      ∧ (s.NoticesQuiet → s.transmitter ≠ .free → s.outbound.length ≤ 8 →
          t.outbound.filter (·.kind == .ticket) = s.outbound.filter (·.kind == .ticket)) := by
  rw [← h.batch] at hc ho
  have same : t = promoteAll e := h.closed.trans (batchExpiry_idle hc ho)
  have session : t.session = s.toldChange := by rw [same, h.session_evaluated]
  refine ⟨(congrArg (fun u : State => u.retained.batch) same).trans h.batch, session,
    fun i => congrArg (State.cond · i) same, fun hq ht room => ?_⟩
  have queued : Queues ([] ++ failReport s.toldChange t.session st.reportLevel) (promoteAll e) t := by
    rw [session, failReport_self, same]
    exact Queues.refl _
  rw [h.ticketFrames hst (l := []) (Nat.zero_le 1) nofun queued hq ht room, List.append_nil]

/-- An awaiting head opens. -/
theorem Expires.opens {x : BatchEntry} {rest : List BatchEntry} (hq : (batchTaken s t).queue = x :: rest)
    (ha : x.state = .active) (ho : (batchTaken s t).progress.opening = none) :
    t.retained.batch
        = (batchTaken s t).openedAt x (s.retained.intervalNumber + 1 + 1)
            ((t.retained.products[x.product].inService).map (·.code))
      ∧ t.session = s.toldChange.productChanged
      ∧ (∀ i, i ≠ .proveFailed → i ≠ .outboundDiscard → t.cond i = (promoteAll e).cond i)
      ∧ (s.NoticesQuiet → s.transmitter ≠ .free → s.outbound.length ≤ 8 →
          t.outbound.filter (·.kind == .ticket) = s.outbound.filter (·.kind == .ticket)) := by
  rw [← h.batch] at hq ho
  obtain ⟨-, batch, session, conds, queued⟩ := batchExpiry_open hq ha ho
  rw [← h.closed, h.batch, h.now_evaluated, h.codeOf] at batch
  rw [← h.closed, h.session_evaluated] at session
  rw [← h.closed] at conds queued
  refine ⟨batch, session, conds, fun hq ht room => ?_⟩
  have last := queued st (h.before.stationRecord.trans hst)
  rw [h.session_evaluated, ← session] at last
  rw [h.ticketFrames hst (l := []) (Nat.zero_le 1) nofun last hq ht room, List.append_nil]

/-- A CLOSING head closes into its ticket. -/
theorem Expires.closes {x : BatchEntry} {rest : List BatchEntry} (hq : (batchTaken s t).queue = x :: rest)
    (hc : x.state = .closing) (hl : (batchTaken s t).tickets.length < 4) {ticket : Ticket}
    (formed : ticket = (batchTaken s t).headTicket x ((t.retained.products[x.product].inService).map (·.code))
      (s.retained.intervalNumber + 1)) :
    t.retained.batch
        = (batchTaken s t).afterClose ticket
            (fun p =>
              { opening := some (s.retained.intervalNumber + 1 + 1)
                productCode := (t.retained.products[p].inService).map (·.code) })
      ∧ t.session = s.toldChange.productChanged
      ∧ t.cond .noActiveBatch
          = ((promoteAll e).cond .noActiveBatch).told rest.isEmpty (s.retained.withholds .noActiveBatch)
              (s.retained.intervalNumber + 1)
      ∧ t.cond .ticketStoreFull
          = ((promoteAll e).cond .ticketStoreFull).told false (s.retained.withholds .ticketStoreFull)
              (s.retained.intervalNumber + 1)
      ∧ (s.NoticesQuiet → s.transmitter ≠ .free → s.outbound.length ≤ 8 →
          t.outbound.filter (·.kind == .ticket)
            = s.outbound.filter (·.kind == .ticket) ++ [ticket.frame st.ticketLevel]) := by
  rw [← h.headTicket] at formed
  rw [← h.batch] at hq hl
  obtain ⟨-, batch, session, noActive, full, queued⟩ := batchExpiry_close hq hc hl
  rw [← formed] at batch queued
  rw [← h.closed, h.batch, h.now_evaluated, funext h.codeOf] at batch
  rw [← h.closed, h.session_evaluated] at session
  rw [← h.closed, h.told_evaluated] at noActive full
  rw [← h.closed] at queued
  refine ⟨batch, session, noActive, full, fun hq ht room => ?_⟩
  have last := queued st (h.before.stationRecord.trans hst)
  rw [h.session_evaluated, ← session] at last
  exact h.ticketFrames hst (l := [ticket.frame st.ticketLevel]) (le_refl 1)
    (fun f hf => by rw [List.mem_singleton.mp hf]; rfl) last hq ht room

end

/-! ### The obligation -/

/-- `u` is `s` but for the clock. -/
structure SameButClock (s u : State) : Prop where
  retained : u.retained = s.retained
  runs : u.runs = s.runs
  pulses : u.pulses = s.pulses
  session : u.session = s.session
  conds : u.conds = s.conds
  outbound : u.outbound = s.outbound
  transmitter : u.transmitter = s.transmitter

theorem advanceClock_same (n : Nat) (s : State) : SameButClock s (advanceClock n s) :=
  ⟨rfl, rfl, rfl, rfl, rfl, rfl, rfl⟩

section
variable {s u : State} (h : SameButClock s u)
include h

theorem SameButClock.cond (i : CondId) : u.cond i = s.cond i := by
  unfold State.cond
  rw [h.conds]

theorem SameButClock.toldChange : u.toldChange = s.toldChange := by
  unfold State.toldChange State.sessionTold
  rw [h.session, h.pulses, h.retained]

theorem SameButClock.computes (r : Fin 4) : u.computes r = s.computes r := by
  unfold State.computes
  rw [h.runs, h.retained]

theorem SameButClock.batchTaken (t : State) : batchTaken u t = batchTaken s t := by
  unfold Machine.batchTaken
  rw [h.retained, show keptRecord u t = keptRecord s t from funext fun r => by
    unfold keptRecord
    rw [h.computes, h.pulses]]

theorem SameButClock.queuedResult (st : StationRecord) (now : Word32) (t : State) :
    queuedResult st now u t = queuedResult st now s t := by
  funext r
  unfold Machine.queuedResult
  rw [h.computes, h.runs]

theorem SameButClock.noticesQuiet (hq : s.NoticesQuiet) : u.NoticesQuiet := by
  intro i
  rw [h.cond, h.retained]
  exact hq i

end

/-- Settles O39. -/
theorem expiryAccumulatesClosesAndOpensBatches : Obligations.ExpiryAccumulatesClosesAndOpensBatches := by
  intro n st s hr ht hst computes now quiet told failed
  obtain ⟨c, d, e, t, ran, phases⟩ := exec_expires hr ht
  obtain ⟨u, hu⟩ : ∃ u, u = advanceClock n s := ⟨_, rfl⟩
  have same : SameButClock s u := hu ▸ advanceClock_same n s
  rw [← hu] at phases
  have station : u.retained.station = some st := by rw [same.retained, hst]
  have still (hq : quiet) : u.NoticesQuiet ∧ u.transmitter ≠ .free ∧ u.outbound.length ≤ 8 := by
    obtain ⟨noNotice, busy, room⟩ := hq
    exact ⟨same.noticesQuiet noNotice, by rwa [same.transmitter], by rwa [same.outbound]⟩
  refine ⟨t, ran, ⟨?target, ?spoiled, ?failed, ?idle, ?opens, ?closes⟩, ?others, ?reports, ?results⟩
  case target =>
    have fact := phases.targetReached
    rw [same.batchTaken, same.cond, same.retained] at fact
    exact fact
  case spoiled =>
    have fact := phases.spoiled
    rw [same.toldChange, same.session, same.cond, same.retained] at fact
    exact fact
  case failed =>
    have fact := phases.proveFailed
    rw [same.session, same.cond, same.retained] at fact
    exact fact
  case idle =>
    intro hc ho
    have fact := phases.idle station
    have noActive := phases.noActive_evaluated
    have full := phases.full_evaluated
    rw [same.batchTaken, same.cond, same.retained] at noActive full
    rw [same.batchTaken, same.toldChange, same.outbound] at fact
    obtain ⟨batch, session, conds, frames⟩ := fact hc ho
    refine ⟨batch, session, ⟨(conds _).trans noActive, (conds _).trans full⟩, fun hq => ?_⟩
    obtain ⟨noNotice, busy, room⟩ := still hq
    exact frames noNotice busy (same.outbound ▸ room)
  case opens =>
    intro x rest hq ha ho
    have fact := phases.opens station (x := x) (rest := rest)
    have noActive := phases.noActive_evaluated
    have full := phases.full_evaluated
    rw [same.batchTaken, same.cond, same.retained] at noActive full
    rw [same.batchTaken, same.toldChange, same.outbound, same.retained] at fact
    obtain ⟨batch, session, conds, frames⟩ := fact hq ha ho
    refine ⟨batch, session, ⟨(conds _ (by simp) (by simp)).trans noActive,
      (conds _ (by simp) (by simp)).trans full⟩, fun hq => ?_⟩
    obtain ⟨noNotice, busy, room⟩ := still hq
    exact frames noNotice busy (same.outbound ▸ room)
  case closes =>
    intro x rest hq hc hl ticket
    have fact := phases.closes station (x := x) (rest := rest) (ticket := ticket)
    have noActive := phases.noActive_evaluated
    have full := phases.full_evaluated
    rw [same.batchTaken, same.cond, same.retained] at noActive full
    rw [same.batchTaken, same.toldChange, same.outbound, same.retained, noActive, full] at fact
    obtain ⟨batch, session, noActive', full', frames⟩ := fact hq hc hl rfl
    refine ⟨batch, session, noActive', full', fun hq => ?_⟩
    obtain ⟨noNotice, busy, room⟩ := still hq
    exact frames noNotice busy (same.outbound ▸ room)
  case others =>
    intro i hi hr
    simp only [List.mem_cons, List.not_mem_nil, or_false, not_or] at hi
    obtain ⟨target, spoiled, failed, noActive, full, discard⟩ := hi
    have apart (r : Fin 4) : i ∉ pulseConds r ∧ i ∉ flowConds r := by
      have both := hr r
      rw [List.mem_append, not_or] at both
      exact both
    have fact := phases.cond_ne spoiled failed (i := i) (by simp [batchConds, target, noActive, full]) apart discard
    rw [same.cond] at fact
    exact fact
  case reports =>
    intro hq
    obtain ⟨noNotice, busy, room⟩ := still hq
    have fact := (phases.reports station noNotice busy room).2
    rw [same.outbound, same.session] at fact
    exact fact
  case results =>
    intro hq
    obtain ⟨noNotice, busy, room⟩ := still hq
    have fact := (phases.reports station noNotice busy room).1
    rw [same.outbound, same.queuedResult, same.retained] at fact
    exact fact

end Sys2Proof.Machine
end
